-- ==== Sys2Proof/Word.lean ====
section
/-! DEFINITION. The word types of the block and their plainest arithmetic (R8, R9). -/

namespace Sys2Proof

/-- A 32-bit register value or bus address (R7 REG_WIDTH = ADDR_WIDTH = 32, R8). -/
abbrev Word := BitVec 32

/-- One byte of ordinary memory (R47). -/
abbrev Byte := BitVec 8

/-- An operation word: `op` in bits 31:24, `idx` in bits 23:0 (R57). -/
abbrev OpWord := BitVec 32

/-- The index operand of an operation word (R57). -/
abbrev Idx := BitVec 24

/-- `1 << n` of R8: the word with only bit `n` set. -/
def bit (n : Nat) : Word := 1#32 <<< n

end Sys2Proof
end

