-- ==== Sys2Proof/Config.lean ====
section
/-! DEFINITION. What an implementation fixes (the OPEN parameters of R7), the vocabulary of agents, scheduler
choices and history events (R6, R36), the reset draws (R147), and the free values of the model: opaque
constants with no body (R13, R47, R71). -/

namespace Sys2Proof

/-- Which interrupt controller the build has (R7 IC_VARIANT): the two are never composed. -/
inductive Variant where
  | banked
  | builtIn
deriving DecidableEq, Repr, Inhabited

/-- The parameters of R7. They are fixed for a machine: no step changes them (State holds them in its field `cfg`,
so that a statement about every state is a statement about every choice of the OPEN parameters; log entry 1). -/
structure Params where
  /-- NUM_CH, 1 to 32 (D50). -/
  numCh : Nat
  /-- HW_CH_OFFSET, the value DMA_CHOFF reports (D54). -/
  hwChOffset : Word
  /-- CH_DIR: bit `ch` is channel `ch`'s DIR bit, 0 to peripheral, 1 from peripheral (D9). -/
  chDir : BitVec 32
  streamInBase : Word
  streamOutBase : Word
  dmaBase : Word
  plicBase : Word
  /-- CSR numbers of the built-in controller (D5, D37). -/
  csrIrqMask : Nat
  csrIrqPending : Nat
  /-- SW, the symbol width of a stream data slot (D7). -/
  sw : Nat
  /-- CW, the run-count width of an output data slot (D7). -/
  cw : Nat
  variant : Variant
  numSources : Nat
  priorityLevels : Word
  dmaIrqSource : Nat
  irqAckClearsAll : Bool
  /-- Codec-loop constants (D57): informative, no operation reads them (log entry 28). -/
  chunkSize : Nat
  drainBudget : Nat
  elemBytes : Nat
deriving DecidableEq, Repr, Inhabited

/-- The two ranges `[a, a+m)` and `[b, b+n)` share no address. -/
abbrev rangesApart (a m b n : Nat) : Prop := a + m ≤ b ∨ b + n ≤ a

/-- Byte size of the DMA controller's range (R42). -/
def Params.dmaSize (p : Params) : Nat := 0x10 + 0x14 * p.numCh

/-- Byte size of the banked interrupt controller's range (R42). -/
def Params.plicSize : Nat := 0x4000000

/-- The numeric bounds of R7. -/
abbrev Params.bounds (p : Params) : Prop :=
  (1 ≤ p.numCh ∧ p.numCh ≤ 32) ∧ (1 ≤ p.sw ∧ 1 ≤ p.cw ∧ p.sw + p.cw + 1 ≤ 32) ∧
  (p.variant = .banked → (2 ≤ p.numSources ∧ p.numSources ≤ 1024) ∧ 1 ≤ p.priorityLevels.toNat ∧
    (1 ≤ p.dmaIrqSource ∧ p.dmaIrqSource < p.numSources)) ∧
  (p.variant = .builtIn → p.numSources = 32 ∧ p.dmaIrqSource < 32 ∧ p.csrIrqMask ≠ p.csrIrqPending)

/-- The bases are 4-byte aligned (R7). -/
abbrev Params.aligned (p : Params) : Prop :=
  p.streamInBase.toNat % 4 = 0 ∧ p.streamOutBase.toNat % 4 = 0 ∧ p.dmaBase.toNat % 4 = 0 ∧ p.plicBase.toNat % 4 = 0

/-- The units' ranges lie inside the bus space (R42); the banked controller exists on the banked variant only. -/
abbrev Params.inSpace (p : Params) : Prop :=
  p.streamInBase.toNat + 8 ≤ 2 ^ 32 ∧ p.streamOutBase.toNat + 8 ≤ 2 ^ 32 ∧
  p.dmaBase.toNat + p.dmaSize ≤ 2 ^ 32 ∧
  (p.variant = .banked → p.plicBase.toNat + Params.plicSize ≤ 2 ^ 32)

/-- The units' ranges are disjoint (R42). -/
abbrev Params.disjoint (p : Params) : Prop :=
  rangesApart p.streamInBase.toNat 8 p.streamOutBase.toNat 8 ∧
  rangesApart p.streamInBase.toNat 8 p.dmaBase.toNat p.dmaSize ∧
  rangesApart p.streamOutBase.toNat 8 p.dmaBase.toNat p.dmaSize ∧
  (p.variant = .banked →
    rangesApart p.streamInBase.toNat 8 p.plicBase.toNat Params.plicSize ∧
    rangesApart p.streamOutBase.toNat 8 p.plicBase.toNat Params.plicSize ∧
    rangesApart p.dmaBase.toNat p.dmaSize p.plicBase.toNat Params.plicSize)

/-- The parameter values R7 and R42 admit. -/
abbrev Params.ok (p : Params) : Prop := p.bounds ∧ p.aligned ∧ p.inSpace ∧ p.disjoint

/-- Config A of 95_test_vectors.md: an example, "not claims about the hardware" (log entry 1). -/
def Config.exampleA : Params where
  numCh := 2
  hwChOffset := 0x10
  chDir := 0b10
  streamInBase := 0x10000000
  streamOutBase := 0x10000010
  dmaBase := 0x10001000
  plicBase := 0x0C000000
  csrIrqMask := 0x800
  csrIrqPending := 0x801
  sw := 8
  cw := 8
  variant := .banked
  numSources := 32
  priorityLevels := 7
  dmaIrqSource := 5
  irqAckClearsAll := false
  chunkSize := 4
  drainBudget := 3
  elemBytes := 4

/-- Config B of 95_test_vectors.md: Config A with the built-in interrupt controller. -/
def Config.exampleB : Params := { Config.exampleA with variant := .builtIn }

/-- The agents of R6. -/
inductive Agent where
  /-- The CPU's main control flow. -/
  | main
  /-- The CPU's interrupt context. -/
  | isr
  /-- The accelerator side of stream endpoint `e`. -/
  | sper (e : Nat)
  /-- The DMA engine of channel `ch`. -/
  | dmae (ch : Nat)
  /-- The banked interrupt controller's gateway. -/
  | gw
  /-- The rest of the platform. -/
  | env
deriving DecidableEq, Repr, Inhabited

/-- An entry of the event history (R36). -/
inductive Event where
  /-- A bus access: agent, write or read, address, width in bytes, value. -/
  | bus (agent : Agent) (write : Bool) (addr : Word) (bytes : Nat) (value : Word)
  /-- An accepted input pulse handed this element over (R66). -/
  | streamIn (v : Word)
  /-- An accepted output pulse loaded this element (R66). -/
  | streamOut (v : Word)
  /-- An engine's memory read (R94). -/
  | dmaRead (ch : Nat) (addr : Word) (b : Byte)
  /-- An engine's memory write (R94). -/
  | dmaWrite (ch : Nat) (addr : Word) (b : Byte)
  /-- The completion callback of descriptor `ref` ran in the context of `ctx` (R100). -/
  | callback (ref : Nat) (ctx : Agent)
  /-- An interrupt entry dispatches source `src` (R133). -/
  | irq (src : Nat)
deriving DecidableEq, Repr

/-- One choice of the interleaving of R44: which agent takes the next step, and which of its steps. The value a
choice carries is the environment's (R33, R166). -/
inductive Choice where
  /-- The CPU-side agent that may step: `ISR` while an interrupt is in service, else `MAIN`. -/
  | cpu
  /-- Interrupt entry, when it is enabled (R138). -/
  | irqEntry
  /-- SP_READY(e) (R69). -/
  | spReady (e : Nat)
  /-- SP_ERROR(e) (R70). -/
  | spError (e : Nat)
  /-- E_READY(ch) (R93). -/
  | eReady (ch : Nat)
  /-- E_PROGRESS(ch) (R94). -/
  | eProgress (ch : Nat)
  /-- E_LAST(ch) (R95). -/
  | eLast (ch : Nat)
  /-- E_COMPLETE(ch) (R96). -/
  | eComplete (ch : Nat)
  /-- GW_LATCH(s) (R111). -/
  | gwLatch (src : Nat)
  /-- ENV drives the level of a line other than the DMA line (R33). -/
  | envLine (src : Nat) (level : Bool)
  /-- ENV drives `cpu_ie` (R33). -/
  | envCpuIe (on : Bool)
deriving DecidableEq, Repr, Inhabited

/-- The values R147 leaves to `draw()` at reset, drawn once and held. This is no part of State. -/
structure ResetDraws where
  ready : Nat → Bool
  error : Nat → Bool
  epData : Nat → Word
  base : Nat → Word
  len : Nat → Word
  doneLen : Nat → Word
  drvNumCh : Word
  prio : Nat → Word
  en : Nat → Bool
  thr : Word
  mask : Word
  line : Nat → Bool

/-- The named reset draw of `State.reset`: every drawn value zero (DESIGN CHOICE, log entry 2). -/
def ResetDraws.zero : ResetDraws where
  ready _ := false
  error _ := false
  epData _ := 0
  base _ := 0
  len _ := 0
  doneLen _ := 0
  drvNumCh := 0
  prio _ := 0
  en _ := false
  thr := 0
  mask := 0
  line _ := false

/-- `draw()` of R10 and R13: the `n`-th free value of the run. No body: nothing constrains it (log entry 3). -/
opaque Config.draw : Nat → Word

/-- The output oracle `spout()` of R71: the element the accelerator hands over, given the history (log entry 4). -/
opaque Config.spout : List Event → Nat → Word

/-- `dmaout(ch)` of R94: the byte a from-peripheral transfer delivers, given the history (log entry 4). -/
opaque Config.dmaOut : List Event → Nat → Nat → Byte

/-- What a byte no agent has written reads as, a fresh draw at every read (R47, log entry 14). -/
opaque Config.memByte : List Event → Nat → Byte

/-- The interleaving once the scheduled choices of State are used up: any choice whatever (R6, R44, log entry 5). -/
opaque Config.schedule : Nat → Choice

end Sys2Proof
end

