-- ==== Sys2Proof/Machine/Layout.lean ====
section
/-! DEFINITION. Register formats (R52 to R56), register names and addresses (R11, R110), the address map (R42) and the
index ranges of the units. Nothing here depends on the state. -/

namespace Sys2Proof

/-! ### Index ranges -/

/-- NBANKS of 44_interrupt_controller.md: the number of 32-source banks. -/
def Params.numBanks (p : Params) : Nat := (p.numSources + 31) / 32

/-- `chks(s)` of 44_interrupt_controller.md, on either variant: source 0 is reserved on the banked one (D33). -/
def Params.sourceOk (p : Params) (s : Nat) : Bool :=
  match p.variant with
  | .banked => s ≠ 0 && s < p.numSources
  | .builtIn => s < 32

/-! ### Register formats -/

/-- The word of width `n` whose bit `i` is `f i`. -/
def ofBits (f : Nat → Bool) : (n : Nat) → BitVec n
  | 0 => 0#0
  | n + 1 => BitVec.cons (f n) (ofBits f n)

/-- The low `n` bits set. -/
def lowMask (n : Nat) : Word := BitVec.ofNat 32 (2 ^ n - 1)

/-- `STREAM_CTRL(e)` as read: bits 31:4 reserved, then ERROR, DIRECTION, DO_TRANSFER, READY (R52, R65). -/
def streamCtrlWord (ready xfer dir err : Bool) : Word :=
  0#28 ++ BitVec.ofBool err ++ BitVec.ofBool dir ++ BitVec.ofBool xfer ++ BitVec.ofBool ready

/-- The bits of the input slot a pulse hands over: SW:0 (R66). -/
def Params.inMask (p : Params) : Word := lowMask (p.sw + 1)

/-- The bits of the output slot that exist: SW+CW:0 (R20, R71). -/
def Params.outMask (p : Params) : Word := lowMask (p.sw + p.cw + 1)

/-- The bits of DMA_GMASK that exist: NUM_CH-1:0 (R81). -/
def Params.chMask (p : Params) : Word := lowMask p.numCh

/-- `CH_CTRL(ch)` as read (R54, R83). -/
def chCtrlWord (irqDone irqLast tsfr tsfrDone dir mode rdy : Bool) : Word :=
  0#25 ++ BitVec.ofBool rdy ++ BitVec.ofBool mode ++ BitVec.ofBool dir ++ BitVec.ofBool tsfrDone ++
    BitVec.ofBool tsfr ++ BitVec.ofBool irqLast ++ BitVec.ofBool irqDone

/-- A word with bit 0 and bit 1 as given, the rest 0: `CH_ISTAT(ch)` and `DMA_GSTATUS` as read (R55). -/
def twoBitWord (bit0 bit1 : Bool) : Word := 0#30 ++ BitVec.ofBool bit1 ++ BitVec.ofBool bit0

/-- The named masks of `CH_CTRL` (R54). -/
def mIrqDone : Word := 0x01
/-- `M_IRQ_LAST` (R54). -/
def mIrqLast : Word := 0x02
/-- `M_TSFR` (R54). -/
def mTsfr : Word := 0x04
/-- `M_TSFRDONE` (R54). -/
def mTsfrDone : Word := 0x08
/-- `M_DIR` (R54). -/
def mDir : Word := 0x10
/-- `M_MODE` (R54). -/
def mMode : Word := 0x20
/-- `M_RDY` (R54). -/
def mRdy : Word := 0x40

/-- The pulse value `POLL_AND_TRANSFER` writes: only DO_TRANSFER set (R52, R74). -/
def pulseWord : Word := 0x00000002

/-- `CH_ARRAY_OFFSET`, the computed channel-array offset of the self-check (R22, R75). -/
def chArrayOffset : Word := 0x10

/-- The word a bank of 32 sources reads as: bit `i` is source `32b + i`, with 0 for source 0 and for ids at or above
NUM_SOURCES (R110, R117, R119). -/
def Params.bankWord (p : Params) (b : Nat) (f : Nat → Bool) : Word :=
  ofBits (fun i => decide (1 ≤ 32 * b + i) && decide (32 * b + i < p.numSources) && f (32 * b + i)) 32

/-! ### Register names, addresses and the address map -/

/-- The memory-mapped registers of the block (R11, R110). `prioReserved` is `PRIO(0)`, a reserved word (R110). -/
inductive Reg where
  | streamCtrl (e : Nat)
  | streamData (e : Nat)
  | chCount
  | chOff
  | gmask
  | gstatus
  | chCtrl (ch : Nat)
  | chBase (ch : Nat)
  | chLen (ch : Nat)
  | chDoneLen (ch : Nat)
  | chIstat (ch : Nat)
  | prioReserved
  | prio (s : Nat)
  | pend (b : Nat)
  | en (b : Nat)
  | thr
  | claim
deriving DecidableEq, Repr

/-- STREAM_BASE(e) (R11). -/
def Params.streamBase (p : Params) (e : Nat) : Word := if e = 0 then p.streamInBase else p.streamOutBase

/-- CH(ch) (R11). -/
def Params.chAddr (p : Params) (ch : Nat) : Word := p.dmaBase + 0x10 + BitVec.ofNat 32 (0x14 * ch)

/-- The bus address of a register (R11, R110). -/
def Reg.addr (p : Params) : Reg → Word
  | .streamCtrl e => p.streamBase e
  | .streamData e => p.streamBase e + 4
  | .chCount => p.dmaBase
  | .chOff => p.dmaBase + 4
  | .gmask => p.dmaBase + 8
  | .gstatus => p.dmaBase + 0xC
  | .chCtrl ch => p.chAddr ch
  | .chBase ch => p.chAddr ch + 4
  | .chLen ch => p.chAddr ch + 8
  | .chDoneLen ch => p.chAddr ch + 0xC
  | .chIstat ch => p.chAddr ch + 0x10
  | .prioReserved => p.plicBase
  | .prio s => p.plicBase + BitVec.ofNat 32 (4 * s)
  | .pend b => p.plicBase + 0x1000 + BitVec.ofNat 32 (4 * b)
  | .en b => p.plicBase + 0x2000 + BitVec.ofNat 32 (4 * b)
  | .thr => p.plicBase + 0x200000
  | .claim => p.plicBase + 0x200004

/-- What the checks before a register's read or write rule answer: the `chk`, `chks` and `chkb` of 41 and 44, the
endpoint check of 40, and the absent-unit rule of R60. -/
inductive RegCheck where
  | present
  | badIndex
  | noSuchUnit
deriving DecidableEq, Repr

/-- `present` if `c`, else `badIndex`. -/
def RegCheck.ofRange (c : Bool) : RegCheck := if c then .present else .badIndex

/-- The check of a register of the banked controller: the unit first, then the index (log entry 11). -/
def Params.plicCheck (p : Params) (c : Bool) : RegCheck :=
  match p.variant with
  | .banked => RegCheck.ofRange c
  | .builtIn => .noSuchUnit

/-- Whether a register exists in this build. -/
def Reg.check (p : Params) : Reg → RegCheck
  | .streamCtrl e => RegCheck.ofRange (e ≤ 1)
  | .streamData e => RegCheck.ofRange (e ≤ 1)
  | .chCount => .present
  | .chOff => .present
  | .gmask => .present
  | .gstatus => .present
  | .chCtrl ch => RegCheck.ofRange (ch < p.numCh)
  | .chBase ch => RegCheck.ofRange (ch < p.numCh)
  | .chLen ch => RegCheck.ofRange (ch < p.numCh)
  | .chDoneLen ch => RegCheck.ofRange (ch < p.numCh)
  | .chIstat ch => RegCheck.ofRange (ch < p.numCh)
  | .prioReserved => p.plicCheck true
  | .prio s => p.plicCheck (s ≠ 0 && s < p.numSources)
  | .pend b => p.plicCheck (b < p.numBanks)
  | .en b => p.plicCheck (b < p.numBanks)
  | .thr => p.plicCheck true
  | .claim => p.plicCheck true

/-- Whether a byte address lies in the range `[base, base + size)`. -/
def inRange (base : Word) (size a : Nat) : Bool := base.toNat ≤ a && a < base.toNat + size

/-- Whether a byte address lies in a unit of the block (R42); what does not is ordinary memory. -/
def Params.inUnit (p : Params) (a : Nat) : Bool :=
  inRange p.streamInBase 8 a || inRange p.streamOutBase 8 a || inRange p.dmaBase p.dmaSize a ||
    (p.variant = .banked && inRange p.plicBase Params.plicSize a)

/-- The register at byte offset `o` of a stream endpoint (R11). -/
def streamRegAt (e o : Nat) : Option Reg :=
  if o = 0 then some (.streamCtrl e) else if o = 4 then some (.streamData e) else none

/-- The register at byte offset `o` of the DMA controller (R22, R23). -/
def dmaRegAt (o : Nat) : Option Reg :=
  if o = 0 then some .chCount
  else if o = 4 then some .chOff
  else if o = 8 then some .gmask
  else if o = 0xC then some .gstatus
  else if o < 0x10 then none
  else
    let ch := (o - 0x10) / 0x14
    match (o - 0x10) % 0x14 with
    | 0x0 => some (.chCtrl ch)
    | 0x4 => some (.chBase ch)
    | 0x8 => some (.chLen ch)
    | 0xC => some (.chDoneLen ch)
    | 0x10 => some (.chIstat ch)
    | _ => none

/-- The register at byte offset `o` of the banked controller (R110). -/
def Params.plicRegAt (p : Params) (o : Nat) : Option Reg :=
  if o % 4 ≠ 0 then none
  else if o = 0 then some .prioReserved
  else if o < 4 * p.numSources then some (.prio (o / 4))
  else if 0x1000 ≤ o && o < 0x1000 + 4 * p.numBanks then some (.pend ((o - 0x1000) / 4))
  else if 0x2000 ≤ o && o < 0x2000 + 4 * p.numBanks then some (.en ((o - 0x2000) / 4))
  else if o = 0x200000 then some .thr
  else if o = 0x200004 then some .claim
  else none

/-- The register a unit's byte address names, if it names one (R39, R42). -/
def Params.regAt (p : Params) (a : Nat) : Option Reg :=
  if inRange p.streamInBase 8 a then streamRegAt 0 (a - p.streamInBase.toNat)
  else if inRange p.streamOutBase 8 a then streamRegAt 1 (a - p.streamOutBase.toNat)
  else if inRange p.dmaBase p.dmaSize a then dmaRegAt (a - p.dmaBase.toNat)
  else if p.variant = .banked && inRange p.plicBase Params.plicSize a then p.plicRegAt (a - p.plicBase.toNat)
  else none

end Sys2Proof
end

