-- ==== Sys2Proof/Syntax.lean ====
section
/-! DEFINITION. The operations: one constructor per row of the opcode table (R60), each with its `idx` field and the
arguments that travel beside the operation word (R58). -/

namespace Sys2Proof

/-- `d.mode` of a descriptor (R30). -/
inductive XferMode where
  | polling
  | interrupt
deriving DecidableEq, Repr, Inhabited

/-- A completion callback: its id, its opaque context (R30), and whether its body performs an operation of the block
or blocks, in which case its invocation is refused (R100, log entry 19). -/
structure Cb where
  id : Nat
  ctx : Nat
  reenters : Bool
deriving DecidableEq, Repr, Inhabited

/-- The descriptor fields `DESC_NEW` is given (R58, R99). -/
structure DescFields where
  ptr : Word
  len : Word
  /-- Direction: false = 0 = to peripheral, true = 1 = from peripheral (D9). -/
  dir : Bool
  ignore : Bool
  mode : XferMode
  cb : Option Cb
  /-- Whether the descriptor carries a DMA Manager reference (D47). -/
  mgr : Bool
deriving DecidableEq, Repr, Inhabited

/-- The operations of R60. The first field is always the operation word's `idx`: an endpoint `e`, a channel `ch`, a
source `s`, a bank `b`, or `z` where R60 requires 0. `d` is a descriptor name (R63). -/
inductive Instr where
  | srdCtrl (e : Idx)
  | swrCtrl (e : Idx) (v : Word)
  | srdData (e : Idx)
  | swrData (e : Idx) (v : Word)
  | drdChcount (z : Idx)
  | dwrChcount (z : Idx) (v : Word)
  | drdChoff (z : Idx)
  | dwrChoff (z : Idx) (v : Word)
  | drdGmask (z : Idx)
  | dwrGmask (z : Idx) (v : Word)
  | drdGstatus (z : Idx)
  | dwrGstatus (z : Idx) (v : Word)
  | drdCtrl (ch : Idx)
  | dwrCtrl (ch : Idx) (v : Word)
  | drdBase (ch : Idx)
  | dwrBase (ch : Idx) (v : Word)
  | drdLen (ch : Idx)
  | dwrLen (ch : Idx) (v : Word)
  | drdDonelen (ch : Idx)
  | dwrDonelen (ch : Idx) (v : Word)
  | drdIstat (ch : Idx)
  | dwrIstat (ch : Idx) (v : Word)
  | prdPrio (s : Idx)
  | pwrPrio (s : Idx) (v : Word)
  | prdPend (b : Idx)
  | pwrPend (b : Idx) (v : Word)
  | prdEn (b : Idx)
  | pwrEn (b : Idx) (v : Word)
  | prdThr (z : Idx)
  | pwrThr (z : Idx) (v : Word)
  | prdClaim (z : Idx)
  | pwrClaim (z : Idx) (v : Word)
  | crdMask (z : Idx)
  | cwrMask (z : Idx) (v : Word)
  | crdPend (z : Idx)
  | cwrPend (z : Idx) (v : Word)
  | isReady (e : Idx)
  | pollAndTransfer (e : Idx)
  | dmaInit (z : Idx)
  | mgrInit (z : Idx)
  | descNew (ch : Idx) (d : Nat) (f : DescFields)
  | beginXfer (z : Idx) (d : Nat)
  | completeXfer (z : Idx) (d : Nat) (t : Word)
  | cancelXfer (z : Idx) (d : Nat)
  | update (z : Idx)
  | icInit (z : Idx)
  | icEnable (s : Idx)
  | icDisable (s : Idx)
  | icPriorityCount (z : Idx)
  | icSetPriority (s : Idx) (level : Word)
  | dispatch (s : Idx)
  | irqEntry (z : Idx)
deriving DecidableEq, Repr, Inhabited

/-- The `idx` field of an operation (R57). -/
def Instr.idx : Instr → Idx
  | .srdCtrl e => e
  | .swrCtrl e _ => e
  | .srdData e => e
  | .swrData e _ => e
  | .drdChcount z => z
  | .dwrChcount z _ => z
  | .drdChoff z => z
  | .dwrChoff z _ => z
  | .drdGmask z => z
  | .dwrGmask z _ => z
  | .drdGstatus z => z
  | .dwrGstatus z _ => z
  | .drdCtrl ch => ch
  | .dwrCtrl ch _ => ch
  | .drdBase ch => ch
  | .dwrBase ch _ => ch
  | .drdLen ch => ch
  | .dwrLen ch _ => ch
  | .drdDonelen ch => ch
  | .dwrDonelen ch _ => ch
  | .drdIstat ch => ch
  | .dwrIstat ch _ => ch
  | .prdPrio s => s
  | .pwrPrio s _ => s
  | .prdPend b => b
  | .pwrPend b _ => b
  | .prdEn b => b
  | .pwrEn b _ => b
  | .prdThr z => z
  | .pwrThr z _ => z
  | .prdClaim z => z
  | .pwrClaim z _ => z
  | .crdMask z => z
  | .cwrMask z _ => z
  | .crdPend z => z
  | .cwrPend z _ => z
  | .isReady e => e
  | .pollAndTransfer e => e
  | .dmaInit z => z
  | .mgrInit z => z
  | .descNew ch _ _ => ch
  | .beginXfer z _ => z
  | .completeXfer z _ _ => z
  | .cancelXfer z _ => z
  | .update z => z
  | .icInit z => z
  | .icEnable s => s
  | .icDisable s => s
  | .icPriorityCount z => z
  | .icSetPriority s _ => s
  | .dispatch s => s
  | .irqEntry z => z

end Sys2Proof
end

