-- ==== Sys2Proof/WellFormed.lean ====
section
/-! DEFINITION. Which operation words a given build admits: the `idx` range of R59, R60 and R62 and the presence of
the unit (R60). An operation that is not well-formed still decodes; running it raises a fault. -/

namespace Sys2Proof

/-- What the `idx` field of an operation means (the idx column of R60). -/
inductive IdxKind where
  | zero
  | endpoint
  | channel
  | plicSource
  | plicBank
  | icSource
  | icSetSource
  | anySource
deriving DecidableEq, Repr

/-- The interrupt-controller variant an operation word belongs to, if it belongs to one (R60: the P rows and the C
rows). -/
def Instr.unit? : Instr → Option Variant
  | .srdCtrl _ | .swrCtrl _ _ | .srdData _ | .swrData _ _ => none
  | .drdChcount _ | .dwrChcount _ _ | .drdChoff _ | .dwrChoff _ _ => none
  | .drdGmask _ | .dwrGmask _ _ | .drdGstatus _ | .dwrGstatus _ _ => none
  | .drdCtrl _ | .dwrCtrl _ _ | .drdBase _ | .dwrBase _ _ | .drdLen _ | .dwrLen _ _ => none
  | .drdDonelen _ | .dwrDonelen _ _ | .drdIstat _ | .dwrIstat _ _ => none
  | .prdPrio _ | .pwrPrio _ _ | .prdPend _ | .pwrPend _ _ | .prdEn _ | .pwrEn _ _ => some .banked
  | .prdThr _ | .pwrThr _ _ | .prdClaim _ | .pwrClaim _ _ => some .banked
  | .crdMask _ | .cwrMask _ _ | .crdPend _ | .cwrPend _ _ => some .builtIn
  | .isReady _ | .pollAndTransfer _ | .dmaInit _ | .mgrInit _ | .descNew _ _ _ => none
  | .beginXfer _ _ | .completeXfer _ _ _ | .cancelXfer _ _ | .update _ => none
  | .icInit _ | .icEnable _ | .icDisable _ | .icPriorityCount _ | .icSetPriority _ _ => none
  | .dispatch _ | .irqEntry _ => none

/-- The idx column of R60. -/
def Instr.idxKind : Instr → IdxKind
  | .srdCtrl _ | .swrCtrl _ _ | .srdData _ | .swrData _ _ => .endpoint
  | .drdChcount _ | .dwrChcount _ _ | .drdChoff _ | .dwrChoff _ _ => .zero
  | .drdGmask _ | .dwrGmask _ _ | .drdGstatus _ | .dwrGstatus _ _ => .zero
  | .drdCtrl _ | .dwrCtrl _ _ | .drdBase _ | .dwrBase _ _ | .drdLen _ | .dwrLen _ _ => .channel
  | .drdDonelen _ | .dwrDonelen _ _ | .drdIstat _ | .dwrIstat _ _ => .channel
  | .prdPrio _ | .pwrPrio _ _ => .plicSource
  | .prdPend _ | .pwrPend _ _ | .prdEn _ | .pwrEn _ _ => .plicBank
  | .prdThr _ | .pwrThr _ _ | .prdClaim _ | .pwrClaim _ _ => .zero
  | .crdMask _ | .cwrMask _ _ | .crdPend _ | .cwrPend _ _ => .zero
  | .isReady _ | .pollAndTransfer _ => .endpoint
  | .dmaInit _ | .mgrInit _ => .zero
  | .descNew _ _ _ => .channel
  | .beginXfer _ _ | .completeXfer _ _ _ | .cancelXfer _ _ | .update _ | .icInit _ => .zero
  | .icEnable _ | .icDisable _ => .icSource
  | .icPriorityCount _ => .zero
  | .icSetPriority _ _ => .icSetSource
  | .dispatch _ => .anySource
  | .irqEntry _ => .zero

/-- Whether an index is in the range its operation checks (R59, R62). -/
def IdxKind.inRange (p : Params) (n : Nat) : IdxKind → Bool
  | .zero => n = 0
  | .endpoint => n ≤ 1
  | .channel => n < p.numCh
  | .plicSource => n ≠ 0 && n < p.numSources
  | .plicBank => n < p.numBanks
  | .icSource => p.sourceOk n
  | .icSetSource => p.variant = .builtIn || p.sourceOk n
  | .anySource => true

/-- The unit the operation names exists in this build (R60). -/
def Instr.unitPresent (p : Params) (i : Instr) : Bool :=
  match i.unit? with
  | none => true
  | some v => p.variant = v

/-- A well-formed operation: its unit exists and its index is in range. -/
def Instr.wf (p : Params) (i : Instr) : Bool :=
  i.unitPresent p && i.idxKind.inRange p i.idx.toNat

end Sys2Proof
end

