-- ==== Sys2Proof/Decode.lean ====
section
/-! DEFINITION. The operation word (R57 to R60): the decoder, total on every 32-bit word and rejecting by name, and
the encoder, both written from the opcode map of R60. -/

namespace Sys2Proof

/-- The arguments that travel beside an operation word (R58). An operation reads those its rule names. -/
structure Args where
  /-- The 32-bit value of a register write. -/
  v : Word := 0
  /-- The descriptor name of `DESC_NEW`, `BEGIN`, `COMPLETE` and `CANCEL`. -/
  d : Nat := 0
  /-- The timeout count of `COMPLETE`. -/
  t : Word := 0
  /-- The priority of `IC_SET_PRIORITY`. -/
  level : Word := 0
  /-- The descriptor fields of `DESC_NEW`. -/
  desc : DescFields := default
deriving DecidableEq, Repr, Inhabited

/-- Why the decoder refuses a word. -/
inductive DecodeError where
  /-- The op code is not in the table of R60 (R59, `Refuse(UnknownOp)`). -/
  | unknownOp (w : OpWord)
deriving DecidableEq, Repr

/-- `op`, bits 31:24 of an operation word (R57). -/
def opField (w : OpWord) : BitVec 8 := w.extractLsb' 24 8

/-- `idx`, bits 23:0 of an operation word (R57). -/
def idxField (w : OpWord) : Idx := w.extractLsb' 0 24

/-- The operation that op code `op` stands for (R60), with index `i` and arguments `a`; `w` is the word refused. -/
def decodeOp (w : OpWord) (i : Idx) (a : Args) : Nat → Except DecodeError Instr
  | 0x01 => .ok (.srdCtrl i)
  | 0x02 => .ok (.swrCtrl i a.v)
  | 0x03 => .ok (.srdData i)
  | 0x04 => .ok (.swrData i a.v)
  | 0x10 => .ok (.drdChcount i)
  | 0x11 => .ok (.dwrChcount i a.v)
  | 0x12 => .ok (.drdChoff i)
  | 0x13 => .ok (.dwrChoff i a.v)
  | 0x14 => .ok (.drdGmask i)
  | 0x15 => .ok (.dwrGmask i a.v)
  | 0x16 => .ok (.drdGstatus i)
  | 0x17 => .ok (.dwrGstatus i a.v)
  | 0x18 => .ok (.drdCtrl i)
  | 0x19 => .ok (.dwrCtrl i a.v)
  | 0x1A => .ok (.drdBase i)
  | 0x1B => .ok (.dwrBase i a.v)
  | 0x1C => .ok (.drdLen i)
  | 0x1D => .ok (.dwrLen i a.v)
  | 0x1E => .ok (.drdDonelen i)
  | 0x1F => .ok (.dwrDonelen i a.v)
  | 0x20 => .ok (.drdIstat i)
  | 0x21 => .ok (.dwrIstat i a.v)
  | 0x30 => .ok (.prdPrio i)
  | 0x31 => .ok (.pwrPrio i a.v)
  | 0x32 => .ok (.prdPend i)
  | 0x33 => .ok (.pwrPend i a.v)
  | 0x34 => .ok (.prdEn i)
  | 0x35 => .ok (.pwrEn i a.v)
  | 0x36 => .ok (.prdThr i)
  | 0x37 => .ok (.pwrThr i a.v)
  | 0x38 => .ok (.prdClaim i)
  | 0x39 => .ok (.pwrClaim i a.v)
  | 0x40 => .ok (.crdMask i)
  | 0x41 => .ok (.cwrMask i a.v)
  | 0x42 => .ok (.crdPend i)
  | 0x43 => .ok (.cwrPend i a.v)
  | 0x80 => .ok (.isReady i)
  | 0x81 => .ok (.pollAndTransfer i)
  | 0x90 => .ok (.dmaInit i)
  | 0x91 => .ok (.mgrInit i)
  | 0x92 => .ok (.descNew i a.d a.desc)
  | 0x93 => .ok (.beginXfer i a.d)
  | 0x94 => .ok (.completeXfer i a.d a.t)
  | 0x95 => .ok (.cancelXfer i a.d)
  | 0x96 => .ok (.update i)
  | 0xA0 => .ok (.icInit i)
  | 0xA1 => .ok (.icEnable i)
  | 0xA2 => .ok (.icDisable i)
  | 0xA3 => .ok (.icPriorityCount i)
  | 0xA4 => .ok (.icSetPriority i a.level)
  | 0xA8 => .ok (.dispatch i)
  | 0xA9 => .ok (.irqEntry i)
  | _ => .error (.unknownOp w)

/-- Decoding an operation word with the arguments beside it (R59). Whether `idx` is in range is the operation's own
check, not the decoder's. -/
def decode (w : OpWord) (a : Args) : Except DecodeError Instr :=
  decodeOp w (idxField w) a (opField w).toNat

/-- The operation word with op code `op` and index `i` (R57). -/
def opWord (op : BitVec 8) (i : Idx) : OpWord := op ++ i

/-- The operation word of an operation (R57, R60). -/
def encode : Instr → OpWord
  | .srdCtrl e => opWord 0x01 e
  | .swrCtrl e _ => opWord 0x02 e
  | .srdData e => opWord 0x03 e
  | .swrData e _ => opWord 0x04 e
  | .drdChcount z => opWord 0x10 z
  | .dwrChcount z _ => opWord 0x11 z
  | .drdChoff z => opWord 0x12 z
  | .dwrChoff z _ => opWord 0x13 z
  | .drdGmask z => opWord 0x14 z
  | .dwrGmask z _ => opWord 0x15 z
  | .drdGstatus z => opWord 0x16 z
  | .dwrGstatus z _ => opWord 0x17 z
  | .drdCtrl ch => opWord 0x18 ch
  | .dwrCtrl ch _ => opWord 0x19 ch
  | .drdBase ch => opWord 0x1A ch
  | .dwrBase ch _ => opWord 0x1B ch
  | .drdLen ch => opWord 0x1C ch
  | .dwrLen ch _ => opWord 0x1D ch
  | .drdDonelen ch => opWord 0x1E ch
  | .dwrDonelen ch _ => opWord 0x1F ch
  | .drdIstat ch => opWord 0x20 ch
  | .dwrIstat ch _ => opWord 0x21 ch
  | .prdPrio s => opWord 0x30 s
  | .pwrPrio s _ => opWord 0x31 s
  | .prdPend b => opWord 0x32 b
  | .pwrPend b _ => opWord 0x33 b
  | .prdEn b => opWord 0x34 b
  | .pwrEn b _ => opWord 0x35 b
  | .prdThr z => opWord 0x36 z
  | .pwrThr z _ => opWord 0x37 z
  | .prdClaim z => opWord 0x38 z
  | .pwrClaim z _ => opWord 0x39 z
  | .crdMask z => opWord 0x40 z
  | .cwrMask z _ => opWord 0x41 z
  | .crdPend z => opWord 0x42 z
  | .cwrPend z _ => opWord 0x43 z
  | .isReady e => opWord 0x80 e
  | .pollAndTransfer e => opWord 0x81 e
  | .dmaInit z => opWord 0x90 z
  | .mgrInit z => opWord 0x91 z
  | .descNew ch _ _ => opWord 0x92 ch
  | .beginXfer z _ => opWord 0x93 z
  | .completeXfer z _ _ => opWord 0x94 z
  | .cancelXfer z _ => opWord 0x95 z
  | .update z => opWord 0x96 z
  | .icInit z => opWord 0xA0 z
  | .icEnable s => opWord 0xA1 s
  | .icDisable s => opWord 0xA2 s
  | .icPriorityCount z => opWord 0xA3 z
  | .icSetPriority s _ => opWord 0xA4 s
  | .dispatch s => opWord 0xA8 s
  | .irqEntry z => opWord 0xA9 z

/-- The arguments an operation's word travels with (R58); those it does not read are zero. -/
def encodeArgs : Instr → Args
  | .srdCtrl _ => {}
  | .swrCtrl _ v => { v := v }
  | .srdData _ => {}
  | .swrData _ v => { v := v }
  | .drdChcount _ => {}
  | .dwrChcount _ v => { v := v }
  | .drdChoff _ => {}
  | .dwrChoff _ v => { v := v }
  | .drdGmask _ => {}
  | .dwrGmask _ v => { v := v }
  | .drdGstatus _ => {}
  | .dwrGstatus _ v => { v := v }
  | .drdCtrl _ => {}
  | .dwrCtrl _ v => { v := v }
  | .drdBase _ => {}
  | .dwrBase _ v => { v := v }
  | .drdLen _ => {}
  | .dwrLen _ v => { v := v }
  | .drdDonelen _ => {}
  | .dwrDonelen _ v => { v := v }
  | .drdIstat _ => {}
  | .dwrIstat _ v => { v := v }
  | .prdPrio _ => {}
  | .pwrPrio _ v => { v := v }
  | .prdPend _ => {}
  | .pwrPend _ v => { v := v }
  | .prdEn _ => {}
  | .pwrEn _ v => { v := v }
  | .prdThr _ => {}
  | .pwrThr _ v => { v := v }
  | .prdClaim _ => {}
  | .pwrClaim _ v => { v := v }
  | .crdMask _ => {}
  | .cwrMask _ v => { v := v }
  | .crdPend _ => {}
  | .cwrPend _ v => { v := v }
  | .isReady _ => {}
  | .pollAndTransfer _ => {}
  | .dmaInit _ => {}
  | .mgrInit _ => {}
  | .descNew _ d f => { d := d, desc := f }
  | .beginXfer _ d => { d := d }
  | .completeXfer _ d t => { d := d, t := t }
  | .cancelXfer _ d => { d := d }
  | .update _ => {}
  | .icInit _ => {}
  | .icEnable _ => {}
  | .icDisable _ => {}
  | .icPriorityCount _ => {}
  | .icSetPriority _ level => { level := level }
  | .dispatch _ => {}
  | .irqEntry _ => {}

/-- What the decoder reads from the table's numbering of an instruction's bits: one 32-bit word, bit 0 the least
significant, bits at or above `nbits` zero, and all arguments zero. -/
def decodeTableWord (nbits w : Nat) : Option Instr :=
  match decode (BitVec.ofNat 32 (w % 2 ^ nbits)) {} with
  | .ok i => some i
  | .error _ => none

end Sys2Proof
end

