-- ==== Sys2Proof/Machine/State.lean ====
section
/-! DEFINITION. The state as plain data, its reset, and the reasons a step can stop. -/

namespace Sys2Proof.Machine

open Sys2Proof

/-! ### Why a step stops -/

/-- What a fault records beside its kind (R135): the agent, the operation word (of the outermost operation the agent
runs; none for a hardware agent or a plain CPU access), and the bus address where there is one. -/
structure FaultInfo where
  agent : Agent
  word : Option OpWord
  addr : Option Word
deriving DecidableEq, Repr

/-- The fault outcomes of R135. A fault stops the run; a faulted state is never final. Each is a case to which the
spec gives no other meaning; stopping is the spec's own treatment (93_implementation_defined.md I22 to I25), so each
is safe. -/
inductive Fault where
  /-- 1: an `idx` (endpoint, channel, source, bank) out of range; every indexed operation (R59, R62). Safe. -/
  | badIndex (i : FaultInfo)
  /-- 2: an access to a unit that is not 32-bit, not aligned or names no register; plain CPU accesses and engine
  byte accesses (R39). Safe. -/
  | badAccess (i : FaultInfo)
  /-- 3: a write of a read-only register (R68, R79, R118, R126). Safe. -/
  | writeReadOnly (i : FaultInfo)
  /-- 4: DO_TRANSFER written 1 while READY = 0 (R66). Safe. -/
  | streamPulseNotReady (i : FaultInfo)
  /-- 5: TSFR written 1 on an idle channel with RDY = 0 (R84). Safe. -/
  | dmaGoNotReady (i : FaultInfo)
  /-- 6: BASE, LEN or a go written while Busy (R84, R86, R88). Safe. -/
  | dmaWriteWhileBusy (i : FaultInfo)
  /-- 7: a store-mode start with BASE or LEN not a multiple of 4 (R92). Safe. -/
  | dmaUnaligned (i : FaultInfo)
  /-- 8: a manager access before `MGR_INIT` (R101, R105). Safe. -/
  | managerUninit (i : FaultInfo)
  /-- 9: a priority or threshold above PRIORITY_LEVELS (R116, R122, R131). Safe. -/
  | priorityRange (i : FaultInfo)
  /-- 10: a complete of a source not in service (R114). Safe. -/
  | badComplete (i : FaultInfo)
  /-- 11: an operation, register or CSR of the absent interrupt-controller variant (R60). Safe. -/
  | noSuchUnit (i : FaultInfo)
  /-- 12: a descriptor reference never created (R101, R102, R103). Safe. -/
  | badDescriptor (i : FaultInfo)
deriving DecidableEq, Repr

/-- The refusals of R135, which mark a form the model does not admit (R14). -/
inductive Refusal where
  /-- An operation with no meaning yet, by its mnemonic. No arm of `exec` answers so. Safe. -/
  | notModelled (mnemonic : String)
  /-- `Refuse(UnknownOp)`: an op code that is not in the table; raised by the fetch of `MAIN` (R59). Safe. -/
  | unknownOp (w : OpWord)
  /-- `Refuse(CallbackReentry)`: a callback whose body performs an operation of the block or blocks; raised where
  descriptor `ref`'s callback is invoked (R100). Safe. -/
  | callbackReentry (ref : Nat)
  /-- `Refuse(ExecDmaData)`: a program that executes a byte a DMA engine wrote; raised by `MAIN` (R50). Safe. -/
  | execDmaData (addr : Word)
deriving DecidableEq, Repr

/-! ### The pieces of state -/

/-- Hidden state of a stream endpoint (R21). -/
structure Endpoint where
  ready : Bool
  error : Bool
  data : Word
deriving DecidableEq, Repr, Inhabited

/-- `dmae[ch].phase` (R26). -/
inductive Phase where
  | idle
  | busy
deriving DecidableEq, Repr, Inhabited

/-- The registers of one DMA channel and its engine's phase (R23 to R26). DIR is the constant CH_DIR[ch] (R24). -/
structure Chan where
  /-- CH_CTRL.IRQMASK_TSFRDONE -/
  irqDone : Bool
  /-- CH_CTRL.IRQMASK_LAST -/
  irqLast : Bool
  tsfr : Bool
  tsfrDone : Bool
  mode : Bool
  rdy : Bool
  base : Word
  len : Word
  doneLen : Word
  /-- CH_ISTAT.DONE -/
  istDone : Bool
  /-- CH_ISTAT.LAST -/
  istLast : Bool
  phase : Phase
deriving DecidableEq, Repr, Inhabited

/-- The DMA Manager (R29). Its slots and masks have no value until `present`; nothing reads them before (D42,
log entry 20). -/
structure Manager where
  present : Bool
  slots : List (Option Nat)
  doneMask : Word
  lastMask : Word
deriving DecidableEq, Repr, Inhabited

/-- A Transfer Descriptor (R30). -/
structure Desc where
  ch : Nat
  fields : DescFields
  done : Bool
  transferred : Word
deriving DecidableEq, Repr, Inhabited

/-- One source of the banked interrupt controller (R31). -/
structure Source where
  prio : Word
  en : Bool
  pending : Bool
  inService : Bool
deriving DecidableEq, Repr, Inhabited

/-- The result codes of R134. -/
inductive ResCode where
  | ok
  | wrongDirection
  | notReady
  | timedOut
  | noManager
  | unimplemented
  | unusable
deriving DecidableEq, Repr, Inhabited

/-- What an operation returns (R58). -/
inductive Result where
  /-- No result. -/
  | unit
  /-- A register's 32-bit value, or a count. -/
  | word (v : Word)
  | bool (b : Bool)
  /-- A descriptor reference. -/
  | ref (r : Nat)
  | code (c : ResCode)
deriving DecidableEq, Repr, Inhabited

/-! ### Step positions (R16) -/

/-- The next step of `UPDATE` (R105) with its local variables: the channel, the status read, the slot read. -/
inductive UpdatePos where
  /-- The entry checks. -/
  | enter
  /-- Read DMA_GSTATUS. -/
  | gstatus
  /-- Read CH_ISTAT(ch) and the slot. -/
  | chan (ch : Nat)
  /-- done_mask[ch] <- 1. -/
  | markDone (ch : Nat) (st : Word) (d : Option Nat)
  /-- Read CH_DONELEN(ch). -/
  | readLen (ch : Nat) (st : Word) (d : Nat)
  /-- d.transferred <- n. -/
  | setTransferred (ch : Nat) (st : Word) (d : Nat) (n : Word)
  /-- d.done <- true. -/
  | setDone (ch : Nat) (st : Word) (d : Nat)
  /-- last_mask[ch] <- 1. -/
  | markLast (ch : Nat) (st : Word) (d : Option Nat)
  /-- Write CH_ISTAT(ch). -/
  | ack (ch : Nat) (st : Word) (d : Option Nat)
  /-- Invoke the callback. -/
  | callback (ch : Nat) (d : Nat)
deriving DecidableEq, Repr, Inhabited

/-- The next step of `BEGIN` after its entry checks (R101). -/
inductive BeginPos where
  /-- The RDY wait's read of CH_CTRL. -/
  | wait
  /-- The validation read of CH_CTRL. -/
  | validate
  /-- mgr.slot[ch] <- d. -/
  | slot
  /-- done_mask[ch] <- 0. -/
  | clearDoneMask
  /-- last_mask[ch] <- 0. -/
  | clearLastMask
  /-- The read of DMA_GMASK's read-modify-write. -/
  | gmaskRead
  /-- Its write. -/
  | gmaskWrite (v : Word)
  /-- The read of the local-mask read-modify-write of CH_CTRL. -/
  | irqRead
  /-- Its write. -/
  | irqWrite (v : Word)
  /-- The read of the MODE read-modify-write of CH_CTRL. -/
  | modeRead
  /-- Its write. -/
  | modeWrite (v : Word)
  /-- Write CH_BASE. -/
  | base
  /-- Write CH_LEN. -/
  | len
  /-- d.done <- false. -/
  | clearDone
  /-- The read of the go read-modify-write of CH_CTRL. -/
  | goRead
  /-- Its write, which starts the transfer. -/
  | goWrite (v : Word)
deriving DecidableEq, Repr, Inhabited

/-- The next step of `COMPLETE` after its entry checks (R102). `ok` tells P_OK from the two expiry paths. -/
inductive CompletePos where
  /-- The unbounded wait's read of CH_CTRL. -/
  | pollForever
  /-- The bounded wait's read of CH_CTRL, `n` reads left. -/
  | poll (n : Word)
  /-- The unbounded test of d.done. -/
  | waitForever
  /-- The bounded test of d.done, `n` tests left. -/
  | wait (n : Word)
  /-- Read CH_DONELEN. -/
  | readLen (ok : Bool)
  /-- d.transferred <- v. -/
  | setTransferred (ok : Bool) (v : Word)
  /-- d.done <- ok. -/
  | setDone (ok : Bool)
  /-- Invoke the callback. -/
  | callback (ok : Bool)
deriving DecidableEq, Repr, Inhabited

/-- A step position: which step of the operation being executed comes next, with the operation's local variables
(R16). `start` is the first step. -/
inductive Pos where
  | start
  /-- `POLL_AND_TRANSFER`: write the pulse (R74). -/
  | pulse
  /-- `DMA_INIT`: read DMA_CHOFF (R75). -/
  | initReadOff (n : Word)
  /-- `DMA_INIT`: drv.num_ch <- n. -/
  | initNumCh (n o : Word)
  /-- `DMA_INIT`: drv.usable <- (o = CH_ARRAY_OFFSET). -/
  | initUsable (o : Word)
  /-- `MGR_INIT`: slot[ch] <- None (R104). -/
  | mgrSlot (ch : Nat)
  /-- `MGR_INIT`: done_mask <- 0. -/
  | mgrDoneMask
  /-- `MGR_INIT`: last_mask <- 0. -/
  | mgrLastMask
  /-- `MGR_INIT`: present <- true. -/
  | mgrPresent
  /-- `BEGIN` of descriptor `r`. -/
  | begun (r : Nat) (p : BeginPos)
  /-- `COMPLETE` of descriptor `r`. -/
  | completing (r : Nat) (p : CompletePos)
  /-- `CANCEL` of descriptor `r`: write CH_CTRL (R103). -/
  | cancelWrite (r : Nat)
  /-- `UPDATE`, or `DISPATCH` inside it. -/
  | updating (u : UpdatePos)
  /-- `IC_INIT`: write EN(b) (R127). -/
  | icInitEn (b : Nat)
  /-- `IC_INIT`: write THR. -/
  | icInitThr
  /-- `IC_ENABLE`: write priority 1 (R128). -/
  | icSetPrio
  /-- `IC_ENABLE`: read EN. -/
  | icReadEn
  /-- `IC_ENABLE` and `IC_DISABLE`: write EN or the mask, from the value read (R128, R129). -/
  | icWriteEn (w : Word)
  /-- `IRQ_ENTRY`, built-in: read the mask CSR (R133). -/
  | irqReadMask (pending : Word)
  /-- `IRQ_ENTRY`: record Irq(s). -/
  | irqEmit (s : Nat)
  /-- `IRQ_ENTRY`: inside `UPDATE`. -/
  | irqUpdate (s : Nat) (u : UpdatePos)
  /-- `IRQ_ENTRY`, banked: write the claim register. -/
  | irqComplete (s : Nat)
deriving DecidableEq, Repr, Inhabited

/-! ### The program of MAIN -/

/-- The width of a plain CPU access. -/
inductive Width where
  | byte
  | half
  | word
deriving DecidableEq, Repr, Inhabited

/-- One entry of `MAIN`'s program (R6, R16): an operation of the block, a plain bus access of the CPU (R10, R37), or
the execution of code bytes in memory (R50). -/
inductive Item where
  /-- An operation word with the arguments beside it (R57, R58). -/
  | op (w : OpWord) (args : Args)
  /-- `MemRead(a, width)`. -/
  | load (a : Word) (width : Width)
  /-- `MemWrite(a, width, v)`. -/
  | store (a : Word) (width : Width) (v : Word)
  /-- The CPU executes `n` code bytes at `a` (R50). -/
  | runCode (a : Word) (n : Nat)
deriving DecidableEq, Repr, Inhabited

/-! ### The state -/

/-- The machine. INVENTORY.md lists each field with the rule that names it and its reset value. -/
structure State where
  /-- The parameters of R7; no step changes them. -/
  cfg : Params
  /-- The input endpoint, e = 0 (R21). -/
  ep0 : Endpoint
  /-- The output endpoint, e = 1 (R21). -/
  ep1 : Endpoint
  /-- DMA_GMASK (R22). -/
  gmask : Word
  /-- The channels 0 to NUM_CH-1 (R23). -/
  chans : List Chan
  /-- drv.usable (R28). -/
  drvUsable : Bool
  /-- drv.num_ch (R28). -/
  drvNumCh : Word
  /-- The DMA Manager (R29). -/
  mgr : Manager
  /-- The descriptor store (R30): a reference is a position in this list, which only grows. -/
  descs : List Desc
  /-- Which reference each descriptor name is bound to (R63, R99). -/
  binds : List (Nat × Nat)
  /-- ic.prio, ic.en, ic.pending, ic.in_service of the sources 0 to NUM_SOURCES-1 (R31); source 0 is reserved. -/
  srcs : List Source
  /-- ic.thr (R31). -/
  thr : Word
  /-- ic.mask (R32). -/
  icMask : Word
  /-- The levels ENV drives, `line[s]` for s other than DMA_IRQ_SOURCE (R33). -/
  lines : List Bool
  /-- cpu_ie (R33). -/
  cpuIe : Bool
  /-- isr_active (R33). -/
  isrActive : Bool
  /-- The rest of MAIN's program, the item being executed first (R16). -/
  prog : List Item
  /-- MAIN's step position (R16). -/
  mainPos : Pos
  /-- ISR's step position (R16). -/
  isrPos : Pos
  /-- What MAIN's last returned item answered (R58). -/
  result : Option Result
  /-- The event history, newest first (R36). -/
  hist : List Event
  /-- The bytes of ordinary memory that have been written, addresses strictly rising (R47). -/
  mem : List Host.Cell
  /-- The MODEL's own: how many free values the run has taken (log entry 3). -/
  draws : Nat
  /-- The MODEL's own: the next choices of the interleaving (log entry 5). -/
  sched : List Choice
  /-- The MODEL's own: how many choices were taken from `Config.schedule` (log entry 5). -/
  ticks : Nat
deriving DecidableEq, Repr

/-! ### Reset (R147) -/

/-- A channel after reset (R23 to R26). -/
def Chan.afterReset (r : ResetDraws) (ch : Nat) : Chan where
  irqDone := false
  irqLast := false
  tsfr := false
  tsfrDone := false
  mode := false
  rdy := false
  base := r.base ch
  len := r.len ch
  doneLen := r.doneLen ch
  istDone := false
  istLast := false
  phase := .idle

/-- A source of the banked controller after reset: the priority is a draw within 0 to PRIORITY_LEVELS (R31). -/
def Source.afterReset (p : Params) (r : ResetDraws) (s : Nat) : Source where
  prio := if s ≠ 0 ∧ r.prio s ≤ p.priorityLevels then r.prio s else 0
  en := s ≠ 0 && r.en s
  pending := false
  inService := false

/-- The machine right after reset, for any parameters and any reset draw (R147). -/
def State.resetWith (p : Params) (r : ResetDraws) : State where
  cfg := p
  ep0 := { ready := r.ready 0, error := r.error 0, data := r.epData 0 &&& p.inMask }
  ep1 := { ready := r.ready 1, error := r.error 1, data := r.epData 1 &&& p.outMask }
  gmask := 0
  chans := (List.range p.numCh).map (Chan.afterReset r)
  drvUsable := false
  drvNumCh := r.drvNumCh
  mgr := { present := false, slots := List.replicate p.numCh none, doneMask := 0, lastMask := 0 }
  descs := []
  binds := []
  srcs := (List.range p.numSources).map (Source.afterReset p r)
  thr := r.thr
  icMask := r.mask
  lines := (List.range p.numSources).map r.line
  cpuIe := false
  isrActive := false
  prog := []
  mainPos := .start
  isrPos := .start
  result := none
  hist := []
  mem := []
  draws := 0
  sched := []
  ticks := 0

/-- The machine right after reset with the parameters of Config A and every reset draw zero (log entries 1, 2). -/
def State.reset : State := State.resetWith Config.exampleA ResetDraws.zero

end Sys2Proof.Machine
end

