-- ==== Sys2Proof/Machine/Access.lean ====
section
/-! DEFINITION. The accessors of the state: every read and write of a piece of state goes through these. -/

namespace Sys2Proof.Machine

open Sys2Proof

/-! ### Reads -/

/-- Endpoint `e`: 0 is the input, 1 the output (R18). -/
def State.ep (s : State) (e : Nat) : Endpoint := if e = 0 then s.ep0 else s.ep1

/-- Channel `ch` (R23). -/
def State.chan (s : State) (ch : Nat) : Chan := s.chans.getD ch default

/-- Source `n` of the banked controller (R31). -/
def State.src (s : State) (n : Nat) : Source := s.srcs.getD n default

/-- mgr.slot[ch] (R29). -/
def State.slot (s : State) (ch : Nat) : Option Nat := s.mgr.slots.getD ch none

/-- CH_DIR[ch], the channel's DIR bit (R24). -/
def Params.dir (p : Params) (ch : Nat) : Bool := p.chDir.getLsbD ch

/-- `CH_CTRL(ch)` as a word (R54, R83). -/
def State.ctrlWord (s : State) (ch : Nat) : Word :=
  let c := s.chan ch
  chCtrlWord c.irqDone c.irqLast c.tsfr c.tsfrDone (Params.dir s.cfg ch) c.mode c.rdy

/-- `CH_ISTAT(ch)` as a word (R55, R90). -/
def State.istatWord (s : State) (ch : Nat) : Word := twoBitWord (s.chan ch).istDone (s.chan ch).istLast

/-- The CPU-side agent that may step: `ISR` while an interrupt is in service (R44). -/
def State.cur (s : State) : Agent := if s.isrActive then .isr else .main

/-- That agent's step position (R16). -/
def State.pos (s : State) : Pos := if s.isrActive then s.isrPos else s.mainPos

/-- The reference a descriptor name is bound to, when the descriptor was created (R99). -/
def State.refOf (s : State) (d : Nat) : Option Nat :=
  match s.binds.lookup d with
  | some r => if r < s.descs.length then some r else none
  | none => none

/-! ### Writes -/

/-- Replace endpoint `e`. -/
def State.setEp (s : State) (e : Nat) (x : Endpoint) : State :=
  { s with ep0 := if e = 0 then x else s.ep0, ep1 := if e = 0 then s.ep1 else x }

/-- DMA_GMASK <- m. -/
def State.setGmask (s : State) (m : Word) : State := { s with gmask := m }

/-- ic.thr <- v. -/
def State.setThr (s : State) (v : Word) : State := { s with thr := v }

/-- ic.mask <- v. -/
def State.setIcMask (s : State) (v : Word) : State := { s with icMask := v }

/-- drv.num_ch <- n. -/
def State.setNumCh (s : State) (n : Word) : State := { s with drvNumCh := n }

/-- drv.usable <- b. -/
def State.setUsable (s : State) (b : Bool) : State := { s with drvUsable := b }

/-- line[n] <- level, for a line ENV drives. -/
def State.setLine (s : State) (n : Nat) (level : Bool) : State := { s with lines := s.lines.set n level }

/-- cpu_ie <- on. -/
def State.setCpuIe (s : State) (on : Bool) : State := { s with cpuIe := on }

/-- Replace channel `ch`. -/
def State.setChan (s : State) (ch : Nat) (c : Chan) : State := { s with chans := s.chans.set ch c }

/-- Replace source `n`. -/
def State.setSrc (s : State) (n : Nat) (x : Source) : State := { s with srcs := s.srcs.set n x }

/-- mgr.slot[ch] <- d. -/
def State.setSlot (s : State) (ch : Nat) (d : Option Nat) : State :=
  { s with mgr := { s.mgr with slots := s.mgr.slots.set ch d } }

/-- mgr.done_mask <- m. -/
def State.setDoneMask (s : State) (m : Word) : State := { s with mgr := { s.mgr with doneMask := m } }

/-- mgr.last_mask <- m. -/
def State.setLastMask (s : State) (m : Word) : State := { s with mgr := { s.mgr with lastMask := m } }

/-- mgr.present <- true. -/
def State.setPresent (s : State) : State := { s with mgr := { s.mgr with present := true } }

/-- Replace the descriptor `r` refers to. -/
def State.setDesc (s : State) (r : Nat) (d : Desc) : State := { s with descs := s.descs.set r d }

/-- d.done <- b for the descriptor `r` refers to. -/
def State.setDescDone (s : State) (r : Nat) (b : Bool) : State :=
  match s.descs[r]? with
  | some d => s.setDesc r { d with done := b }
  | none => s

/-- d.transferred <- n for the descriptor `r` refers to. -/
def State.setDescTransferred (s : State) (r : Nat) (n : Word) : State :=
  match s.descs[r]? with
  | some d => s.setDesc r { d with transferred := n }
  | none => s

/-- A new descriptor, bound to the name `d`; its reference is one never returned before (R99). -/
def State.newDesc (s : State) (d : Nat) (x : Desc) : State :=
  { s with descs := s.descs ++ [x], binds := (d, s.descs.length) :: s.binds.filter (fun b => b.1 ≠ d) }

/-- Append an event to the history (R36). -/
def State.emit (s : State) (e : Event) : State := { s with hist := e :: s.hist }

/-- One more free value has been taken. -/
def State.drew (s : State) : State := { s with draws := s.draws + 1 }

/-- Move the CPU-side agent that steps to position `q` of its operation (R16). -/
def State.goto (s : State) (q : Pos) : State :=
  { s with isrPos := if s.isrActive then q else s.isrPos, mainPos := if s.isrActive then s.mainPos else q }

end Sys2Proof.Machine
end

