-- ==== Sys2Proof/Machine/Flags.lean ====
section
/-! DEFINITION. The computed flags: the global IRQ status, the DMA interrupt line, the line levels, the claim choice
and the external interrupt request. Each is a function of the state, recomputed at every step. -/

namespace Sys2Proof.Machine

open Sys2Proof

/-- DONE_ANY of `DMA_GSTATUS` (R82). -/
def State.doneAny (s : State) : Bool :=
  (List.range s.cfg.numCh).any fun ch => s.gmask.getLsbD ch && (s.chan ch).istDone && (s.chan ch).irqDone

/-- LAST_ANY of `DMA_GSTATUS` (R82). -/
def State.lastAny (s : State) : Bool :=
  (List.range s.cfg.numCh).any fun ch => s.gmask.getLsbD ch && (s.chan ch).istLast && (s.chan ch).irqLast

/-- `DMA_GSTATUS`, computed and not stored (R82). -/
def State.gstatus (s : State) : Word := twoBitWord s.doneAny s.lastAny

/-- `dma_irq`: a level, true exactly when `DMA_GSTATUS` is not 0 (R27). -/
def State.dmaIrq (s : State) : Bool := s.gstatus ≠ 0

/-- `line[n]`: the DMA line is `dma_irq`, the others are ENV's (R33). -/
def State.lineLevel (s : State) (n : Nat) : Bool :=
  if n = s.cfg.dmaIrqSource then s.dmaIrq else s.lines.getD n false

/-- `ic.pend` of the built-in controller: bit `n` is the current level of line `n` (R32, R125). -/
def State.pendWord (s : State) : Word := ofBits s.lineLevel 32

/-- Source `n` is pending, enabled and above the threshold (R112, R113). -/
def State.eligible (s : State) (n : Nat) : Bool :=
  (s.src n).pending && (s.src n).en && s.thr < (s.src n).prio

/-- The source ids the banked controller has: 1 to NUM_SOURCES-1 (R31). -/
def Params.sourceIds (p : Params) : List Nat := (List.range p.numSources).filter (fun n => n ≠ 0)

/-- Among the eligible sources of an ascending list, the one with the largest priority, and the smallest id among
equal priorities (R113). -/
def claimPick (elig : Nat → Bool) (prio : Nat → Word) : List Nat → Option Nat
  | [] => none
  | n :: rest =>
    match claimPick elig prio rest with
    | none => if elig n then some n else none
    | some m => if elig n && prio m ≤ prio n then some n else some m

/-- The source a claim takes, if there is one (R113). -/
def State.claimable (s : State) : Option Nat :=
  claimPick s.eligible (fun n => (s.src n).prio) (Params.sourceIds s.cfg)

/-- `eip`, the CPU's external interrupt request (R112). -/
def State.eip (s : State) : Bool :=
  match s.cfg.variant with
  | .banked => (Params.sourceIds s.cfg).any s.eligible
  | .builtIn => s.pendWord &&& s.icMask ≠ 0

/-- Interrupt entry is enabled (R138). -/
def State.irqEnabled (s : State) : Bool := s.eip && s.cpuIe && !s.isrActive

/-- The index of the lowest set bit of a word, if it has one (R133). -/
def lowestBit (x : Word) : Option Nat := (List.range 32).find? x.getLsbD

end Sys2Proof.Machine
end

