-- ==== Sys2Proof/Machine/Ops.lean ====
section
/-! DEFINITION. The shared operations: free values, interrupt entry and return, the end of an operation, ordinary
memory, the transfer's start and abort, register reads and writes by their rules, bus and CSR accesses, callbacks. -/

namespace Sys2Proof.Machine

open Sys2Proof

/-! ### Free values (R13) -/

/-- `draw()`: the next free value of the run. -/
def State.draw (s : State) : Word := Config.draw s.draws

/-- A drawn bit. -/
def State.drawBit (s : State) : Bool := s.draw.getLsbD 0

/-! ### Interrupt entry and return (R138, R139), and the end of an operation -/

/-- Interrupt entry: `isr_active <- true`, and `ISR` starts `IRQ_ENTRY`. `MAIN`'s position is kept. -/
def State.takeIrq (s : State) : State := { s with isrActive := true, isrPos := .start }

/-- Interrupt return: `isr_active <- false`, and `MAIN` resumes at its kept position. `cpu_ie` is ENV's. -/
def State.returnIrq (s : State) : State := { s with isrActive := false, isrPos := .start }

/-- The operation being executed by `MAIN` returns `r`: the position moves to the first step of the next item (R16). -/
def State.advance (s : State) (r : Result) : State :=
  { s with prog := s.prog.tail, mainPos := .start, result := some r }

/-- The operation of the CPU-side agent that steps returns `r`. `ISR`'s only operation is `IRQ_ENTRY`, whose return
is the interrupt return. -/
def State.ret (s : State) (r : Result) : State := if s.isrActive then s.returnIrq else s.advance r

/-! ### Who performs an access -/

/-- The agent and the operation word a fault records (R135). -/
structure Who where
  agent : Agent
  word : Option OpWord
deriving DecidableEq, Repr

/-- A fault record with a bus address. -/
def Who.atAddr (w : Who) (a : Word) : FaultInfo := { agent := w.agent, word := w.word, addr := some a }

/-- A fault record where there is no bus address. -/
def Who.noAddr (w : Who) : FaultInfo := { agent := w.agent, word := w.word, addr := none }

/-- The CPU-side agent that steps, running operation `i`. -/
def State.who (s : State) (i : Instr) : Who := { agent := s.cur, word := some (encode i) }

/-! ### Ordinary memory (R47) -/

/-- The byte last written at `a`, if one was. -/
def Mem.lookup (a : Nat) : List Host.Cell → Option Byte
  | [] => none
  | (x, b) :: rest => if a = x then some b else Mem.lookup a rest

/-- Write one byte, keeping addresses strictly rising. -/
def Mem.insert (a : Nat) (v : Byte) : List Host.Cell → List Host.Cell
  | [] => [(a, v)]
  | (x, b) :: rest =>
    if a < x then (a, v) :: (x, b) :: rest
    else if a = x then (a, v) :: rest
    else (x, b) :: Mem.insert a v rest

/-- The canonical form: addresses strictly rising and inside the bus space. An unlisted byte reads as a draw, so no
listed byte equals what an unlisted one reads as, and no other condition is needed. -/
abbrev Mem.wf (m : List Host.Cell) : Prop :=
  m.Pairwise (fun x y => x.1 < y.1) ∧ ∀ c ∈ m, c.1 < 2 ^ 32

/-- The byte at `a`: the latest written one, else a fresh draw (R47). -/
def State.readByte (s : State) (a : Word) : Byte × State :=
  match Mem.lookup a.toNat s.mem with
  | some b => (b, s)
  | none => (Config.memByte s.hist s.draws, s.drew)

/-- Write the byte at `a`. -/
def State.writeByte (s : State) (a : Word) (v : Byte) : State := { s with mem := Mem.insert a.toNat v s.mem }

/-- The `n` bytes from `a` as a little-endian number (R38), addresses modulo 2^32. -/
def State.readBytes (s : State) (a : Word) : Nat → Word × State
  | 0 => (0, s)
  | n + 1 =>
    let b := s.readByte a
    let r := State.readBytes b.2 (a + 1) n
    (r.1 <<< 8 ||| b.1.setWidth 32, r.2)

/-- Store the low `n` bytes of `v` at `a`, little-endian (R38). -/
def State.writeBytes (s : State) (a : Word) (v : Word) : Nat → State
  | 0 => s
  | n + 1 => State.writeBytes (s.writeByte a (v.setWidth 8)) (a + 1) (v >>> 8) n

/-! ### A channel's transfer (R92, R93, R95 to R97) -/

/-- `eabort(ch)` (R97): done-length frozen, raw status unchanged. -/
def Chan.abort (c : Chan) : Chan := { c with tsfr := false, phase := .idle }

/-- The store-mode alignment rule of a start (R92). -/
def Chan.startAligned (c : Chan) : Bool := c.mode || (c.base % 4 = 0 && c.len % 4 = 0)

/-- `estart(ch)` (R92), where the alignment rule holds. -/
def Chan.started (c : Chan) : Chan :=
  { c with tsfr := true, tsfrDone := false, rdy := false, doneLen := 0, phase := .busy }

/-- E_READY (R93). -/
def Chan.raiseReady (c : Chan) : Chan := { c with rdy := true }

/-- E_LAST (R95). -/
def Chan.raiseLast (c : Chan) : Chan := { c with istLast := true }

/-- E_COMPLETE (R96): the done-length keeps its value. -/
def Chan.completed (c : Chan) : Chan := { c with tsfr := false, tsfrDone := true, istDone := true, phase := .idle }

/-- What a CTRL write stores in the fields it writes, `c` being the value before the write (R84): IRQ masks and MODE
as written, TSFRDONE and RDY hardware-set write-0-to-clear, and an abort where the channel is Busy. -/
def Chan.ctrlWritten (c : Chan) (v : Word) : Chan :=
  let c' := if c.phase = .busy then c.abort else c
  { c' with
    irqDone := v.getLsbD 0
    irqLast := v.getLsbD 1
    mode := v.getLsbD 5
    tsfrDone := c.tsfrDone && v.getLsbD 3
    rdy := c.rdy && v.getLsbD 6 }

/-- The raw status after an acknowledge of `v` (R91). -/
def Chan.acked (c : Chan) (all : Bool) (v : Word) : Chan :=
  { c with
    istDone := !all && (c.istDone && !v.getLsbD 0)
    istLast := !all && (c.istLast && !v.getLsbD 1) }

/-! ### The write rules with a fault of their own -/

/-- The write rule of `STREAM_CTRL(e)` (R66). -/
def streamCtrlWrite (i : FaultInfo) (e : Nat) (v : Word) (s : State) : Except Fault State :=
  if v.getLsbD 1 then
    if (s.ep e).ready then
      let x := if e = 0 then (s.ep e).data else Config.spout s.hist s.draws &&& s.cfg.outMask
      let ev := if e = 0 then Event.streamIn (x &&& s.cfg.inMask) else Event.streamOut x
      let t := if e = 0 then s else s.drew
      .ok ((t.emit ev).drew.setEp e { (s.ep e) with data := x, ready := t.drawBit })
    else .error (.streamPulseNotReady i)
  else .ok s

/-- The write rule of `CH_CTRL(ch)` (R84). -/
def chCtrlWrite (i : FaultInfo) (ch : Nat) (v : Word) (s : State) : Except Fault State :=
  let c := s.chan ch
  let n := c.ctrlWritten v
  if v.getLsbD 2 then
    if c.phase = .busy then .error (.dmaWriteWhileBusy i)
    else if c.rdy then
      if n.startAligned then .ok (s.setChan ch n.started) else .error (.dmaUnaligned i)
    else .error (.dmaGoNotReady i)
  else .ok (s.setChan ch n)

/-- A write of `CH_BASE` or `CH_LEN`: refused while Busy (R86, R88). -/
def chanWriteIdle (i : FaultInfo) (ch : Nat) (f : Chan → Chan) (s : State) : Except Fault State :=
  if (s.chan ch).phase = .busy then .error (.dmaWriteWhileBusy i) else .ok (s.setChan ch (f (s.chan ch)))

/-- The write rule of the claim register: complete source `v` (R114). -/
def claimWrite (i : FaultInfo) (v : Word) (s : State) : Except Fault State :=
  let n := v.toNat
  if n ≠ 0 ∧ n < s.cfg.numSources ∧ (s.src n).inService = true then
    .ok (s.setSrc n { (s.src n) with inService := false })
  else .error (.badComplete i)

/-- The write rule of an enable bank (R120): bits for source 0 and for ids at or above NUM_SOURCES are ignored. -/
def State.writeEnBank (s : State) (b : Nat) (v : Word) : State :=
  { s with srcs := s.srcs.mapIdx fun n x => if n / 32 = b ∧ n ≠ 0 then { x with en := v.getLsbD (n % 32) } else x }

/-- The claim read (R113): its value and its side effect. -/
def State.claim (s : State) : Word × State :=
  match s.claimable with
  | none => (0, s)
  | some n => (BitVec.ofNat 32 n, s.setSrc n { (s.src n) with pending := false, inService := true })

/-! ### Registers by their rules, and the bus (R10) -/

/-- The read rule of a register that exists: its value, and the state after. Only the claim read has a side effect on
the block (R41); a read of an unspecified value takes a fresh draw (R13). DEDUCED: a read of the input slot draws SYMBOL
and LAST (R67) and answers 0 in the reserved bits 31:SW+1 (R20, R62), between which rules the spec does not choose
(log entry 32). -/
def readReg (r : Reg) (s : State) : Word × State :=
  match r with
  | .streamCtrl e => (streamCtrlWord (s.ep e).ready s.drawBit (e = 1) (s.ep e).error, s.drew)
  | .streamData e => if e = 0 then (s.draw &&& s.cfg.inMask, s.drew) else (s.ep1.data, s)
  | .chCount => (BitVec.ofNat 32 s.cfg.numCh, s)
  | .chOff => (s.cfg.hwChOffset, s)
  | .gmask => (s.gmask, s)
  | .gstatus => (s.gstatus, s)
  | .chCtrl ch => (s.ctrlWord ch, s)
  | .chBase ch => ((s.chan ch).base, s)
  | .chLen ch => ((s.chan ch).len, s)
  | .chDoneLen ch => ((s.chan ch).doneLen, s)
  | .chIstat ch => (s.istatWord ch, s)
  | .prioReserved => (0, s)
  | .prio n => ((s.src n).prio, s)
  | .pend b => (s.cfg.bankWord b fun n => (s.src n).pending, s)
  | .en b => (s.cfg.bankWord b fun n => (s.src n).en, s)
  | .thr => (s.thr, s)
  | .claim => s.claim

/-- The write rule of a register that exists; `i` is what a fault of the write records. -/
def writeReg (i : FaultInfo) (r : Reg) (v : Word) (s : State) : Except Fault State :=
  match r with
  | .streamCtrl e => streamCtrlWrite i e v s
  | .streamData e => if e = 0 then .ok (s.setEp 0 { s.ep0 with data := v }) else .error (.writeReadOnly i)
  | .chCount => .error (.writeReadOnly i)
  | .chOff => .error (.writeReadOnly i)
  | .gmask => .ok (s.setGmask (v &&& s.cfg.chMask))
  | .gstatus => .error (.writeReadOnly i)
  | .chCtrl ch => chCtrlWrite i ch v s
  | .chBase ch => chanWriteIdle i ch (fun c => { c with base := v }) s
  | .chLen ch => chanWriteIdle i ch (fun c => { c with len := v }) s
  | .chDoneLen _ => .error (.writeReadOnly i)
  | .chIstat ch => .ok (s.setChan ch ((s.chan ch).acked s.cfg.irqAckClearsAll v))
  | .prioReserved => .ok s
  | .prio n =>
    if s.cfg.priorityLevels < v then .error (.priorityRange i) else .ok (s.setSrc n { (s.src n) with prio := v })
  | .pend _ => .error (.writeReadOnly i)
  | .en b => .ok (s.writeEnBank b v)
  | .thr => if s.cfg.priorityLevels < v then .error (.priorityRange i) else .ok (s.setThr v)
  | .claim => claimWrite i v s

/-- `MemRead(r, 4)` of a register by `w`: the register's checks, then its read rule; the access is recorded (R36). -/
def busRead (w : Who) (r : Reg) (s : State) : Except Fault (Word × State) :=
  match r.check s.cfg with
  | .badIndex => .error (.badIndex w.noAddr)
  | .noSuchUnit => .error (.noSuchUnit w.noAddr)
  | .present =>
    let x := readReg r s
    .ok (x.1, x.2.emit (.bus w.agent false (r.addr s.cfg) 4 x.1))

/-- `MemWrite(r, 4, v)` of a register by `w`: the register's checks, then its write rule; the access is recorded
before the events it causes (R36). -/
def busWrite (w : Who) (r : Reg) (v : Word) (s : State) : Except Fault State :=
  match r.check s.cfg with
  | .badIndex => .error (.badIndex w.noAddr)
  | .noSuchUnit => .error (.noSuchUnit w.noAddr)
  | .present => writeReg (w.atAddr (r.addr s.cfg)) r v (s.emit (.bus w.agent true (r.addr s.cfg) 4 v))

/-! ### The CSR space (R37) -/

/-- `CsrRead(n)` of the built-in controller's two registers (R32, R123, R125). -/
def csrRead (w : Who) (n : Nat) (s : State) : Except Fault Word :=
  if s.cfg.variant = .builtIn ∧ n = s.cfg.csrIrqMask then .ok s.icMask
  else if s.cfg.variant = .builtIn ∧ n = s.cfg.csrIrqPending then .ok s.pendWord
  else .error (.noSuchUnit w.noAddr)

/-- `CsrWrite(n, v)` (R124, R126). -/
def csrWrite (w : Who) (n : Nat) (v : Word) (s : State) : Except Fault State :=
  if s.cfg.variant = .builtIn ∧ n = s.cfg.csrIrqMask then .ok (s.setIcMask v)
  else if s.cfg.variant = .builtIn ∧ n = s.cfg.csrIrqPending then .error (.writeReadOnly w.noAddr)
  else .error (.noSuchUnit w.noAddr)

/-! ### Callbacks (R100) -/

/-- `Callback(d)`: recorded with the invoking agent; refused where its body performs an operation or blocks. -/
def runCallback (w : Who) (r : Nat) (cb : Cb) (s : State) : Except Refusal State :=
  if cb.reenters then .error (.callbackReentry r) else .ok (s.emit (.callback r w.agent))

/-! ### Outcomes -/

/-- Go on with what an access answered, or stop with its fault. -/
def orFault {α : Type} (x : Except Fault α) (k : α → Host.Outcome State Fault Refusal) :
    Host.Outcome State Fault Refusal :=
  match x with
  | .ok a => k a
  | .error f => .fault f

/-- Go on after a callback, or stop with its refusal. -/
def orRefuse (x : Except Refusal State) (k : State → Host.Outcome State Fault Refusal) :
    Host.Outcome State Fault Refusal :=
  match x with
  | .ok t => k t
  | .error r => .refused r

end Sys2Proof.Machine
end

