-- ==== Sys2Proof/Machine/Operands.lean ====
section
/-! DEFINITION. The operand forms: the checks of an operation's index and unit (R59, R60), the descriptor operand
(R99), and the shapes the meanings share: a register read, a register write, a CSR access, a step of a compound
operation. -/

namespace Sys2Proof.Machine

open Sys2Proof

/-- A step's outcome. -/
abbrev Out := Host.Outcome State Fault Refusal

/-- The operation returns `r`. -/
def done (r : Result) (s : State) : Out := .next (s.ret r)

/-- The operation's next step is at position `q`. -/
def goOn (q : Pos) (s : State) : Out := .next (s.goto q)

/-- `raise Fault(BadIndex)` unless `c` (R59). -/
def guardIdx (i : Instr) (c : Bool) (s : State) (k : Out) : Out :=
  if c then k else .fault (.badIndex (s.who i).noAddr)

/-- `raise Fault(BadIndex)` unless `idx` is 0 (R59, the operations whose idx column in R60 is 0). DESIGN CHOICE: this is
the first check of the operation after the unit's, so it comes before `Unusable`, `Fault(ManagerUninit)` and
`Fault(BadDescriptor)`, an order R59, R76 and R136 do not give (log entry 11). -/
def guardZero (i : Instr) (z : Idx) (s : State) (k : Out) : Out := guardIdx i (z = 0) s k

/-- `raise Fault(NoSuchUnit)` for an operation of the absent interrupt-controller variant (R60). -/
def guardUnit (i : Instr) (v : Variant) (s : State) (k : Out) : Out :=
  if s.cfg.variant = v then k else .fault (.noSuchUnit (s.who i).noAddr)

/-- An operation that is one read of a register, and returns the value. -/
def readOp (i : Instr) (r : Reg) (s : State) : Out :=
  orFault (busRead (s.who i) r s) fun x => done (.word x.1) x.2

/-- An operation that is one write of a register. -/
def writeOp (i : Instr) (r : Reg) (v : Word) (s : State) : Out :=
  orFault (busWrite (s.who i) r v s) fun t => done .unit t

/-- An operation that is one read of a CSR. -/
def csrReadOp (i : Instr) (n : Nat) (s : State) : Out :=
  orFault (csrRead (s.who i) n s) fun v => done (.word v) s

/-- An operation that is one write of a CSR. -/
def csrWriteOp (i : Instr) (n : Nat) (v : Word) (s : State) : Out :=
  orFault (csrWrite (s.who i) n v s) fun t => done .unit t

/-- One step of a compound operation that reads a register and goes on with the value. -/
def readStep (i : Instr) (r : Reg) (s : State) (k : Word → State → Out) : Out :=
  orFault (busRead (s.who i) r s) fun x => k x.1 x.2

/-- One step of a compound operation that writes a register and goes on. -/
def writeStep (i : Instr) (r : Reg) (v : Word) (s : State) (k : State → Out) : Out :=
  orFault (busWrite (s.who i) r v s) k

/-- `chkd(d)`: the descriptor the name is bound to, or `Fault(BadDescriptor)` (42_transfer_engine.md). -/
def withDesc (i : Instr) (d : Nat) (s : State) (k : Nat → Desc → Out) : Out :=
  match s.refOf d with
  | none => .fault (.badDescriptor (s.who i).noAddr)
  | some r =>
    match s.descs[r]? with
    | none => .fault (.badDescriptor (s.who i).noAddr)
    | some x => k r x

/-- The descriptor a reference already resolved refers to. -/
def withRef (i : Instr) (r : Nat) (s : State) (k : Desc → Out) : Out :=
  match s.descs[r]? with
  | none => .fault (.badDescriptor (s.who i).noAddr)
  | some x => k x

/-- `if not drv.usable: return Unusable` (R76). -/
def guardUsable (s : State) (k : Out) : Out := if s.drvUsable then k else done (.code .unusable) s

end Sys2Proof.Machine
end

