-- ==== Sys2Proof/Machine/Csr.lean ====
section
/-! DEFINITION. The built-in interrupt controller's CSR family: CRD_MASK to CWR_PEND (R123 to R126). -/

namespace Sys2Proof.Machine

open Sys2Proof

/-- `CRD_MASK` (R123). -/
def execCrdMask (z : Idx) (s : State) : Out :=
  guardUnit (.crdMask z) .builtIn s (guardZero (.crdMask z) z s (csrReadOp (.crdMask z) s.cfg.csrIrqMask s))

/-- `CWR_MASK v` (R124). -/
def execCwrMask (z : Idx) (v : Word) (s : State) : Out :=
  guardUnit (.cwrMask z v) .builtIn s (guardZero (.cwrMask z v) z s (csrWriteOp (.cwrMask z v) s.cfg.csrIrqMask v s))

/-- `CRD_PEND` (R125): the line levels, not latched and not gated by the mask. -/
def execCrdPend (z : Idx) (s : State) : Out :=
  guardUnit (.crdPend z) .builtIn s (guardZero (.crdPend z) z s (csrReadOp (.crdPend z) s.cfg.csrIrqPending s))

/-- `CWR_PEND v` (R126): a write of a read-only register. -/
def execCwrPend (z : Idx) (v : Word) (s : State) : Out :=
  guardUnit (.cwrPend z v) .builtIn s
    (guardZero (.cwrPend z v) z s (csrWriteOp (.cwrPend z v) s.cfg.csrIrqPending v s))

end Sys2Proof.Machine
end

