-- ==== Sys2Proof/Machine/DmaChannel.lean ====
section
/-! DEFINITION. The DMA channel register family: DRD_CTRL to DWR_ISTAT (R79, R83 to R91). -/

namespace Sys2Proof.Machine

open Sys2Proof

/-- `DRD_CTRL ch` (R83). -/
def execDrdCtrl (ch : Idx) (s : State) : Out := readOp (.drdCtrl ch) (.chCtrl ch.toNat) s

/-- `DWR_CTRL ch, v` (R84): starts on bit 2, aborts a Busy channel when bit 2 is 0. -/
def execDwrCtrl (ch : Idx) (v : Word) (s : State) : Out := writeOp (.dwrCtrl ch v) (.chCtrl ch.toNat) v s

/-- `DRD_BASE ch` (R85). -/
def execDrdBase (ch : Idx) (s : State) : Out := readOp (.drdBase ch) (.chBase ch.toNat) s

/-- `DWR_BASE ch, v` (R86). -/
def execDwrBase (ch : Idx) (v : Word) (s : State) : Out := writeOp (.dwrBase ch v) (.chBase ch.toNat) v s

/-- `DRD_LEN ch` (R87). -/
def execDrdLen (ch : Idx) (s : State) : Out := readOp (.drdLen ch) (.chLen ch.toNat) s

/-- `DWR_LEN ch, v` (R88). -/
def execDwrLen (ch : Idx) (v : Word) (s : State) : Out := writeOp (.dwrLen ch v) (.chLen ch.toNat) v s

/-- `DRD_DONELEN ch` (R89). -/
def execDrdDonelen (ch : Idx) (s : State) : Out := readOp (.drdDonelen ch) (.chDoneLen ch.toNat) s

/-- `DWR_DONELEN ch, v` (R79): a write of a read-only register. -/
def execDwrDonelen (ch : Idx) (v : Word) (s : State) : Out :=
  writeOp (.dwrDonelen ch v) (.chDoneLen ch.toNat) v s

/-- `DRD_ISTAT ch` (R90): raw, the masks do not gate it. -/
def execDrdIstat (ch : Idx) (s : State) : Out := readOp (.drdIstat ch) (.chIstat ch.toNat) s

/-- `DWR_ISTAT ch, v` (R91): acknowledge. -/
def execDwrIstat (ch : Idx) (v : Word) (s : State) : Out := writeOp (.dwrIstat ch v) (.chIstat ch.toNat) v s

end Sys2Proof.Machine
end

