-- ==== Sys2Proof/Machine/DmaHeader.lean ====
section
/-! DEFINITION. The DMA controller header family: DRD_CHCOUNT to DWR_GSTATUS (R77 to R82) and DMA_INIT (R75). -/

namespace Sys2Proof.Machine

open Sys2Proof

/-- `DRD_CHCOUNT` (R77). -/
def execDrdChcount (z : Idx) (s : State) : Out :=
  guardZero (.drdChcount z) z s (readOp (.drdChcount z) .chCount s)

/-- `DWR_CHCOUNT v` (R79): a write of a read-only register. -/
def execDwrChcount (z : Idx) (v : Word) (s : State) : Out :=
  guardZero (.dwrChcount z v) z s (writeOp (.dwrChcount z v) .chCount v s)

/-- `DRD_CHOFF` (R78). -/
def execDrdChoff (z : Idx) (s : State) : Out :=
  guardZero (.drdChoff z) z s (readOp (.drdChoff z) .chOff s)

/-- `DWR_CHOFF v` (R79): a write of a read-only register. -/
def execDwrChoff (z : Idx) (v : Word) (s : State) : Out :=
  guardZero (.dwrChoff z v) z s (writeOp (.dwrChoff z v) .chOff v s)

/-- `DRD_GMASK` (R80). -/
def execDrdGmask (z : Idx) (s : State) : Out :=
  guardZero (.drdGmask z) z s (readOp (.drdGmask z) .gmask s)

/-- `DWR_GMASK v` (R81): bits at or above NUM_CH are dropped. -/
def execDwrGmask (z : Idx) (v : Word) (s : State) : Out :=
  guardZero (.dwrGmask z v) z s (writeOp (.dwrGmask z v) .gmask v s)

/-- `DRD_GSTATUS` (R82): computed, not stored. -/
def execDrdGstatus (z : Idx) (s : State) : Out :=
  guardZero (.drdGstatus z) z s (readOp (.drdGstatus z) .gstatus s)

/-- `DWR_GSTATUS v` (R79): a write of a read-only register. -/
def execDwrGstatus (z : Idx) (v : Word) (s : State) : Out :=
  guardZero (.dwrGstatus z v) z s (writeOp (.dwrGstatus z v) .gstatus v s)

/-- `DMA_INIT` (R75): read the count, read the reported offset, then set `drv.num_ch` and `drv.usable`. -/
def execDmaInit (z : Idx) (s : State) : Out :=
  guardZero (.dmaInit z) z s <|
    match s.pos with
    | .initReadOff n => readStep (.dmaInit z) .chOff s fun o t => goOn (.initNumCh n o) t
    | .initNumCh n o => goOn (.initUsable o) (s.setNumCh n)
    | .initUsable o => done (.bool (o = chArrayOffset)) (s.setUsable (o = chArrayOffset))
    | _ => readStep (.dmaInit z) .chCount s fun n t => goOn (.initReadOff n) t

end Sys2Proof.Machine
end

