-- ==== Sys2Proof/Machine/IcSurface.lean ====
section
/-! DEFINITION. The interrupt controller's capability surface: IC_INIT, IC_ENABLE, IC_DISABLE, IC_PRIORITY_COUNT,
IC_SET_PRIORITY on both variants (R127 to R131). -/

namespace Sys2Proof.Machine

open Sys2Proof

/-- `IC_INIT`, banked: write 0 to enable bank `b`, and go on to the next bank or the threshold (R127). -/
def icInitBank (i : Instr) (b : Nat) (s : State) : Out :=
  writeStep i (.en b) 0 s (goOn (if b + 1 < s.cfg.numBanks then .icInitEn (b + 1) else .icInitThr))

/-- `IC_INIT` (R127). -/
def execIcInit (z : Idx) (s : State) : Out :=
  guardZero (.icInit z) z s <|
    match s.cfg.variant with
    | .banked =>
      match s.pos with
      | .icInitEn b => icInitBank (.icInit z) b s
      | .icInitThr => writeStep (.icInit z) .thr 0 s (done (.code .ok))
      | _ => icInitBank (.icInit z) 0 s
    | .builtIn => orFault (csrWrite (s.who (.icInit z)) s.cfg.csrIrqMask 0 s) (done (.code .ok))

/-- `IC_ENABLE s` (R128): on the banked variant the priority is set before the enable bit. -/
def execIcEnable (n : Idx) (s : State) : Out :=
  guardIdx (.icEnable n) (s.cfg.sourceOk n.toNat) s <|
    match s.cfg.variant with
    | .banked =>
      match s.pos with
      | .icSetPrio => writeStep (.icEnable n) (.prio n.toNat) 1 s (goOn .icReadEn)
      | .icReadEn => readStep (.icEnable n) (.en (n.toNat / 32)) s fun w t => goOn (.icWriteEn w) t
      | .icWriteEn w =>
          writeStep (.icEnable n) (.en (n.toNat / 32)) (w ||| bit (n.toNat % 32)) s (done (.code .ok))
      | _ => readStep (.icEnable n) (.prio n.toNat) s fun p t =>
          goOn (if p = 0 then .icSetPrio else .icReadEn) t
    | .builtIn =>
      match s.pos with
      | .icWriteEn m =>
          orFault (csrWrite (s.who (.icEnable n)) s.cfg.csrIrqMask (m ||| bit n.toNat) s) (done (.code .ok))
      | _ => orFault (csrRead (s.who (.icEnable n)) s.cfg.csrIrqMask s) fun m => goOn (.icWriteEn m) s

/-- `IC_DISABLE s` (R129). -/
def execIcDisable (n : Idx) (s : State) : Out :=
  guardIdx (.icDisable n) (s.cfg.sourceOk n.toNat) s <|
    match s.cfg.variant with
    | .banked =>
      match s.pos with
      | .icWriteEn w =>
          writeStep (.icDisable n) (.en (n.toNat / 32)) (w &&& ~~~bit (n.toNat % 32)) s (done (.code .ok))
      | _ => readStep (.icDisable n) (.en (n.toNat / 32)) s fun w t => goOn (.icWriteEn w) t
    | .builtIn =>
      match s.pos with
      | .icWriteEn m =>
          orFault (csrWrite (s.who (.icDisable n)) s.cfg.csrIrqMask (m &&& ~~~bit n.toNat) s) (done (.code .ok))
      | _ => orFault (csrRead (s.who (.icDisable n)) s.cfg.csrIrqMask s) fun m => goOn (.icWriteEn m) s

/-- `IC_PRIORITY_COUNT` (R130): no bus access. -/
def execIcPriorityCount (z : Idx) (s : State) : Out :=
  guardZero (.icPriorityCount z) z s <|
    match s.cfg.variant with
    | .banked => done (.word s.cfg.priorityLevels) s
    | .builtIn => done (.word 0) s

/-- `IC_SET_PRIORITY s, level` (R131). -/
def execIcSetPriority (n : Idx) (level : Word) (s : State) : Out :=
  match s.cfg.variant with
  | .builtIn => done (.code .unimplemented) s
  | .banked =>
    guardIdx (.icSetPriority n level) (s.cfg.sourceOk n.toNat) s <|
      if s.cfg.priorityLevels < level then .fault (.priorityRange (s.who (.icSetPriority n level)).noAddr)
      else writeStep (.icSetPriority n level) (.prio n.toNat) level s (done (.code .ok))

end Sys2Proof.Machine
end

