-- ==== Sys2Proof/Machine/Tracker.lean ====
section
/-! DEFINITION. The DMA completion state tracker family: MGR_INIT and UPDATE (R104 to R109). -/

namespace Sys2Proof.Machine

open Sys2Proof

/-- `MGR_INIT` (R104): every assignment is one local step. A nonzero idx is checked before `Unusable` (DESIGN CHOICE,
log entry 11). -/
def execMgrInit (z : Idx) (s : State) : Out :=
  guardZero (.mgrInit z) z s <|
    match s.pos with
    | .mgrSlot ch =>
        goOn (if ch + 1 < s.drvNumCh.toNat then .mgrSlot (ch + 1) else .mgrDoneMask) (s.setSlot ch none)
    | .mgrDoneMask => goOn .mgrLastMask (s.setDoneMask 0)
    | .mgrLastMask => goOn .mgrPresent (s.setLastMask 0)
    | .mgrPresent => done (.code .ok) s.setPresent
    | _ => guardUsable s (goOn (if 0 < s.drvNumCh.toNat then .mgrSlot 0 else .mgrDoneMask) s)

/-- What a step of `UPDATE` leads to, wherever `UPDATE` runs: its next position, its result, a fault, a refusal. -/
inductive UpdateFlow where
  | go (u : UpdatePos) (s : State)
  | fin (c : ResCode) (s : State)
  | stop (f : Fault)
  | refuse (r : Refusal)
deriving DecidableEq, Repr

/-- After channel `ch`: the next channel, or the end of the loop (R105). -/
def updateNext (ch : Nat) (s : State) : UpdateFlow :=
  if ch + 1 < s.drvNumCh.toNat then .go (.chan (ch + 1)) s else .fin .ok s

/-- A bus read inside `UPDATE`. -/
def updateRead (w : Who) (r : Reg) (s : State) (k : Word → State → UpdateFlow) : UpdateFlow :=
  match busRead w r s with
  | .ok x => k x.1 x.2
  | .error f => .stop f

/-- After the transfer-done part of channel `ch`: the last-element part, or the acknowledge (R105). -/
def updateAfterDone (ch : Nat) (st : Word) (d : Option Nat) (s : State) : UpdateFlow :=
  if st.getLsbD 1 then .go (.markLast ch st d) s else .go (.ack ch st d) s

/-- The callback of the slot's descriptor, if it has one. -/
def State.slotCb (s : State) (d : Option Nat) : Option (Nat × Cb) :=
  match d with
  | none => none
  | some r =>
    match s.descs[r]? with
    | none => none
    | some x => x.fields.cb.map fun cb => (r, cb)

/-- One step of `UPDATE` at position `u`, run by `w` (R105). -/
def updateStep (w : Who) (u : UpdatePos) (s : State) : UpdateFlow :=
  match u with
  | .enter =>
      if s.drvUsable then
        if s.mgr.present then .go .gstatus s else .stop (.managerUninit w.noAddr)
      else .fin .unusable s
  | .gstatus => updateRead w .gstatus s fun g t =>
      if g.getLsbD 0 || g.getLsbD 1 then
        if 0 < t.drvNumCh.toNat then .go (.chan 0) t else .fin .ok t
      else .fin .ok t
  | .chan ch => updateRead w (.chIstat ch) s fun st t =>
      if st.getLsbD 0 then .go (.markDone ch st (t.slot ch)) t
      else if st.getLsbD 1 then .go (.markLast ch st (t.slot ch)) t
      else updateNext ch t
  | .markDone ch st d =>
      let t := s.setDoneMask (s.mgr.doneMask ||| bit ch)
      match d with
      | some r => .go (.readLen ch st r) t
      | none => updateAfterDone ch st none t
  | .readLen ch st r => updateRead w (.chDoneLen ch) s fun n t => .go (.setTransferred ch st r n) t
  | .setTransferred ch st r n => .go (.setDone ch st r) (s.setDescTransferred r n)
  | .setDone ch st r => updateAfterDone ch st (some r) (s.setDescDone r true)
  | .markLast ch st d => .go (.ack ch st d) (s.setLastMask (s.mgr.lastMask ||| bit ch))
  | .ack ch st d =>
      match busWrite w (.chIstat ch) st s with
      | .error f => .stop f
      | .ok t =>
        match t.slotCb d with
        | some c => .go (.callback ch c.1) t
        | none => updateNext ch t
  | .callback ch r =>
      match s.slotCb (some r) with
      | none => updateNext ch s
      | some c =>
        match runCallback w r c.2 s with
        | .ok t => updateNext ch t
        | .error e => .refuse e

/-- The position of `UPDATE` an operation is at, where it runs `UPDATE` directly. -/
def State.updatePos (s : State) : UpdatePos :=
  match s.pos with
  | .updating u => u
  | _ => .enter

/-- One step of `UPDATE` inside operation `i`: positions are wrapped by `q`, and its end is `k`. -/
def runUpdate (w : Who) (u : UpdatePos) (q : UpdatePos → Pos) (k : ResCode → State → Out) (s : State) : Out :=
  match updateStep w u s with
  | .go u' t => goOn (q u') t
  | .fin c t => k c t
  | .stop f => .fault f
  | .refuse r => .refused r

/-- `UPDATE` (R105). A nonzero idx is checked before `Unusable` and `Fault(ManagerUninit)` (DESIGN CHOICE, log entry
11). -/
def execUpdate (z : Idx) (s : State) : Out :=
  guardZero (.update z) z s <|
    runUpdate (s.who (.update z)) s.updatePos .updating (fun c t => done (.code c) t) s

end Sys2Proof.Machine
end

