-- ==== Sys2Proof/Machine/Irq.lean ====
section
/-! DEFINITION. The dispatch point and the interrupt entry's operation: DISPATCH and IRQ_ENTRY (R132, R133). -/

namespace Sys2Proof.Machine

open Sys2Proof

/-- `DISPATCH s` (R132): the DMA source runs `UPDATE`, whose result is discarded; every other source is ignored. -/
def execDispatch (n : Idx) (s : State) : Out :=
  if n.toNat = s.cfg.dmaIrqSource then
    runUpdate (s.who (.dispatch n)) s.updatePos .updating (fun _ t => done .unit t) s
  else done .unit s

/-- `IRQ_ENTRY` after its dispatch: the banked variant completes the source, the built-in one returns (R133). -/
def irqAfter (src : Nat) (s : State) : Out :=
  match s.cfg.variant with
  | .banked => goOn (.irqComplete src) s
  | .builtIn => done .unit s

/-- `IRQ_ENTRY` after Irq(s) is recorded: the dispatch point is called with `src` (R132, R133). -/
def irqDispatch (src : Nat) (s : State) : Out :=
  if src = s.cfg.dmaIrqSource then goOn (.irqUpdate src .enter) s else irqAfter src s

/-- The first step of `IRQ_ENTRY`: the claim, or the read of the pending CSR (R133). -/
def irqFirst (i : Instr) (s : State) : Out :=
  match s.cfg.variant with
  | .banked => readStep i .claim s fun n t => if n = 0 then done .unit t else goOn (.irqEmit n.toNat) t
  | .builtIn => orFault (csrRead (s.who i) s.cfg.csrIrqPending s) fun x => goOn (.irqReadMask x) s

/-- `IRQ_ENTRY` (R133). -/
def execIrqEntry (z : Idx) (s : State) : Out :=
  guardZero (.irqEntry z) z s <|
    match s.pos with
    | .irqReadMask x => orFault (csrRead (s.who (.irqEntry z)) s.cfg.csrIrqMask s) fun m =>
        match lowestBit (x &&& m) with
        | none => done .unit s
        | some n => goOn (.irqEmit n) s
    | .irqEmit n => irqDispatch n (s.emit (.irq n))
    | .irqUpdate n u => runUpdate (s.who (.irqEntry z)) u (.irqUpdate n) (fun _ t => irqAfter n t) s
    | .irqComplete n => writeStep (.irqEntry z) .claim (BitVec.ofNat 32 n) s (done .unit)
    | _ => irqFirst (.irqEntry z) s

end Sys2Proof.Machine
end

