-- ==== Sys2Proof/Machine/Plic.lean ====
section
/-! DEFINITION. The banked interrupt controller's register family: PRD_PRIO to PWR_CLAIM (R113 to R122). -/

namespace Sys2Proof.Machine

open Sys2Proof

/-- `PRD_PRIO s` (R115). -/
def execPrdPrio (n : Idx) (s : State) : Out :=
  guardUnit (.prdPrio n) .banked s (readOp (.prdPrio n) (.prio n.toNat) s)

/-- `PWR_PRIO s, v` (R116). -/
def execPwrPrio (n : Idx) (v : Word) (s : State) : Out :=
  guardUnit (.pwrPrio n v) .banked s (writeOp (.pwrPrio n v) (.prio n.toNat) v s)

/-- `PRD_PEND b` (R117): the read does not claim. -/
def execPrdPend (b : Idx) (s : State) : Out :=
  guardUnit (.prdPend b) .banked s (readOp (.prdPend b) (.pend b.toNat) s)

/-- `PWR_PEND b, v` (R118): a write of a read-only register. -/
def execPwrPend (b : Idx) (v : Word) (s : State) : Out :=
  guardUnit (.pwrPend b v) .banked s (writeOp (.pwrPend b v) (.pend b.toNat) v s)

/-- `PRD_EN b` (R119). -/
def execPrdEn (b : Idx) (s : State) : Out :=
  guardUnit (.prdEn b) .banked s (readOp (.prdEn b) (.en b.toNat) s)

/-- `PWR_EN b, v` (R120). -/
def execPwrEn (b : Idx) (v : Word) (s : State) : Out :=
  guardUnit (.pwrEn b v) .banked s (writeOp (.pwrEn b v) (.en b.toNat) v s)

/-- `PRD_THR` (R121). -/
def execPrdThr (z : Idx) (s : State) : Out :=
  guardUnit (.prdThr z) .banked s (guardZero (.prdThr z) z s (readOp (.prdThr z) .thr s))

/-- `PWR_THR v` (R122). -/
def execPwrThr (z : Idx) (v : Word) (s : State) : Out :=
  guardUnit (.pwrThr z v) .banked s (guardZero (.pwrThr z v) z s (writeOp (.pwrThr z v) .thr v s))

/-- `PRD_CLAIM` (R113): claims the best eligible source. -/
def execPrdClaim (z : Idx) (s : State) : Out :=
  guardUnit (.prdClaim z) .banked s (guardZero (.prdClaim z) z s (readOp (.prdClaim z) .claim s))

/-- `PWR_CLAIM v` (R114): completes the service of source `v`. -/
def execPwrClaim (z : Idx) (v : Word) (s : State) : Out :=
  guardUnit (.pwrClaim z v) .banked s (guardZero (.pwrClaim z v) z s (writeOp (.pwrClaim z v) .claim v s))

end Sys2Proof.Machine
end

