-- ==== Sys2Proof/Machine/Stream.lean ====
section
/-! DEFINITION. The Stream Endpoint family: SRD_CTRL to SWR_DATA, IS_READY, POLL_AND_TRANSFER (R65 to R74). -/

namespace Sys2Proof.Machine

open Sys2Proof

/-- `SRD_CTRL e` (R65). -/
def execSrdCtrl (e : Idx) (s : State) : Out := readOp (.srdCtrl e) (.streamCtrl e.toNat) s

/-- `SWR_CTRL e, v` (R66): pulses DO_TRANSFER when bit 1 of `v` is set. -/
def execSwrCtrl (e : Idx) (v : Word) (s : State) : Out := writeOp (.swrCtrl e v) (.streamCtrl e.toNat) v s

/-- `SRD_DATA e` (R67). -/
def execSrdData (e : Idx) (s : State) : Out := readOp (.srdData e) (.streamData e.toNat) s

/-- `SWR_DATA e, v` (R68). -/
def execSwrData (e : Idx) (v : Word) (s : State) : Out := writeOp (.swrData e v) (.streamData e.toNat) v s

/-- `IS_READY e` (R73): one bus read of the control word, answering its READY bit. -/
def execIsReady (e : Idx) (s : State) : Out :=
  readStep (.isReady e) (.streamCtrl e.toNat) s fun w t => done (.bool (w.getLsbD 0)) t

/-- `POLL_AND_TRANSFER e` (R74): one read per iteration until READY, then one write of the pulse. -/
def execPollAndTransfer (e : Idx) (s : State) : Out :=
  match s.pos with
  | .pulse => writeStep (.pollAndTransfer e) (.streamCtrl e.toNat) pulseWord s (done .unit)
  | _ => readStep (.pollAndTransfer e) (.streamCtrl e.toNat) s fun w t =>
      if w.getLsbD 0 then goOn .pulse t else goOn .start t

end Sys2Proof.Machine
end

