-- ==== Sys2Proof/Machine/Transfer.lean ====
section
/-! DEFINITION. The Transfer Engine family: DESC_NEW, BEGIN, COMPLETE, CANCEL (R99 to R103). One step is one bus
access, one manager or descriptor assignment, one test of d.done, one callback, or the entry checks (log entry 9). -/

namespace Sys2Proof.Machine

open Sys2Proof

/-- `DESC_NEW ch, d, ...` (R99): no bus access. -/
def execDescNew (ch : Idx) (d : Nat) (f : DescFields) (s : State) : Out :=
  guardIdx (.descNew ch d f) (ch.toNat < s.cfg.numCh) s
    (done (.ref s.descs.length) (s.newDesc d { ch := ch.toNat, fields := f, done := false, transferred := 0 }))

/-- Where `BEGIN` goes after the validation read answered `c` (R101 steps 2 to 4). -/
def beginValidated (i : Instr) (r : Nat) (x : Desc) (c : Word) (s : State) : Out :=
  if c.getLsbD 4 ≠ x.fields.dir then done (.code .wrongDirection) s
  else if c.getLsbD 6 = false then done (.code .notReady) s
  else match x.fields.mode with
    | .polling => goOn (.begun r .irqRead) s
    | .interrupt =>
      if x.fields.mgr then
        if s.mgr.present then goOn (.begun r .slot) s else .fault (.managerUninit (s.who i).noAddr)
      else done (.code .noManager) s

/-- The local masks `BEGIN` sets: both in polling mode, transfer-done in interrupt mode (R101 step 4). -/
def beginIrqMask (m : XferMode) : Word :=
  match m with
  | .polling => mIrqDone ||| mIrqLast
  | .interrupt => mIrqDone

/-- `BEGIN`'s new DMA_GMASK: bit `ch` cleared in polling mode, set in interrupt mode (R101 step 4). -/
def beginGmask (m : XferMode) (ch : Nat) (v : Word) : Word :=
  match m with
  | .polling => v &&& ~~~bit ch
  | .interrupt => v ||| bit ch

/-- `ASSIGNBIT(CH_CTRL(ch), M_MODE, d.ignore)` on the value read (R64, R101 step 5). -/
def assignMode (ignore : Bool) (v : Word) : Word := if ignore then v ||| mMode else v &&& ~~~mMode

/-- One step of `BEGIN` at position `p`, descriptor `x` at reference `r` (R101). -/
def beginStep (i : Instr) (r : Nat) (x : Desc) (p : BeginPos) (s : State) : Out :=
  let ch := x.ch
  match p with
  | .wait => readStep i (.chCtrl ch) s fun c t =>
      if c.getLsbD 6 then goOn (.begun r .validate) t else goOn (.begun r .wait) t
  | .validate => readStep i (.chCtrl ch) s fun c t => beginValidated i r x c t
  | .slot => goOn (.begun r .clearDoneMask) (s.setSlot ch (some r))
  | .clearDoneMask => goOn (.begun r .clearLastMask) (s.setDoneMask (s.mgr.doneMask &&& ~~~bit ch))
  | .clearLastMask => goOn (.begun r .gmaskRead) (s.setLastMask (s.mgr.lastMask &&& ~~~bit ch))
  | .gmaskRead => readStep i .gmask s fun v t => goOn (.begun r (.gmaskWrite v)) t
  | .gmaskWrite v => writeStep i .gmask (beginGmask x.fields.mode ch v) s
      (goOn (.begun r (match x.fields.mode with | .polling => .modeRead | .interrupt => .irqRead)))
  | .irqRead => readStep i (.chCtrl ch) s fun v t => goOn (.begun r (.irqWrite v)) t
  | .irqWrite v => writeStep i (.chCtrl ch) (v ||| beginIrqMask x.fields.mode) s
      (goOn (.begun r (match x.fields.mode with | .polling => .gmaskRead | .interrupt => .modeRead)))
  | .modeRead => readStep i (.chCtrl ch) s fun v t => goOn (.begun r (.modeWrite v)) t
  | .modeWrite v => writeStep i (.chCtrl ch) (assignMode x.fields.ignore v) s
      (goOn (.begun r (if x.fields.ignore then .len else .base)))
  | .base => writeStep i (.chBase ch) x.fields.ptr s (goOn (.begun r .len))
  | .len => writeStep i (.chLen ch) x.fields.len s (goOn (.begun r .clearDone))
  | .clearDone => goOn (.begun r .goRead) (s.setDescDone r false)
  | .goRead => readStep i (.chCtrl ch) s fun v t => goOn (.begun r (.goWrite v)) t
  | .goWrite v => writeStep i (.chCtrl ch) (v ||| mTsfr) s (done (.code .ok))

/-- The entry checks of `BEGIN`, in the order of R136: descriptor, usable, channel. -/
def beginEnter (i : Instr) (d : Nat) (s : State) : Out :=
  withDesc i d s fun r x =>
    guardUsable s <|
      guardIdx i (x.ch < s.drvNumCh.toNat) s <|
        goOn (.begun r (match x.fields.mode with | .polling => .wait | .interrupt => .validate)) s

/-- `BEGIN d` (R101). -/
def execBegin (z : Idx) (d : Nat) (s : State) : Out :=
  guardZero (.beginXfer z d) z s <|
    match s.pos with
    | .begun r p => withRef (.beginXfer z d) r s fun x => beginStep (.beginXfer z d) r x p s
    | _ => beginEnter (.beginXfer z d) d s

/-- What `COMPLETE` answers at its end. -/
def completeCode (ok : Bool) : ResCode := if ok then .ok else .timedOut

/-- One step of `COMPLETE` at position `p`, descriptor `x` at reference `r` (R102). -/
def completeStep (i : Instr) (r : Nat) (x : Desc) (p : CompletePos) (s : State) : Out :=
  let ch := x.ch
  match p with
  | .pollForever => readStep i (.chCtrl ch) s fun c t =>
      if c.getLsbD 3 then goOn (.completing r (.readLen true)) t else goOn (.completing r .pollForever) t
  | .poll n => readStep i (.chCtrl ch) s fun c t =>
      if c.getLsbD 3 then goOn (.completing r (.readLen true)) t
      else if n - 1 = 0 then goOn (.completing r (.readLen false)) t
      else goOn (.completing r (.poll (n - 1))) t
  | .waitForever => if x.done then done (.code .ok) s else goOn (.completing r .waitForever) s
  | .wait n =>
      if x.done then done (.code .ok) s
      else if n - 1 = 0 then goOn (.completing r (.readLen false)) s
      else goOn (.completing r (.wait (n - 1))) s
  | .readLen ok => readStep i (.chDoneLen ch) s fun v t => goOn (.completing r (.setTransferred ok v)) t
  | .setTransferred ok v => goOn (.completing r (.setDone ok)) (s.setDescTransferred r v)
  | .setDone ok =>
      if x.fields.cb.isSome then goOn (.completing r (.callback ok)) (s.setDescDone r ok)
      else done (.code (completeCode ok)) (s.setDescDone r ok)
  | .callback ok =>
      match x.fields.cb with
      | none => done (.code (completeCode ok)) s
      | some cb => orRefuse (runCallback (s.who i) r cb s) (done (.code (completeCode ok)))

/-- The entry checks of `COMPLETE`: descriptor, usable, and in the bounded interrupt wait the manager reference. -/
def completeEnter (i : Instr) (d : Nat) (n : Word) (s : State) : Out :=
  withDesc i d s fun r x =>
    guardUsable s <|
      match x.fields.mode with
      | .polling => goOn (.completing r (if n = 0 then .pollForever else .poll n)) s
      | .interrupt =>
        if n = 0 then goOn (.completing r .waitForever) s
        else if x.fields.mgr then goOn (.completing r (.wait n)) s
        else done (.code .noManager) s

/-- `COMPLETE d, t` (R102). -/
def execComplete (z : Idx) (d : Nat) (n : Word) (s : State) : Out :=
  guardZero (.completeXfer z d n) z s <|
    match s.pos with
    | .completing r p => withRef (.completeXfer z d n) r s fun x => completeStep (.completeXfer z d n) r x p s
    | _ => completeEnter (.completeXfer z d n) d n s

/-- `CANCEL d` (R103): the entry checks, then one write of 0 to the channel's control word. -/
def execCancel (z : Idx) (d : Nat) (s : State) : Out :=
  guardZero (.cancelXfer z d) z s <|
    match s.pos with
    | .cancelWrite r => withRef (.cancelXfer z d) r s fun x =>
        writeStep (.cancelXfer z d) (.chCtrl x.ch) 0 s (done (.code .ok))
    | _ => withDesc (.cancelXfer z d) d s fun r x =>
        guardUsable s (guardIdx (.cancelXfer z d) (x.ch < s.drvNumCh.toNat) s (goOn (.cancelWrite r) s))

end Sys2Proof.Machine
end

