-- ==== Sys2Proof/Machine/Dispatch.lean ====
section
/-! DEFINITION. One arm per operation: the next step of the operation, run by the CPU-side agent that steps. -/

namespace Sys2Proof.Machine

open Sys2Proof

def exec (i : Instr) (s : State) : Host.Outcome State Fault Refusal :=
  match i with
  | .srdCtrl e => Sys2Proof.Machine.execSrdCtrl e s
  | .swrCtrl e v => Sys2Proof.Machine.execSwrCtrl e v s
  | .srdData e => Sys2Proof.Machine.execSrdData e s
  | .swrData e v => Sys2Proof.Machine.execSwrData e v s
  | .drdChcount z => Sys2Proof.Machine.execDrdChcount z s
  | .dwrChcount z v => Sys2Proof.Machine.execDwrChcount z v s
  | .drdChoff z => Sys2Proof.Machine.execDrdChoff z s
  | .dwrChoff z v => Sys2Proof.Machine.execDwrChoff z v s
  | .drdGmask z => Sys2Proof.Machine.execDrdGmask z s
  | .dwrGmask z v => Sys2Proof.Machine.execDwrGmask z v s
  | .drdGstatus z => Sys2Proof.Machine.execDrdGstatus z s
  | .dwrGstatus z v => Sys2Proof.Machine.execDwrGstatus z v s
  | .drdCtrl ch => Sys2Proof.Machine.execDrdCtrl ch s
  | .dwrCtrl ch v => Sys2Proof.Machine.execDwrCtrl ch v s
  | .drdBase ch => Sys2Proof.Machine.execDrdBase ch s
  | .dwrBase ch v => Sys2Proof.Machine.execDwrBase ch v s
  | .drdLen ch => Sys2Proof.Machine.execDrdLen ch s
  | .dwrLen ch v => Sys2Proof.Machine.execDwrLen ch v s
  | .drdDonelen ch => Sys2Proof.Machine.execDrdDonelen ch s
  | .dwrDonelen ch v => Sys2Proof.Machine.execDwrDonelen ch v s
  | .drdIstat ch => Sys2Proof.Machine.execDrdIstat ch s
  | .dwrIstat ch v => Sys2Proof.Machine.execDwrIstat ch v s
  | .prdPrio n => Sys2Proof.Machine.execPrdPrio n s
  | .pwrPrio n v => Sys2Proof.Machine.execPwrPrio n v s
  | .prdPend b => Sys2Proof.Machine.execPrdPend b s
  | .pwrPend b v => Sys2Proof.Machine.execPwrPend b v s
  | .prdEn b => Sys2Proof.Machine.execPrdEn b s
  | .pwrEn b v => Sys2Proof.Machine.execPwrEn b v s
  | .prdThr z => Sys2Proof.Machine.execPrdThr z s
  | .pwrThr z v => Sys2Proof.Machine.execPwrThr z v s
  | .prdClaim z => Sys2Proof.Machine.execPrdClaim z s
  | .pwrClaim z v => Sys2Proof.Machine.execPwrClaim z v s
  | .crdMask z => Sys2Proof.Machine.execCrdMask z s
  | .cwrMask z v => Sys2Proof.Machine.execCwrMask z v s
  | .crdPend z => Sys2Proof.Machine.execCrdPend z s
  | .cwrPend z v => Sys2Proof.Machine.execCwrPend z v s
  | .isReady e => Sys2Proof.Machine.execIsReady e s
  | .pollAndTransfer e => Sys2Proof.Machine.execPollAndTransfer e s
  | .dmaInit z => Sys2Proof.Machine.execDmaInit z s
  | .mgrInit z => Sys2Proof.Machine.execMgrInit z s
  | .descNew ch d f => Sys2Proof.Machine.execDescNew ch d f s
  | .beginXfer z d => Sys2Proof.Machine.execBegin z d s
  | .completeXfer z d t => Sys2Proof.Machine.execComplete z d t s
  | .cancelXfer z d => Sys2Proof.Machine.execCancel z d s
  | .update z => Sys2Proof.Machine.execUpdate z s
  | .icInit z => Sys2Proof.Machine.execIcInit z s
  | .icEnable n => Sys2Proof.Machine.execIcEnable n s
  | .icDisable n => Sys2Proof.Machine.execIcDisable n s
  | .icPriorityCount z => Sys2Proof.Machine.execIcPriorityCount z s
  | .icSetPriority n level => Sys2Proof.Machine.execIcSetPriority n level s
  | .dispatch n => Sys2Proof.Machine.execDispatch n s
  | .irqEntry z => Sys2Proof.Machine.execIrqEntry z s

end Sys2Proof.Machine
end

