-- ==== Sys2Proof/Machine/Engine.lean ====
section
/-! DEFINITION. The steps that have no operation word (R61): the accelerator side of the streams (R69, R70), the DMA
engines (R93 to R96), the gateway (R111), ENV (R33), and the interrupt entry (R138). A step that is not enabled is no
step: the state stays as it is (R14, log entry 6). -/

namespace Sys2Proof.Machine

open Sys2Proof

/-- SP_READY(e): enabled when READY is 0 (R69). -/
def spReady (e : Nat) (s : State) : Out :=
  if e ≤ 1 ∧ (s.ep e).ready = false then .next (s.setEp e { (s.ep e) with ready := true }) else .next s

/-- SP_ERROR(e): ERROR takes a draw (R70). -/
def spError (e : Nat) (s : State) : Out :=
  if e ≤ 1 then .next (s.drew.setEp e { (s.ep e) with error := s.drawBit }) else .next s

/-- E_READY(ch): enabled when Idle with RDY = 0 (R93). -/
def eReady (ch : Nat) (s : State) : Out :=
  if ch < s.cfg.numCh ∧ (s.chan ch).phase = .idle ∧ (s.chan ch).rdy = false then
    .next (s.setChan ch (s.chan ch).raiseReady)
  else .next s

/-- The address of the next byte of a channel's transfer, modulo 2^32 (R94). -/
def Chan.nextAddr (c : Chan) : Word := c.base + c.doneLen

/-- The memory access of E_PROGRESS in store mode: read a byte, or write the byte the accelerator delivers (R94). -/
def moveByte (ch : Nat) (s : State) : State :=
  let a := (s.chan ch).nextAddr
  if Params.dir s.cfg ch then
    let b := Config.dmaOut s.hist s.draws ch
    (s.drew.writeByte a b).emit (.dmaWrite ch a b)
  else
    let x := s.readByte a
    x.2.emit (.dmaRead ch a x.1)

/-- One more byte moved: the done-length grows by 1 (R94). -/
def State.countByte (s : State) (ch : Nat) : State :=
  s.setChan ch { (s.chan ch) with doneLen := (s.chan ch).doneLen + 1 }

/-- E_PROGRESS(ch): enabled when Busy with DONELEN < LEN; moves one byte (R94). The engine reaches ordinary memory
only, so a byte address inside a unit is `Fault(BadAccess)` (R37, R39, log entry 15). -/
def eProgress (ch : Nat) (s : State) : Out :=
  let c := s.chan ch
  if ch < s.cfg.numCh ∧ c.phase = .busy ∧ c.doneLen < c.len then
    if c.mode then .next (s.countByte ch)
    else if s.cfg.inUnit c.nextAddr.toNat then
      .fault (.badAccess { agent := .dmae ch, word := none, addr := some c.nextAddr })
    else .next ((moveByte ch s).countByte ch)
  else .next s

/-- E_LAST(ch): enabled when Busy (R95). -/
def eLast (ch : Nat) (s : State) : Out :=
  if ch < s.cfg.numCh ∧ (s.chan ch).phase = .busy then .next (s.setChan ch (s.chan ch).raiseLast) else .next s

/-- E_COMPLETE(ch): enabled when Busy (R96). -/
def eComplete (ch : Nat) (s : State) : Out :=
  if ch < s.cfg.numCh ∧ (s.chan ch).phase = .busy then .next (s.setChan ch (s.chan ch).completed) else .next s

/-- GW_LATCH(n): the level-sensitive gateway of the banked controller (R111). -/
def gwLatch (n : Nat) (s : State) : Out :=
  if s.cfg.variant = .banked ∧ n ≠ 0 ∧ n < s.cfg.numSources ∧ s.lineLevel n = true ∧
      (s.src n).pending = false ∧ (s.src n).inService = false then
    .next (s.setSrc n { (s.src n) with pending := true })
  else .next s

/-- ENV drives line `n`, other than the DMA line (R33). -/
def envLine (n : Nat) (level : Bool) (s : State) : Out :=
  if n < s.cfg.numSources ∧ n ≠ s.cfg.dmaIrqSource then .next (s.setLine n level) else .next s

/-- ENV drives `cpu_ie` (R33). -/
def envCpuIe (on : Bool) (s : State) : Out := .next (s.setCpuIe on)

/-- Interrupt entry, where it is enabled (R138). -/
def irqTake (s : State) : Out := if s.irqEnabled then .next s.takeIrq else .next s

end Sys2Proof.Machine
end

