-- ==== Sys2Proof/Machine/Plain.lean ====
section
/-! DEFINITION. The items of MAIN's program that are no operation of the block: a plain bus access of the CPU (R10,
R37 to R39), and the execution of code bytes in memory (R50). -/

namespace Sys2Proof.Machine

open Sys2Proof

/-- How many bytes an access of a width moves. -/
def Width.bytes : Width → Nat
  | .byte => 1
  | .half => 2
  | .word => 4

/-- What an access reaches: ordinary memory, a register, or what R39 calls a bad access. -/
inductive Target where
  | memory
  | register (r : Reg)
  | bad
deriving DecidableEq, Repr

/-- What `n` bytes at `a` reach: a unit of the block only as an aligned 32-bit access of a register (R39, R42). -/
def Params.target (p : Params) (a : Word) (n : Nat) : Target :=
  if (List.range n).any fun k => p.inUnit (a + BitVec.ofNat 32 k).toNat then
    if n = 4 ∧ a.toNat % 4 = 0 then
      match p.regAt a.toNat with
      | some r => .register r
      | none => .bad
    else .bad
  else .memory

/-- A plain CPU access runs no operation of the block. -/
def State.plainWho (s : State) : Who := { agent := s.cur, word := none }

/-- `MemRead(a, width)` by the CPU (R10, R38, R39). -/
def plainLoad (a : Word) (width : Width) (s : State) : Out :=
  match Params.target s.cfg a width.bytes with
  | .memory =>
    let x := s.readBytes a width.bytes
    done (.word x.1) (x.2.emit (.bus s.cur false a width.bytes x.1))
  | .register r => orFault (busRead s.plainWho r s) fun x => done (.word x.1) x.2
  | .bad => .fault (.badAccess (s.plainWho.atAddr a))

/-- `MemWrite(a, width, v)` by the CPU (R10, R38, R39). The spec lists no narrow width; DESIGN CHOICE: the history records
the whole 32-bit `v` the program gave, and the width, also where only its low bytes are stored (log entries 13, 17). -/
def plainStore (a : Word) (width : Width) (v : Word) (s : State) : Out :=
  match Params.target s.cfg a width.bytes with
  | .memory => done .unit ((s.writeBytes a v width.bytes).emit (.bus s.cur true a width.bytes v))
  | .register r => orFault (busWrite s.plainWho r v s) (done .unit)
  | .bad => .fault (.badAccess (s.plainWho.atAddr a))

/-- Whether the latest write of byte `a` in a history (newest event first) was an engine's (R50). -/
def dmaWrote (a : Word) : List Event → Bool
  | [] => false
  | .dmaWrite _ x _ :: rest => if x = a then true else dmaWrote a rest
  | .bus _ wr x n _ :: rest => if wr && (a - x).toNat < n then false else dmaWrote a rest
  | .streamIn _ :: rest => dmaWrote a rest
  | .streamOut _ :: rest => dmaWrote a rest
  | .dmaRead _ _ _ :: rest => dmaWrote a rest
  | .callback _ _ :: rest => dmaWrote a rest
  | .irq _ :: rest => dmaWrote a rest

/-- The CPU executes `n` code bytes at `a`: refused where a DMA engine wrote one of them (R50). Its own instructions
are no part of the block (R2), so it has no effect here (log entry 18). -/
def plainRunCode (a : Word) (n : Nat) (s : State) : Out :=
  match (List.range n).find? fun k => dmaWrote (a + BitVec.ofNat 32 k) s.hist with
  | some k => .refused (.execDmaData (a + BitVec.ofNat 32 k))
  | none => done .unit s

end Sys2Proof.Machine
end

