-- ==== Sys2Proof/Machine/Cpu.lean ====
section
/-! DEFINITION. A step of the CPU-side agents (the fetch of the item MAIN executes), a step of any agent, and the
choice of the next one. -/

namespace Sys2Proof.Machine

open Sys2Proof

/-- The next step of the item `MAIN` is executing: an operation word is decoded, and an unlisted op code is refused
(R59). -/
def itemStep (m : Item) (s : State) : Out :=
  match m with
  | .op w a =>
    match decode w a with
    | .ok i => exec i s
    | .error (.unknownOp w) => .refused (.unknownOp w)
  | .load a width => plainLoad a width s
  | .store a width v => plainStore a width v s
  | .runCode a n => plainRunCode a n s

/-- A step of the CPU: of `ISR`, which runs `IRQ_ENTRY`, while an interrupt is in service, else of `MAIN` (R44). A
`MAIN` at the end of its program takes no step (R165). -/
def cpuStep (s : State) : Out :=
  if s.isrActive then exec (.irqEntry 0) s
  else match s.prog with
    | [] => .next s
    | m :: _ => itemStep m s

/-- The step a choice names (R6, R44). -/
def stepOf (c : Choice) (s : State) : Out :=
  match c with
  | .cpu => cpuStep s
  | .irqEntry => irqTake s
  | .spReady e => spReady e s
  | .spError e => spError e s
  | .eReady ch => eReady ch s
  | .eProgress ch => eProgress ch s
  | .eLast ch => eLast ch s
  | .eComplete ch => eComplete ch s
  | .gwLatch n => gwLatch n s
  | .envLine n level => envLine n level s
  | .envCpuIe on => envCpuIe on s

/-- The next choice of the interleaving: the first scheduled one, else any choice whatever (log entry 5). -/
def State.choice (s : State) : Choice :=
  match s.sched with
  | c :: _ => c
  | [] => Config.schedule s.ticks

/-- The choice has been made. -/
def State.chosen (s : State) : State :=
  match s.sched with
  | _ :: rest => { s with sched := rest }
  | [] => { s with ticks := s.ticks + 1 }

/-- Place an operation word with zero arguments as the item `MAIN` executes next, from its first step, and schedule
the CPU next (log entry 7). -/
def State.placeOp (s : State) (w : OpWord) : State :=
  { s with prog := .op w {} :: s.prog.tail, mainPos := .start, isrActive := false, sched := .cpu :: s.sched }

end Sys2Proof.Machine
end

