-- ==== Sys2Proof/Machine/Step.lean ====
section
/-! DEFINITION. The step: one step of the agent the interleaving chooses (R6, R44), and the placing of a table word
where the next step fetches. -/

namespace Sys2Proof.Machine

open Sys2Proof

/-- One step of the machine. -/
def step (s : State) : Host.Outcome State Fault Refusal := stepOf s.choice s.chosen

/-- The state with the instruction whose bits are `w` (the bits at or above `nbits` zero) where the next step
fetches: the first item of `MAIN`'s program, which is loaded from outside the block (log entry 7). -/
def State.withFetchWord (s : State) (nbits w : Nat) : State := s.placeOp (BitVec.ofNat 32 (w % 2 ^ nbits))

end Sys2Proof.Machine
end

