-- ==== Sys2Proof/Safety.lean ====
section
/-! DEFINITION. The terms the statements use: reading an outcome, the uninterrupted run of one operation, the
invariants, the end of a run (R165), and the named fairness premises (R98, R138). -/

namespace Sys2Proof.Machine

open Sys2Proof

/-! ### Outcomes -/

/-- The outcome is a next state with property `f`. -/
def nextHas (o : Out) (f : State → Bool) : Bool :=
  match o with
  | .next t => f t
  | .fault _ => false
  | .refused _ => false

/-- The outcome is this fault. -/
def faultsWith (o : Out) (f : Fault) : Bool :=
  match o with
  | .next _ => false
  | .fault g => g = f
  | .refused _ => false

/-- The outcome is this refusal. -/
def refusesWith (o : Out) (r : Refusal) : Bool :=
  match o with
  | .next _ => false
  | .fault _ => false
  | .refused q => q = r

/-- The cause codes of R135. -/
def Fault.code : Fault → Nat
  | .badIndex _ => 1
  | .badAccess _ => 2
  | .writeReadOnly _ => 3
  | .streamPulseNotReady _ => 4
  | .dmaGoNotReady _ => 5
  | .dmaWriteWhileBusy _ => 6
  | .dmaUnaligned _ => 7
  | .managerUninit _ => 8
  | .priorityRange _ => 9
  | .badComplete _ => 10
  | .noSuchUnit _ => 11
  | .badDescriptor _ => 12

/-- The values of the result codes (R134). -/
def ResCode.value : ResCode → Nat
  | .ok => 0
  | .wrongDirection => 1
  | .notReady => 2
  | .timedOut => 3
  | .noManager => 4
  | .unimplemented => 5
  | .unusable => 6

/-- The op codes of R60. -/
def opCodes : List Nat :=
  [0x01, 0x02, 0x03, 0x04] ++ List.range' 0x10 18 ++ List.range' 0x30 10 ++ List.range' 0x40 4 ++ [0x80, 0x81] ++
    List.range' 0x90 7 ++ List.range' 0xA0 5 ++ [0xA8, 0xA9]

/-! ### The latest write of a byte (R36, R50) -/

/-- The event is a write of the byte at `x`, by an engine or by a bus access. -/
def eventWrites (x : Word) : Event → Bool
  | .bus _ wr a n _ => wr && decide ((x - a).toNat < n)
  | .dmaWrite _ a _ => x = a
  | .streamIn _ => false
  | .streamOut _ => false
  | .dmaRead _ _ _ => false
  | .callback _ _ => false
  | .irq _ => false

/-- The latest write of the byte at `x` in a history (newest first) is a DMA engine's. -/
def EngineWroteLast (x : Word) (h : List Event) : Prop :=
  ∃ later ch b earlier, h = later ++ .dmaWrite ch x b :: earlier ∧ ∀ e ∈ later, eventWrites x e = false

/-- The latest write of the byte at `x` in a history (newest first) is a bus access's. -/
def StoreWroteLast (x : Word) (h : List Event) : Prop :=
  ∃ later g a n v earlier, h = later ++ .bus g true a n v :: earlier ∧ (x - a).toNat < n ∧
    ∀ e ∈ later, eventWrites x e = false

/-! ### Running one operation -/

/-- `n` steps of operation `i` with no step of another agent between them. -/
def runOp (i : Instr) : Nat → State → Out
  | 0, s => .next s
  | n + 1, s =>
    match exec i s with
    | .next t => runOp i n t
    | .fault f => .fault f
    | .refused r => .refused r

/-- The steps the choices `cs` name, one after the other. -/
def runChoices : List Choice → State → Out
  | [], s => .next s
  | c :: cs, s =>
    match stepOf c s with
    | .next t => runChoices cs t
    | .fault f => .fault f
    | .refused r => .refused r

/-- What a fault of operation `i` records where it has no bus address (R135). -/
def State.infoOf (s : State) (i : Instr) : FaultInfo := { agent := s.cur, word := some (encode i), addr := none }

/-- What a fault of operation `i` records at register `r` (R135). -/
def State.infoAt (s : State) (i : Instr) (r : Reg) : FaultInfo :=
  { agent := s.cur, word := some (encode i), addr := some (r.addr s.cfg) }

/-- The record of a read of register `r` that answered `v`, by the CPU-side agent that steps. -/
def State.sawRead (s : State) (r : Reg) (v : Word) : State := s.emit (.bus s.cur false (r.addr s.cfg) 4 v)

/-- The record of a write of `v` to register `r`, by the CPU-side agent that steps. -/
def State.sawWrite (s : State) (r : Reg) (v : Word) : State := s.emit (.bus s.cur true (r.addr s.cfg) 4 v)

/-- The record of `n` reads of register `r` that all answered `v`. -/
def State.sawReads (s : State) (r : Reg) (v : Word) : Nat → State
  | 0 => s
  | n + 1 => (s.sawRead r v).sawReads r v n

/-- The record of a write that is made only where `b` holds. -/
def State.sawWriteIf (s : State) (b : Bool) (r : Reg) (v : Word) : State := if b then s.sawWrite r v else s

/-- The record of a callback of descriptor `r`, made only where it has one (R100). -/
def State.calledBack (s : State) (r : Nat) (cb : Option Cb) : State :=
  if cb.isSome then s.emit (.callback r s.cur) else s

/-- No callback, or one whose body does not re-enter the block (R100). -/
abbrev CbReturns (cb : Option Cb) : Prop := ∀ c, cb = some c → c.reenters = false

/-- What the two states agree on where only `MAIN` or `ISR` bookkeeping (positions, program, result), the history and
the count of draws differ: every register of the block, every descriptor, all of memory, the scheduler's data. -/
abbrev State.sameBlock (s t : State) : Prop :=
  t.cfg = s.cfg ∧ t.ep0 = s.ep0 ∧ t.ep1 = s.ep1 ∧ t.gmask = s.gmask ∧ t.chans = s.chans ∧
  t.drvUsable = s.drvUsable ∧ t.drvNumCh = s.drvNumCh ∧ t.mgr = s.mgr ∧ t.descs = s.descs ∧ t.binds = s.binds ∧
  t.srcs = s.srcs ∧ t.thr = s.thr ∧ t.icMask = s.icMask ∧ t.lines = s.lines ∧ t.cpuIe = s.cpuIe ∧ t.mem = s.mem ∧
  t.sched = s.sched ∧ t.ticks = s.ticks

/-! ### The service of one channel, as one function (R105) -/

/-- The transfer-done part of the loop body of `UPDATE` for channel `ch` (R105). -/
def State.serviceDone (s : State) (ch : Nat) : State :=
  if (s.chan ch).istDone then
    let m := s.setDoneMask (s.mgr.doneMask ||| bit ch)
    match s.slot ch with
    | none => m
    | some r =>
      ((m.sawRead (.chDoneLen ch) (s.chan ch).doneLen).setDescTransferred r (s.chan ch).doneLen).setDescDone r true
  else s

/-- The last-element part (R105). -/
def State.serviceLast (s : State) (ch : Nat) : State :=
  if (s.chan ch).istLast then s.setLastMask (s.mgr.lastMask ||| bit ch) else s

/-- The callback of the slot's descriptor, if it has one, is recorded (R105). -/
def State.serviceCallback (s : State) (d : Option Nat) : State :=
  match s.slotCb d with
  | none => s
  | some x => s.emit (.callback x.1 s.cur)

/-- The acknowledge and the callback, where any event fired (R105). -/
def State.serviceAck (s : State) (ch : Nat) : State :=
  if (s.chan ch).istDone || (s.chan ch).istLast then
    ((s.sawWrite (.chIstat ch) (s.istatWord ch)).setChan ch
      { (s.chan ch) with istDone := false, istLast := false }).serviceCallback (s.slot ch)
  else s

/-- What `UPDATE` does to channel `ch` from its status read to its callback, when no other agent steps between: the
clear reading of the loop body of R105, to which the step-by-step `updateStep` is compared. -/
def State.serviceChan (s : State) (ch : Nat) : State :=
  (((s.sawRead (.chIstat ch) (s.istatWord ch)).serviceDone ch).serviceLast ch).serviceAck ch

/-- `serviceChan` of the channels `0` to `n-1` in ascending order (R105, R106). -/
def State.serviceAll (s : State) (n : Nat) : State := (List.range n).foldl State.serviceChan s

/-- No callback a slot's descriptor carries re-enters the block (R100). -/
abbrev State.CallbacksReturn (s : State) : Prop := ∀ ch x, s.slotCb (s.slot ch) = some x → x.2.reenters = false

/-! ### Invariants -/

/-- The tables have the sizes the parameters give them. -/
abbrev State.Sized (s : State) : Prop :=
  s.chans.length = s.cfg.numCh ∧ s.srcs.length = s.cfg.numSources ∧ s.mgr.slots.length = s.cfg.numCh ∧
  s.lines.length = s.cfg.numSources

/-- The invariants of R26 for one channel, the done-length bound while Busy (log entry 23). -/
abbrev Chan.Lawful (c : Chan) : Prop :=
  (c.phase = .busy → c.tsfr = true ∧ c.tsfrDone = false ∧ c.rdy = false ∧ c.doneLen ≤ c.len) ∧
  (c.phase = .idle → c.tsfr = false)

/-- Every channel meets R26. -/
abbrev State.ChansLawful (s : State) : Prop := ∀ c ∈ s.chans, c.Lawful

/-- The reserved bits of DMA_GMASK and of the output slot are 0 (R20, R22). -/
abbrev State.ReservedZero (s : State) : Prop :=
  (∀ k < 32, s.cfg.numCh ≤ k → s.gmask.getLsbD k = false) ∧
  (∀ k < 32, s.cfg.sw + s.cfg.cw + 1 ≤ k → s.ep1.data.getLsbD k = false)

/-- No source is pending and in service at once, every priority is in range, and source 0 is never enabled, pending
or in service (R31, R111, R113). -/
abbrev State.SourcesLawful (s : State) : Prop :=
  (∀ x ∈ s.srcs, (x.pending && x.inService) = false ∧ x.prio ≤ s.cfg.priorityLevels) ∧
  ((s.src 0).en = false ∧ (s.src 0).pending = false ∧ (s.src 0).inService = false)

/-- Every descriptor is on a channel that exists, and every slot and every bound name refers to a created one. -/
abbrev State.DescsLawful (s : State) : Prop :=
  (∀ x ∈ s.descs, x.ch < s.cfg.numCh) ∧ (∀ r, some r ∈ s.mgr.slots → r < s.descs.length) ∧
  (∀ b ∈ s.binds, b.2 < s.descs.length)

/-- The invariant of the machine: sizes, R26, reserved bits, sources, descriptors, and memory in canonical form. -/
abbrev State.Inv (s : State) : Prop :=
  s.Sized ∧ s.ChansLawful ∧ s.ReservedZero ∧ s.SourcesLawful ∧ s.DescsLawful ∧ Mem.wf s.mem

/-- The channel whose event or acknowledge an `UPDATE` position is about exists. -/
def UpdatePos.ChanExists (p : Params) : UpdatePos → Prop
  | .enter => True
  | .gstatus => True
  | .chan _ => True
  | .markDone ch _ _ => ch < p.numCh
  | .readLen ch _ _ => ch < p.numCh
  | .setTransferred ch _ _ _ => ch < p.numCh
  | .setDone ch _ _ => ch < p.numCh
  | .markLast ch _ _ => ch < p.numCh
  | .ack ch _ _ => ch < p.numCh
  | .callback ch _ => ch < p.numCh

/-- That, for a position inside `UPDATE`, wherever it runs. -/
def Pos.UpdateChanExists (p : Params) : Pos → Prop
  | .updating u => u.ChanExists p
  | .irqUpdate _ u => u.ChanExists p
  | _ => True

/-- R109: the tracker's masks have no bit at or above NUM_CH. -/
def State.MasksInRange (s : State) : Prop :=
  (∀ k < 32, s.cfg.numCh ≤ k → s.mgr.doneMask.getLsbD k = false ∧ s.mgr.lastMask.getLsbD k = false) ∧
  s.mainPos.UpdateChanExists s.cfg ∧ s.isrPos.UpdateChanExists s.cfg

/-- What `DMA_INIT` has read so far is what the header reports (R75, R77, R78). -/
def State.InitRead (s : State) : Pos → Prop
  | .initReadOff n => n = BitVec.ofNat 32 s.cfg.numCh
  | .initNumCh n o => n = BitVec.ofNat 32 s.cfg.numCh ∧ o = s.cfg.hwChOffset
  | .initUsable o => s.drvNumCh = BitVec.ofNat 32 s.cfg.numCh ∧ o = s.cfg.hwChOffset
  | _ => True

/-- A usable controller passed the self-check, and `drv.num_ch` is NUM_CH (R28, R75). -/
def State.DriverLawful (s : State) : Prop :=
  (s.drvUsable = true → s.drvNumCh = BitVec.ofNat 32 s.cfg.numCh ∧ s.cfg.hwChOffset = chArrayOffset) ∧
  s.InitRead s.mainPos

/-- The item `MAIN` is executing decodes to operation `i`. -/
def State.MainRuns (s : State) (i : Instr) : Prop :=
  ∃ w a rest, s.prog = .op w a :: rest ∧ decode w a = .ok i

/-- R74: where `MAIN` is about to pulse in `POLL_AND_TRANSFER`, the endpoint is ready. -/
def State.PulseReady (s : State) : Prop :=
  s.mainPos = .pulse → ∀ e, s.MainRuns (.pollAndTransfer e) → (s.ep e.toNat).ready = true

/-- A position of `BEGIN` after its validation read. -/
def BeginPos.validated : BeginPos → Bool
  | .wait => false
  | .validate => false
  | _ => true

/-- The CH_CTRL value a `BEGIN` position carries. -/
def BeginPos.ctrl? : BeginPos → Option Word
  | .irqWrite v => some v
  | .modeWrite v => some v
  | .goWrite v => some v
  | _ => none

/-- R49, R101: from `BEGIN`'s validation to its go write the channel is Idle with RDY = 1, and every CH_CTRL value
`BEGIN` holds has RDY = 1 and TSFR = 0. -/
def State.BeginHolds (s : State) : Prop :=
  ∀ r p d z, s.mainPos = .begun r p → p.validated = true → s.MainRuns (.beginXfer z d) →
    ∃ x, s.descs[r]? = some x ∧ x.ch < s.cfg.numCh ∧ (s.chan x.ch).phase = .idle ∧ (s.chan x.ch).rdy = true ∧
      ∀ v, p.ctrl? = some v → v.getLsbD 6 = true ∧ v.getLsbD 2 = false

/-! ### The end of a run, and the named premises -/

/-- The run has ended (R165). -/
abbrev State.Ended (s : State) : Prop := s.prog = [] ∧ s.isrActive = false

/-- QUIESCENT (R165): every channel Idle and `dma_irq` low. -/
abbrev State.Quiescent (s : State) : Prop := (∀ c ∈ s.chans, c.phase = .idle) ∧ s.dmaIrq = false

/-- An infinite run of the machine (a hang, R163, is one). -/
def IsRun (r : Nat → State) : Prop := ∀ n, step (r n) = .next (r (n + 1))

/-- A choice that stays enabled from some point on is taken from there. -/
def Fair (r : Nat → State) (c : Choice) (enabled : State → Prop) : Prop :=
  ∀ n, (∀ m, n ≤ m → enabled (r m)) → ∃ m, n ≤ m ∧ (r m).choice = c

/-- FAIR_RDY(ch) (R98). -/
def FairRdy (ch : Nat) (r : Nat → State) : Prop :=
  Fair r (.eReady ch) fun s => ch < s.cfg.numCh ∧ (s.chan ch).phase = .idle ∧ (s.chan ch).rdy = false

/-- The next step is E_COMPLETE(ch), enabled (R96). -/
def State.Completes (s : State) (ch : Nat) : Prop :=
  s.choice = .eComplete ch ∧ ch < s.cfg.numCh ∧ (s.chan ch).phase = .busy

/-- FAIR_DONE(ch) (R98): a Busy channel eventually completes, that is its E_COMPLETE is taken while it is still Busy with
that transfer. DESIGN CHOICE: an abort before completion (R97) does not discharge the premise, so a run that aborts a
transfer of `ch` does not meet it (log entry 35). -/
def FairDone (ch : Nat) (r : Nat → State) : Prop :=
  ∀ n, ((r n).chan ch).phase = .busy →
    ∃ m, n ≤ m ∧ (∀ k, n ≤ k → k ≤ m → ((r k).chan ch).phase = .busy) ∧ (r m).Completes ch

/-- FAIR_STREAM(e) (R98). -/
def FairStream (e : Nat) (r : Nat → State) : Prop := Fair r (.spReady e) fun s => (s.ep e).ready = false

/-- FAIR_IRQ (R138). -/
def FairIrq (r : Nat → State) : Prop := Fair r .irqEntry fun s => s.irqEnabled = true

/-- The CPU keeps being chosen: not a premise of the spec, which names none, but one a claim that an operation returns
needs beside those of R98. -/
def CpuKeepsStepping (r : Nat → State) : Prop := ∀ n, ∃ m, n ≤ m ∧ (r m).choice = .cpu

/-- ONCE_CLEAN(ch) (R107 premise (a)): no stale raw status, at the state where `BEGIN` writes the go bit. -/
abbrev State.OnceClean (s : State) (ch : Nat) : Prop := (s.chan ch).istDone = false

/-- The position inside `UPDATE`, wherever it runs, if a step position is one. -/
def Pos.inUpdate? : Pos → Option UpdatePos
  | .updating u => some u
  | .irqUpdate _ u => some u
  | _ => none

/-- The next step is `UPDATE`'s read of CH_ISTAT(ch), which will see a transfer-done event (R105). -/
def State.UpdateSees (s : State) (ch : Nat) : Prop :=
  s.choice = .cpu ∧ s.pos.inUpdate? = some (.chan ch) ∧ (s.chan ch).istDone = true

/-- The next step is `UPDATE`'s acknowledge of channel `ch` (R105). -/
def State.UpdateAcks (s : State) (ch : Nat) : Prop :=
  s.choice = .cpu ∧ ∃ st d, s.pos.inUpdate? = some (.ack ch st d)

/-- The next step is one of a `BEGIN` of a descriptor of channel `ch`, or of `MGR_INIT`. -/
def State.RivalRuns (s : State) (ch : Nat) : Prop :=
  s.choice = .cpu ∧ s.isrActive = false ∧
    ((∃ z, s.MainRuns (.mgrInit z)) ∨
      ∃ z d r x, s.MainRuns (.beginXfer z d) ∧ s.refOf d = some r ∧ s.descs[r]? = some x ∧ x.ch = ch)

/-- The step from `s` to `t` made a write of CH_CTRL(ch), by whichever operation or plain access: its record is the one
the step added to the history (R36). -/
def State.CtrlWritten (s t : State) (ch : Nat) : Prop :=
  ∃ a v, t.hist = .bus a true ((Reg.chCtrl ch).addr s.cfg) 4 v :: s.hist

/-- ONCE_EXCL(ch) (R107 premise (b)) of a run after the `BEGIN` that returned before its `n`-th state: a `BEGIN`,
`MGR_INIT` or CTRL write for channel `ch` comes only after the transfer has completed and an `UPDATE` has serviced it, that
is has then read its transfer-done event and acknowledged it. -/
def OnceExcl (ch n : Nat) (r : Nat → State) : Prop :=
  ∀ m, n ≤ m → (r m).RivalRuns ch ∨ (r m).CtrlWritten (r (m + 1)) ch →
    ∃ i j k, n ≤ i ∧ i < j ∧ j < k ∧ k < m ∧ (r i).Completes ch ∧ (r j).UpdateSees ch ∧ (r k).UpdateAcks ch

end Sys2Proof.Machine
end

