-- ==== Sys2Proof/Certificates/Slice0/Obligations.lean ====
section
/-! DEFINITION. The statements for the provers. Where a statement says `exec i s = .next t` for a `t` written out, every
field of the state that `t` does not name is unchanged: that equation is the frame. `ret` and `goto` move only the
step position of the CPU-side agent (InterruptEntryAndReturn says what they do), `sawRead` and `sawWrite` only add the
record of a bus access to the history, `drew` only counts a free value. A free value stands under an existential
quantifier, so that nothing is said of it. -/

open Sys2Proof Sys2Proof.Machine

/-! ### The operation word -/

/-- R57, R58, R60: the word and the arguments of an operation decode to that operation, whatever its operands. -/
def Obligations.DecodeEncodeRoundTrip : Prop :=
  ∀ i : Instr, decode (encode i) (encodeArgs i) = .ok i

/-- R59, R60: a word whose op code is listed decodes to the one operation whose word it is, with the word's own index
bits; a word whose op code is not listed is refused, by the decoder and by the step that fetches it. -/
def Obligations.DecoderTotal : Prop :=
  ∀ (w : OpWord) (a : Args),
    ((w.extractLsb' 24 8).toNat ∈ opCodes →
      ∃ i, decode w a = .ok i ∧ encode i = w ∧ i.idx = w.extractLsb' 0 24) ∧
    ((w.extractLsb' 24 8).toNat ∉ opCodes →
      decode w a = .error (.unknownOp w) ∧
      ∀ (s : State) (rest : List Item), s.choice = .cpu → s.isrActive = false → s.prog = .op w a :: rest →
        step s = .refused (.unknownOp w))

/-- R60, R63: a few words written out as in the listings of 95_test_vectors.md decode to the operations listed. -/
def Obligations.SampleWordsDecode : Prop :=
  decode 0x01000001#32 {} = .ok (.srdCtrl 1) ∧
  decode 0x16000000#32 {} = .ok (.drdGstatus 0) ∧
  decode 0x19000000#32 { v := 0x45 } = .ok (.dwrCtrl 0 0x45) ∧
  decode 0x93000000#32 { d := 3 } = .ok (.beginXfer 0 3) ∧
  decode 0x96000000#32 {} = .ok (.update 0) ∧
  decode 0x31000005#32 { v := 7 } = .ok (.pwrPrio 5 7) ∧
  decode 0x42000000#32 {} = .ok (.crdPend 0) ∧
  decode 0xA4000005#32 { level := 3 } = .ok (.icSetPriority 5 3) ∧
  decode 0xA9000000#32 {} = .ok (.irqEntry 0) ∧
  decode 0x05000000#32 {} = .error (.unknownOp 0x05000000)

/-- R59, R60, R62: an operation of the absent interrupt-controller variant faults with NoSuchUnit, and one whose index
is out of its range with BadIndex, at every step position and whatever the rest of the state. That NoSuchUnit comes
before BadIndex where both apply, and that a nonzero idx comes before Unusable, ManagerUninit and BadDescriptor, is the
model's choice (log entry 11): R59, R60, R76 and R136 give no such order. -/
def Obligations.IllFormedOperationFaults : Prop :=
  ∀ (i : Instr) (s : State),
    (i.unitPresent s.cfg = false → exec i s = .fault (.noSuchUnit (s.infoOf i))) ∧
    (i.unitPresent s.cfg = true → i.idxKind.inRange s.cfg i.idx.toNat = false →
      exec i s = .fault (.badIndex (s.infoOf i)))

/-- R16, R44: when the CPU is chosen, the step is one step of the operation the word of MAIN's current item decodes to,
or of `IRQ_ENTRY` while an interrupt is in service; nothing else happens but that the choice is used up. -/
def Obligations.StepRunsDecodedOperation : Prop :=
  ∀ s : State, s.choice = .cpu →
    s.chosen = { s with sched := s.sched.tail, ticks := if s.sched = [] then s.ticks + 1 else s.ticks } ∧
    (s.isrActive = false → ∀ w a rest i, s.prog = .op w a :: rest → decode w a = .ok i → step s = exec i s.chosen) ∧
    (s.isrActive = true → step s = exec (.irqEntry 0) s.chosen) ∧
    (s.isrActive = false → s.prog = [] → step s = .next s.chosen)

/-! ### Stream endpoints -/

/-- R65, R72, R73: the control word read has READY in bit 0, the endpoint's number in bit 2 (DIRECTION), ERROR in bit 3
and 0 above; bit 1 is free. `IS_READY` answers READY. Neither changes a register. R70: SP_ERROR gives ERROR a free value
and changes nothing else. -/
def Obligations.StreamControlReads : Prop :=
  ∀ (s : State) (e : Idx), e.toNat ≤ 1 → ∃ w : Word,
    w.getLsbD 0 = (s.ep e.toNat).ready ∧ w.getLsbD 2 = e.getLsbD 0 ∧ w.getLsbD 3 = (s.ep e.toNat).error ∧
    (∀ k < 32, 4 ≤ k → w.getLsbD k = false) ∧
    exec (.srdCtrl e) s = .next ((s.drew.sawRead (.streamCtrl e.toNat) w).ret (.word w)) ∧
    exec (.isReady e) s =
      .next ((s.drew.sawRead (.streamCtrl e.toNat) w).ret (.bool (s.ep e.toNat).ready)) ∧
    ∃ b, stepOf (.spError e.toNat) s = .next (s.drew.setEp e.toNat { (s.ep e.toNat) with error := b })

/-- R66: a control write with bit 1 set moves one element of a ready endpoint and leaves READY free; on an endpoint that
is not ready it faults; with bit 1 clear it has no effect. -/
def Obligations.StreamControlWrite : Prop :=
  ∀ (s : State) (v : Word),
    (v.getLsbD 1 = true → s.ep0.ready = true → ∃ (x : Word) (b : Bool),
      (∀ k < 32, x.getLsbD k = (decide (k ≤ s.cfg.sw) && s.ep0.data.getLsbD k)) ∧
      exec (.swrCtrl 0 v) s =
        .next ((((s.drew.sawWrite (.streamCtrl 0) v).emit (.streamIn x)).setEp 0 { s.ep0 with ready := b }).ret .unit)) ∧
    (v.getLsbD 1 = true → s.ep1.ready = true → ∃ (x : Word) (b : Bool),
      (∀ k < 32, s.cfg.sw + s.cfg.cw + 1 ≤ k → x.getLsbD k = false) ∧
      exec (.swrCtrl 1 v) s =
        .next ((((s.drew.drew.sawWrite (.streamCtrl 1) v).emit (.streamOut x)).setEp 1
          { s.ep1 with data := x, ready := b }).ret .unit)) ∧
    ∀ e : Idx, e.toNat ≤ 1 →
      (v.getLsbD 1 = true → (s.ep e.toNat).ready = false →
        exec (.swrCtrl e v) s = .fault (.streamPulseNotReady (s.infoAt (.swrCtrl e v) (.streamCtrl e.toNat)))) ∧
      (v.getLsbD 1 = false →
        exec (.swrCtrl e v) s = .next ((s.sawWrite (.streamCtrl e.toNat) v).ret .unit))

/-- R67, R68: the input slot stores what is written and reads as a free value whose bits above SW are 0, which is how the
model joins R67 with the reserved bits of R20 (log entry 32); the output slot reads as the element the last pulse loaded,
and a write of it faults. -/
def Obligations.StreamDataAccess : Prop :=
  ∀ (s : State) (v : Word),
    (∃ w : Word, (∀ k < 32, s.cfg.sw + 1 ≤ k → w.getLsbD k = false) ∧ exec (.srdData 0) s = .next ((s.drew.sawRead (.streamData 0) w).ret (.word w))) ∧
    exec (.srdData 1) s = .next ((s.sawRead (.streamData 1) s.ep1.data).ret (.word s.ep1.data)) ∧
    exec (.swrData 0 v) s =
      .next (((s.sawWrite (.streamData 0) v).setEp 0 { s.ep0 with data := v }).ret .unit) ∧
    exec (.swrData 1 v) s = .fault (.writeReadOnly (s.infoAt (.swrData 1 v) (.streamData 1)))

/-- R74: `POLL_AND_TRANSFER` reads the control word until READY, then pulses with the constant 2 and returns. -/
def Obligations.PollAndTransferSteps : Prop :=
  ∀ (s : State),
    (∀ e : Idx, e.toNat ≤ 1 → s.pos ≠ .pulse → ∃ w : Word, w.getLsbD 0 = (s.ep e.toNat).ready ∧
      exec (.pollAndTransfer e) s =
        .next ((s.drew.sawRead (.streamCtrl e.toNat) w).goto
          (if (s.ep e.toNat).ready then .pulse else .start))) ∧
    (s.pos = .pulse → s.ep0.ready = true → ∃ (x : Word) (b : Bool),
      (∀ k < 32, x.getLsbD k = (decide (k ≤ s.cfg.sw) && s.ep0.data.getLsbD k)) ∧
      exec (.pollAndTransfer 0) s =
        .next ((((s.drew.sawWrite (.streamCtrl 0) 2).emit (.streamIn x)).setEp 0 { s.ep0 with ready := b }).ret .unit)) ∧
    (s.pos = .pulse → s.ep1.ready = true → ∃ (x : Word) (b : Bool),
      (∀ k < 32, s.cfg.sw + s.cfg.cw + 1 ≤ k → x.getLsbD k = false) ∧
      exec (.pollAndTransfer 1) s =
        .next ((((s.drew.drew.sawWrite (.streamCtrl 1) 2).emit (.streamOut x)).setEp 1
          { s.ep1 with data := x, ready := b }).ret .unit))

/-- R69: SP_READY raises READY where it is 0 and is no step where it is 1; no other step of the machine raises READY,
and where READY is 1 it stays 1, unless the step records an accepted pulse of that endpoint. -/
def Obligations.ReadyHandshake : Prop :=
  ∀ (e : Nat), e ≤ 1 →
    (∀ s : State, (s.ep e).ready = false →
      stepOf (.spReady e) s = .next (s.setEp e { (s.ep e) with ready := true })) ∧
    (∀ s : State, (s.ep e).ready = true → stepOf (.spReady e) s = .next s) ∧
    ∀ s t : State, step s = .next t →
      ((s.ep e).ready = false → (t.ep e).ready = true → s.choice = .spReady e) ∧
      ((s.ep e).ready = true → (t.ep e).ready = true ∨ ∃ (new : List Event) (v : Word),
        t.hist = new ++ s.hist ∧ (if e = 0 then Event.streamIn v else Event.streamOut v) ∈ new)

/-! ### The DMA controller's header -/

/-- R77, R78, R80: what the count, the offset and the global mask read as; the reads change nothing. -/
def Obligations.HeaderReads : Prop :=
  ∀ s : State,
    exec (.drdChcount 0) s =
      .next ((s.sawRead .chCount (BitVec.ofNat 32 s.cfg.numCh)).ret (.word (BitVec.ofNat 32 s.cfg.numCh))) ∧
    exec (.drdChoff 0) s = .next ((s.sawRead .chOff s.cfg.hwChOffset).ret (.word s.cfg.hwChOffset)) ∧
    exec (.drdGmask 0) s = .next ((s.sawRead .gmask s.gmask).ret (.word s.gmask))

/-- R82: the global status is computed: bit 0 says that some channel's transfer-done event passes the global and the
local mask, bit 1 the same of the last-element event, and the other bits are 0. -/
def Obligations.GlobalStatusRead : Prop :=
  ∀ s : State, ∃ w : Word,
    exec (.drdGstatus 0) s = .next ((s.sawRead .gstatus w).ret (.word w)) ∧
    (w.getLsbD 0 = true ↔ ∃ ch < s.cfg.numCh,
      s.gmask.getLsbD ch = true ∧ (s.chan ch).istDone = true ∧ (s.chan ch).irqDone = true) ∧
    (w.getLsbD 1 = true ↔ ∃ ch < s.cfg.numCh,
      s.gmask.getLsbD ch = true ∧ (s.chan ch).istLast = true ∧ (s.chan ch).irqLast = true) ∧
    ∀ k < 32, 2 ≤ k → w.getLsbD k = false

/-- R81: a write of the global mask stores the bits of the channels that exist and drops the others. -/
def Obligations.GlobalMaskWrite : Prop :=
  ∀ (s : State) (v : Word), ∃ m : Word,
    (∀ k < 32, m.getLsbD k = (decide (k < s.cfg.numCh) && v.getLsbD k)) ∧
    exec (.dwrGmask 0 v) s = .next (((s.sawWrite .gmask v).setGmask m).ret .unit)

/-- R79, R118, R126: a write of a read-only register faults with WriteReadOnly, on every path where its unit and index
are as the operation's row asks. -/
def Obligations.ReadOnlyWritesFault : Prop :=
  ∀ (s : State) (v : Word),
    exec (.dwrChcount 0 v) s = .fault (.writeReadOnly (s.infoAt (.dwrChcount 0 v) .chCount)) ∧
    exec (.dwrChoff 0 v) s = .fault (.writeReadOnly (s.infoAt (.dwrChoff 0 v) .chOff)) ∧
    exec (.dwrGstatus 0 v) s = .fault (.writeReadOnly (s.infoAt (.dwrGstatus 0 v) .gstatus)) ∧
    (∀ ch : Idx, ch.toNat < s.cfg.numCh →
      exec (.dwrDonelen ch v) s = .fault (.writeReadOnly (s.infoAt (.dwrDonelen ch v) (.chDoneLen ch.toNat)))) ∧
    (∀ b : Idx, s.cfg.variant = .banked → b.toNat < s.cfg.numBanks →
      exec (.pwrPend b v) s = .fault (.writeReadOnly (s.infoAt (.pwrPend b v) (.pend b.toNat)))) ∧
    (s.cfg.variant = .builtIn → s.cfg.csrIrqMask ≠ s.cfg.csrIrqPending →
      exec (.cwrPend 0 v) s = .fault (.writeReadOnly (s.infoOf (.cwrPend 0 v))))

/-- R75: `DMA_INIT` reads the count and the reported offset, sets `drv.num_ch` and `drv.usable`, and answers whether the
offset is 0x10; its last step is also given alone. -/
def Obligations.DmaInitRun : Prop :=
  ∀ s : State,
    (∀ o : Word, s.pos = .initUsable o →
      exec (.dmaInit 0) s = .next ((s.setUsable (decide (o = 0x10))).ret (.bool (decide (o = 0x10))))) ∧
    (s.pos = .start →
      runOp (.dmaInit 0) 4 s =
        .next (((((s.sawRead .chCount (BitVec.ofNat 32 s.cfg.numCh)).sawRead .chOff s.cfg.hwChOffset).setNumCh
          (BitVec.ofNat 32 s.cfg.numCh)).setUsable (decide (s.cfg.hwChOffset = 0x10))).ret
            (.bool (decide (s.cfg.hwChOffset = 0x10)))))

/-! ### The DMA channels and their engines -/

/-- R83, R85, R87, R89, R90: what the five registers of a channel read as, bit by bit; the reads change nothing. -/
def Obligations.ChannelReads : Prop :=
  ∀ (s : State) (ch : Idx), ch.toNat < s.cfg.numCh → ∃ w u : Word,
    (w.getLsbD 0 = (s.chan ch.toNat).irqDone ∧ w.getLsbD 1 = (s.chan ch.toNat).irqLast ∧
      w.getLsbD 2 = (s.chan ch.toNat).tsfr ∧ w.getLsbD 3 = (s.chan ch.toNat).tsfrDone ∧
      w.getLsbD 4 = s.cfg.chDir.getLsbD ch.toNat ∧ w.getLsbD 5 = (s.chan ch.toNat).mode ∧
      w.getLsbD 6 = (s.chan ch.toNat).rdy ∧ ∀ k < 32, 7 ≤ k → w.getLsbD k = false) ∧
    (u.getLsbD 0 = (s.chan ch.toNat).istDone ∧ u.getLsbD 1 = (s.chan ch.toNat).istLast ∧
      ∀ k < 32, 2 ≤ k → u.getLsbD k = false) ∧
    exec (.drdCtrl ch) s = .next ((s.sawRead (.chCtrl ch.toNat) w).ret (.word w)) ∧
    exec (.drdIstat ch) s = .next ((s.sawRead (.chIstat ch.toNat) u).ret (.word u)) ∧
    exec (.drdBase ch) s =
      .next ((s.sawRead (.chBase ch.toNat) (s.chan ch.toNat).base).ret (.word (s.chan ch.toNat).base)) ∧
    exec (.drdLen ch) s =
      .next ((s.sawRead (.chLen ch.toNat) (s.chan ch.toNat).len).ret (.word (s.chan ch.toNat).len)) ∧
    exec (.drdDonelen ch) s =
      .next ((s.sawRead (.chDoneLen ch.toNat) (s.chan ch.toNat).doneLen).ret (.word (s.chan ch.toNat).doneLen))

/-- R84, R92, R97: a control write with bit 2 clear stores the masks, MODE and the two write-0-to-clear bits, and aborts
a busy channel with its done-length frozen; one with bit 2 set starts an idle, ready, aligned channel, and otherwise
faults: busy first, then not ready, then unaligned. No other channel and no other state changes. -/
def Obligations.ChannelControlWrite : Prop :=
  ∀ (s : State) (ch : Idx) (v : Word) (c : Chan), ch.toNat < s.cfg.numCh → s.chan ch.toNat = c →
    (v.getLsbD 2 = false →
      exec (.dwrCtrl ch v) s =
        .next (((s.sawWrite (.chCtrl ch.toNat) v).setChan ch.toNat
          { c with
            irqDone := v.getLsbD 0, irqLast := v.getLsbD 1, mode := v.getLsbD 5
            tsfrDone := c.tsfrDone && v.getLsbD 3, rdy := c.rdy && v.getLsbD 6
            tsfr := if c.phase = .busy then false else c.tsfr, phase := .idle }).ret .unit)) ∧
    (v.getLsbD 2 = true → c.phase = .busy →
      exec (.dwrCtrl ch v) s = .fault (.dmaWriteWhileBusy (s.infoAt (.dwrCtrl ch v) (.chCtrl ch.toNat)))) ∧
    (v.getLsbD 2 = true → c.phase = .idle → c.rdy = false →
      exec (.dwrCtrl ch v) s = .fault (.dmaGoNotReady (s.infoAt (.dwrCtrl ch v) (.chCtrl ch.toNat)))) ∧
    (v.getLsbD 2 = true → c.phase = .idle → c.rdy = true → v.getLsbD 5 = false →
      (c.base.toNat % 4 ≠ 0 ∨ c.len.toNat % 4 ≠ 0) →
      exec (.dwrCtrl ch v) s = .fault (.dmaUnaligned (s.infoAt (.dwrCtrl ch v) (.chCtrl ch.toNat)))) ∧
    (v.getLsbD 2 = true → c.phase = .idle → c.rdy = true →
      (v.getLsbD 5 = true ∨ (c.base.toNat % 4 = 0 ∧ c.len.toNat % 4 = 0)) →
      exec (.dwrCtrl ch v) s =
        .next (((s.sawWrite (.chCtrl ch.toNat) v).setChan ch.toNat
          { c with
            irqDone := v.getLsbD 0, irqLast := v.getLsbD 1, mode := v.getLsbD 5
            tsfr := true, tsfrDone := false, rdy := false, doneLen := 0, phase := .busy }).ret .unit))

/-- R86, R88: the base address and the length of an idle channel are stored as written; a write while the channel is
busy faults. -/
def Obligations.BaseAndLengthWrites : Prop :=
  ∀ (s : State) (ch : Idx) (v : Word) (c : Chan), ch.toNat < s.cfg.numCh → s.chan ch.toNat = c →
    (c.phase = .idle →
      exec (.dwrBase ch v) s =
        .next (((s.sawWrite (.chBase ch.toNat) v).setChan ch.toNat { c with base := v }).ret .unit) ∧
      exec (.dwrLen ch v) s =
        .next (((s.sawWrite (.chLen ch.toNat) v).setChan ch.toNat { c with len := v }).ret .unit)) ∧
    (c.phase = .busy →
      exec (.dwrBase ch v) s = .fault (.dmaWriteWhileBusy (s.infoAt (.dwrBase ch v) (.chBase ch.toNat))) ∧
      exec (.dwrLen ch v) s = .fault (.dmaWriteWhileBusy (s.infoAt (.dwrLen ch v) (.chLen ch.toNat))))

/-- R91: an acknowledge clears the status bits written as 1, and all of them where the parameter says so. -/
def Obligations.StatusAcknowledge : Prop :=
  ∀ (s : State) (ch : Idx) (v : Word) (c : Chan), ch.toNat < s.cfg.numCh → s.chan ch.toNat = c →
    (s.cfg.irqAckClearsAll = true →
      exec (.dwrIstat ch v) s =
        .next (((s.sawWrite (.chIstat ch.toNat) v).setChan ch.toNat
          { c with istDone := false, istLast := false }).ret .unit)) ∧
    (s.cfg.irqAckClearsAll = false →
      exec (.dwrIstat ch v) s =
        .next (((s.sawWrite (.chIstat ch.toNat) v).setChan ch.toNat
          { c with istDone := c.istDone && !v.getLsbD 0, istLast := c.istLast && !v.getLsbD 1 }).ret .unit))

/-- R93, R95, R96: E_READY raises RDY of an idle channel where it is 0, E_LAST sets the raw LAST of a busy channel and
leaves it busy, E_COMPLETE ends a busy channel's transfer with its done-length kept; each is no step elsewhere. -/
def Obligations.EngineStatusSteps : Prop :=
  ∀ (s : State) (ch : Nat) (c : Chan), ch < s.cfg.numCh → s.chan ch = c →
    (c.phase = .idle → c.rdy = false → stepOf (.eReady ch) s = .next (s.setChan ch { c with rdy := true })) ∧
    (c.phase = .busy ∨ c.rdy = true → stepOf (.eReady ch) s = .next s) ∧
    (c.phase = .busy → stepOf (.eLast ch) s = .next (s.setChan ch { c with istLast := true })) ∧
    (c.phase = .busy → stepOf (.eComplete ch) s =
      .next (s.setChan ch { c with tsfr := false, tsfrDone := true, istDone := true, phase := .idle })) ∧
    (c.phase = .idle → stepOf (.eLast ch) s = .next s ∧ stepOf (.eComplete ch) s = .next s)

/-- R94: E_PROGRESS of a busy channel below its length moves one byte at base plus done-length and counts it: none in
ignore mode; to the peripheral it reads and records a byte, free where none was written; from the peripheral it writes
and records a free byte there and nowhere else. Elsewhere it is no step. That a byte address inside a unit faults is
the model's reading of R37 and R39 (log entry 15). -/
def Obligations.EngineProgress : Prop :=
  ∀ (s : State) (ch : Nat) (c : Chan) (a : Word), ch < s.cfg.numCh → s.chan ch = c → a = c.base + c.doneLen →
    (c.phase = .idle ∨ c.len ≤ c.doneLen → stepOf (.eProgress ch) s = .next s) ∧
    (c.phase = .busy → c.doneLen < c.len → c.mode = true →
      stepOf (.eProgress ch) s = .next (s.setChan ch { c with doneLen := c.doneLen + 1 })) ∧
    (c.phase = .busy → c.doneLen < c.len → c.mode = false → s.cfg.inUnit a.toNat = true →
      stepOf (.eProgress ch) s = .fault (.badAccess { agent := .dmae ch, word := none, addr := some a })) ∧
    (c.phase = .busy → c.doneLen < c.len → c.mode = false → s.cfg.inUnit a.toNat = false →
      s.cfg.chDir.getLsbD ch = false → ∃ b,
      (Mem.lookup a.toNat s.mem = some b ∧ stepOf (.eProgress ch) s =
        .next ((s.emit (.dmaRead ch a b)).setChan ch { c with doneLen := c.doneLen + 1 })) ∨
      (Mem.lookup a.toNat s.mem = none ∧ stepOf (.eProgress ch) s =
        .next ((s.drew.emit (.dmaRead ch a b)).setChan ch { c with doneLen := c.doneLen + 1 }))) ∧
    (c.phase = .busy → c.doneLen < c.len → c.mode = false → s.cfg.inUnit a.toNat = false →
      s.cfg.chDir.getLsbD ch = true → ∃ (b : Byte) (m : List Host.Cell),
      Mem.lookup a.toNat m = some b ∧ (∀ x, x ≠ a.toNat → Mem.lookup x m = Mem.lookup x s.mem) ∧
      stepOf (.eProgress ch) s =
        .next (({ s.drew with mem := m }.emit (.dmaWrite ch a b)).setChan ch { c with doneLen := c.doneLen + 1 }))

/-- R46, R94, R97: `n` engine steps of a from-peripheral store transfer write exactly the next `n` bytes of the buffer,
record them in increasing address order, count them, and leave every other byte and channel as it was. -/
def Obligations.BurstWritesBufferInOrder : Prop :=
  ∀ (n : Nat) (s : State) (ch : Nat) (c : Chan), ch < s.cfg.numCh → ch < s.chans.length → s.chan ch = c →
    c.phase = .busy → c.mode = false → s.cfg.chDir.getLsbD ch = true → c.doneLen.toNat + n ≤ c.len.toNat →
    (∀ k < n, s.cfg.inUnit (c.base + c.doneLen + BitVec.ofNat 32 k).toNat = false) →
    ∃ (t : State) (b : Nat → Byte),
      runChoices (List.replicate n (.eProgress ch)) s = .next t ∧
      t.chan ch = { c with doneLen := c.doneLen + BitVec.ofNat 32 n } ∧
      (∀ k, k ≠ ch → t.chan k = s.chan k) ∧
      t.hist = ((List.range n).map fun k =>
        Event.dmaWrite ch (c.base + c.doneLen + BitVec.ofNat 32 k) (b k)).reverse ++ s.hist ∧
      (∀ k < n, Mem.lookup (c.base + c.doneLen + BitVec.ofNat 32 k).toNat t.mem = some (b k)) ∧
      (∀ x, (∀ k < n, x ≠ (c.base + c.doneLen + BitVec.ofNat 32 k).toNat) →
        Mem.lookup x t.mem = Mem.lookup x s.mem) ∧
      t.mgr = s.mgr ∧ t.descs = s.descs ∧ t.srcs = s.srcs ∧ t.gmask = s.gmask

/-! ### The Transfer Engine -/

/-- R99: `DESC_NEW` makes a descriptor at a reference never used before, with done false and transferred 0, binds the
name to it, and leaves every other descriptor and every other bound name as it was. -/
def Obligations.DescNew : Prop :=
  ∀ (s : State) (ch : Idx) (d : Nat) (f : DescFields), ch.toNat < s.cfg.numCh → ∃ (r : Nat) (t : State),
    exec (.descNew ch d f) s = .next (t.ret (.ref r)) ∧
    s.descs[r]? = none ∧ t.descs[r]? = some { ch := ch.toNat, fields := f, done := false, transferred := 0 } ∧
    t.refOf d = some r ∧ (∀ k, k ≠ r → t.descs[k]? = s.descs[k]?) ∧
    ((∀ b ∈ s.binds, b.2 < s.descs.length) → ∀ d', d' ≠ d → t.refOf d' = s.refOf d') ∧
    t = { s with descs := t.descs, binds := t.binds }

/-- R76: where the self-check failed, MGR_INIT, BEGIN, COMPLETE, CANCEL and UPDATE return `Unusable` at their first
step, with no other effect. -/
def Obligations.UnusableReturns : Prop :=
  ∀ s : State, s.drvUsable = false → s.pos = .start →
    exec (.mgrInit 0) s = .next (s.ret (.code .unusable)) ∧
    exec (.update 0) s = .next (s.ret (.code .unusable)) ∧
    ∀ d r, s.refOf d = some r →
      exec (.beginXfer 0 d) s = .next (s.ret (.code .unusable)) ∧
      (∀ n, exec (.completeXfer 0 d n) s = .next (s.ret (.code .unusable))) ∧
      exec (.cancelXfer 0 d) s = .next (s.ret (.code .unusable))

/-- R101, R136: the checks of `BEGIN` and of its validation read, in their order. -/
def Obligations.BeginChecks : Prop :=
  ∀ (s : State) (d r : Nat) (x : Desc),
    (s.pos = .start → s.refOf d = none → exec (.beginXfer 0 d) s = .fault (.badDescriptor (s.infoOf (.beginXfer 0 d)))) ∧
    (s.pos = .start → s.refOf d = some r → s.descs[r]? = some x → s.drvUsable = true →
      (s.drvNumCh.toNat ≤ x.ch → exec (.beginXfer 0 d) s = .fault (.badIndex (s.infoOf (.beginXfer 0 d)))) ∧
      (x.ch < s.drvNumCh.toNat → exec (.beginXfer 0 d) s =
        .next (s.goto (.begun r (if x.fields.mode = .polling then .wait else .validate))))) ∧
    (s.descs[r]? = some x → x.ch < s.cfg.numCh → ∀ t, t = s.sawRead (.chCtrl x.ch) (s.ctrlWord x.ch) →
      (s.pos = .begun r .wait → exec (.beginXfer 0 d) s =
        .next (t.goto (.begun r (if (s.chan x.ch).rdy then .validate else .wait)))) ∧
      (s.pos = .begun r .validate →
        (s.cfg.chDir.getLsbD x.ch ≠ x.fields.dir → exec (.beginXfer 0 d) s = .next (t.ret (.code .wrongDirection))) ∧
        (s.cfg.chDir.getLsbD x.ch = x.fields.dir → (s.chan x.ch).rdy = false →
          exec (.beginXfer 0 d) s = .next (t.ret (.code .notReady))) ∧
        (s.cfg.chDir.getLsbD x.ch = x.fields.dir → (s.chan x.ch).rdy = true → x.fields.mode = .polling →
          exec (.beginXfer 0 d) s = .next (t.goto (.begun r .irqRead))) ∧
        (s.cfg.chDir.getLsbD x.ch = x.fields.dir → (s.chan x.ch).rdy = true → x.fields.mode = .interrupt →
          (x.fields.mgr = false → exec (.beginXfer 0 d) s = .next (t.ret (.code .noManager))) ∧
          (x.fields.mgr = true → s.mgr.present = false →
            exec (.beginXfer 0 d) s = .fault (.managerUninit (s.infoOf (.beginXfer 0 d)))) ∧
          (x.fields.mgr = true → s.mgr.present = true →
            exec (.beginXfer 0 d) s = .next (t.goto (.begun r .slot))))))

/-- R84, R92, R101: the last step of `BEGIN` writes the control word it read with bit 2 set, which starts an idle, ready,
aligned channel, and answers `Ok`; an unaligned store-mode start faults. -/
def Obligations.BeginGoWrite : Prop :=
  ∀ (s : State) (d r : Nat) (x : Desc) (v : Word) (c : Chan), s.pos = .begun r (.goWrite v) → s.descs[r]? = some x →
    x.ch < s.cfg.numCh → s.chan x.ch = c → c.phase = .idle → c.rdy = true →
    ((v.getLsbD 5 = true ∨ (c.base.toNat % 4 = 0 ∧ c.len.toNat % 4 = 0)) →
      exec (.beginXfer 0 d) s =
        .next (((s.sawWrite (.chCtrl x.ch) (v ||| 4)).setChan x.ch
          { c with
            irqDone := v.getLsbD 0, irqLast := v.getLsbD 1, mode := v.getLsbD 5
            tsfr := true, tsfrDone := false, rdy := false, doneLen := 0, phase := .busy }).ret (.code .ok))) ∧
    (v.getLsbD 5 = false → (c.base.toNat % 4 ≠ 0 ∨ c.len.toNat % 4 ≠ 0) →
      exec (.beginXfer 0 d) s = .fault (.dmaUnaligned (s.infoAt (.beginXfer 0 d) (.chCtrl x.ch))))

/-- R101: an uninterrupted polling-mode `BEGIN` of an idle, ready channel of the descriptor's direction makes the
accesses listed, in their order, and leaves the channel Busy with the descriptor's buffer, both local masks set, the
channel's global mask bit clear and d.done false; it returns `Ok`. -/
def Obligations.BeginPollingRun : Prop :=
  ∀ (s : State) (d r ch : Nat) (x : Desc) (c : Chan) (w w1 w2 g : Word),
    s.pos = .start → s.drvUsable = true → s.refOf d = some r → s.descs[r]? = some x → x.fields.mode = .polling →
    x.ch = ch → ch < s.drvNumCh.toNat → ch < s.cfg.numCh → ch < s.chans.length → s.chan ch = c →
    c.phase = .idle → c.tsfr = false → c.rdy = true → s.cfg.chDir.getLsbD ch = x.fields.dir →
    (x.fields.ignore = true ∨ (x.fields.ptr.toNat % 4 = 0 ∧ x.fields.len.toNat % 4 = 0)) →
    (∀ k < 32, s.cfg.numCh ≤ k → s.gmask.getLsbD k = false) →
    w = s.ctrlWord ch → w1 = w ||| 3 → w2 = (if x.fields.ignore then w1 ||| 0x20 else w1 &&& ~~~0x20#32) →
    g = s.gmask &&& ~~~bit ch →
    runOp (.beginXfer 0 d) (if x.fields.ignore then 13 else 14) s =
      .next ((((((s.sawRead (.chCtrl ch) w |>.sawRead (.chCtrl ch) w |>.sawRead (.chCtrl ch) w
        |>.sawWrite (.chCtrl ch) w1 |>.sawRead .gmask s.gmask |>.sawWrite .gmask g
        |>.sawRead (.chCtrl ch) w1 |>.sawWrite (.chCtrl ch) w2
        |>.sawWriteIf (!x.fields.ignore) (.chBase ch) x.fields.ptr |>.sawWrite (.chLen ch) x.fields.len
        |>.sawRead (.chCtrl ch) w2 |>.sawWrite (.chCtrl ch) (w2 ||| 4)).setGmask g).setDescDone r false).setChan ch
          { c with
            irqDone := true, irqLast := true, mode := x.fields.ignore
            base := if x.fields.ignore then c.base else x.fields.ptr, len := x.fields.len
            tsfr := true, tsfrDone := false, rdy := false, doneLen := 0, phase := .busy }).ret (.code .ok)))

/-- R101: an uninterrupted interrupt-mode `BEGIN` registers the descriptor in its channel's slot, clears the channel's
two tracker bits, sets its global mask bit and its transfer-done mask, and starts the transfer; it returns `Ok`. -/
def Obligations.BeginInterruptRun : Prop :=
  ∀ (s : State) (d r ch : Nat) (x : Desc) (c : Chan) (w w1 w2 g : Word),
    s.pos = .start → s.drvUsable = true → s.refOf d = some r → s.descs[r]? = some x → x.fields.mode = .interrupt →
    x.fields.mgr = true → s.mgr.present = true →
    x.ch = ch → ch < s.drvNumCh.toNat → ch < s.cfg.numCh → ch < s.chans.length → s.chan ch = c →
    c.phase = .idle → c.tsfr = false → c.rdy = true → s.cfg.chDir.getLsbD ch = x.fields.dir →
    (x.fields.ignore = true ∨ (x.fields.ptr.toNat % 4 = 0 ∧ x.fields.len.toNat % 4 = 0)) →
    (∀ k < 32, s.cfg.numCh ≤ k → s.gmask.getLsbD k = false) →
    w = s.ctrlWord ch → w1 = w ||| 1 → w2 = (if x.fields.ignore then w1 ||| 0x20 else w1 &&& ~~~0x20#32) →
    g = s.gmask ||| bit ch →
    runOp (.beginXfer 0 d) (if x.fields.ignore then 15 else 16) s =
      .next (((((((s.sawRead (.chCtrl ch) w |>.sawRead .gmask s.gmask |>.sawWrite .gmask g
        |>.sawRead (.chCtrl ch) w |>.sawWrite (.chCtrl ch) w1
        |>.sawRead (.chCtrl ch) w1 |>.sawWrite (.chCtrl ch) w2
        |>.sawWriteIf (!x.fields.ignore) (.chBase ch) x.fields.ptr |>.sawWrite (.chLen ch) x.fields.len
        |>.sawRead (.chCtrl ch) w2 |>.sawWrite (.chCtrl ch) (w2 ||| 4)).setSlot ch (some r)).setDoneMask
          (s.mgr.doneMask &&& ~~~bit ch)).setLastMask (s.mgr.lastMask &&& ~~~bit ch)).setGmask g).setDescDone r
          false |>.setChan ch
          { c with
            irqDone := true, mode := x.fields.ignore
            base := if x.fields.ignore then c.base else x.fields.ptr, len := x.fields.len
            tsfr := true, tsfrDone := false, rdy := false, doneLen := 0, phase := .busy }).ret (.code .ok))

/-- R101 corner case 1: a `BEGIN` that fails its validation has only read the control word. -/
def Obligations.BeginErrorRuns : Prop :=
  ∀ (s : State) (d r : Nat) (x : Desc) (w : Word),
    s.pos = .start → s.drvUsable = true → s.refOf d = some r → s.descs[r]? = some x →
    x.ch < s.drvNumCh.toNat → x.ch < s.cfg.numCh → w = s.ctrlWord x.ch →
    (x.fields.mode = .polling → (s.chan x.ch).rdy = true → s.cfg.chDir.getLsbD x.ch ≠ x.fields.dir →
      runOp (.beginXfer 0 d) 3 s =
        .next (((s.sawRead (.chCtrl x.ch) w).sawRead (.chCtrl x.ch) w).ret (.code .wrongDirection))) ∧
    (x.fields.mode = .polling → (s.chan x.ch).rdy = false → ∀ n, runOp (.beginXfer 0 d) (n + 1) s =
      .next ((s.sawReads (.chCtrl x.ch) w n).goto (.begun r .wait))) ∧
    (x.fields.mode = .interrupt → s.cfg.chDir.getLsbD x.ch ≠ x.fields.dir →
      runOp (.beginXfer 0 d) 2 s = .next ((s.sawRead (.chCtrl x.ch) w).ret (.code .wrongDirection))) ∧
    (x.fields.mode = .interrupt → s.cfg.chDir.getLsbD x.ch = x.fields.dir → (s.chan x.ch).rdy = false →
      runOp (.beginXfer 0 d) 2 s = .next ((s.sawRead (.chCtrl x.ch) w).ret (.code .notReady))) ∧
    (x.fields.mode = .interrupt → s.cfg.chDir.getLsbD x.ch = x.fields.dir → (s.chan x.ch).rdy = true →
      x.fields.mgr = false →
      runOp (.beginXfer 0 d) 2 s = .next ((s.sawRead (.chCtrl x.ch) w).ret (.code .noManager)))

/-- R102: a polling-mode `COMPLETE` of a channel whose TSFRDONE is set reads it once, stores the done-length in the
descriptor, sets d.done, invokes the callback if there is one and returns `Ok`, whatever the timeout. -/
def Obligations.CompletePollingRun : Prop :=
  ∀ (s : State) (d r : Nat) (x : Desc) (n : Word),
    s.pos = .start → s.drvUsable = true → s.refOf d = some r → s.descs[r]? = some x → x.fields.mode = .polling →
    x.ch < s.cfg.numCh → CbReturns x.fields.cb → (s.chan x.ch).tsfrDone = true →
    runOp (.completeXfer 0 d n) (if x.fields.cb.isSome then 6 else 5) s =
      .next (((((s.sawRead (.chCtrl x.ch) (s.ctrlWord x.ch) |>.sawRead (.chDoneLen x.ch)
        (s.chan x.ch).doneLen).setDescTransferred r (s.chan x.ch).doneLen).setDescDone r true).calledBack r
          x.fields.cb).ret (.code .ok))

/-- R102: a bounded polling-mode `COMPLETE` that never sees TSFRDONE makes exactly `n` reads of the control word,
then stores the done-length, clears d.done, invokes the callback if there is one and returns `TimedOut`. -/
def Obligations.CompleteTimeoutRun : Prop :=
  ∀ (s : State) (d r : Nat) (x : Desc) (n : Word),
    s.pos = .start → s.drvUsable = true → s.refOf d = some r → s.descs[r]? = some x → x.fields.mode = .polling →
    x.ch < s.cfg.numCh → CbReturns x.fields.cb → (s.chan x.ch).tsfrDone = false → 0 < n.toNat →
    runOp (.completeXfer 0 d n) (1 + n.toNat + if x.fields.cb.isSome then 4 else 3) s =
      .next (((((s.sawReads (.chCtrl x.ch) (s.ctrlWord x.ch) n.toNat |>.sawRead (.chDoneLen x.ch)
        (s.chan x.ch).doneLen).setDescTransferred r (s.chan x.ch).doneLen).setDescDone r false).calledBack r
          x.fields.cb).ret (.code .timedOut))

/-- R102: an interrupt-mode `COMPLETE` tests d.done and reads no register: it returns `Ok` where it is set, waits for it
where no bound is given, fails at once without a manager where one is, and expires after `n` tests. -/
def Obligations.CompleteInterruptRuns : Prop :=
  ∀ (s : State) (d r : Nat) (x : Desc) (n : Word),
    s.pos = .start → s.drvUsable = true → s.refOf d = some r → s.descs[r]? = some x → x.fields.mode = .interrupt →
    (n = 0 ∨ x.fields.mgr = true → x.done = true → runOp (.completeXfer 0 d n) 2 s = .next (s.ret (.code .ok))) ∧
    (n = 0 → x.done = false → ∀ k,
      runOp (.completeXfer 0 d n) (k + 1) s = .next (s.goto (.completing r .waitForever))) ∧
    (n ≠ 0 → x.fields.mgr = false → exec (.completeXfer 0 d n) s = .next (s.ret (.code .noManager))) ∧
    (n ≠ 0 → x.fields.mgr = true → x.done = false → x.ch < s.cfg.numCh → CbReturns x.fields.cb →
      runOp (.completeXfer 0 d n) (1 + n.toNat + if x.fields.cb.isSome then 4 else 3) s =
        .next (((((s.sawRead (.chDoneLen x.ch) (s.chan x.ch).doneLen).setDescTransferred r
          (s.chan x.ch).doneLen).setDescDone r false).calledBack r x.fields.cb).ret (.code .timedOut)))

/-- R100, R102, R136: where `COMPLETE` stops and its last steps: a name bound to no descriptor faults; the answer is
returned with d.done stored where there is no callback and after the callback where there is one; a callback that
re-enters the block is refused. -/
def Obligations.CompleteStopsAndEnds : Prop :=
  ∀ (s : State) (d r : Nat) (x : Desc) (n : Word) (ok : Bool) (code : ResCode),
    code = (if ok then .ok else .timedOut) →
    (s.pos = .start → s.refOf d = none →
      exec (.completeXfer 0 d n) s = .fault (.badDescriptor (s.infoOf (.completeXfer 0 d n)))) ∧
    (s.pos = .completing r (.setDone ok) → s.descs[r]? = some x →
      (x.fields.cb = none → exec (.completeXfer 0 d n) s = .next ((s.setDescDone r ok).ret (.code code))) ∧
      (∀ cb, x.fields.cb = some cb →
        exec (.completeXfer 0 d n) s = .next ((s.setDescDone r ok).goto (.completing r (.callback ok))))) ∧
    (s.pos = .completing r (.callback ok) → s.descs[r]? = some x → ∀ cb, x.fields.cb = some cb →
      (cb.reenters = false → exec (.completeXfer 0 d n) s = .next ((s.emit (.callback r s.cur)).ret (.code code))) ∧
      (cb.reenters = true → exec (.completeXfer 0 d n) s = .refused (.callbackReentry r)))

/-- R103: `CANCEL` is its entry checks and one write of 0 to the channel's control word: the masks, MODE, TSFR, TSFRDONE
and RDY are 0 afterwards, a busy channel is aborted with its done-length kept, and nothing else changes. -/
def Obligations.CancelRun : Prop :=
  ∀ (s : State) (d r : Nat) (x : Desc) (c : Chan),
    (s.pos = .start → s.refOf d = none → exec (.cancelXfer 0 d) s = .fault (.badDescriptor (s.infoOf (.cancelXfer 0 d)))) ∧
    (s.pos = .start → s.drvUsable = true → s.refOf d = some r → s.descs[r]? = some x → s.drvNumCh.toNat ≤ x.ch →
      exec (.cancelXfer 0 d) s = .fault (.badIndex (s.infoOf (.cancelXfer 0 d)))) ∧
    (s.descs[r]? = some x → x.ch < s.cfg.numCh → s.chan x.ch = c → (c.phase = .idle → c.tsfr = false) → ∀ t,
      t = ((s.sawWrite (.chCtrl x.ch) 0).setChan x.ch
        { c with
          irqDone := false, irqLast := false, mode := false, tsfr := false, tsfrDone := false, rdy := false
          phase := .idle }).ret (.code .ok) →
      (s.pos = .cancelWrite r → exec (.cancelXfer 0 d) s = .next t) ∧
      (s.pos = .start → s.drvUsable = true → s.refOf d = some r → x.ch < s.drvNumCh.toNat →
        runOp (.cancelXfer 0 d) 2 s = .next t))

/-! ### The completion tracker -/

/-- R104: `MGR_INIT` clears the slots of the channels `DMA_INIT` counted, then both masks, then makes the manager
present: one step each. Its last step is also given alone. -/
def Obligations.MgrInitRun : Prop :=
  ∀ (s : State),
    (s.pos = .mgrPresent →
      exec (.mgrInit 0) s = .next ({ s with mgr := { s.mgr with present := true } }.ret (.code .ok))) ∧
    (s.pos = .start → s.drvUsable = true → ∃ m : List (Option Nat),
      m.length = s.mgr.slots.length ∧
      (∀ k, m.getD k none = if k < s.drvNumCh.toNat then none else s.slot k) ∧
      runOp (.mgrInit 0) (s.drvNumCh.toNat + 4) s =
        .next ({ s with mgr := { present := true, slots := m, doneMask := 0, lastMask := 0 } }.ret (.code .ok)))

/-- R105: the steps of `UPDATE` that stop, return early, read the status or return after the last acknowledge. -/
def Obligations.UpdateSteps : Prop :=
  ∀ (s : State),
    (s.pos = .start → s.drvUsable = true →
      (s.mgr.present = false → exec (.update 0) s = .fault (.managerUninit (s.infoOf (.update 0)))) ∧
      (s.mgr.present = true → exec (.update 0) s = .next (s.goto (.updating .gstatus)))) ∧
    (s.pos = .updating .gstatus →
      (s.gstatus = 0 → exec (.update 0) s = .next ((s.sawRead .gstatus 0).ret (.code .ok))) ∧
      (s.gstatus ≠ 0 → 0 < s.drvNumCh.toNat → exec (.update 0) s =
        .next ((s.sawRead .gstatus s.gstatus).goto (.updating (.chan 0))))) ∧
    ∀ (ch : Nat) (c : Chan), ch < s.cfg.numCh → s.chan ch = c →
      (s.pos = .updating (.chan ch) → ∀ t, t = s.sawRead (.chIstat ch) (s.istatWord ch) →
        (c.istDone = true → exec (.update 0) s = .next (t.goto (.updating (.markDone ch (s.istatWord ch) (s.slot ch))))) ∧
        (c.istDone = false → c.istLast = true →
          exec (.update 0) s = .next (t.goto (.updating (.markLast ch (s.istatWord ch) (s.slot ch))))) ∧
        (c.istDone = false → c.istLast = false → ch + 1 < s.drvNumCh.toNat →
          exec (.update 0) s = .next (t.goto (.updating (.chan (ch + 1))))) ∧
        (c.istDone = false → c.istLast = false → s.drvNumCh.toNat ≤ ch + 1 →
          exec (.update 0) s = .next (t.ret (.code .ok)))) ∧
      ∀ (st : Word) (d : Option Nat), s.pos = .updating (.ack ch st d) → s.cfg.irqAckClearsAll = false →
        s.slotCb d = none → s.drvNumCh.toNat ≤ ch + 1 →
        exec (.update 0) s =
          .next (((s.sawWrite (.chIstat ch) st).setChan ch
            { c with istDone := c.istDone && !st.getLsbD 0, istLast := c.istLast && !st.getLsbD 1 }).ret (.code .ok))

/-- R105, R106: an uninterrupted `UPDATE` that finds an event services every channel in ascending order, each as
`serviceChan` says: mask bits, the slot's descriptor, the acknowledge of what was read, then the callback. -/
def Obligations.UpdateRun : Prop :=
  ∀ s : State, s.pos = .start → s.drvUsable = true → s.mgr.present = true → s.gstatus ≠ 0 →
    s.drvNumCh.toNat ≤ s.cfg.numCh → s.CallbacksReturn →
    ∃ n, runOp (.update 0) n s =
      .next (((s.sawRead .gstatus s.gstatus).serviceAll s.drvNumCh.toNat).ret (.code .ok))

/-- R105: what the service of one channel leaves: its raw status is clear, its tracker bits are set for the events it
had, the descriptor of its slot has the done-length and is done after a transfer-done event; no other channel and no other
descriptor changes, and of the rest of the state only the history grows. -/
def Obligations.ServiceEffect : Prop :=
  ∀ (s : State) (ch : Nat) (c : Chan), ch < s.chans.length → ch < 32 → s.chan ch = c → ∀ t, t = s.serviceChan ch →
    t.chan ch = { c with istDone := false, istLast := false } ∧ (∀ k, k ≠ ch → t.chan k = s.chan k) ∧
    (∀ k < 32, t.mgr.doneMask.getLsbD k = (s.mgr.doneMask.getLsbD k || (decide (k = ch) && c.istDone))) ∧
    (∀ k < 32, t.mgr.lastMask.getLsbD k = (s.mgr.lastMask.getLsbD k || (decide (k = ch) && c.istLast))) ∧
    (∀ r x, s.slot ch = some r → s.descs[r]? = some x →
      t.descs[r]? = some (if c.istDone then { x with done := true, transferred := c.doneLen } else x)) ∧
    (∀ r, s.slot ch ≠ some r → t.descs[r]? = s.descs[r]?) ∧
    t = { s with
      chans := t.chans, mgr := { s.mgr with doneMask := t.mgr.doneMask, lastMask := t.mgr.lastMask }
      descs := t.descs, hist := t.hist } ∧ ∃ es, t.hist = es ++ s.hist

/-- R108: in a step, a manager slot is written only by MAIN, in `BEGIN`, which stores its descriptor in its channel's slot,
or in `MGR_INIT`, which clears one. That `BEGIN` gets there in interrupt mode only is BeginChecks. -/
def Obligations.SlotWriters : Prop :=
  ∀ s t : State, step s = .next t → t.mgr.slots = s.mgr.slots ∨
    (s.choice = .cpu ∧ s.isrActive = false ∧
      ((∃ z d r x, s.MainRuns (.beginXfer z d) ∧ s.mainPos = .begun r .slot ∧ s.descs[r]? = some x ∧
          t.mgr.slots = s.mgr.slots.set x.ch (some r)) ∨
        ∃ z ch, s.MainRuns (.mgrInit z) ∧ s.mainPos = .mgrSlot ch ∧ t.mgr.slots = s.mgr.slots.set ch none))

/-! ### The interrupt controller -/

/-- R115, R117, R119, R121: what the priority, a pending bank, an enable bank and the threshold read as. -/
def Obligations.PlicReads : Prop :=
  ∀ s : State, s.cfg.variant = .banked →
    (∀ n : Idx, n.toNat ≠ 0 → n.toNat < s.cfg.numSources →
      exec (.prdPrio n) s = .next ((s.sawRead (.prio n.toNat) (s.src n.toNat).prio).ret (.word (s.src n.toNat).prio))) ∧
    (∀ b : Idx, b.toNat < s.cfg.numBanks → ∃ w u : Word,
      (∀ k < 32, w.getLsbD k = (decide (1 ≤ 32 * b.toNat + k ∧ 32 * b.toNat + k < s.cfg.numSources) &&
        (s.src (32 * b.toNat + k)).pending)) ∧
      (∀ k < 32, u.getLsbD k = (decide (1 ≤ 32 * b.toNat + k ∧ 32 * b.toNat + k < s.cfg.numSources) &&
        (s.src (32 * b.toNat + k)).en)) ∧
      exec (.prdPend b) s = .next ((s.sawRead (.pend b.toNat) w).ret (.word w)) ∧
      exec (.prdEn b) s = .next ((s.sawRead (.en b.toNat) u).ret (.word u))) ∧
    exec (.prdThr 0) s = .next ((s.sawRead .thr s.thr).ret (.word s.thr))

/-- R114, R116, R120, R122: a priority or threshold write stores a value in range and faults above it; an enable bank
write sets the enables of the sources of the bank that exist and nothing else; a complete ends the service of a source
in service and faults on any other. -/
def Obligations.PlicWrites : Prop :=
  ∀ (s : State) (v : Word), s.cfg.variant = .banked →
    (∀ n : Idx, n.toNat ≠ 0 → n.toNat < s.cfg.numSources →
      (v.toNat ≤ s.cfg.priorityLevels.toNat → exec (.pwrPrio n v) s =
        .next (((s.sawWrite (.prio n.toNat) v).setSrc n.toNat { (s.src n.toNat) with prio := v }).ret .unit)) ∧
      (s.cfg.priorityLevels.toNat < v.toNat →
        exec (.pwrPrio n v) s = .fault (.priorityRange (s.infoAt (.pwrPrio n v) (.prio n.toNat))))) ∧
    (v.toNat ≤ s.cfg.priorityLevels.toNat →
      exec (.pwrThr 0 v) s = .next (((s.sawWrite .thr v).setThr v).ret .unit)) ∧
    (s.cfg.priorityLevels.toNat < v.toNat → exec (.pwrThr 0 v) s = .fault (.priorityRange (s.infoAt (.pwrThr 0 v) .thr))) ∧
    (∀ b : Idx, b.toNat < s.cfg.numBanks → s.srcs.length = s.cfg.numSources → ∃ l : List Source,
      l.length = s.srcs.length ∧
      (∀ n < s.cfg.numSources, l.getD n default =
        if n / 32 = b.toNat ∧ n ≠ 0 then { (s.src n) with en := v.getLsbD (n % 32) } else s.src n) ∧
      exec (.pwrEn b v) s = .next ({ s.sawWrite (.en b.toNat) v with srcs := l }.ret .unit)) ∧
    (v.toNat ≠ 0 → v.toNat < s.cfg.numSources → (s.src v.toNat).inService = true →
      exec (.pwrClaim 0 v) s =
        .next (((s.sawWrite .claim v).setSrc v.toNat { (s.src v.toNat) with inService := false }).ret .unit)) ∧
    ((v.toNat = 0 ∨ s.cfg.numSources ≤ v.toNat ∨ (s.src v.toNat).inService = false) →
      exec (.pwrClaim 0 v) s = .fault (.badComplete (s.infoAt (.pwrClaim 0 v) .claim)))

/-- R113: the claim read takes the pending, enabled source above the threshold with the largest priority, the smallest
id among equals, makes it in service and answers its id; with no such source it answers 0 and changes nothing. -/
def Obligations.ClaimRead : Prop :=
  ∀ (s : State) (C : Nat → Prop), s.cfg.variant = .banked →
    (∀ n, C n ↔ (1 ≤ n ∧ n < s.cfg.numSources ∧ (s.src n).pending = true ∧ (s.src n).en = true ∧
      s.thr.toNat < (s.src n).prio.toNat)) →
    ((∀ n, ¬ C n) → exec (.prdClaim 0) s = .next ((s.sawRead .claim 0).ret (.word 0))) ∧
    (∀ n, C n →
      (∀ m, C m → (s.src m).prio.toNat < (s.src n).prio.toNat ∨ ((s.src m).prio = (s.src n).prio ∧ n ≤ m)) →
      exec (.prdClaim 0) s =
        .next (((s.setSrc n { (s.src n) with pending := false, inService := true }).sawRead .claim
          (BitVec.ofNat 32 n)).ret (.word (BitVec.ofNat 32 n)))) ∧
    ((∃ n, C n) → ∃ n, C n ∧
      ∀ m, C m → (s.src m).prio.toNat < (s.src n).prio.toNat ∨ ((s.src m).prio = (s.src n).prio ∧ n ≤ m))

/-- R123, R124, R125: the mask CSR reads as stored and stores all 32 bits; the pending CSR reads as the levels of the
lines at that moment, the DMA line among them. -/
def Obligations.CsrAccesses : Prop :=
  ∀ (s : State) (v : Word), s.cfg.variant = .builtIn →
    exec (.crdMask 0) s = .next (s.ret (.word s.icMask)) ∧
    exec (.cwrMask 0 v) s = .next ((s.setIcMask v).ret .unit) ∧
    (s.cfg.csrIrqMask ≠ s.cfg.csrIrqPending → ∃ w : Word,
      (∀ k < 32, w.getLsbD k = if k = s.cfg.dmaIrqSource then decide (s.gstatus ≠ 0) else s.lines.getD k false) ∧
      exec (.crdPend 0) s = .next (s.ret (.word w)))

/-- R127: `IC_INIT` clears every enable and then the threshold on the banked controller, by one write per bank and one
more, and the mask on the built-in one; priorities, pending and in-service bits are unchanged. Its last step is also
given alone. -/
def Obligations.IcInitRun : Prop :=
  ∀ s : State,
    (s.cfg.variant = .builtIn → exec (.icInit 0) s = .next ((s.setIcMask 0).ret (.code .ok))) ∧
    (s.cfg.variant = .banked → s.pos = .icInitThr →
      exec (.icInit 0) s = .next (((s.sawWrite .thr 0).setThr 0).ret (.code .ok))) ∧
    (s.cfg.variant = .banked → s.pos = .start → s.srcs.length = s.cfg.numSources → 1 ≤ s.cfg.numSources →
      runOp (.icInit 0) (s.cfg.numBanks + 1) s =
        .next ({ s with
          srcs := s.srcs.mapIdx fun n x => if n = 0 then x else { x with en := false }
          thr := 0
          hist := .bus s.cur true (Reg.thr.addr s.cfg) 4 0 ::
            (((List.range s.cfg.numBanks).map fun b => Event.bus s.cur true ((Reg.en b).addr s.cfg) 4 0).reverse ++
              s.hist) }.ret (.code .ok)))

/-- R128, R129: `IC_ENABLE` gives a source of priority 0 the priority 1, then sets its enable bit; `IC_DISABLE` clears it;
no other source changes. On the built-in controller both are a read and a write of the mask. Their last steps are also
given alone. -/
def Obligations.IcEnableDisableRuns : Prop :=
  ∀ (s : State) (i : Idx) (n : Nat) (w : Word), i.toNat = n →
    (s.cfg.variant = .banked → n ≠ 0 → n < s.cfg.numSources → s.pos = .icWriteEn w →
      exec (.icEnable i) s =
        .next (((s.sawWrite (.en (n / 32)) (w ||| bit (n % 32))).writeEnBank (n / 32) (w ||| bit (n % 32))).ret
          (.code .ok)) ∧
      exec (.icDisable i) s =
        .next (((s.sawWrite (.en (n / 32)) (w &&& ~~~bit (n % 32))).writeEnBank (n / 32) (w &&& ~~~bit (n % 32))).ret
          (.code .ok))) ∧
    (s.cfg.variant = .banked → n ≠ 0 → n < s.cfg.numSources → s.pos = .start → s.srcs.length = s.cfg.numSources →
      ∃ e : Word, e.getLsbD (n % 32) = (s.src n).en ∧
      ((s.src n).prio ≠ 0 → runOp (.icEnable i) 3 s =
        .next (((s.sawRead (.prio n) (s.src n).prio |>.sawRead (.en (n / 32)) e
          |>.sawWrite (.en (n / 32)) (e ||| bit (n % 32))).setSrc n { (s.src n) with en := true }).ret (.code .ok))) ∧
      ((s.src n).prio = 0 → 1 ≤ s.cfg.priorityLevels.toNat → runOp (.icEnable i) 4 s =
        .next (((s.sawRead (.prio n) 0 |>.sawWrite (.prio n) 1 |>.sawRead (.en (n / 32)) e
          |>.sawWrite (.en (n / 32)) (e ||| bit (n % 32))).setSrc n { (s.src n) with prio := 1, en := true }).ret
            (.code .ok))) ∧
      runOp (.icDisable i) 2 s =
        .next (((s.sawRead (.en (n / 32)) e
          |>.sawWrite (.en (n / 32)) (e &&& ~~~bit (n % 32))).setSrc n { (s.src n) with en := false }).ret (.code .ok))) ∧
    (s.cfg.variant = .builtIn → n < 32 → s.pos = .start →
      runOp (.icEnable i) 2 s = .next ((s.setIcMask (s.icMask ||| bit n)).ret (.code .ok)) ∧
      runOp (.icDisable i) 2 s = .next ((s.setIcMask (s.icMask &&& ~~~bit n)).ret (.code .ok)))

/-- R130, R131: `IC_PRIORITY_COUNT` answers the number of levels, 0 on the built-in controller; `IC_SET_PRIORITY` writes
a level in range, faults above it, and answers `Unimplemented` on the built-in controller whatever the source. -/
def Obligations.PriorityOperations : Prop :=
  ∀ (s : State) (n : Idx) (v : Word),
    (s.cfg.variant = .builtIn →
      exec (.icPriorityCount 0) s = .next (s.ret (.word 0)) ∧
      exec (.icSetPriority n v) s = .next (s.ret (.code .unimplemented))) ∧
    (s.cfg.variant = .banked →
      exec (.icPriorityCount 0) s = .next (s.ret (.word s.cfg.priorityLevels)) ∧
      (n.toNat ≠ 0 → n.toNat < s.cfg.numSources →
        (v.toNat ≤ s.cfg.priorityLevels.toNat → exec (.icSetPriority n v) s =
          .next (((s.sawWrite (.prio n.toNat) v).setSrc n.toNat { (s.src n.toNat) with prio := v }).ret (.code .ok))) ∧
        (s.cfg.priorityLevels.toNat < v.toNat →
          exec (.icSetPriority n v) s = .fault (.priorityRange (s.infoOf (.icSetPriority n v))))))

/-- R27, R82, R112: the DMA line is high exactly when the global status is not 0, that is when some channel has an event
its masks let through; the CPU's request is high exactly when a source is pending, enabled and above the threshold, or
on the built-in controller when a line is high and unmasked. R33: ENV may set every line but the DMA line, and sets no
other and nothing else. -/
def Obligations.InterruptLines : Prop :=
  ∀ s : State,
    (s.dmaIrq = true ↔ s.gstatus ≠ 0) ∧ s.lineLevel s.cfg.dmaIrqSource = s.dmaIrq ∧
    (s.dmaIrq = true ↔ ∃ ch < s.cfg.numCh, s.gmask.getLsbD ch = true ∧
      (((s.chan ch).istDone = true ∧ (s.chan ch).irqDone = true) ∨
        ((s.chan ch).istLast = true ∧ (s.chan ch).irqLast = true))) ∧
    (s.cfg.variant = .banked → (s.eip = true ↔ ∃ n, 1 ≤ n ∧ n < s.cfg.numSources ∧
      (s.src n).pending = true ∧ (s.src n).en = true ∧ s.thr.toNat < (s.src n).prio.toNat)) ∧
    (s.cfg.variant = .builtIn → (s.eip = true ↔ ∃ n < 32, s.lineLevel n = true ∧ s.icMask.getLsbD n = true)) ∧
    ∀ (n : Nat) (level : Bool),
      (n < s.cfg.numSources → n < s.lines.length → n ≠ s.cfg.dmaIrqSource → ∃ t,
        stepOf (.envLine n level) s = .next t ∧ t.lineLevel n = level ∧
        (∀ k, k ≠ n → t.lineLevel k = s.lineLevel k) ∧ t = { s with lines := t.lines }) ∧
      stepOf (.envLine s.cfg.dmaIrqSource level) s = .next s

/-- R111: GW_LATCH sets the pending bit of a source whose line is high and which is neither pending nor in service, and
is no step elsewhere; no other step of the machine sets a pending bit. -/
def Obligations.Gateway : Prop :=
  ∀ (n : Nat),
    (∀ s : State, s.cfg.variant = .banked → 1 ≤ n → n < s.cfg.numSources →
      (s.lineLevel n = true → (s.src n).pending = false → (s.src n).inService = false →
        stepOf (.gwLatch n) s = .next (s.setSrc n { (s.src n) with pending := true })) ∧
      ((s.lineLevel n = false ∨ (s.src n).pending = true ∨ (s.src n).inService = true) →
        stepOf (.gwLatch n) s = .next s)) ∧
    ∀ s t : State, step s = .next t → (s.src n).pending = false → (t.src n).pending = true →
      s.choice = .gwLatch n ∧ s.lineLevel n = true ∧ (s.src n).inService = false ∧ 1 ≤ n ∧ n < s.cfg.numSources

/-- R132: `DISPATCH` ignores every source but the DMA controller's, for which it runs `UPDATE` and discards its result. -/
def Obligations.DispatchRuns : Prop :=
  ∀ (s : State) (n : Idx),
    (n.toNat ≠ s.cfg.dmaIrqSource → exec (.dispatch n) s = .next (s.ret .unit)) ∧
    (n.toNat = s.cfg.dmaIrqSource →
      (s.pos = .start → s.drvUsable = false → exec (.dispatch n) s = .next (s.ret .unit)) ∧
      (s.pos = .updating .gstatus → s.gstatus = 0 →
        exec (.dispatch n) s = .next ((s.sawRead .gstatus 0).ret .unit)) ∧
      (s.pos = .start → s.drvUsable = true → s.mgr.present = true → s.gstatus ≠ 0 →
        s.drvNumCh.toNat ≤ s.cfg.numCh → s.CallbacksReturn →
        ∃ k, runOp (.dispatch n) k s =
          .next (((s.sawRead .gstatus s.gstatus).serviceAll s.drvNumCh.toNat).ret .unit)))

/-- R113, R114, R133: on the banked controller `IRQ_ENTRY` claims a source, records it, dispatches it, and completes it;
a claim that answers 0 returns at once. Only the DMA controller's source runs `UPDATE`, which returns after its status read
where the DMA line has fallen since. -/
def Obligations.IrqEntryBankedRun : Prop :=
  ∀ (s : State), s.cfg.variant = .banked →
    (s.pos = .start → s.claimable = none → exec (.irqEntry 0) s = .next ((s.sawRead .claim 0).ret .unit)) ∧
    (∀ n, s.pos = .irqComplete n → n ≠ 0 → n < s.cfg.numSources → n < 2 ^ 32 → (s.src n).inService = true →
      exec (.irqEntry 0) s =
        .next (((s.sawWrite .claim (BitVec.ofNat 32 n)).setSrc n { (s.src n) with inService := false }).ret .unit)) ∧
    ∀ n t, s.pos = .start → s.claimable = some n → n < 2 ^ 32 → n < s.srcs.length →
      t = ((s.setSrc n { (s.src n) with pending := false, inService := true }).sawRead .claim
        (BitVec.ofNat 32 n)).emit (.irq n) →
      (n ≠ s.cfg.dmaIrqSource → runOp (.irqEntry 0) 3 s =
        .next (((t.sawWrite .claim (BitVec.ofNat 32 n)).setSrc n
          { (s.src n) with pending := false, inService := false }).ret .unit)) ∧
      (n = s.cfg.dmaIrqSource → s.drvUsable = true → s.mgr.present = true → s.gstatus ≠ 0 →
        s.drvNumCh.toNat ≤ s.cfg.numCh → s.CallbacksReturn →
        ∃ k, runOp (.irqEntry 0) k s =
          .next (((((t.sawRead .gstatus s.gstatus).serviceAll s.drvNumCh.toNat).sawWrite .claim
            (BitVec.ofNat 32 n)).setSrc n { (s.src n) with pending := false, inService := false }).ret .unit)) ∧
      (n = s.cfg.dmaIrqSource → s.drvUsable = true → s.mgr.present = true → s.gstatus = 0 →
        runOp (.irqEntry 0) 5 s =
          .next ((((t.sawRead .gstatus 0).sawWrite .claim (BitVec.ofNat 32 n)).setSrc n
            { (s.src n) with pending := false, inService := false }).ret .unit))

/-- R125, R133: on the built-in controller `IRQ_ENTRY` reads the pending lines, then the mask, takes the lowest source of
both, records it and dispatches it, and acknowledges nothing at the controller. -/
def Obligations.IrqEntryBuiltInRun : Prop :=
  ∀ (s : State), s.cfg.variant = .builtIn → s.cfg.csrIrqMask ≠ s.cfg.csrIrqPending →
    (∀ x, s.pos = .irqReadMask x → x &&& s.icMask = 0 → exec (.irqEntry 0) s = .next (s.ret .unit)) ∧
    (s.pos = .start → (∀ k < 32, s.lineLevel k = true → s.icMask.getLsbD k = false) →
      runOp (.irqEntry 0) 2 s = .next (s.ret .unit)) ∧
    ∀ n, s.pos = .start → n < 32 → s.lineLevel n = true → s.icMask.getLsbD n = true →
      (∀ k < n, s.lineLevel k = true → s.icMask.getLsbD k = false) →
      (n ≠ s.cfg.dmaIrqSource → runOp (.irqEntry 0) 3 s = .next ((s.emit (.irq n)).ret .unit)) ∧
      (n = s.cfg.dmaIrqSource → s.drvUsable = true → s.mgr.present = true →
        s.drvNumCh.toNat ≤ s.cfg.numCh → s.CallbacksReturn →
        ∃ k, runOp (.irqEntry 0) k s =
          .next ((((s.emit (.irq n)).sawRead .gstatus s.gstatus).serviceAll s.drvNumCh.toNat).ret .unit))

/-- R16, R138, R139: interrupt entry is taken when the request, `cpu_ie` and no service in progress hold, and changes
only `isr_active` and the position of `ISR`; while it is active `MAIN` keeps its place; its return clears `isr_active`
alone; an operation of `MAIN` moves only its own position, or returns to the next item; only ENV changes `cpu_ie`. -/
def Obligations.InterruptEntryAndReturn : Prop :=
  (∀ s : State,
    (s.eip = true → s.cpuIe = true → s.isrActive = false →
      stepOf .irqEntry s = .next { s with isrActive := true, isrPos := .start }) ∧
    (s.eip = false ∨ s.cpuIe = false ∨ s.isrActive = true → stepOf .irqEntry s = .next s) ∧
    (s.isrActive = true → ∀ r q, s.ret r = { s with isrActive := false, isrPos := .start } ∧
      s.goto q = { s with isrPos := q }) ∧
    (s.isrActive = false → ∀ r q,
      s.ret r = { s with prog := s.prog.tail, mainPos := .start, result := some r } ∧
      s.goto q = { s with mainPos := q })) ∧
  ∀ s t : State, step s = .next t →
    (s.isrActive = true → t.prog = s.prog ∧ t.mainPos = s.mainPos ∧ t.result = s.result) ∧
    (t.isrActive = true → s.isrActive = false → s.choice = .irqEntry ∧ t.isrPos = .start ∧ t.mainPos = s.mainPos) ∧
    (t.cpuIe = s.cpuIe ∨ s.choice = .envCpuIe t.cpuIe)


/-! ### The machine as a whole -/

/-- R20, R22, R26, R31, R47: every step keeps `Inv` and leaves the parameters as they are. The done-length part of R26 is
kept while the channel is Busy, as log entry 23 says. -/
def Obligations.InvariantKept : Prop :=
  ∀ s t : State, s.Inv → step s = .next t → t.Inv ∧ t.cfg = s.cfg

/-- Every invariant holds after reset, whatever the parameters and whatever the values R147 leaves to a draw. -/
def Obligations.InvariantsAtReset : Prop :=
  ∀ (p : Params) (r : ResetDraws) (s : State), s = State.resetWith p r ∨ s = State.reset →
    s.Inv ∧ s.MasksInRange ∧ s.DriverLawful ∧ s.PulseReady ∧ s.BeginHolds

/-- R28, R75, R109: every step keeps the tracker's masks without a bit at or above NUM_CH, and keeps a usable driver's
channel count equal to NUM_CH with the reported offset equal to 0x10. -/
def Obligations.TrackerDriverKept : Prop :=
  ∀ s t : State, step s = .next t → (s.MasksInRange → t.MasksInRange) ∧ (s.DriverLawful → t.DriverLawful)

/-- R49, R74, R101: every step of every agent keeps the channel of a `BEGIN` past its validation Idle with RDY = 1, and
the endpoint of a `POLL_AND_TRANSFER` about to pulse ready. So neither can fault there for what another agent did. -/
def Obligations.CheckedPositionsKept : Prop :=
  ∀ s t : State, step s = .next t → (s.PulseReady → t.PulseReady) ∧ (s.Inv → s.BeginHolds → t.BeginHolds)

/-- R37, R46, R47: no operation of the block writes memory; a step changes a byte only where an engine stores the next
byte of a from-peripheral transfer, or where MAIN stores to ordinary memory, and then only the bytes of that store. -/
def Obligations.MemoryFrame : Prop :=
  (∀ (i : Instr) (s t : State), exec i s = .next t → t.mem = s.mem) ∧
  ∀ (s t : State) (x : Nat), step s = .next t → Mem.lookup x t.mem ≠ Mem.lookup x s.mem →
    (∃ ch, s.choice = .eProgress ch ∧ ch < s.cfg.numCh ∧ s.cfg.chDir.getLsbD ch = true ∧ (s.chan ch).phase = .busy ∧
      (s.chan ch).mode = false ∧ x = ((s.chan ch).base + (s.chan ch).doneLen).toNat ∧ s.cfg.inUnit x = false) ∨
    (s.choice = .cpu ∧ s.isrActive = false ∧ ∃ a w v rest k, s.prog = .store a w v :: rest ∧ k < w.bytes ∧
      x = (a + BitVec.ofNat 32 k).toNat ∧ s.cfg.inUnit x = false)

/-- R147: what reset leaves, for every choice of the parameters and of the drawn values. The reserved bits of the two
stream data slots are 0 (R20; for the input slot log entry 32), a drawn priority out of range is taken as 0 (log entry 24),
and the level of a line ENV drives is a drawn value too (log entry 31). -/
def Obligations.ResetValues : Prop :=
  ∀ (p : Params) (r : ResetDraws) (s : State), s = State.resetWith p r →
    s.cfg = p ∧
    (s.ep0.ready = r.ready 0 ∧ s.ep0.error = r.error 0 ∧ s.ep1.ready = r.ready 1 ∧ s.ep1.error = r.error 1 ∧
      (∀ k < 32, s.ep0.data.getLsbD k = (decide (k ≤ p.sw) && (r.epData 0).getLsbD k)) ∧
      ∀ k < 32, s.ep1.data.getLsbD k = (decide (k ≤ p.sw + p.cw) && (r.epData 1).getLsbD k)) ∧
    s.gmask = 0 ∧ s.gstatus = 0 ∧ s.dmaIrq = false ∧ s.chans.length = p.numCh ∧
    (∀ ch < p.numCh, s.chan ch =
      { irqDone := false, irqLast := false, tsfr := false, tsfrDone := false, mode := false, rdy := false
        base := r.base ch, len := r.len ch, doneLen := r.doneLen ch, istDone := false, istLast := false
        phase := .idle }) ∧
    s.drvUsable = false ∧ s.drvNumCh = r.drvNumCh ∧ s.mgr.present = false ∧ s.descs = [] ∧ (∀ d, s.refOf d = none) ∧
    s.srcs.length = p.numSources ∧
    (∀ n, (s.src n).pending = false ∧ (s.src n).inService = false ∧ (s.src n).prio ≤ p.priorityLevels) ∧
    (∀ n, n ≠ 0 → n < p.numSources → (s.src n).en = r.en n ∧
      (r.prio n ≤ p.priorityLevels → (s.src n).prio = r.prio n)) ∧
    (∀ n < p.numSources, s.lineLevel n = if n = p.dmaIrqSource then false else r.line n) ∧
    (∀ k < 32, s.pendWord.getLsbD k = s.lineLevel k) ∧
    (p.variant = .banked → s.eip = false) ∧ s.icMask = r.mask ∧ s.thr = r.thr ∧
    s.cpuIe = false ∧ s.isrActive = false ∧ s.irqEnabled = false ∧ s.mainPos = .start ∧ s.isrPos = .start ∧ s.hist = [] ∧
    ∀ x, Mem.lookup x s.mem = none

/-- R11, R39, R42, R110: at its address a register, and only it, is reached by an aligned 32-bit access of the CPU, which
does what the register's rule says; no other address reaches a register; every other access of which some byte lies in a
unit is a bad access. -/
def Obligations.PlainRegisterAccess : Prop :=
  ∀ (s : State) (v : Word), s.cfg.ok →
    (∀ r, r.check s.cfg = .present →
      s.cfg.regAt (r.addr s.cfg).toNat = some r ∧
      plainLoad (r.addr s.cfg) .word s = .next (((readReg r s).2.sawRead r (readReg r s).1).ret (.word (readReg r s).1)) ∧
      (∀ t, writeReg { agent := s.cur, word := none, addr := some (r.addr s.cfg) } r v (s.sawWrite r v) = .ok t →
        plainStore (r.addr s.cfg) .word v s = .next (t.ret .unit)) ∧
      ∀ f, writeReg { agent := s.cur, word := none, addr := some (r.addr s.cfg) } r v (s.sawWrite r v) = .error f →
        plainStore (r.addr s.cfg) .word v s = .fault f) ∧
    (∀ (a : Word) (r : Reg), s.cfg.regAt a.toNat = some r → r.check s.cfg = .present ∧ a = r.addr s.cfg) ∧
    ∀ (a : Word) (w : Width), (∃ k < w.bytes, s.cfg.inUnit (a + BitVec.ofNat 32 k).toNat = true) →
      (w ≠ .word ∨ a.toNat % 4 ≠ 0 ∨ s.cfg.regAt a.toNat = none) →
      plainLoad a w s = .fault (.badAccess { agent := s.cur, word := none, addr := some a }) ∧
      plainStore a w v s = .fault (.badAccess { agent := s.cur, word := none, addr := some a })

/-- R38, R47, R50: a CPU store to ordinary memory writes its bytes little-endian and no other byte; a load of written bytes
answers them, and changes only the history. Code of `n` bytes is refused at its first byte whose latest write is an
engine's, and is no step of the block where no byte's is, in particular where a later store overwrote it. The widths other
than 32 bits, the value a narrow store records and the placing of code execution are the model's (log entries 13, 17
and 18). -/
def Obligations.PlainMemoryAccess : Prop :=
  ∀ (s : State) (a v : Word) (w : Width),
    ((∀ k < w.bytes, s.cfg.inUnit (a + BitVec.ofNat 32 k).toNat = false) →
      (∃ m : List Host.Cell,
        plainStore a w v s = .next (({ s with mem := m }.emit (.bus s.cur true a w.bytes v)).ret .unit) ∧
        (∀ k < w.bytes, Mem.lookup (a + BitVec.ofNat 32 k).toNat m = some (v.extractLsb' (8 * k) 8)) ∧
        ∀ x, (∀ k < w.bytes, x ≠ (a + BitVec.ofNat 32 k).toNat) → Mem.lookup x m = Mem.lookup x s.mem) ∧
      ∀ b : Nat → Byte, (∀ k < w.bytes, Mem.lookup (a + BitVec.ofNat 32 k).toNat s.mem = some (b k)) → ∃ x : Word,
        (∀ k < w.bytes, x.extractLsb' (8 * k) 8 = b k) ∧ (∀ k < 32, 8 * w.bytes ≤ k → x.getLsbD k = false) ∧
        plainLoad a w s = .next ((s.emit (.bus s.cur false a w.bytes x)).ret (.word x))) ∧
    ∀ n : Nat,
      (∀ k < n, EngineWroteLast (a + BitVec.ofNat 32 k) s.hist →
        (∀ j < k, ¬ EngineWroteLast (a + BitVec.ofNat 32 j) s.hist) →
        plainRunCode a n s = .refused (.execDmaData (a + BitVec.ofNat 32 k))) ∧
      ((∀ k < n, ¬ EngineWroteLast (a + BitVec.ofNat 32 k) s.hist) → plainRunCode a n s = .next (s.ret .unit)) ∧
      ((∀ k < n, StoreWroteLast (a + BitVec.ofNat 32 k) s.hist ∨
          ∀ e ∈ s.hist, eventWrites (a + BitVec.ofNat 32 k) e = false) →
        plainRunCode a n s = .next (s.ret .unit))
end

