-- ==== Sys2Proof/Laws/Memory.lean ====
section
/-! SUPPORT. Ordinary memory: a read after a write, what a write leaves alone, and the canonical form. -/

namespace Sys2Proof.Machine

open Sys2Proof

theorem Mem.lookup_insert_same (a : Nat) (v : Byte) (m : List Host.Cell) : Mem.lookup a (Mem.insert a v m) = some v := by
  induction m with
  | nil => simp [Mem.insert, Mem.lookup]
  | cons c rest ih =>
    obtain ⟨x, b⟩ := c
    unfold Mem.insert
    split
    · simp [Mem.lookup]
    · split
      · simp [Mem.lookup]
      · rename_i h; simp [Mem.lookup, h, ih]

theorem Mem.lookup_insert_other {a x : Nat} (v : Byte) (m : List Host.Cell) (h : x ≠ a) :
    Mem.lookup x (Mem.insert a v m) = Mem.lookup x m := by
  induction m with
  | nil => simp [Mem.insert, Mem.lookup, h]
  | cons c rest ih =>
    obtain ⟨y, b⟩ := c
    unfold Mem.insert
    split
    · simp [Mem.lookup, h]
    · split
      · rename_i h'; subst h'; simp [Mem.lookup, h]
      · simp only [Mem.lookup, ih]

/-- Every address of a memory after a write is the written one or was there. -/
theorem Mem.mem_insert {a : Nat} {v : Byte} {m : List Host.Cell} {c : Host.Cell} (h : c ∈ Mem.insert a v m) :
    c = (a, v) ∨ c ∈ m := by
  induction m with
  | nil => simpa [Mem.insert] using h
  | cons d rest ih =>
    obtain ⟨x, b⟩ := d
    unfold Mem.insert at h
    split at h
    · simpa using h
    · split at h
      · rcases List.mem_cons.1 h with h | h
        · exact .inl h
        · exact .inr (List.mem_cons_of_mem _ h)
      · rcases List.mem_cons.1 h with h | h
        · exact .inr (h ▸ List.mem_cons_self)
        · rcases ih h with h | h
          · exact .inl h
          · exact .inr (List.mem_cons_of_mem _ h)

theorem Mem.insert_sorted (a : Nat) (v : Byte) {m : List Host.Cell} (h : m.Pairwise fun x y => x.1 < y.1) :
    (Mem.insert a v m).Pairwise fun x y => x.1 < y.1 := by
  induction m with
  | nil => simp [Mem.insert]
  | cons d rest ih =>
    obtain ⟨x, b⟩ := d
    have hx := List.pairwise_cons.1 h
    unfold Mem.insert
    split
    · rename_i hlt
      refine List.pairwise_cons.2 ⟨fun c hc => ?_, h⟩
      rcases List.mem_cons.1 hc with hc | hc
      · subst hc; exact hlt
      · exact Nat.lt_trans hlt (hx.1 c hc)
    · split
      · rename_i _ heq
        subst heq
        exact List.pairwise_cons.2 ⟨hx.1, hx.2⟩
      · refine List.pairwise_cons.2 ⟨fun c hc => ?_, ih hx.2⟩
        rcases Mem.mem_insert hc with hc | hc
        · subst hc; simp only; omega
        · exact hx.1 c hc

/-- A write of one byte inside the bus space keeps the canonical form. -/
theorem Mem.insert_wf {a : Nat} (v : Byte) {m : List Host.Cell} (ha : a < 2 ^ 32) (h : Mem.wf m) :
    Mem.wf (Mem.insert a v m) := by
  refine ⟨Mem.insert_sorted a v h.1, fun c hc => ?_⟩
  rcases Mem.mem_insert hc with hc | hc
  · subst hc; exact ha
  · exact h.2 c hc

/-- The machine's byte write keeps the canonical form. -/
theorem State.writeByte_wf (s : State) (a : Word) (v : Byte) (h : Mem.wf s.mem) : Mem.wf (s.writeByte a v).mem :=
  Mem.insert_wf v a.isLt h

/-- A read of a byte answers the latest written byte, and changes nothing then; else it takes one draw. -/
theorem State.readByte_cases (s : State) (a : Word) :
    (∃ b, Mem.lookup a.toNat s.mem = some b ∧ s.readByte a = (b, s)) ∨
    (Mem.lookup a.toNat s.mem = none ∧ s.readByte a = (Config.memByte s.hist s.draws, s.drew)) := by
  unfold State.readByte
  cases Mem.lookup a.toNat s.mem with
  | none => exact .inr ⟨rfl, rfl⟩
  | some b => exact .inl ⟨b, rfl, rfl⟩

@[simp] theorem State.readByte_mem (s : State) (a : Word) : (s.readByte a).2.mem = s.mem := by
  unfold State.readByte; split <;> rfl

/-- The machine's multi-byte write keeps the canonical form. -/
theorem State.writeBytes_wf (n : Nat) : ∀ (s : State) (a v : Word), Mem.wf s.mem → Mem.wf (s.writeBytes a v n).mem := by
  induction n with
  | zero => intro s a v h; exact h
  | succ n ih => intro s a v h; exact ih _ _ _ (State.writeByte_wf s a _ h)

end Sys2Proof.Machine
end

