-- ==== Sys2Proof/Laws/State.lean ====
section
/-! SUPPORT. One lemma per field (and per accessor) per update of the state: what an update leaves as it is. -/

namespace Sys2Proof.Machine

open Sys2Proof

/-! ### setEp -/

@[simp] theorem State.setEp_cfg (s : State) (e : Nat) (x : Endpoint) : (s.setEp e x).cfg = s.cfg := rfl
@[simp] theorem State.setEp_gmask (s : State) (e : Nat) (x : Endpoint) : (s.setEp e x).gmask = s.gmask := rfl
@[simp] theorem State.setEp_chans (s : State) (e : Nat) (x : Endpoint) : (s.setEp e x).chans = s.chans := rfl
@[simp] theorem State.setEp_drvUsable (s : State) (e : Nat) (x : Endpoint) : (s.setEp e x).drvUsable = s.drvUsable := rfl
@[simp] theorem State.setEp_drvNumCh (s : State) (e : Nat) (x : Endpoint) : (s.setEp e x).drvNumCh = s.drvNumCh := rfl
@[simp] theorem State.setEp_mgr (s : State) (e : Nat) (x : Endpoint) : (s.setEp e x).mgr = s.mgr := rfl
@[simp] theorem State.setEp_descs (s : State) (e : Nat) (x : Endpoint) : (s.setEp e x).descs = s.descs := rfl
@[simp] theorem State.setEp_binds (s : State) (e : Nat) (x : Endpoint) : (s.setEp e x).binds = s.binds := rfl
@[simp] theorem State.setEp_srcs (s : State) (e : Nat) (x : Endpoint) : (s.setEp e x).srcs = s.srcs := rfl
@[simp] theorem State.setEp_thr (s : State) (e : Nat) (x : Endpoint) : (s.setEp e x).thr = s.thr := rfl
@[simp] theorem State.setEp_icMask (s : State) (e : Nat) (x : Endpoint) : (s.setEp e x).icMask = s.icMask := rfl
@[simp] theorem State.setEp_lines (s : State) (e : Nat) (x : Endpoint) : (s.setEp e x).lines = s.lines := rfl
@[simp] theorem State.setEp_cpuIe (s : State) (e : Nat) (x : Endpoint) : (s.setEp e x).cpuIe = s.cpuIe := rfl
@[simp] theorem State.setEp_isrActive (s : State) (e : Nat) (x : Endpoint) : (s.setEp e x).isrActive = s.isrActive := rfl
@[simp] theorem State.setEp_prog (s : State) (e : Nat) (x : Endpoint) : (s.setEp e x).prog = s.prog := rfl
@[simp] theorem State.setEp_mainPos (s : State) (e : Nat) (x : Endpoint) : (s.setEp e x).mainPos = s.mainPos := rfl
@[simp] theorem State.setEp_isrPos (s : State) (e : Nat) (x : Endpoint) : (s.setEp e x).isrPos = s.isrPos := rfl
@[simp] theorem State.setEp_result (s : State) (e : Nat) (x : Endpoint) : (s.setEp e x).result = s.result := rfl
@[simp] theorem State.setEp_hist (s : State) (e : Nat) (x : Endpoint) : (s.setEp e x).hist = s.hist := rfl
@[simp] theorem State.setEp_mem (s : State) (e : Nat) (x : Endpoint) : (s.setEp e x).mem = s.mem := rfl
@[simp] theorem State.setEp_draws (s : State) (e : Nat) (x : Endpoint) : (s.setEp e x).draws = s.draws := rfl
@[simp] theorem State.setEp_sched (s : State) (e : Nat) (x : Endpoint) : (s.setEp e x).sched = s.sched := rfl
@[simp] theorem State.setEp_ticks (s : State) (e : Nat) (x : Endpoint) : (s.setEp e x).ticks = s.ticks := rfl
@[simp] theorem State.setEp_chan (s : State) (e : Nat) (x : Endpoint) (k : Nat) : (s.setEp e x).chan k = s.chan k := rfl
@[simp] theorem State.setEp_src (s : State) (e : Nat) (x : Endpoint) (k : Nat) : (s.setEp e x).src k = s.src k := rfl
@[simp] theorem State.setEp_slot (s : State) (e : Nat) (x : Endpoint) (k : Nat) : (s.setEp e x).slot k = s.slot k := rfl
@[simp] theorem State.setEp_ctrlWord (s : State) (e : Nat) (x : Endpoint) (k : Nat) : (s.setEp e x).ctrlWord k = s.ctrlWord k := rfl
@[simp] theorem State.setEp_istatWord (s : State) (e : Nat) (x : Endpoint) (k : Nat) : (s.setEp e x).istatWord k = s.istatWord k := rfl
@[simp] theorem State.setEp_refOf (s : State) (e : Nat) (x : Endpoint) (k : Nat) : (s.setEp e x).refOf k = s.refOf k := rfl
@[simp] theorem State.setEp_cur (s : State) (e : Nat) (x : Endpoint) : (s.setEp e x).cur = s.cur := rfl
@[simp] theorem State.setEp_who (s : State) (e : Nat) (x : Endpoint) (i : Instr) : (s.setEp e x).who i = s.who i := rfl
@[simp] theorem State.setEp_pos (s : State) (e : Nat) (x : Endpoint) : (s.setEp e x).pos = s.pos := rfl
@[simp] theorem State.setEp_doneAny (s : State) (e : Nat) (x : Endpoint) : (s.setEp e x).doneAny = s.doneAny := rfl
@[simp] theorem State.setEp_lastAny (s : State) (e : Nat) (x : Endpoint) : (s.setEp e x).lastAny = s.lastAny := rfl
@[simp] theorem State.setEp_gstatus (s : State) (e : Nat) (x : Endpoint) : (s.setEp e x).gstatus = s.gstatus := rfl
@[simp] theorem State.setEp_dmaIrq (s : State) (e : Nat) (x : Endpoint) : (s.setEp e x).dmaIrq = s.dmaIrq := rfl
@[simp] theorem State.setEp_lineLevel (s : State) (e : Nat) (x : Endpoint) (k : Nat) : (s.setEp e x).lineLevel k = s.lineLevel k := rfl
@[simp] theorem State.setEp_pendWord (s : State) (e : Nat) (x : Endpoint) : (s.setEp e x).pendWord = s.pendWord := rfl
@[simp] theorem State.setEp_eligible (s : State) (e : Nat) (x : Endpoint) (k : Nat) : (s.setEp e x).eligible k = s.eligible k := rfl
@[simp] theorem State.setEp_claimable (s : State) (e : Nat) (x : Endpoint) : (s.setEp e x).claimable = s.claimable := rfl
@[simp] theorem State.setEp_eip (s : State) (e : Nat) (x : Endpoint) : (s.setEp e x).eip = s.eip := rfl
@[simp] theorem State.setEp_draw (s : State) (e : Nat) (x : Endpoint) : (s.setEp e x).draw = s.draw := rfl
@[simp] theorem State.setEp_drawBit (s : State) (e : Nat) (x : Endpoint) : (s.setEp e x).drawBit = s.drawBit := rfl

/-! ### setChan -/

@[simp] theorem State.setChan_cfg (s : State) (ch : Nat) (c : Chan) : (s.setChan ch c).cfg = s.cfg := rfl
@[simp] theorem State.setChan_ep0 (s : State) (ch : Nat) (c : Chan) : (s.setChan ch c).ep0 = s.ep0 := rfl
@[simp] theorem State.setChan_ep1 (s : State) (ch : Nat) (c : Chan) : (s.setChan ch c).ep1 = s.ep1 := rfl
@[simp] theorem State.setChan_gmask (s : State) (ch : Nat) (c : Chan) : (s.setChan ch c).gmask = s.gmask := rfl
@[simp] theorem State.setChan_drvUsable (s : State) (ch : Nat) (c : Chan) : (s.setChan ch c).drvUsable = s.drvUsable := rfl
@[simp] theorem State.setChan_drvNumCh (s : State) (ch : Nat) (c : Chan) : (s.setChan ch c).drvNumCh = s.drvNumCh := rfl
@[simp] theorem State.setChan_mgr (s : State) (ch : Nat) (c : Chan) : (s.setChan ch c).mgr = s.mgr := rfl
@[simp] theorem State.setChan_descs (s : State) (ch : Nat) (c : Chan) : (s.setChan ch c).descs = s.descs := rfl
@[simp] theorem State.setChan_binds (s : State) (ch : Nat) (c : Chan) : (s.setChan ch c).binds = s.binds := rfl
@[simp] theorem State.setChan_srcs (s : State) (ch : Nat) (c : Chan) : (s.setChan ch c).srcs = s.srcs := rfl
@[simp] theorem State.setChan_thr (s : State) (ch : Nat) (c : Chan) : (s.setChan ch c).thr = s.thr := rfl
@[simp] theorem State.setChan_icMask (s : State) (ch : Nat) (c : Chan) : (s.setChan ch c).icMask = s.icMask := rfl
@[simp] theorem State.setChan_lines (s : State) (ch : Nat) (c : Chan) : (s.setChan ch c).lines = s.lines := rfl
@[simp] theorem State.setChan_cpuIe (s : State) (ch : Nat) (c : Chan) : (s.setChan ch c).cpuIe = s.cpuIe := rfl
@[simp] theorem State.setChan_isrActive (s : State) (ch : Nat) (c : Chan) : (s.setChan ch c).isrActive = s.isrActive := rfl
@[simp] theorem State.setChan_prog (s : State) (ch : Nat) (c : Chan) : (s.setChan ch c).prog = s.prog := rfl
@[simp] theorem State.setChan_mainPos (s : State) (ch : Nat) (c : Chan) : (s.setChan ch c).mainPos = s.mainPos := rfl
@[simp] theorem State.setChan_isrPos (s : State) (ch : Nat) (c : Chan) : (s.setChan ch c).isrPos = s.isrPos := rfl
@[simp] theorem State.setChan_result (s : State) (ch : Nat) (c : Chan) : (s.setChan ch c).result = s.result := rfl
@[simp] theorem State.setChan_hist (s : State) (ch : Nat) (c : Chan) : (s.setChan ch c).hist = s.hist := rfl
@[simp] theorem State.setChan_mem (s : State) (ch : Nat) (c : Chan) : (s.setChan ch c).mem = s.mem := rfl
@[simp] theorem State.setChan_draws (s : State) (ch : Nat) (c : Chan) : (s.setChan ch c).draws = s.draws := rfl
@[simp] theorem State.setChan_sched (s : State) (ch : Nat) (c : Chan) : (s.setChan ch c).sched = s.sched := rfl
@[simp] theorem State.setChan_ticks (s : State) (ch : Nat) (c : Chan) : (s.setChan ch c).ticks = s.ticks := rfl
@[simp] theorem State.setChan_ep (s : State) (ch : Nat) (c : Chan) (k : Nat) : (s.setChan ch c).ep k = s.ep k := rfl
@[simp] theorem State.setChan_src (s : State) (ch : Nat) (c : Chan) (k : Nat) : (s.setChan ch c).src k = s.src k := rfl
@[simp] theorem State.setChan_slot (s : State) (ch : Nat) (c : Chan) (k : Nat) : (s.setChan ch c).slot k = s.slot k := rfl
@[simp] theorem State.setChan_refOf (s : State) (ch : Nat) (c : Chan) (k : Nat) : (s.setChan ch c).refOf k = s.refOf k := rfl
@[simp] theorem State.setChan_cur (s : State) (ch : Nat) (c : Chan) : (s.setChan ch c).cur = s.cur := rfl
@[simp] theorem State.setChan_who (s : State) (ch : Nat) (c : Chan) (i : Instr) : (s.setChan ch c).who i = s.who i := rfl
@[simp] theorem State.setChan_pos (s : State) (ch : Nat) (c : Chan) : (s.setChan ch c).pos = s.pos := rfl
@[simp] theorem State.setChan_eligible (s : State) (ch : Nat) (c : Chan) (k : Nat) : (s.setChan ch c).eligible k = s.eligible k := rfl
@[simp] theorem State.setChan_claimable (s : State) (ch : Nat) (c : Chan) : (s.setChan ch c).claimable = s.claimable := rfl
@[simp] theorem State.setChan_draw (s : State) (ch : Nat) (c : Chan) : (s.setChan ch c).draw = s.draw := rfl
@[simp] theorem State.setChan_drawBit (s : State) (ch : Nat) (c : Chan) : (s.setChan ch c).drawBit = s.drawBit := rfl

/-! ### setGmask -/

@[simp] theorem State.setGmask_cfg (s : State) (m : Word) : (s.setGmask m).cfg = s.cfg := rfl
@[simp] theorem State.setGmask_ep0 (s : State) (m : Word) : (s.setGmask m).ep0 = s.ep0 := rfl
@[simp] theorem State.setGmask_ep1 (s : State) (m : Word) : (s.setGmask m).ep1 = s.ep1 := rfl
@[simp] theorem State.setGmask_chans (s : State) (m : Word) : (s.setGmask m).chans = s.chans := rfl
@[simp] theorem State.setGmask_drvUsable (s : State) (m : Word) : (s.setGmask m).drvUsable = s.drvUsable := rfl
@[simp] theorem State.setGmask_drvNumCh (s : State) (m : Word) : (s.setGmask m).drvNumCh = s.drvNumCh := rfl
@[simp] theorem State.setGmask_mgr (s : State) (m : Word) : (s.setGmask m).mgr = s.mgr := rfl
@[simp] theorem State.setGmask_descs (s : State) (m : Word) : (s.setGmask m).descs = s.descs := rfl
@[simp] theorem State.setGmask_binds (s : State) (m : Word) : (s.setGmask m).binds = s.binds := rfl
@[simp] theorem State.setGmask_srcs (s : State) (m : Word) : (s.setGmask m).srcs = s.srcs := rfl
@[simp] theorem State.setGmask_thr (s : State) (m : Word) : (s.setGmask m).thr = s.thr := rfl
@[simp] theorem State.setGmask_icMask (s : State) (m : Word) : (s.setGmask m).icMask = s.icMask := rfl
@[simp] theorem State.setGmask_lines (s : State) (m : Word) : (s.setGmask m).lines = s.lines := rfl
@[simp] theorem State.setGmask_cpuIe (s : State) (m : Word) : (s.setGmask m).cpuIe = s.cpuIe := rfl
@[simp] theorem State.setGmask_isrActive (s : State) (m : Word) : (s.setGmask m).isrActive = s.isrActive := rfl
@[simp] theorem State.setGmask_prog (s : State) (m : Word) : (s.setGmask m).prog = s.prog := rfl
@[simp] theorem State.setGmask_mainPos (s : State) (m : Word) : (s.setGmask m).mainPos = s.mainPos := rfl
@[simp] theorem State.setGmask_isrPos (s : State) (m : Word) : (s.setGmask m).isrPos = s.isrPos := rfl
@[simp] theorem State.setGmask_result (s : State) (m : Word) : (s.setGmask m).result = s.result := rfl
@[simp] theorem State.setGmask_hist (s : State) (m : Word) : (s.setGmask m).hist = s.hist := rfl
@[simp] theorem State.setGmask_mem (s : State) (m : Word) : (s.setGmask m).mem = s.mem := rfl
@[simp] theorem State.setGmask_draws (s : State) (m : Word) : (s.setGmask m).draws = s.draws := rfl
@[simp] theorem State.setGmask_sched (s : State) (m : Word) : (s.setGmask m).sched = s.sched := rfl
@[simp] theorem State.setGmask_ticks (s : State) (m : Word) : (s.setGmask m).ticks = s.ticks := rfl
@[simp] theorem State.setGmask_ep (s : State) (m : Word) (k : Nat) : (s.setGmask m).ep k = s.ep k := rfl
@[simp] theorem State.setGmask_chan (s : State) (m : Word) (k : Nat) : (s.setGmask m).chan k = s.chan k := rfl
@[simp] theorem State.setGmask_src (s : State) (m : Word) (k : Nat) : (s.setGmask m).src k = s.src k := rfl
@[simp] theorem State.setGmask_slot (s : State) (m : Word) (k : Nat) : (s.setGmask m).slot k = s.slot k := rfl
@[simp] theorem State.setGmask_ctrlWord (s : State) (m : Word) (k : Nat) : (s.setGmask m).ctrlWord k = s.ctrlWord k := rfl
@[simp] theorem State.setGmask_istatWord (s : State) (m : Word) (k : Nat) : (s.setGmask m).istatWord k = s.istatWord k := rfl
@[simp] theorem State.setGmask_refOf (s : State) (m : Word) (k : Nat) : (s.setGmask m).refOf k = s.refOf k := rfl
@[simp] theorem State.setGmask_cur (s : State) (m : Word) : (s.setGmask m).cur = s.cur := rfl
@[simp] theorem State.setGmask_who (s : State) (m : Word) (i : Instr) : (s.setGmask m).who i = s.who i := rfl
@[simp] theorem State.setGmask_pos (s : State) (m : Word) : (s.setGmask m).pos = s.pos := rfl
@[simp] theorem State.setGmask_eligible (s : State) (m : Word) (k : Nat) : (s.setGmask m).eligible k = s.eligible k := rfl
@[simp] theorem State.setGmask_claimable (s : State) (m : Word) : (s.setGmask m).claimable = s.claimable := rfl
@[simp] theorem State.setGmask_draw (s : State) (m : Word) : (s.setGmask m).draw = s.draw := rfl
@[simp] theorem State.setGmask_drawBit (s : State) (m : Word) : (s.setGmask m).drawBit = s.drawBit := rfl

/-! ### setThr -/

@[simp] theorem State.setThr_cfg (s : State) (v : Word) : (s.setThr v).cfg = s.cfg := rfl
@[simp] theorem State.setThr_ep0 (s : State) (v : Word) : (s.setThr v).ep0 = s.ep0 := rfl
@[simp] theorem State.setThr_ep1 (s : State) (v : Word) : (s.setThr v).ep1 = s.ep1 := rfl
@[simp] theorem State.setThr_gmask (s : State) (v : Word) : (s.setThr v).gmask = s.gmask := rfl
@[simp] theorem State.setThr_chans (s : State) (v : Word) : (s.setThr v).chans = s.chans := rfl
@[simp] theorem State.setThr_drvUsable (s : State) (v : Word) : (s.setThr v).drvUsable = s.drvUsable := rfl
@[simp] theorem State.setThr_drvNumCh (s : State) (v : Word) : (s.setThr v).drvNumCh = s.drvNumCh := rfl
@[simp] theorem State.setThr_mgr (s : State) (v : Word) : (s.setThr v).mgr = s.mgr := rfl
@[simp] theorem State.setThr_descs (s : State) (v : Word) : (s.setThr v).descs = s.descs := rfl
@[simp] theorem State.setThr_binds (s : State) (v : Word) : (s.setThr v).binds = s.binds := rfl
@[simp] theorem State.setThr_srcs (s : State) (v : Word) : (s.setThr v).srcs = s.srcs := rfl
@[simp] theorem State.setThr_icMask (s : State) (v : Word) : (s.setThr v).icMask = s.icMask := rfl
@[simp] theorem State.setThr_lines (s : State) (v : Word) : (s.setThr v).lines = s.lines := rfl
@[simp] theorem State.setThr_cpuIe (s : State) (v : Word) : (s.setThr v).cpuIe = s.cpuIe := rfl
@[simp] theorem State.setThr_isrActive (s : State) (v : Word) : (s.setThr v).isrActive = s.isrActive := rfl
@[simp] theorem State.setThr_prog (s : State) (v : Word) : (s.setThr v).prog = s.prog := rfl
@[simp] theorem State.setThr_mainPos (s : State) (v : Word) : (s.setThr v).mainPos = s.mainPos := rfl
@[simp] theorem State.setThr_isrPos (s : State) (v : Word) : (s.setThr v).isrPos = s.isrPos := rfl
@[simp] theorem State.setThr_result (s : State) (v : Word) : (s.setThr v).result = s.result := rfl
@[simp] theorem State.setThr_hist (s : State) (v : Word) : (s.setThr v).hist = s.hist := rfl
@[simp] theorem State.setThr_mem (s : State) (v : Word) : (s.setThr v).mem = s.mem := rfl
@[simp] theorem State.setThr_draws (s : State) (v : Word) : (s.setThr v).draws = s.draws := rfl
@[simp] theorem State.setThr_sched (s : State) (v : Word) : (s.setThr v).sched = s.sched := rfl
@[simp] theorem State.setThr_ticks (s : State) (v : Word) : (s.setThr v).ticks = s.ticks := rfl
@[simp] theorem State.setThr_ep (s : State) (v : Word) (k : Nat) : (s.setThr v).ep k = s.ep k := rfl
@[simp] theorem State.setThr_chan (s : State) (v : Word) (k : Nat) : (s.setThr v).chan k = s.chan k := rfl
@[simp] theorem State.setThr_src (s : State) (v : Word) (k : Nat) : (s.setThr v).src k = s.src k := rfl
@[simp] theorem State.setThr_slot (s : State) (v : Word) (k : Nat) : (s.setThr v).slot k = s.slot k := rfl
@[simp] theorem State.setThr_ctrlWord (s : State) (v : Word) (k : Nat) : (s.setThr v).ctrlWord k = s.ctrlWord k := rfl
@[simp] theorem State.setThr_istatWord (s : State) (v : Word) (k : Nat) : (s.setThr v).istatWord k = s.istatWord k := rfl
@[simp] theorem State.setThr_refOf (s : State) (v : Word) (k : Nat) : (s.setThr v).refOf k = s.refOf k := rfl
@[simp] theorem State.setThr_cur (s : State) (v : Word) : (s.setThr v).cur = s.cur := rfl
@[simp] theorem State.setThr_who (s : State) (v : Word) (i : Instr) : (s.setThr v).who i = s.who i := rfl
@[simp] theorem State.setThr_pos (s : State) (v : Word) : (s.setThr v).pos = s.pos := rfl
@[simp] theorem State.setThr_doneAny (s : State) (v : Word) : (s.setThr v).doneAny = s.doneAny := rfl
@[simp] theorem State.setThr_lastAny (s : State) (v : Word) : (s.setThr v).lastAny = s.lastAny := rfl
@[simp] theorem State.setThr_gstatus (s : State) (v : Word) : (s.setThr v).gstatus = s.gstatus := rfl
@[simp] theorem State.setThr_dmaIrq (s : State) (v : Word) : (s.setThr v).dmaIrq = s.dmaIrq := rfl
@[simp] theorem State.setThr_lineLevel (s : State) (v : Word) (k : Nat) : (s.setThr v).lineLevel k = s.lineLevel k := rfl
@[simp] theorem State.setThr_pendWord (s : State) (v : Word) : (s.setThr v).pendWord = s.pendWord := rfl
@[simp] theorem State.setThr_draw (s : State) (v : Word) : (s.setThr v).draw = s.draw := rfl
@[simp] theorem State.setThr_drawBit (s : State) (v : Word) : (s.setThr v).drawBit = s.drawBit := rfl

/-! ### setIcMask -/

@[simp] theorem State.setIcMask_cfg (s : State) (v : Word) : (s.setIcMask v).cfg = s.cfg := rfl
@[simp] theorem State.setIcMask_ep0 (s : State) (v : Word) : (s.setIcMask v).ep0 = s.ep0 := rfl
@[simp] theorem State.setIcMask_ep1 (s : State) (v : Word) : (s.setIcMask v).ep1 = s.ep1 := rfl
@[simp] theorem State.setIcMask_gmask (s : State) (v : Word) : (s.setIcMask v).gmask = s.gmask := rfl
@[simp] theorem State.setIcMask_chans (s : State) (v : Word) : (s.setIcMask v).chans = s.chans := rfl
@[simp] theorem State.setIcMask_drvUsable (s : State) (v : Word) : (s.setIcMask v).drvUsable = s.drvUsable := rfl
@[simp] theorem State.setIcMask_drvNumCh (s : State) (v : Word) : (s.setIcMask v).drvNumCh = s.drvNumCh := rfl
@[simp] theorem State.setIcMask_mgr (s : State) (v : Word) : (s.setIcMask v).mgr = s.mgr := rfl
@[simp] theorem State.setIcMask_descs (s : State) (v : Word) : (s.setIcMask v).descs = s.descs := rfl
@[simp] theorem State.setIcMask_binds (s : State) (v : Word) : (s.setIcMask v).binds = s.binds := rfl
@[simp] theorem State.setIcMask_srcs (s : State) (v : Word) : (s.setIcMask v).srcs = s.srcs := rfl
@[simp] theorem State.setIcMask_thr (s : State) (v : Word) : (s.setIcMask v).thr = s.thr := rfl
@[simp] theorem State.setIcMask_lines (s : State) (v : Word) : (s.setIcMask v).lines = s.lines := rfl
@[simp] theorem State.setIcMask_cpuIe (s : State) (v : Word) : (s.setIcMask v).cpuIe = s.cpuIe := rfl
@[simp] theorem State.setIcMask_isrActive (s : State) (v : Word) : (s.setIcMask v).isrActive = s.isrActive := rfl
@[simp] theorem State.setIcMask_prog (s : State) (v : Word) : (s.setIcMask v).prog = s.prog := rfl
@[simp] theorem State.setIcMask_mainPos (s : State) (v : Word) : (s.setIcMask v).mainPos = s.mainPos := rfl
@[simp] theorem State.setIcMask_isrPos (s : State) (v : Word) : (s.setIcMask v).isrPos = s.isrPos := rfl
@[simp] theorem State.setIcMask_result (s : State) (v : Word) : (s.setIcMask v).result = s.result := rfl
@[simp] theorem State.setIcMask_hist (s : State) (v : Word) : (s.setIcMask v).hist = s.hist := rfl
@[simp] theorem State.setIcMask_mem (s : State) (v : Word) : (s.setIcMask v).mem = s.mem := rfl
@[simp] theorem State.setIcMask_draws (s : State) (v : Word) : (s.setIcMask v).draws = s.draws := rfl
@[simp] theorem State.setIcMask_sched (s : State) (v : Word) : (s.setIcMask v).sched = s.sched := rfl
@[simp] theorem State.setIcMask_ticks (s : State) (v : Word) : (s.setIcMask v).ticks = s.ticks := rfl
@[simp] theorem State.setIcMask_ep (s : State) (v : Word) (k : Nat) : (s.setIcMask v).ep k = s.ep k := rfl
@[simp] theorem State.setIcMask_chan (s : State) (v : Word) (k : Nat) : (s.setIcMask v).chan k = s.chan k := rfl
@[simp] theorem State.setIcMask_src (s : State) (v : Word) (k : Nat) : (s.setIcMask v).src k = s.src k := rfl
@[simp] theorem State.setIcMask_slot (s : State) (v : Word) (k : Nat) : (s.setIcMask v).slot k = s.slot k := rfl
@[simp] theorem State.setIcMask_ctrlWord (s : State) (v : Word) (k : Nat) : (s.setIcMask v).ctrlWord k = s.ctrlWord k := rfl
@[simp] theorem State.setIcMask_istatWord (s : State) (v : Word) (k : Nat) : (s.setIcMask v).istatWord k = s.istatWord k := rfl
@[simp] theorem State.setIcMask_refOf (s : State) (v : Word) (k : Nat) : (s.setIcMask v).refOf k = s.refOf k := rfl
@[simp] theorem State.setIcMask_cur (s : State) (v : Word) : (s.setIcMask v).cur = s.cur := rfl
@[simp] theorem State.setIcMask_who (s : State) (v : Word) (i : Instr) : (s.setIcMask v).who i = s.who i := rfl
@[simp] theorem State.setIcMask_pos (s : State) (v : Word) : (s.setIcMask v).pos = s.pos := rfl
@[simp] theorem State.setIcMask_doneAny (s : State) (v : Word) : (s.setIcMask v).doneAny = s.doneAny := rfl
@[simp] theorem State.setIcMask_lastAny (s : State) (v : Word) : (s.setIcMask v).lastAny = s.lastAny := rfl
@[simp] theorem State.setIcMask_gstatus (s : State) (v : Word) : (s.setIcMask v).gstatus = s.gstatus := rfl
@[simp] theorem State.setIcMask_dmaIrq (s : State) (v : Word) : (s.setIcMask v).dmaIrq = s.dmaIrq := rfl
@[simp] theorem State.setIcMask_lineLevel (s : State) (v : Word) (k : Nat) : (s.setIcMask v).lineLevel k = s.lineLevel k := rfl
@[simp] theorem State.setIcMask_pendWord (s : State) (v : Word) : (s.setIcMask v).pendWord = s.pendWord := rfl
@[simp] theorem State.setIcMask_eligible (s : State) (v : Word) (k : Nat) : (s.setIcMask v).eligible k = s.eligible k := rfl
@[simp] theorem State.setIcMask_claimable (s : State) (v : Word) : (s.setIcMask v).claimable = s.claimable := rfl
@[simp] theorem State.setIcMask_draw (s : State) (v : Word) : (s.setIcMask v).draw = s.draw := rfl
@[simp] theorem State.setIcMask_drawBit (s : State) (v : Word) : (s.setIcMask v).drawBit = s.drawBit := rfl

/-! ### setNumCh -/

@[simp] theorem State.setNumCh_cfg (s : State) (n : Word) : (s.setNumCh n).cfg = s.cfg := rfl
@[simp] theorem State.setNumCh_ep0 (s : State) (n : Word) : (s.setNumCh n).ep0 = s.ep0 := rfl
@[simp] theorem State.setNumCh_ep1 (s : State) (n : Word) : (s.setNumCh n).ep1 = s.ep1 := rfl
@[simp] theorem State.setNumCh_gmask (s : State) (n : Word) : (s.setNumCh n).gmask = s.gmask := rfl
@[simp] theorem State.setNumCh_chans (s : State) (n : Word) : (s.setNumCh n).chans = s.chans := rfl
@[simp] theorem State.setNumCh_drvUsable (s : State) (n : Word) : (s.setNumCh n).drvUsable = s.drvUsable := rfl
@[simp] theorem State.setNumCh_mgr (s : State) (n : Word) : (s.setNumCh n).mgr = s.mgr := rfl
@[simp] theorem State.setNumCh_descs (s : State) (n : Word) : (s.setNumCh n).descs = s.descs := rfl
@[simp] theorem State.setNumCh_binds (s : State) (n : Word) : (s.setNumCh n).binds = s.binds := rfl
@[simp] theorem State.setNumCh_srcs (s : State) (n : Word) : (s.setNumCh n).srcs = s.srcs := rfl
@[simp] theorem State.setNumCh_thr (s : State) (n : Word) : (s.setNumCh n).thr = s.thr := rfl
@[simp] theorem State.setNumCh_icMask (s : State) (n : Word) : (s.setNumCh n).icMask = s.icMask := rfl
@[simp] theorem State.setNumCh_lines (s : State) (n : Word) : (s.setNumCh n).lines = s.lines := rfl
@[simp] theorem State.setNumCh_cpuIe (s : State) (n : Word) : (s.setNumCh n).cpuIe = s.cpuIe := rfl
@[simp] theorem State.setNumCh_isrActive (s : State) (n : Word) : (s.setNumCh n).isrActive = s.isrActive := rfl
@[simp] theorem State.setNumCh_prog (s : State) (n : Word) : (s.setNumCh n).prog = s.prog := rfl
@[simp] theorem State.setNumCh_mainPos (s : State) (n : Word) : (s.setNumCh n).mainPos = s.mainPos := rfl
@[simp] theorem State.setNumCh_isrPos (s : State) (n : Word) : (s.setNumCh n).isrPos = s.isrPos := rfl
@[simp] theorem State.setNumCh_result (s : State) (n : Word) : (s.setNumCh n).result = s.result := rfl
@[simp] theorem State.setNumCh_hist (s : State) (n : Word) : (s.setNumCh n).hist = s.hist := rfl
@[simp] theorem State.setNumCh_mem (s : State) (n : Word) : (s.setNumCh n).mem = s.mem := rfl
@[simp] theorem State.setNumCh_draws (s : State) (n : Word) : (s.setNumCh n).draws = s.draws := rfl
@[simp] theorem State.setNumCh_sched (s : State) (n : Word) : (s.setNumCh n).sched = s.sched := rfl
@[simp] theorem State.setNumCh_ticks (s : State) (n : Word) : (s.setNumCh n).ticks = s.ticks := rfl
@[simp] theorem State.setNumCh_ep (s : State) (n : Word) (k : Nat) : (s.setNumCh n).ep k = s.ep k := rfl
@[simp] theorem State.setNumCh_chan (s : State) (n : Word) (k : Nat) : (s.setNumCh n).chan k = s.chan k := rfl
@[simp] theorem State.setNumCh_src (s : State) (n : Word) (k : Nat) : (s.setNumCh n).src k = s.src k := rfl
@[simp] theorem State.setNumCh_slot (s : State) (n : Word) (k : Nat) : (s.setNumCh n).slot k = s.slot k := rfl
@[simp] theorem State.setNumCh_ctrlWord (s : State) (n : Word) (k : Nat) : (s.setNumCh n).ctrlWord k = s.ctrlWord k := rfl
@[simp] theorem State.setNumCh_istatWord (s : State) (n : Word) (k : Nat) : (s.setNumCh n).istatWord k = s.istatWord k := rfl
@[simp] theorem State.setNumCh_refOf (s : State) (n : Word) (k : Nat) : (s.setNumCh n).refOf k = s.refOf k := rfl
@[simp] theorem State.setNumCh_cur (s : State) (n : Word) : (s.setNumCh n).cur = s.cur := rfl
@[simp] theorem State.setNumCh_who (s : State) (n : Word) (i : Instr) : (s.setNumCh n).who i = s.who i := rfl
@[simp] theorem State.setNumCh_pos (s : State) (n : Word) : (s.setNumCh n).pos = s.pos := rfl
@[simp] theorem State.setNumCh_doneAny (s : State) (n : Word) : (s.setNumCh n).doneAny = s.doneAny := rfl
@[simp] theorem State.setNumCh_lastAny (s : State) (n : Word) : (s.setNumCh n).lastAny = s.lastAny := rfl
@[simp] theorem State.setNumCh_gstatus (s : State) (n : Word) : (s.setNumCh n).gstatus = s.gstatus := rfl
@[simp] theorem State.setNumCh_dmaIrq (s : State) (n : Word) : (s.setNumCh n).dmaIrq = s.dmaIrq := rfl
@[simp] theorem State.setNumCh_lineLevel (s : State) (n : Word) (k : Nat) : (s.setNumCh n).lineLevel k = s.lineLevel k := rfl
@[simp] theorem State.setNumCh_pendWord (s : State) (n : Word) : (s.setNumCh n).pendWord = s.pendWord := rfl
@[simp] theorem State.setNumCh_eligible (s : State) (n : Word) (k : Nat) : (s.setNumCh n).eligible k = s.eligible k := rfl
@[simp] theorem State.setNumCh_claimable (s : State) (n : Word) : (s.setNumCh n).claimable = s.claimable := rfl
@[simp] theorem State.setNumCh_eip (s : State) (n : Word) : (s.setNumCh n).eip = s.eip := rfl
@[simp] theorem State.setNumCh_draw (s : State) (n : Word) : (s.setNumCh n).draw = s.draw := rfl
@[simp] theorem State.setNumCh_drawBit (s : State) (n : Word) : (s.setNumCh n).drawBit = s.drawBit := rfl

/-! ### setUsable -/

@[simp] theorem State.setUsable_cfg (s : State) (b : Bool) : (s.setUsable b).cfg = s.cfg := rfl
@[simp] theorem State.setUsable_ep0 (s : State) (b : Bool) : (s.setUsable b).ep0 = s.ep0 := rfl
@[simp] theorem State.setUsable_ep1 (s : State) (b : Bool) : (s.setUsable b).ep1 = s.ep1 := rfl
@[simp] theorem State.setUsable_gmask (s : State) (b : Bool) : (s.setUsable b).gmask = s.gmask := rfl
@[simp] theorem State.setUsable_chans (s : State) (b : Bool) : (s.setUsable b).chans = s.chans := rfl
@[simp] theorem State.setUsable_drvNumCh (s : State) (b : Bool) : (s.setUsable b).drvNumCh = s.drvNumCh := rfl
@[simp] theorem State.setUsable_mgr (s : State) (b : Bool) : (s.setUsable b).mgr = s.mgr := rfl
@[simp] theorem State.setUsable_descs (s : State) (b : Bool) : (s.setUsable b).descs = s.descs := rfl
@[simp] theorem State.setUsable_binds (s : State) (b : Bool) : (s.setUsable b).binds = s.binds := rfl
@[simp] theorem State.setUsable_srcs (s : State) (b : Bool) : (s.setUsable b).srcs = s.srcs := rfl
@[simp] theorem State.setUsable_thr (s : State) (b : Bool) : (s.setUsable b).thr = s.thr := rfl
@[simp] theorem State.setUsable_icMask (s : State) (b : Bool) : (s.setUsable b).icMask = s.icMask := rfl
@[simp] theorem State.setUsable_lines (s : State) (b : Bool) : (s.setUsable b).lines = s.lines := rfl
@[simp] theorem State.setUsable_cpuIe (s : State) (b : Bool) : (s.setUsable b).cpuIe = s.cpuIe := rfl
@[simp] theorem State.setUsable_isrActive (s : State) (b : Bool) : (s.setUsable b).isrActive = s.isrActive := rfl
@[simp] theorem State.setUsable_prog (s : State) (b : Bool) : (s.setUsable b).prog = s.prog := rfl
@[simp] theorem State.setUsable_mainPos (s : State) (b : Bool) : (s.setUsable b).mainPos = s.mainPos := rfl
@[simp] theorem State.setUsable_isrPos (s : State) (b : Bool) : (s.setUsable b).isrPos = s.isrPos := rfl
@[simp] theorem State.setUsable_result (s : State) (b : Bool) : (s.setUsable b).result = s.result := rfl
@[simp] theorem State.setUsable_hist (s : State) (b : Bool) : (s.setUsable b).hist = s.hist := rfl
@[simp] theorem State.setUsable_mem (s : State) (b : Bool) : (s.setUsable b).mem = s.mem := rfl
@[simp] theorem State.setUsable_draws (s : State) (b : Bool) : (s.setUsable b).draws = s.draws := rfl
@[simp] theorem State.setUsable_sched (s : State) (b : Bool) : (s.setUsable b).sched = s.sched := rfl
@[simp] theorem State.setUsable_ticks (s : State) (b : Bool) : (s.setUsable b).ticks = s.ticks := rfl
@[simp] theorem State.setUsable_ep (s : State) (b : Bool) (k : Nat) : (s.setUsable b).ep k = s.ep k := rfl
@[simp] theorem State.setUsable_chan (s : State) (b : Bool) (k : Nat) : (s.setUsable b).chan k = s.chan k := rfl
@[simp] theorem State.setUsable_src (s : State) (b : Bool) (k : Nat) : (s.setUsable b).src k = s.src k := rfl
@[simp] theorem State.setUsable_slot (s : State) (b : Bool) (k : Nat) : (s.setUsable b).slot k = s.slot k := rfl
@[simp] theorem State.setUsable_ctrlWord (s : State) (b : Bool) (k : Nat) : (s.setUsable b).ctrlWord k = s.ctrlWord k := rfl
@[simp] theorem State.setUsable_istatWord (s : State) (b : Bool) (k : Nat) : (s.setUsable b).istatWord k = s.istatWord k := rfl
@[simp] theorem State.setUsable_refOf (s : State) (b : Bool) (k : Nat) : (s.setUsable b).refOf k = s.refOf k := rfl
@[simp] theorem State.setUsable_cur (s : State) (b : Bool) : (s.setUsable b).cur = s.cur := rfl
@[simp] theorem State.setUsable_who (s : State) (b : Bool) (i : Instr) : (s.setUsable b).who i = s.who i := rfl
@[simp] theorem State.setUsable_pos (s : State) (b : Bool) : (s.setUsable b).pos = s.pos := rfl
@[simp] theorem State.setUsable_doneAny (s : State) (b : Bool) : (s.setUsable b).doneAny = s.doneAny := rfl
@[simp] theorem State.setUsable_lastAny (s : State) (b : Bool) : (s.setUsable b).lastAny = s.lastAny := rfl
@[simp] theorem State.setUsable_gstatus (s : State) (b : Bool) : (s.setUsable b).gstatus = s.gstatus := rfl
@[simp] theorem State.setUsable_dmaIrq (s : State) (b : Bool) : (s.setUsable b).dmaIrq = s.dmaIrq := rfl
@[simp] theorem State.setUsable_lineLevel (s : State) (b : Bool) (k : Nat) : (s.setUsable b).lineLevel k = s.lineLevel k := rfl
@[simp] theorem State.setUsable_pendWord (s : State) (b : Bool) : (s.setUsable b).pendWord = s.pendWord := rfl
@[simp] theorem State.setUsable_eligible (s : State) (b : Bool) (k : Nat) : (s.setUsable b).eligible k = s.eligible k := rfl
@[simp] theorem State.setUsable_claimable (s : State) (b : Bool) : (s.setUsable b).claimable = s.claimable := rfl
@[simp] theorem State.setUsable_eip (s : State) (b : Bool) : (s.setUsable b).eip = s.eip := rfl
@[simp] theorem State.setUsable_draw (s : State) (b : Bool) : (s.setUsable b).draw = s.draw := rfl
@[simp] theorem State.setUsable_drawBit (s : State) (b : Bool) : (s.setUsable b).drawBit = s.drawBit := rfl

/-! ### setLine -/

@[simp] theorem State.setLine_cfg (s : State) (n : Nat) (b : Bool) : (s.setLine n b).cfg = s.cfg := rfl
@[simp] theorem State.setLine_ep0 (s : State) (n : Nat) (b : Bool) : (s.setLine n b).ep0 = s.ep0 := rfl
@[simp] theorem State.setLine_ep1 (s : State) (n : Nat) (b : Bool) : (s.setLine n b).ep1 = s.ep1 := rfl
@[simp] theorem State.setLine_gmask (s : State) (n : Nat) (b : Bool) : (s.setLine n b).gmask = s.gmask := rfl
@[simp] theorem State.setLine_chans (s : State) (n : Nat) (b : Bool) : (s.setLine n b).chans = s.chans := rfl
@[simp] theorem State.setLine_drvUsable (s : State) (n : Nat) (b : Bool) : (s.setLine n b).drvUsable = s.drvUsable := rfl
@[simp] theorem State.setLine_drvNumCh (s : State) (n : Nat) (b : Bool) : (s.setLine n b).drvNumCh = s.drvNumCh := rfl
@[simp] theorem State.setLine_mgr (s : State) (n : Nat) (b : Bool) : (s.setLine n b).mgr = s.mgr := rfl
@[simp] theorem State.setLine_descs (s : State) (n : Nat) (b : Bool) : (s.setLine n b).descs = s.descs := rfl
@[simp] theorem State.setLine_binds (s : State) (n : Nat) (b : Bool) : (s.setLine n b).binds = s.binds := rfl
@[simp] theorem State.setLine_srcs (s : State) (n : Nat) (b : Bool) : (s.setLine n b).srcs = s.srcs := rfl
@[simp] theorem State.setLine_thr (s : State) (n : Nat) (b : Bool) : (s.setLine n b).thr = s.thr := rfl
@[simp] theorem State.setLine_icMask (s : State) (n : Nat) (b : Bool) : (s.setLine n b).icMask = s.icMask := rfl
@[simp] theorem State.setLine_cpuIe (s : State) (n : Nat) (b : Bool) : (s.setLine n b).cpuIe = s.cpuIe := rfl
@[simp] theorem State.setLine_isrActive (s : State) (n : Nat) (b : Bool) : (s.setLine n b).isrActive = s.isrActive := rfl
@[simp] theorem State.setLine_prog (s : State) (n : Nat) (b : Bool) : (s.setLine n b).prog = s.prog := rfl
@[simp] theorem State.setLine_mainPos (s : State) (n : Nat) (b : Bool) : (s.setLine n b).mainPos = s.mainPos := rfl
@[simp] theorem State.setLine_isrPos (s : State) (n : Nat) (b : Bool) : (s.setLine n b).isrPos = s.isrPos := rfl
@[simp] theorem State.setLine_result (s : State) (n : Nat) (b : Bool) : (s.setLine n b).result = s.result := rfl
@[simp] theorem State.setLine_hist (s : State) (n : Nat) (b : Bool) : (s.setLine n b).hist = s.hist := rfl
@[simp] theorem State.setLine_mem (s : State) (n : Nat) (b : Bool) : (s.setLine n b).mem = s.mem := rfl
@[simp] theorem State.setLine_draws (s : State) (n : Nat) (b : Bool) : (s.setLine n b).draws = s.draws := rfl
@[simp] theorem State.setLine_sched (s : State) (n : Nat) (b : Bool) : (s.setLine n b).sched = s.sched := rfl
@[simp] theorem State.setLine_ticks (s : State) (n : Nat) (b : Bool) : (s.setLine n b).ticks = s.ticks := rfl
@[simp] theorem State.setLine_ep (s : State) (n : Nat) (b : Bool) (k : Nat) : (s.setLine n b).ep k = s.ep k := rfl
@[simp] theorem State.setLine_chan (s : State) (n : Nat) (b : Bool) (k : Nat) : (s.setLine n b).chan k = s.chan k := rfl
@[simp] theorem State.setLine_src (s : State) (n : Nat) (b : Bool) (k : Nat) : (s.setLine n b).src k = s.src k := rfl
@[simp] theorem State.setLine_slot (s : State) (n : Nat) (b : Bool) (k : Nat) : (s.setLine n b).slot k = s.slot k := rfl
@[simp] theorem State.setLine_ctrlWord (s : State) (n : Nat) (b : Bool) (k : Nat) : (s.setLine n b).ctrlWord k = s.ctrlWord k := rfl
@[simp] theorem State.setLine_istatWord (s : State) (n : Nat) (b : Bool) (k : Nat) : (s.setLine n b).istatWord k = s.istatWord k := rfl
@[simp] theorem State.setLine_refOf (s : State) (n : Nat) (b : Bool) (k : Nat) : (s.setLine n b).refOf k = s.refOf k := rfl
@[simp] theorem State.setLine_cur (s : State) (n : Nat) (b : Bool) : (s.setLine n b).cur = s.cur := rfl
@[simp] theorem State.setLine_who (s : State) (n : Nat) (b : Bool) (i : Instr) : (s.setLine n b).who i = s.who i := rfl
@[simp] theorem State.setLine_pos (s : State) (n : Nat) (b : Bool) : (s.setLine n b).pos = s.pos := rfl
@[simp] theorem State.setLine_doneAny (s : State) (n : Nat) (b : Bool) : (s.setLine n b).doneAny = s.doneAny := rfl
@[simp] theorem State.setLine_lastAny (s : State) (n : Nat) (b : Bool) : (s.setLine n b).lastAny = s.lastAny := rfl
@[simp] theorem State.setLine_gstatus (s : State) (n : Nat) (b : Bool) : (s.setLine n b).gstatus = s.gstatus := rfl
@[simp] theorem State.setLine_dmaIrq (s : State) (n : Nat) (b : Bool) : (s.setLine n b).dmaIrq = s.dmaIrq := rfl
@[simp] theorem State.setLine_eligible (s : State) (n : Nat) (b : Bool) (k : Nat) : (s.setLine n b).eligible k = s.eligible k := rfl
@[simp] theorem State.setLine_claimable (s : State) (n : Nat) (b : Bool) : (s.setLine n b).claimable = s.claimable := rfl
@[simp] theorem State.setLine_draw (s : State) (n : Nat) (b : Bool) : (s.setLine n b).draw = s.draw := rfl
@[simp] theorem State.setLine_drawBit (s : State) (n : Nat) (b : Bool) : (s.setLine n b).drawBit = s.drawBit := rfl

/-! ### setCpuIe -/

@[simp] theorem State.setCpuIe_cfg (s : State) (b : Bool) : (s.setCpuIe b).cfg = s.cfg := rfl
@[simp] theorem State.setCpuIe_ep0 (s : State) (b : Bool) : (s.setCpuIe b).ep0 = s.ep0 := rfl
@[simp] theorem State.setCpuIe_ep1 (s : State) (b : Bool) : (s.setCpuIe b).ep1 = s.ep1 := rfl
@[simp] theorem State.setCpuIe_gmask (s : State) (b : Bool) : (s.setCpuIe b).gmask = s.gmask := rfl
@[simp] theorem State.setCpuIe_chans (s : State) (b : Bool) : (s.setCpuIe b).chans = s.chans := rfl
@[simp] theorem State.setCpuIe_drvUsable (s : State) (b : Bool) : (s.setCpuIe b).drvUsable = s.drvUsable := rfl
@[simp] theorem State.setCpuIe_drvNumCh (s : State) (b : Bool) : (s.setCpuIe b).drvNumCh = s.drvNumCh := rfl
@[simp] theorem State.setCpuIe_mgr (s : State) (b : Bool) : (s.setCpuIe b).mgr = s.mgr := rfl
@[simp] theorem State.setCpuIe_descs (s : State) (b : Bool) : (s.setCpuIe b).descs = s.descs := rfl
@[simp] theorem State.setCpuIe_binds (s : State) (b : Bool) : (s.setCpuIe b).binds = s.binds := rfl
@[simp] theorem State.setCpuIe_srcs (s : State) (b : Bool) : (s.setCpuIe b).srcs = s.srcs := rfl
@[simp] theorem State.setCpuIe_thr (s : State) (b : Bool) : (s.setCpuIe b).thr = s.thr := rfl
@[simp] theorem State.setCpuIe_icMask (s : State) (b : Bool) : (s.setCpuIe b).icMask = s.icMask := rfl
@[simp] theorem State.setCpuIe_lines (s : State) (b : Bool) : (s.setCpuIe b).lines = s.lines := rfl
@[simp] theorem State.setCpuIe_isrActive (s : State) (b : Bool) : (s.setCpuIe b).isrActive = s.isrActive := rfl
@[simp] theorem State.setCpuIe_prog (s : State) (b : Bool) : (s.setCpuIe b).prog = s.prog := rfl
@[simp] theorem State.setCpuIe_mainPos (s : State) (b : Bool) : (s.setCpuIe b).mainPos = s.mainPos := rfl
@[simp] theorem State.setCpuIe_isrPos (s : State) (b : Bool) : (s.setCpuIe b).isrPos = s.isrPos := rfl
@[simp] theorem State.setCpuIe_result (s : State) (b : Bool) : (s.setCpuIe b).result = s.result := rfl
@[simp] theorem State.setCpuIe_hist (s : State) (b : Bool) : (s.setCpuIe b).hist = s.hist := rfl
@[simp] theorem State.setCpuIe_mem (s : State) (b : Bool) : (s.setCpuIe b).mem = s.mem := rfl
@[simp] theorem State.setCpuIe_draws (s : State) (b : Bool) : (s.setCpuIe b).draws = s.draws := rfl
@[simp] theorem State.setCpuIe_sched (s : State) (b : Bool) : (s.setCpuIe b).sched = s.sched := rfl
@[simp] theorem State.setCpuIe_ticks (s : State) (b : Bool) : (s.setCpuIe b).ticks = s.ticks := rfl
@[simp] theorem State.setCpuIe_ep (s : State) (b : Bool) (k : Nat) : (s.setCpuIe b).ep k = s.ep k := rfl
@[simp] theorem State.setCpuIe_chan (s : State) (b : Bool) (k : Nat) : (s.setCpuIe b).chan k = s.chan k := rfl
@[simp] theorem State.setCpuIe_src (s : State) (b : Bool) (k : Nat) : (s.setCpuIe b).src k = s.src k := rfl
@[simp] theorem State.setCpuIe_slot (s : State) (b : Bool) (k : Nat) : (s.setCpuIe b).slot k = s.slot k := rfl
@[simp] theorem State.setCpuIe_ctrlWord (s : State) (b : Bool) (k : Nat) : (s.setCpuIe b).ctrlWord k = s.ctrlWord k := rfl
@[simp] theorem State.setCpuIe_istatWord (s : State) (b : Bool) (k : Nat) : (s.setCpuIe b).istatWord k = s.istatWord k := rfl
@[simp] theorem State.setCpuIe_refOf (s : State) (b : Bool) (k : Nat) : (s.setCpuIe b).refOf k = s.refOf k := rfl
@[simp] theorem State.setCpuIe_cur (s : State) (b : Bool) : (s.setCpuIe b).cur = s.cur := rfl
@[simp] theorem State.setCpuIe_who (s : State) (b : Bool) (i : Instr) : (s.setCpuIe b).who i = s.who i := rfl
@[simp] theorem State.setCpuIe_pos (s : State) (b : Bool) : (s.setCpuIe b).pos = s.pos := rfl
@[simp] theorem State.setCpuIe_doneAny (s : State) (b : Bool) : (s.setCpuIe b).doneAny = s.doneAny := rfl
@[simp] theorem State.setCpuIe_lastAny (s : State) (b : Bool) : (s.setCpuIe b).lastAny = s.lastAny := rfl
@[simp] theorem State.setCpuIe_gstatus (s : State) (b : Bool) : (s.setCpuIe b).gstatus = s.gstatus := rfl
@[simp] theorem State.setCpuIe_dmaIrq (s : State) (b : Bool) : (s.setCpuIe b).dmaIrq = s.dmaIrq := rfl
@[simp] theorem State.setCpuIe_lineLevel (s : State) (b : Bool) (k : Nat) : (s.setCpuIe b).lineLevel k = s.lineLevel k := rfl
@[simp] theorem State.setCpuIe_pendWord (s : State) (b : Bool) : (s.setCpuIe b).pendWord = s.pendWord := rfl
@[simp] theorem State.setCpuIe_eligible (s : State) (b : Bool) (k : Nat) : (s.setCpuIe b).eligible k = s.eligible k := rfl
@[simp] theorem State.setCpuIe_claimable (s : State) (b : Bool) : (s.setCpuIe b).claimable = s.claimable := rfl
@[simp] theorem State.setCpuIe_eip (s : State) (b : Bool) : (s.setCpuIe b).eip = s.eip := rfl
@[simp] theorem State.setCpuIe_draw (s : State) (b : Bool) : (s.setCpuIe b).draw = s.draw := rfl
@[simp] theorem State.setCpuIe_drawBit (s : State) (b : Bool) : (s.setCpuIe b).drawBit = s.drawBit := rfl

/-! ### setSrc -/

@[simp] theorem State.setSrc_cfg (s : State) (n : Nat) (x : Source) : (s.setSrc n x).cfg = s.cfg := rfl
@[simp] theorem State.setSrc_ep0 (s : State) (n : Nat) (x : Source) : (s.setSrc n x).ep0 = s.ep0 := rfl
@[simp] theorem State.setSrc_ep1 (s : State) (n : Nat) (x : Source) : (s.setSrc n x).ep1 = s.ep1 := rfl
@[simp] theorem State.setSrc_gmask (s : State) (n : Nat) (x : Source) : (s.setSrc n x).gmask = s.gmask := rfl
@[simp] theorem State.setSrc_chans (s : State) (n : Nat) (x : Source) : (s.setSrc n x).chans = s.chans := rfl
@[simp] theorem State.setSrc_drvUsable (s : State) (n : Nat) (x : Source) : (s.setSrc n x).drvUsable = s.drvUsable := rfl
@[simp] theorem State.setSrc_drvNumCh (s : State) (n : Nat) (x : Source) : (s.setSrc n x).drvNumCh = s.drvNumCh := rfl
@[simp] theorem State.setSrc_mgr (s : State) (n : Nat) (x : Source) : (s.setSrc n x).mgr = s.mgr := rfl
@[simp] theorem State.setSrc_descs (s : State) (n : Nat) (x : Source) : (s.setSrc n x).descs = s.descs := rfl
@[simp] theorem State.setSrc_binds (s : State) (n : Nat) (x : Source) : (s.setSrc n x).binds = s.binds := rfl
@[simp] theorem State.setSrc_thr (s : State) (n : Nat) (x : Source) : (s.setSrc n x).thr = s.thr := rfl
@[simp] theorem State.setSrc_icMask (s : State) (n : Nat) (x : Source) : (s.setSrc n x).icMask = s.icMask := rfl
@[simp] theorem State.setSrc_lines (s : State) (n : Nat) (x : Source) : (s.setSrc n x).lines = s.lines := rfl
@[simp] theorem State.setSrc_cpuIe (s : State) (n : Nat) (x : Source) : (s.setSrc n x).cpuIe = s.cpuIe := rfl
@[simp] theorem State.setSrc_isrActive (s : State) (n : Nat) (x : Source) : (s.setSrc n x).isrActive = s.isrActive := rfl
@[simp] theorem State.setSrc_prog (s : State) (n : Nat) (x : Source) : (s.setSrc n x).prog = s.prog := rfl
@[simp] theorem State.setSrc_mainPos (s : State) (n : Nat) (x : Source) : (s.setSrc n x).mainPos = s.mainPos := rfl
@[simp] theorem State.setSrc_isrPos (s : State) (n : Nat) (x : Source) : (s.setSrc n x).isrPos = s.isrPos := rfl
@[simp] theorem State.setSrc_result (s : State) (n : Nat) (x : Source) : (s.setSrc n x).result = s.result := rfl
@[simp] theorem State.setSrc_hist (s : State) (n : Nat) (x : Source) : (s.setSrc n x).hist = s.hist := rfl
@[simp] theorem State.setSrc_mem (s : State) (n : Nat) (x : Source) : (s.setSrc n x).mem = s.mem := rfl
@[simp] theorem State.setSrc_draws (s : State) (n : Nat) (x : Source) : (s.setSrc n x).draws = s.draws := rfl
@[simp] theorem State.setSrc_sched (s : State) (n : Nat) (x : Source) : (s.setSrc n x).sched = s.sched := rfl
@[simp] theorem State.setSrc_ticks (s : State) (n : Nat) (x : Source) : (s.setSrc n x).ticks = s.ticks := rfl
@[simp] theorem State.setSrc_ep (s : State) (n : Nat) (x : Source) (k : Nat) : (s.setSrc n x).ep k = s.ep k := rfl
@[simp] theorem State.setSrc_chan (s : State) (n : Nat) (x : Source) (k : Nat) : (s.setSrc n x).chan k = s.chan k := rfl
@[simp] theorem State.setSrc_slot (s : State) (n : Nat) (x : Source) (k : Nat) : (s.setSrc n x).slot k = s.slot k := rfl
@[simp] theorem State.setSrc_ctrlWord (s : State) (n : Nat) (x : Source) (k : Nat) : (s.setSrc n x).ctrlWord k = s.ctrlWord k := rfl
@[simp] theorem State.setSrc_istatWord (s : State) (n : Nat) (x : Source) (k : Nat) : (s.setSrc n x).istatWord k = s.istatWord k := rfl
@[simp] theorem State.setSrc_refOf (s : State) (n : Nat) (x : Source) (k : Nat) : (s.setSrc n x).refOf k = s.refOf k := rfl
@[simp] theorem State.setSrc_cur (s : State) (n : Nat) (x : Source) : (s.setSrc n x).cur = s.cur := rfl
@[simp] theorem State.setSrc_who (s : State) (n : Nat) (x : Source) (i : Instr) : (s.setSrc n x).who i = s.who i := rfl
@[simp] theorem State.setSrc_pos (s : State) (n : Nat) (x : Source) : (s.setSrc n x).pos = s.pos := rfl
@[simp] theorem State.setSrc_doneAny (s : State) (n : Nat) (x : Source) : (s.setSrc n x).doneAny = s.doneAny := rfl
@[simp] theorem State.setSrc_lastAny (s : State) (n : Nat) (x : Source) : (s.setSrc n x).lastAny = s.lastAny := rfl
@[simp] theorem State.setSrc_gstatus (s : State) (n : Nat) (x : Source) : (s.setSrc n x).gstatus = s.gstatus := rfl
@[simp] theorem State.setSrc_dmaIrq (s : State) (n : Nat) (x : Source) : (s.setSrc n x).dmaIrq = s.dmaIrq := rfl
@[simp] theorem State.setSrc_lineLevel (s : State) (n : Nat) (x : Source) (k : Nat) : (s.setSrc n x).lineLevel k = s.lineLevel k := rfl
@[simp] theorem State.setSrc_pendWord (s : State) (n : Nat) (x : Source) : (s.setSrc n x).pendWord = s.pendWord := rfl
@[simp] theorem State.setSrc_draw (s : State) (n : Nat) (x : Source) : (s.setSrc n x).draw = s.draw := rfl
@[simp] theorem State.setSrc_drawBit (s : State) (n : Nat) (x : Source) : (s.setSrc n x).drawBit = s.drawBit := rfl

/-! ### setSlot -/

@[simp] theorem State.setSlot_cfg (s : State) (ch : Nat) (d : Option Nat) : (s.setSlot ch d).cfg = s.cfg := rfl
@[simp] theorem State.setSlot_ep0 (s : State) (ch : Nat) (d : Option Nat) : (s.setSlot ch d).ep0 = s.ep0 := rfl
@[simp] theorem State.setSlot_ep1 (s : State) (ch : Nat) (d : Option Nat) : (s.setSlot ch d).ep1 = s.ep1 := rfl
@[simp] theorem State.setSlot_gmask (s : State) (ch : Nat) (d : Option Nat) : (s.setSlot ch d).gmask = s.gmask := rfl
@[simp] theorem State.setSlot_chans (s : State) (ch : Nat) (d : Option Nat) : (s.setSlot ch d).chans = s.chans := rfl
@[simp] theorem State.setSlot_drvUsable (s : State) (ch : Nat) (d : Option Nat) : (s.setSlot ch d).drvUsable = s.drvUsable := rfl
@[simp] theorem State.setSlot_drvNumCh (s : State) (ch : Nat) (d : Option Nat) : (s.setSlot ch d).drvNumCh = s.drvNumCh := rfl
@[simp] theorem State.setSlot_descs (s : State) (ch : Nat) (d : Option Nat) : (s.setSlot ch d).descs = s.descs := rfl
@[simp] theorem State.setSlot_binds (s : State) (ch : Nat) (d : Option Nat) : (s.setSlot ch d).binds = s.binds := rfl
@[simp] theorem State.setSlot_srcs (s : State) (ch : Nat) (d : Option Nat) : (s.setSlot ch d).srcs = s.srcs := rfl
@[simp] theorem State.setSlot_thr (s : State) (ch : Nat) (d : Option Nat) : (s.setSlot ch d).thr = s.thr := rfl
@[simp] theorem State.setSlot_icMask (s : State) (ch : Nat) (d : Option Nat) : (s.setSlot ch d).icMask = s.icMask := rfl
@[simp] theorem State.setSlot_lines (s : State) (ch : Nat) (d : Option Nat) : (s.setSlot ch d).lines = s.lines := rfl
@[simp] theorem State.setSlot_cpuIe (s : State) (ch : Nat) (d : Option Nat) : (s.setSlot ch d).cpuIe = s.cpuIe := rfl
@[simp] theorem State.setSlot_isrActive (s : State) (ch : Nat) (d : Option Nat) : (s.setSlot ch d).isrActive = s.isrActive := rfl
@[simp] theorem State.setSlot_prog (s : State) (ch : Nat) (d : Option Nat) : (s.setSlot ch d).prog = s.prog := rfl
@[simp] theorem State.setSlot_mainPos (s : State) (ch : Nat) (d : Option Nat) : (s.setSlot ch d).mainPos = s.mainPos := rfl
@[simp] theorem State.setSlot_isrPos (s : State) (ch : Nat) (d : Option Nat) : (s.setSlot ch d).isrPos = s.isrPos := rfl
@[simp] theorem State.setSlot_result (s : State) (ch : Nat) (d : Option Nat) : (s.setSlot ch d).result = s.result := rfl
@[simp] theorem State.setSlot_hist (s : State) (ch : Nat) (d : Option Nat) : (s.setSlot ch d).hist = s.hist := rfl
@[simp] theorem State.setSlot_mem (s : State) (ch : Nat) (d : Option Nat) : (s.setSlot ch d).mem = s.mem := rfl
@[simp] theorem State.setSlot_draws (s : State) (ch : Nat) (d : Option Nat) : (s.setSlot ch d).draws = s.draws := rfl
@[simp] theorem State.setSlot_sched (s : State) (ch : Nat) (d : Option Nat) : (s.setSlot ch d).sched = s.sched := rfl
@[simp] theorem State.setSlot_ticks (s : State) (ch : Nat) (d : Option Nat) : (s.setSlot ch d).ticks = s.ticks := rfl
@[simp] theorem State.setSlot_ep (s : State) (ch : Nat) (d : Option Nat) (k : Nat) : (s.setSlot ch d).ep k = s.ep k := rfl
@[simp] theorem State.setSlot_chan (s : State) (ch : Nat) (d : Option Nat) (k : Nat) : (s.setSlot ch d).chan k = s.chan k := rfl
@[simp] theorem State.setSlot_src (s : State) (ch : Nat) (d : Option Nat) (k : Nat) : (s.setSlot ch d).src k = s.src k := rfl
@[simp] theorem State.setSlot_ctrlWord (s : State) (ch : Nat) (d : Option Nat) (k : Nat) : (s.setSlot ch d).ctrlWord k = s.ctrlWord k := rfl
@[simp] theorem State.setSlot_istatWord (s : State) (ch : Nat) (d : Option Nat) (k : Nat) : (s.setSlot ch d).istatWord k = s.istatWord k := rfl
@[simp] theorem State.setSlot_refOf (s : State) (ch : Nat) (d : Option Nat) (k : Nat) : (s.setSlot ch d).refOf k = s.refOf k := rfl
@[simp] theorem State.setSlot_cur (s : State) (ch : Nat) (d : Option Nat) : (s.setSlot ch d).cur = s.cur := rfl
@[simp] theorem State.setSlot_who (s : State) (ch : Nat) (d : Option Nat) (i : Instr) : (s.setSlot ch d).who i = s.who i := rfl
@[simp] theorem State.setSlot_pos (s : State) (ch : Nat) (d : Option Nat) : (s.setSlot ch d).pos = s.pos := rfl
@[simp] theorem State.setSlot_doneAny (s : State) (ch : Nat) (d : Option Nat) : (s.setSlot ch d).doneAny = s.doneAny := rfl
@[simp] theorem State.setSlot_lastAny (s : State) (ch : Nat) (d : Option Nat) : (s.setSlot ch d).lastAny = s.lastAny := rfl
@[simp] theorem State.setSlot_gstatus (s : State) (ch : Nat) (d : Option Nat) : (s.setSlot ch d).gstatus = s.gstatus := rfl
@[simp] theorem State.setSlot_dmaIrq (s : State) (ch : Nat) (d : Option Nat) : (s.setSlot ch d).dmaIrq = s.dmaIrq := rfl
@[simp] theorem State.setSlot_lineLevel (s : State) (ch : Nat) (d : Option Nat) (k : Nat) : (s.setSlot ch d).lineLevel k = s.lineLevel k := rfl
@[simp] theorem State.setSlot_pendWord (s : State) (ch : Nat) (d : Option Nat) : (s.setSlot ch d).pendWord = s.pendWord := rfl
@[simp] theorem State.setSlot_eligible (s : State) (ch : Nat) (d : Option Nat) (k : Nat) : (s.setSlot ch d).eligible k = s.eligible k := rfl
@[simp] theorem State.setSlot_claimable (s : State) (ch : Nat) (d : Option Nat) : (s.setSlot ch d).claimable = s.claimable := rfl
@[simp] theorem State.setSlot_eip (s : State) (ch : Nat) (d : Option Nat) : (s.setSlot ch d).eip = s.eip := rfl
@[simp] theorem State.setSlot_draw (s : State) (ch : Nat) (d : Option Nat) : (s.setSlot ch d).draw = s.draw := rfl
@[simp] theorem State.setSlot_drawBit (s : State) (ch : Nat) (d : Option Nat) : (s.setSlot ch d).drawBit = s.drawBit := rfl

/-! ### setDoneMask -/

@[simp] theorem State.setDoneMask_cfg (s : State) (m : Word) : (s.setDoneMask m).cfg = s.cfg := rfl
@[simp] theorem State.setDoneMask_ep0 (s : State) (m : Word) : (s.setDoneMask m).ep0 = s.ep0 := rfl
@[simp] theorem State.setDoneMask_ep1 (s : State) (m : Word) : (s.setDoneMask m).ep1 = s.ep1 := rfl
@[simp] theorem State.setDoneMask_gmask (s : State) (m : Word) : (s.setDoneMask m).gmask = s.gmask := rfl
@[simp] theorem State.setDoneMask_chans (s : State) (m : Word) : (s.setDoneMask m).chans = s.chans := rfl
@[simp] theorem State.setDoneMask_drvUsable (s : State) (m : Word) : (s.setDoneMask m).drvUsable = s.drvUsable := rfl
@[simp] theorem State.setDoneMask_drvNumCh (s : State) (m : Word) : (s.setDoneMask m).drvNumCh = s.drvNumCh := rfl
@[simp] theorem State.setDoneMask_descs (s : State) (m : Word) : (s.setDoneMask m).descs = s.descs := rfl
@[simp] theorem State.setDoneMask_binds (s : State) (m : Word) : (s.setDoneMask m).binds = s.binds := rfl
@[simp] theorem State.setDoneMask_srcs (s : State) (m : Word) : (s.setDoneMask m).srcs = s.srcs := rfl
@[simp] theorem State.setDoneMask_thr (s : State) (m : Word) : (s.setDoneMask m).thr = s.thr := rfl
@[simp] theorem State.setDoneMask_icMask (s : State) (m : Word) : (s.setDoneMask m).icMask = s.icMask := rfl
@[simp] theorem State.setDoneMask_lines (s : State) (m : Word) : (s.setDoneMask m).lines = s.lines := rfl
@[simp] theorem State.setDoneMask_cpuIe (s : State) (m : Word) : (s.setDoneMask m).cpuIe = s.cpuIe := rfl
@[simp] theorem State.setDoneMask_isrActive (s : State) (m : Word) : (s.setDoneMask m).isrActive = s.isrActive := rfl
@[simp] theorem State.setDoneMask_prog (s : State) (m : Word) : (s.setDoneMask m).prog = s.prog := rfl
@[simp] theorem State.setDoneMask_mainPos (s : State) (m : Word) : (s.setDoneMask m).mainPos = s.mainPos := rfl
@[simp] theorem State.setDoneMask_isrPos (s : State) (m : Word) : (s.setDoneMask m).isrPos = s.isrPos := rfl
@[simp] theorem State.setDoneMask_result (s : State) (m : Word) : (s.setDoneMask m).result = s.result := rfl
@[simp] theorem State.setDoneMask_hist (s : State) (m : Word) : (s.setDoneMask m).hist = s.hist := rfl
@[simp] theorem State.setDoneMask_mem (s : State) (m : Word) : (s.setDoneMask m).mem = s.mem := rfl
@[simp] theorem State.setDoneMask_draws (s : State) (m : Word) : (s.setDoneMask m).draws = s.draws := rfl
@[simp] theorem State.setDoneMask_sched (s : State) (m : Word) : (s.setDoneMask m).sched = s.sched := rfl
@[simp] theorem State.setDoneMask_ticks (s : State) (m : Word) : (s.setDoneMask m).ticks = s.ticks := rfl
@[simp] theorem State.setDoneMask_ep (s : State) (m : Word) (k : Nat) : (s.setDoneMask m).ep k = s.ep k := rfl
@[simp] theorem State.setDoneMask_chan (s : State) (m : Word) (k : Nat) : (s.setDoneMask m).chan k = s.chan k := rfl
@[simp] theorem State.setDoneMask_src (s : State) (m : Word) (k : Nat) : (s.setDoneMask m).src k = s.src k := rfl
@[simp] theorem State.setDoneMask_ctrlWord (s : State) (m : Word) (k : Nat) : (s.setDoneMask m).ctrlWord k = s.ctrlWord k := rfl
@[simp] theorem State.setDoneMask_istatWord (s : State) (m : Word) (k : Nat) : (s.setDoneMask m).istatWord k = s.istatWord k := rfl
@[simp] theorem State.setDoneMask_refOf (s : State) (m : Word) (k : Nat) : (s.setDoneMask m).refOf k = s.refOf k := rfl
@[simp] theorem State.setDoneMask_cur (s : State) (m : Word) : (s.setDoneMask m).cur = s.cur := rfl
@[simp] theorem State.setDoneMask_who (s : State) (m : Word) (i : Instr) : (s.setDoneMask m).who i = s.who i := rfl
@[simp] theorem State.setDoneMask_pos (s : State) (m : Word) : (s.setDoneMask m).pos = s.pos := rfl
@[simp] theorem State.setDoneMask_doneAny (s : State) (m : Word) : (s.setDoneMask m).doneAny = s.doneAny := rfl
@[simp] theorem State.setDoneMask_lastAny (s : State) (m : Word) : (s.setDoneMask m).lastAny = s.lastAny := rfl
@[simp] theorem State.setDoneMask_gstatus (s : State) (m : Word) : (s.setDoneMask m).gstatus = s.gstatus := rfl
@[simp] theorem State.setDoneMask_dmaIrq (s : State) (m : Word) : (s.setDoneMask m).dmaIrq = s.dmaIrq := rfl
@[simp] theorem State.setDoneMask_lineLevel (s : State) (m : Word) (k : Nat) : (s.setDoneMask m).lineLevel k = s.lineLevel k := rfl
@[simp] theorem State.setDoneMask_pendWord (s : State) (m : Word) : (s.setDoneMask m).pendWord = s.pendWord := rfl
@[simp] theorem State.setDoneMask_eligible (s : State) (m : Word) (k : Nat) : (s.setDoneMask m).eligible k = s.eligible k := rfl
@[simp] theorem State.setDoneMask_claimable (s : State) (m : Word) : (s.setDoneMask m).claimable = s.claimable := rfl
@[simp] theorem State.setDoneMask_eip (s : State) (m : Word) : (s.setDoneMask m).eip = s.eip := rfl
@[simp] theorem State.setDoneMask_draw (s : State) (m : Word) : (s.setDoneMask m).draw = s.draw := rfl
@[simp] theorem State.setDoneMask_drawBit (s : State) (m : Word) : (s.setDoneMask m).drawBit = s.drawBit := rfl

/-! ### setLastMask -/

@[simp] theorem State.setLastMask_cfg (s : State) (m : Word) : (s.setLastMask m).cfg = s.cfg := rfl
@[simp] theorem State.setLastMask_ep0 (s : State) (m : Word) : (s.setLastMask m).ep0 = s.ep0 := rfl
@[simp] theorem State.setLastMask_ep1 (s : State) (m : Word) : (s.setLastMask m).ep1 = s.ep1 := rfl
@[simp] theorem State.setLastMask_gmask (s : State) (m : Word) : (s.setLastMask m).gmask = s.gmask := rfl
@[simp] theorem State.setLastMask_chans (s : State) (m : Word) : (s.setLastMask m).chans = s.chans := rfl
@[simp] theorem State.setLastMask_drvUsable (s : State) (m : Word) : (s.setLastMask m).drvUsable = s.drvUsable := rfl
@[simp] theorem State.setLastMask_drvNumCh (s : State) (m : Word) : (s.setLastMask m).drvNumCh = s.drvNumCh := rfl
@[simp] theorem State.setLastMask_descs (s : State) (m : Word) : (s.setLastMask m).descs = s.descs := rfl
@[simp] theorem State.setLastMask_binds (s : State) (m : Word) : (s.setLastMask m).binds = s.binds := rfl
@[simp] theorem State.setLastMask_srcs (s : State) (m : Word) : (s.setLastMask m).srcs = s.srcs := rfl
@[simp] theorem State.setLastMask_thr (s : State) (m : Word) : (s.setLastMask m).thr = s.thr := rfl
@[simp] theorem State.setLastMask_icMask (s : State) (m : Word) : (s.setLastMask m).icMask = s.icMask := rfl
@[simp] theorem State.setLastMask_lines (s : State) (m : Word) : (s.setLastMask m).lines = s.lines := rfl
@[simp] theorem State.setLastMask_cpuIe (s : State) (m : Word) : (s.setLastMask m).cpuIe = s.cpuIe := rfl
@[simp] theorem State.setLastMask_isrActive (s : State) (m : Word) : (s.setLastMask m).isrActive = s.isrActive := rfl
@[simp] theorem State.setLastMask_prog (s : State) (m : Word) : (s.setLastMask m).prog = s.prog := rfl
@[simp] theorem State.setLastMask_mainPos (s : State) (m : Word) : (s.setLastMask m).mainPos = s.mainPos := rfl
@[simp] theorem State.setLastMask_isrPos (s : State) (m : Word) : (s.setLastMask m).isrPos = s.isrPos := rfl
@[simp] theorem State.setLastMask_result (s : State) (m : Word) : (s.setLastMask m).result = s.result := rfl
@[simp] theorem State.setLastMask_hist (s : State) (m : Word) : (s.setLastMask m).hist = s.hist := rfl
@[simp] theorem State.setLastMask_mem (s : State) (m : Word) : (s.setLastMask m).mem = s.mem := rfl
@[simp] theorem State.setLastMask_draws (s : State) (m : Word) : (s.setLastMask m).draws = s.draws := rfl
@[simp] theorem State.setLastMask_sched (s : State) (m : Word) : (s.setLastMask m).sched = s.sched := rfl
@[simp] theorem State.setLastMask_ticks (s : State) (m : Word) : (s.setLastMask m).ticks = s.ticks := rfl
@[simp] theorem State.setLastMask_ep (s : State) (m : Word) (k : Nat) : (s.setLastMask m).ep k = s.ep k := rfl
@[simp] theorem State.setLastMask_chan (s : State) (m : Word) (k : Nat) : (s.setLastMask m).chan k = s.chan k := rfl
@[simp] theorem State.setLastMask_src (s : State) (m : Word) (k : Nat) : (s.setLastMask m).src k = s.src k := rfl
@[simp] theorem State.setLastMask_ctrlWord (s : State) (m : Word) (k : Nat) : (s.setLastMask m).ctrlWord k = s.ctrlWord k := rfl
@[simp] theorem State.setLastMask_istatWord (s : State) (m : Word) (k : Nat) : (s.setLastMask m).istatWord k = s.istatWord k := rfl
@[simp] theorem State.setLastMask_refOf (s : State) (m : Word) (k : Nat) : (s.setLastMask m).refOf k = s.refOf k := rfl
@[simp] theorem State.setLastMask_cur (s : State) (m : Word) : (s.setLastMask m).cur = s.cur := rfl
@[simp] theorem State.setLastMask_who (s : State) (m : Word) (i : Instr) : (s.setLastMask m).who i = s.who i := rfl
@[simp] theorem State.setLastMask_pos (s : State) (m : Word) : (s.setLastMask m).pos = s.pos := rfl
@[simp] theorem State.setLastMask_doneAny (s : State) (m : Word) : (s.setLastMask m).doneAny = s.doneAny := rfl
@[simp] theorem State.setLastMask_lastAny (s : State) (m : Word) : (s.setLastMask m).lastAny = s.lastAny := rfl
@[simp] theorem State.setLastMask_gstatus (s : State) (m : Word) : (s.setLastMask m).gstatus = s.gstatus := rfl
@[simp] theorem State.setLastMask_dmaIrq (s : State) (m : Word) : (s.setLastMask m).dmaIrq = s.dmaIrq := rfl
@[simp] theorem State.setLastMask_lineLevel (s : State) (m : Word) (k : Nat) : (s.setLastMask m).lineLevel k = s.lineLevel k := rfl
@[simp] theorem State.setLastMask_pendWord (s : State) (m : Word) : (s.setLastMask m).pendWord = s.pendWord := rfl
@[simp] theorem State.setLastMask_eligible (s : State) (m : Word) (k : Nat) : (s.setLastMask m).eligible k = s.eligible k := rfl
@[simp] theorem State.setLastMask_claimable (s : State) (m : Word) : (s.setLastMask m).claimable = s.claimable := rfl
@[simp] theorem State.setLastMask_eip (s : State) (m : Word) : (s.setLastMask m).eip = s.eip := rfl
@[simp] theorem State.setLastMask_draw (s : State) (m : Word) : (s.setLastMask m).draw = s.draw := rfl
@[simp] theorem State.setLastMask_drawBit (s : State) (m : Word) : (s.setLastMask m).drawBit = s.drawBit := rfl

/-! ### setPresent -/

@[simp] theorem State.setPresent_cfg (s : State) : (s.setPresent).cfg = s.cfg := rfl
@[simp] theorem State.setPresent_ep0 (s : State) : (s.setPresent).ep0 = s.ep0 := rfl
@[simp] theorem State.setPresent_ep1 (s : State) : (s.setPresent).ep1 = s.ep1 := rfl
@[simp] theorem State.setPresent_gmask (s : State) : (s.setPresent).gmask = s.gmask := rfl
@[simp] theorem State.setPresent_chans (s : State) : (s.setPresent).chans = s.chans := rfl
@[simp] theorem State.setPresent_drvUsable (s : State) : (s.setPresent).drvUsable = s.drvUsable := rfl
@[simp] theorem State.setPresent_drvNumCh (s : State) : (s.setPresent).drvNumCh = s.drvNumCh := rfl
@[simp] theorem State.setPresent_descs (s : State) : (s.setPresent).descs = s.descs := rfl
@[simp] theorem State.setPresent_binds (s : State) : (s.setPresent).binds = s.binds := rfl
@[simp] theorem State.setPresent_srcs (s : State) : (s.setPresent).srcs = s.srcs := rfl
@[simp] theorem State.setPresent_thr (s : State) : (s.setPresent).thr = s.thr := rfl
@[simp] theorem State.setPresent_icMask (s : State) : (s.setPresent).icMask = s.icMask := rfl
@[simp] theorem State.setPresent_lines (s : State) : (s.setPresent).lines = s.lines := rfl
@[simp] theorem State.setPresent_cpuIe (s : State) : (s.setPresent).cpuIe = s.cpuIe := rfl
@[simp] theorem State.setPresent_isrActive (s : State) : (s.setPresent).isrActive = s.isrActive := rfl
@[simp] theorem State.setPresent_prog (s : State) : (s.setPresent).prog = s.prog := rfl
@[simp] theorem State.setPresent_mainPos (s : State) : (s.setPresent).mainPos = s.mainPos := rfl
@[simp] theorem State.setPresent_isrPos (s : State) : (s.setPresent).isrPos = s.isrPos := rfl
@[simp] theorem State.setPresent_result (s : State) : (s.setPresent).result = s.result := rfl
@[simp] theorem State.setPresent_hist (s : State) : (s.setPresent).hist = s.hist := rfl
@[simp] theorem State.setPresent_mem (s : State) : (s.setPresent).mem = s.mem := rfl
@[simp] theorem State.setPresent_draws (s : State) : (s.setPresent).draws = s.draws := rfl
@[simp] theorem State.setPresent_sched (s : State) : (s.setPresent).sched = s.sched := rfl
@[simp] theorem State.setPresent_ticks (s : State) : (s.setPresent).ticks = s.ticks := rfl
@[simp] theorem State.setPresent_ep (s : State) (k : Nat) : (s.setPresent).ep k = s.ep k := rfl
@[simp] theorem State.setPresent_chan (s : State) (k : Nat) : (s.setPresent).chan k = s.chan k := rfl
@[simp] theorem State.setPresent_src (s : State) (k : Nat) : (s.setPresent).src k = s.src k := rfl
@[simp] theorem State.setPresent_ctrlWord (s : State) (k : Nat) : (s.setPresent).ctrlWord k = s.ctrlWord k := rfl
@[simp] theorem State.setPresent_istatWord (s : State) (k : Nat) : (s.setPresent).istatWord k = s.istatWord k := rfl
@[simp] theorem State.setPresent_refOf (s : State) (k : Nat) : (s.setPresent).refOf k = s.refOf k := rfl
@[simp] theorem State.setPresent_cur (s : State) : (s.setPresent).cur = s.cur := rfl
@[simp] theorem State.setPresent_who (s : State) (i : Instr) : (s.setPresent).who i = s.who i := rfl
@[simp] theorem State.setPresent_pos (s : State) : (s.setPresent).pos = s.pos := rfl
@[simp] theorem State.setPresent_doneAny (s : State) : (s.setPresent).doneAny = s.doneAny := rfl
@[simp] theorem State.setPresent_lastAny (s : State) : (s.setPresent).lastAny = s.lastAny := rfl
@[simp] theorem State.setPresent_gstatus (s : State) : (s.setPresent).gstatus = s.gstatus := rfl
@[simp] theorem State.setPresent_dmaIrq (s : State) : (s.setPresent).dmaIrq = s.dmaIrq := rfl
@[simp] theorem State.setPresent_lineLevel (s : State) (k : Nat) : (s.setPresent).lineLevel k = s.lineLevel k := rfl
@[simp] theorem State.setPresent_pendWord (s : State) : (s.setPresent).pendWord = s.pendWord := rfl
@[simp] theorem State.setPresent_eligible (s : State) (k : Nat) : (s.setPresent).eligible k = s.eligible k := rfl
@[simp] theorem State.setPresent_claimable (s : State) : (s.setPresent).claimable = s.claimable := rfl
@[simp] theorem State.setPresent_eip (s : State) : (s.setPresent).eip = s.eip := rfl
@[simp] theorem State.setPresent_draw (s : State) : (s.setPresent).draw = s.draw := rfl
@[simp] theorem State.setPresent_drawBit (s : State) : (s.setPresent).drawBit = s.drawBit := rfl

/-! ### setDesc -/

@[simp] theorem State.setDesc_cfg (s : State) (r : Nat) (d : Desc) : (s.setDesc r d).cfg = s.cfg := rfl
@[simp] theorem State.setDesc_ep0 (s : State) (r : Nat) (d : Desc) : (s.setDesc r d).ep0 = s.ep0 := rfl
@[simp] theorem State.setDesc_ep1 (s : State) (r : Nat) (d : Desc) : (s.setDesc r d).ep1 = s.ep1 := rfl
@[simp] theorem State.setDesc_gmask (s : State) (r : Nat) (d : Desc) : (s.setDesc r d).gmask = s.gmask := rfl
@[simp] theorem State.setDesc_chans (s : State) (r : Nat) (d : Desc) : (s.setDesc r d).chans = s.chans := rfl
@[simp] theorem State.setDesc_drvUsable (s : State) (r : Nat) (d : Desc) : (s.setDesc r d).drvUsable = s.drvUsable := rfl
@[simp] theorem State.setDesc_drvNumCh (s : State) (r : Nat) (d : Desc) : (s.setDesc r d).drvNumCh = s.drvNumCh := rfl
@[simp] theorem State.setDesc_mgr (s : State) (r : Nat) (d : Desc) : (s.setDesc r d).mgr = s.mgr := rfl
@[simp] theorem State.setDesc_binds (s : State) (r : Nat) (d : Desc) : (s.setDesc r d).binds = s.binds := rfl
@[simp] theorem State.setDesc_srcs (s : State) (r : Nat) (d : Desc) : (s.setDesc r d).srcs = s.srcs := rfl
@[simp] theorem State.setDesc_thr (s : State) (r : Nat) (d : Desc) : (s.setDesc r d).thr = s.thr := rfl
@[simp] theorem State.setDesc_icMask (s : State) (r : Nat) (d : Desc) : (s.setDesc r d).icMask = s.icMask := rfl
@[simp] theorem State.setDesc_lines (s : State) (r : Nat) (d : Desc) : (s.setDesc r d).lines = s.lines := rfl
@[simp] theorem State.setDesc_cpuIe (s : State) (r : Nat) (d : Desc) : (s.setDesc r d).cpuIe = s.cpuIe := rfl
@[simp] theorem State.setDesc_isrActive (s : State) (r : Nat) (d : Desc) : (s.setDesc r d).isrActive = s.isrActive := rfl
@[simp] theorem State.setDesc_prog (s : State) (r : Nat) (d : Desc) : (s.setDesc r d).prog = s.prog := rfl
@[simp] theorem State.setDesc_mainPos (s : State) (r : Nat) (d : Desc) : (s.setDesc r d).mainPos = s.mainPos := rfl
@[simp] theorem State.setDesc_isrPos (s : State) (r : Nat) (d : Desc) : (s.setDesc r d).isrPos = s.isrPos := rfl
@[simp] theorem State.setDesc_result (s : State) (r : Nat) (d : Desc) : (s.setDesc r d).result = s.result := rfl
@[simp] theorem State.setDesc_hist (s : State) (r : Nat) (d : Desc) : (s.setDesc r d).hist = s.hist := rfl
@[simp] theorem State.setDesc_mem (s : State) (r : Nat) (d : Desc) : (s.setDesc r d).mem = s.mem := rfl
@[simp] theorem State.setDesc_draws (s : State) (r : Nat) (d : Desc) : (s.setDesc r d).draws = s.draws := rfl
@[simp] theorem State.setDesc_sched (s : State) (r : Nat) (d : Desc) : (s.setDesc r d).sched = s.sched := rfl
@[simp] theorem State.setDesc_ticks (s : State) (r : Nat) (d : Desc) : (s.setDesc r d).ticks = s.ticks := rfl
@[simp] theorem State.setDesc_ep (s : State) (r : Nat) (d : Desc) (k : Nat) : (s.setDesc r d).ep k = s.ep k := rfl
@[simp] theorem State.setDesc_chan (s : State) (r : Nat) (d : Desc) (k : Nat) : (s.setDesc r d).chan k = s.chan k := rfl
@[simp] theorem State.setDesc_src (s : State) (r : Nat) (d : Desc) (k : Nat) : (s.setDesc r d).src k = s.src k := rfl
@[simp] theorem State.setDesc_slot (s : State) (r : Nat) (d : Desc) (k : Nat) : (s.setDesc r d).slot k = s.slot k := rfl
@[simp] theorem State.setDesc_ctrlWord (s : State) (r : Nat) (d : Desc) (k : Nat) : (s.setDesc r d).ctrlWord k = s.ctrlWord k := rfl
@[simp] theorem State.setDesc_istatWord (s : State) (r : Nat) (d : Desc) (k : Nat) : (s.setDesc r d).istatWord k = s.istatWord k := rfl
@[simp] theorem State.setDesc_cur (s : State) (r : Nat) (d : Desc) : (s.setDesc r d).cur = s.cur := rfl
@[simp] theorem State.setDesc_who (s : State) (r : Nat) (d : Desc) (i : Instr) : (s.setDesc r d).who i = s.who i := rfl
@[simp] theorem State.setDesc_pos (s : State) (r : Nat) (d : Desc) : (s.setDesc r d).pos = s.pos := rfl
@[simp] theorem State.setDesc_doneAny (s : State) (r : Nat) (d : Desc) : (s.setDesc r d).doneAny = s.doneAny := rfl
@[simp] theorem State.setDesc_lastAny (s : State) (r : Nat) (d : Desc) : (s.setDesc r d).lastAny = s.lastAny := rfl
@[simp] theorem State.setDesc_gstatus (s : State) (r : Nat) (d : Desc) : (s.setDesc r d).gstatus = s.gstatus := rfl
@[simp] theorem State.setDesc_dmaIrq (s : State) (r : Nat) (d : Desc) : (s.setDesc r d).dmaIrq = s.dmaIrq := rfl
@[simp] theorem State.setDesc_lineLevel (s : State) (r : Nat) (d : Desc) (k : Nat) : (s.setDesc r d).lineLevel k = s.lineLevel k := rfl
@[simp] theorem State.setDesc_pendWord (s : State) (r : Nat) (d : Desc) : (s.setDesc r d).pendWord = s.pendWord := rfl
@[simp] theorem State.setDesc_eligible (s : State) (r : Nat) (d : Desc) (k : Nat) : (s.setDesc r d).eligible k = s.eligible k := rfl
@[simp] theorem State.setDesc_claimable (s : State) (r : Nat) (d : Desc) : (s.setDesc r d).claimable = s.claimable := rfl
@[simp] theorem State.setDesc_eip (s : State) (r : Nat) (d : Desc) : (s.setDesc r d).eip = s.eip := rfl
@[simp] theorem State.setDesc_draw (s : State) (r : Nat) (d : Desc) : (s.setDesc r d).draw = s.draw := rfl
@[simp] theorem State.setDesc_drawBit (s : State) (r : Nat) (d : Desc) : (s.setDesc r d).drawBit = s.drawBit := rfl

/-! ### setDescDone -/

@[simp] theorem State.setDescDone_cfg (s : State) (r : Nat) (b : Bool) : (s.setDescDone r b).cfg = s.cfg := by unfold State.setDescDone; split <;> rfl
@[simp] theorem State.setDescDone_ep0 (s : State) (r : Nat) (b : Bool) : (s.setDescDone r b).ep0 = s.ep0 := by unfold State.setDescDone; split <;> rfl
@[simp] theorem State.setDescDone_ep1 (s : State) (r : Nat) (b : Bool) : (s.setDescDone r b).ep1 = s.ep1 := by unfold State.setDescDone; split <;> rfl
@[simp] theorem State.setDescDone_gmask (s : State) (r : Nat) (b : Bool) : (s.setDescDone r b).gmask = s.gmask := by unfold State.setDescDone; split <;> rfl
@[simp] theorem State.setDescDone_chans (s : State) (r : Nat) (b : Bool) : (s.setDescDone r b).chans = s.chans := by unfold State.setDescDone; split <;> rfl
@[simp] theorem State.setDescDone_drvUsable (s : State) (r : Nat) (b : Bool) : (s.setDescDone r b).drvUsable = s.drvUsable := by unfold State.setDescDone; split <;> rfl
@[simp] theorem State.setDescDone_drvNumCh (s : State) (r : Nat) (b : Bool) : (s.setDescDone r b).drvNumCh = s.drvNumCh := by unfold State.setDescDone; split <;> rfl
@[simp] theorem State.setDescDone_mgr (s : State) (r : Nat) (b : Bool) : (s.setDescDone r b).mgr = s.mgr := by unfold State.setDescDone; split <;> rfl
@[simp] theorem State.setDescDone_binds (s : State) (r : Nat) (b : Bool) : (s.setDescDone r b).binds = s.binds := by unfold State.setDescDone; split <;> rfl
@[simp] theorem State.setDescDone_srcs (s : State) (r : Nat) (b : Bool) : (s.setDescDone r b).srcs = s.srcs := by unfold State.setDescDone; split <;> rfl
@[simp] theorem State.setDescDone_thr (s : State) (r : Nat) (b : Bool) : (s.setDescDone r b).thr = s.thr := by unfold State.setDescDone; split <;> rfl
@[simp] theorem State.setDescDone_icMask (s : State) (r : Nat) (b : Bool) : (s.setDescDone r b).icMask = s.icMask := by unfold State.setDescDone; split <;> rfl
@[simp] theorem State.setDescDone_lines (s : State) (r : Nat) (b : Bool) : (s.setDescDone r b).lines = s.lines := by unfold State.setDescDone; split <;> rfl
@[simp] theorem State.setDescDone_cpuIe (s : State) (r : Nat) (b : Bool) : (s.setDescDone r b).cpuIe = s.cpuIe := by unfold State.setDescDone; split <;> rfl
@[simp] theorem State.setDescDone_isrActive (s : State) (r : Nat) (b : Bool) : (s.setDescDone r b).isrActive = s.isrActive := by unfold State.setDescDone; split <;> rfl
@[simp] theorem State.setDescDone_prog (s : State) (r : Nat) (b : Bool) : (s.setDescDone r b).prog = s.prog := by unfold State.setDescDone; split <;> rfl
@[simp] theorem State.setDescDone_mainPos (s : State) (r : Nat) (b : Bool) : (s.setDescDone r b).mainPos = s.mainPos := by unfold State.setDescDone; split <;> rfl
@[simp] theorem State.setDescDone_isrPos (s : State) (r : Nat) (b : Bool) : (s.setDescDone r b).isrPos = s.isrPos := by unfold State.setDescDone; split <;> rfl
@[simp] theorem State.setDescDone_result (s : State) (r : Nat) (b : Bool) : (s.setDescDone r b).result = s.result := by unfold State.setDescDone; split <;> rfl
@[simp] theorem State.setDescDone_hist (s : State) (r : Nat) (b : Bool) : (s.setDescDone r b).hist = s.hist := by unfold State.setDescDone; split <;> rfl
@[simp] theorem State.setDescDone_mem (s : State) (r : Nat) (b : Bool) : (s.setDescDone r b).mem = s.mem := by unfold State.setDescDone; split <;> rfl
@[simp] theorem State.setDescDone_draws (s : State) (r : Nat) (b : Bool) : (s.setDescDone r b).draws = s.draws := by unfold State.setDescDone; split <;> rfl
@[simp] theorem State.setDescDone_sched (s : State) (r : Nat) (b : Bool) : (s.setDescDone r b).sched = s.sched := by unfold State.setDescDone; split <;> rfl
@[simp] theorem State.setDescDone_ticks (s : State) (r : Nat) (b : Bool) : (s.setDescDone r b).ticks = s.ticks := by unfold State.setDescDone; split <;> rfl
@[simp] theorem State.setDescDone_ep (s : State) (r : Nat) (b : Bool) (k : Nat) : (s.setDescDone r b).ep k = s.ep k := by unfold State.setDescDone; split <;> rfl
@[simp] theorem State.setDescDone_chan (s : State) (r : Nat) (b : Bool) (k : Nat) : (s.setDescDone r b).chan k = s.chan k := by unfold State.setDescDone; split <;> rfl
@[simp] theorem State.setDescDone_src (s : State) (r : Nat) (b : Bool) (k : Nat) : (s.setDescDone r b).src k = s.src k := by unfold State.setDescDone; split <;> rfl
@[simp] theorem State.setDescDone_slot (s : State) (r : Nat) (b : Bool) (k : Nat) : (s.setDescDone r b).slot k = s.slot k := by unfold State.setDescDone; split <;> rfl
@[simp] theorem State.setDescDone_ctrlWord (s : State) (r : Nat) (b : Bool) (k : Nat) : (s.setDescDone r b).ctrlWord k = s.ctrlWord k := by unfold State.setDescDone; split <;> rfl
@[simp] theorem State.setDescDone_istatWord (s : State) (r : Nat) (b : Bool) (k : Nat) : (s.setDescDone r b).istatWord k = s.istatWord k := by unfold State.setDescDone; split <;> rfl
@[simp] theorem State.setDescDone_cur (s : State) (r : Nat) (b : Bool) : (s.setDescDone r b).cur = s.cur := by unfold State.setDescDone; split <;> rfl
@[simp] theorem State.setDescDone_who (s : State) (r : Nat) (b : Bool) (i : Instr) : (s.setDescDone r b).who i = s.who i := by unfold State.setDescDone; split <;> rfl
@[simp] theorem State.setDescDone_pos (s : State) (r : Nat) (b : Bool) : (s.setDescDone r b).pos = s.pos := by unfold State.setDescDone; split <;> rfl
@[simp] theorem State.setDescDone_doneAny (s : State) (r : Nat) (b : Bool) : (s.setDescDone r b).doneAny = s.doneAny := by unfold State.setDescDone; split <;> rfl
@[simp] theorem State.setDescDone_lastAny (s : State) (r : Nat) (b : Bool) : (s.setDescDone r b).lastAny = s.lastAny := by unfold State.setDescDone; split <;> rfl
@[simp] theorem State.setDescDone_gstatus (s : State) (r : Nat) (b : Bool) : (s.setDescDone r b).gstatus = s.gstatus := by unfold State.setDescDone; split <;> rfl
@[simp] theorem State.setDescDone_dmaIrq (s : State) (r : Nat) (b : Bool) : (s.setDescDone r b).dmaIrq = s.dmaIrq := by unfold State.setDescDone; split <;> rfl
@[simp] theorem State.setDescDone_lineLevel (s : State) (r : Nat) (b : Bool) (k : Nat) : (s.setDescDone r b).lineLevel k = s.lineLevel k := by unfold State.setDescDone; split <;> rfl
@[simp] theorem State.setDescDone_pendWord (s : State) (r : Nat) (b : Bool) : (s.setDescDone r b).pendWord = s.pendWord := by unfold State.setDescDone; split <;> rfl
@[simp] theorem State.setDescDone_eligible (s : State) (r : Nat) (b : Bool) (k : Nat) : (s.setDescDone r b).eligible k = s.eligible k := by unfold State.setDescDone; split <;> rfl
@[simp] theorem State.setDescDone_claimable (s : State) (r : Nat) (b : Bool) : (s.setDescDone r b).claimable = s.claimable := by unfold State.setDescDone; split <;> rfl
@[simp] theorem State.setDescDone_eip (s : State) (r : Nat) (b : Bool) : (s.setDescDone r b).eip = s.eip := by unfold State.setDescDone; split <;> rfl
@[simp] theorem State.setDescDone_draw (s : State) (r : Nat) (b : Bool) : (s.setDescDone r b).draw = s.draw := by unfold State.setDescDone; split <;> rfl
@[simp] theorem State.setDescDone_drawBit (s : State) (r : Nat) (b : Bool) : (s.setDescDone r b).drawBit = s.drawBit := by unfold State.setDescDone; split <;> rfl

/-! ### setDescTransferred -/

@[simp] theorem State.setDescTransferred_cfg (s : State) (r : Nat) (n : Word) : (s.setDescTransferred r n).cfg = s.cfg := by unfold State.setDescTransferred; split <;> rfl
@[simp] theorem State.setDescTransferred_ep0 (s : State) (r : Nat) (n : Word) : (s.setDescTransferred r n).ep0 = s.ep0 := by unfold State.setDescTransferred; split <;> rfl
@[simp] theorem State.setDescTransferred_ep1 (s : State) (r : Nat) (n : Word) : (s.setDescTransferred r n).ep1 = s.ep1 := by unfold State.setDescTransferred; split <;> rfl
@[simp] theorem State.setDescTransferred_gmask (s : State) (r : Nat) (n : Word) : (s.setDescTransferred r n).gmask = s.gmask := by unfold State.setDescTransferred; split <;> rfl
@[simp] theorem State.setDescTransferred_chans (s : State) (r : Nat) (n : Word) : (s.setDescTransferred r n).chans = s.chans := by unfold State.setDescTransferred; split <;> rfl
@[simp] theorem State.setDescTransferred_drvUsable (s : State) (r : Nat) (n : Word) : (s.setDescTransferred r n).drvUsable = s.drvUsable := by unfold State.setDescTransferred; split <;> rfl
@[simp] theorem State.setDescTransferred_drvNumCh (s : State) (r : Nat) (n : Word) : (s.setDescTransferred r n).drvNumCh = s.drvNumCh := by unfold State.setDescTransferred; split <;> rfl
@[simp] theorem State.setDescTransferred_mgr (s : State) (r : Nat) (n : Word) : (s.setDescTransferred r n).mgr = s.mgr := by unfold State.setDescTransferred; split <;> rfl
@[simp] theorem State.setDescTransferred_binds (s : State) (r : Nat) (n : Word) : (s.setDescTransferred r n).binds = s.binds := by unfold State.setDescTransferred; split <;> rfl
@[simp] theorem State.setDescTransferred_srcs (s : State) (r : Nat) (n : Word) : (s.setDescTransferred r n).srcs = s.srcs := by unfold State.setDescTransferred; split <;> rfl
@[simp] theorem State.setDescTransferred_thr (s : State) (r : Nat) (n : Word) : (s.setDescTransferred r n).thr = s.thr := by unfold State.setDescTransferred; split <;> rfl
@[simp] theorem State.setDescTransferred_icMask (s : State) (r : Nat) (n : Word) : (s.setDescTransferred r n).icMask = s.icMask := by unfold State.setDescTransferred; split <;> rfl
@[simp] theorem State.setDescTransferred_lines (s : State) (r : Nat) (n : Word) : (s.setDescTransferred r n).lines = s.lines := by unfold State.setDescTransferred; split <;> rfl
@[simp] theorem State.setDescTransferred_cpuIe (s : State) (r : Nat) (n : Word) : (s.setDescTransferred r n).cpuIe = s.cpuIe := by unfold State.setDescTransferred; split <;> rfl
@[simp] theorem State.setDescTransferred_isrActive (s : State) (r : Nat) (n : Word) : (s.setDescTransferred r n).isrActive = s.isrActive := by unfold State.setDescTransferred; split <;> rfl
@[simp] theorem State.setDescTransferred_prog (s : State) (r : Nat) (n : Word) : (s.setDescTransferred r n).prog = s.prog := by unfold State.setDescTransferred; split <;> rfl
@[simp] theorem State.setDescTransferred_mainPos (s : State) (r : Nat) (n : Word) : (s.setDescTransferred r n).mainPos = s.mainPos := by unfold State.setDescTransferred; split <;> rfl
@[simp] theorem State.setDescTransferred_isrPos (s : State) (r : Nat) (n : Word) : (s.setDescTransferred r n).isrPos = s.isrPos := by unfold State.setDescTransferred; split <;> rfl
@[simp] theorem State.setDescTransferred_result (s : State) (r : Nat) (n : Word) : (s.setDescTransferred r n).result = s.result := by unfold State.setDescTransferred; split <;> rfl
@[simp] theorem State.setDescTransferred_hist (s : State) (r : Nat) (n : Word) : (s.setDescTransferred r n).hist = s.hist := by unfold State.setDescTransferred; split <;> rfl
@[simp] theorem State.setDescTransferred_mem (s : State) (r : Nat) (n : Word) : (s.setDescTransferred r n).mem = s.mem := by unfold State.setDescTransferred; split <;> rfl
@[simp] theorem State.setDescTransferred_draws (s : State) (r : Nat) (n : Word) : (s.setDescTransferred r n).draws = s.draws := by unfold State.setDescTransferred; split <;> rfl
@[simp] theorem State.setDescTransferred_sched (s : State) (r : Nat) (n : Word) : (s.setDescTransferred r n).sched = s.sched := by unfold State.setDescTransferred; split <;> rfl
@[simp] theorem State.setDescTransferred_ticks (s : State) (r : Nat) (n : Word) : (s.setDescTransferred r n).ticks = s.ticks := by unfold State.setDescTransferred; split <;> rfl
@[simp] theorem State.setDescTransferred_ep (s : State) (r : Nat) (n : Word) (k : Nat) : (s.setDescTransferred r n).ep k = s.ep k := by unfold State.setDescTransferred; split <;> rfl
@[simp] theorem State.setDescTransferred_chan (s : State) (r : Nat) (n : Word) (k : Nat) : (s.setDescTransferred r n).chan k = s.chan k := by unfold State.setDescTransferred; split <;> rfl
@[simp] theorem State.setDescTransferred_src (s : State) (r : Nat) (n : Word) (k : Nat) : (s.setDescTransferred r n).src k = s.src k := by unfold State.setDescTransferred; split <;> rfl
@[simp] theorem State.setDescTransferred_slot (s : State) (r : Nat) (n : Word) (k : Nat) : (s.setDescTransferred r n).slot k = s.slot k := by unfold State.setDescTransferred; split <;> rfl
@[simp] theorem State.setDescTransferred_ctrlWord (s : State) (r : Nat) (n : Word) (k : Nat) : (s.setDescTransferred r n).ctrlWord k = s.ctrlWord k := by unfold State.setDescTransferred; split <;> rfl
@[simp] theorem State.setDescTransferred_istatWord (s : State) (r : Nat) (n : Word) (k : Nat) : (s.setDescTransferred r n).istatWord k = s.istatWord k := by unfold State.setDescTransferred; split <;> rfl
@[simp] theorem State.setDescTransferred_cur (s : State) (r : Nat) (n : Word) : (s.setDescTransferred r n).cur = s.cur := by unfold State.setDescTransferred; split <;> rfl
@[simp] theorem State.setDescTransferred_who (s : State) (r : Nat) (n : Word) (i : Instr) : (s.setDescTransferred r n).who i = s.who i := by unfold State.setDescTransferred; split <;> rfl
@[simp] theorem State.setDescTransferred_pos (s : State) (r : Nat) (n : Word) : (s.setDescTransferred r n).pos = s.pos := by unfold State.setDescTransferred; split <;> rfl
@[simp] theorem State.setDescTransferred_doneAny (s : State) (r : Nat) (n : Word) : (s.setDescTransferred r n).doneAny = s.doneAny := by unfold State.setDescTransferred; split <;> rfl
@[simp] theorem State.setDescTransferred_lastAny (s : State) (r : Nat) (n : Word) : (s.setDescTransferred r n).lastAny = s.lastAny := by unfold State.setDescTransferred; split <;> rfl
@[simp] theorem State.setDescTransferred_gstatus (s : State) (r : Nat) (n : Word) : (s.setDescTransferred r n).gstatus = s.gstatus := by unfold State.setDescTransferred; split <;> rfl
@[simp] theorem State.setDescTransferred_dmaIrq (s : State) (r : Nat) (n : Word) : (s.setDescTransferred r n).dmaIrq = s.dmaIrq := by unfold State.setDescTransferred; split <;> rfl
@[simp] theorem State.setDescTransferred_lineLevel (s : State) (r : Nat) (n : Word) (k : Nat) : (s.setDescTransferred r n).lineLevel k = s.lineLevel k := by unfold State.setDescTransferred; split <;> rfl
@[simp] theorem State.setDescTransferred_pendWord (s : State) (r : Nat) (n : Word) : (s.setDescTransferred r n).pendWord = s.pendWord := by unfold State.setDescTransferred; split <;> rfl
@[simp] theorem State.setDescTransferred_eligible (s : State) (r : Nat) (n : Word) (k : Nat) : (s.setDescTransferred r n).eligible k = s.eligible k := by unfold State.setDescTransferred; split <;> rfl
@[simp] theorem State.setDescTransferred_claimable (s : State) (r : Nat) (n : Word) : (s.setDescTransferred r n).claimable = s.claimable := by unfold State.setDescTransferred; split <;> rfl
@[simp] theorem State.setDescTransferred_eip (s : State) (r : Nat) (n : Word) : (s.setDescTransferred r n).eip = s.eip := by unfold State.setDescTransferred; split <;> rfl
@[simp] theorem State.setDescTransferred_draw (s : State) (r : Nat) (n : Word) : (s.setDescTransferred r n).draw = s.draw := by unfold State.setDescTransferred; split <;> rfl
@[simp] theorem State.setDescTransferred_drawBit (s : State) (r : Nat) (n : Word) : (s.setDescTransferred r n).drawBit = s.drawBit := by unfold State.setDescTransferred; split <;> rfl

/-! ### newDesc -/

@[simp] theorem State.newDesc_cfg (s : State) (d : Nat) (x : Desc) : (s.newDesc d x).cfg = s.cfg := rfl
@[simp] theorem State.newDesc_ep0 (s : State) (d : Nat) (x : Desc) : (s.newDesc d x).ep0 = s.ep0 := rfl
@[simp] theorem State.newDesc_ep1 (s : State) (d : Nat) (x : Desc) : (s.newDesc d x).ep1 = s.ep1 := rfl
@[simp] theorem State.newDesc_gmask (s : State) (d : Nat) (x : Desc) : (s.newDesc d x).gmask = s.gmask := rfl
@[simp] theorem State.newDesc_chans (s : State) (d : Nat) (x : Desc) : (s.newDesc d x).chans = s.chans := rfl
@[simp] theorem State.newDesc_drvUsable (s : State) (d : Nat) (x : Desc) : (s.newDesc d x).drvUsable = s.drvUsable := rfl
@[simp] theorem State.newDesc_drvNumCh (s : State) (d : Nat) (x : Desc) : (s.newDesc d x).drvNumCh = s.drvNumCh := rfl
@[simp] theorem State.newDesc_mgr (s : State) (d : Nat) (x : Desc) : (s.newDesc d x).mgr = s.mgr := rfl
@[simp] theorem State.newDesc_srcs (s : State) (d : Nat) (x : Desc) : (s.newDesc d x).srcs = s.srcs := rfl
@[simp] theorem State.newDesc_thr (s : State) (d : Nat) (x : Desc) : (s.newDesc d x).thr = s.thr := rfl
@[simp] theorem State.newDesc_icMask (s : State) (d : Nat) (x : Desc) : (s.newDesc d x).icMask = s.icMask := rfl
@[simp] theorem State.newDesc_lines (s : State) (d : Nat) (x : Desc) : (s.newDesc d x).lines = s.lines := rfl
@[simp] theorem State.newDesc_cpuIe (s : State) (d : Nat) (x : Desc) : (s.newDesc d x).cpuIe = s.cpuIe := rfl
@[simp] theorem State.newDesc_isrActive (s : State) (d : Nat) (x : Desc) : (s.newDesc d x).isrActive = s.isrActive := rfl
@[simp] theorem State.newDesc_prog (s : State) (d : Nat) (x : Desc) : (s.newDesc d x).prog = s.prog := rfl
@[simp] theorem State.newDesc_mainPos (s : State) (d : Nat) (x : Desc) : (s.newDesc d x).mainPos = s.mainPos := rfl
@[simp] theorem State.newDesc_isrPos (s : State) (d : Nat) (x : Desc) : (s.newDesc d x).isrPos = s.isrPos := rfl
@[simp] theorem State.newDesc_result (s : State) (d : Nat) (x : Desc) : (s.newDesc d x).result = s.result := rfl
@[simp] theorem State.newDesc_hist (s : State) (d : Nat) (x : Desc) : (s.newDesc d x).hist = s.hist := rfl
@[simp] theorem State.newDesc_mem (s : State) (d : Nat) (x : Desc) : (s.newDesc d x).mem = s.mem := rfl
@[simp] theorem State.newDesc_draws (s : State) (d : Nat) (x : Desc) : (s.newDesc d x).draws = s.draws := rfl
@[simp] theorem State.newDesc_sched (s : State) (d : Nat) (x : Desc) : (s.newDesc d x).sched = s.sched := rfl
@[simp] theorem State.newDesc_ticks (s : State) (d : Nat) (x : Desc) : (s.newDesc d x).ticks = s.ticks := rfl
@[simp] theorem State.newDesc_ep (s : State) (d : Nat) (x : Desc) (k : Nat) : (s.newDesc d x).ep k = s.ep k := rfl
@[simp] theorem State.newDesc_chan (s : State) (d : Nat) (x : Desc) (k : Nat) : (s.newDesc d x).chan k = s.chan k := rfl
@[simp] theorem State.newDesc_src (s : State) (d : Nat) (x : Desc) (k : Nat) : (s.newDesc d x).src k = s.src k := rfl
@[simp] theorem State.newDesc_slot (s : State) (d : Nat) (x : Desc) (k : Nat) : (s.newDesc d x).slot k = s.slot k := rfl
@[simp] theorem State.newDesc_ctrlWord (s : State) (d : Nat) (x : Desc) (k : Nat) : (s.newDesc d x).ctrlWord k = s.ctrlWord k := rfl
@[simp] theorem State.newDesc_istatWord (s : State) (d : Nat) (x : Desc) (k : Nat) : (s.newDesc d x).istatWord k = s.istatWord k := rfl
@[simp] theorem State.newDesc_cur (s : State) (d : Nat) (x : Desc) : (s.newDesc d x).cur = s.cur := rfl
@[simp] theorem State.newDesc_who (s : State) (d : Nat) (x : Desc) (i : Instr) : (s.newDesc d x).who i = s.who i := rfl
@[simp] theorem State.newDesc_pos (s : State) (d : Nat) (x : Desc) : (s.newDesc d x).pos = s.pos := rfl
@[simp] theorem State.newDesc_doneAny (s : State) (d : Nat) (x : Desc) : (s.newDesc d x).doneAny = s.doneAny := rfl
@[simp] theorem State.newDesc_lastAny (s : State) (d : Nat) (x : Desc) : (s.newDesc d x).lastAny = s.lastAny := rfl
@[simp] theorem State.newDesc_gstatus (s : State) (d : Nat) (x : Desc) : (s.newDesc d x).gstatus = s.gstatus := rfl
@[simp] theorem State.newDesc_dmaIrq (s : State) (d : Nat) (x : Desc) : (s.newDesc d x).dmaIrq = s.dmaIrq := rfl
@[simp] theorem State.newDesc_lineLevel (s : State) (d : Nat) (x : Desc) (k : Nat) : (s.newDesc d x).lineLevel k = s.lineLevel k := rfl
@[simp] theorem State.newDesc_pendWord (s : State) (d : Nat) (x : Desc) : (s.newDesc d x).pendWord = s.pendWord := rfl
@[simp] theorem State.newDesc_eligible (s : State) (d : Nat) (x : Desc) (k : Nat) : (s.newDesc d x).eligible k = s.eligible k := rfl
@[simp] theorem State.newDesc_claimable (s : State) (d : Nat) (x : Desc) : (s.newDesc d x).claimable = s.claimable := rfl
@[simp] theorem State.newDesc_eip (s : State) (d : Nat) (x : Desc) : (s.newDesc d x).eip = s.eip := rfl
@[simp] theorem State.newDesc_draw (s : State) (d : Nat) (x : Desc) : (s.newDesc d x).draw = s.draw := rfl
@[simp] theorem State.newDesc_drawBit (s : State) (d : Nat) (x : Desc) : (s.newDesc d x).drawBit = s.drawBit := rfl

/-! ### emit -/

@[simp] theorem State.emit_cfg (s : State) (e : Event) : (s.emit e).cfg = s.cfg := rfl
@[simp] theorem State.emit_ep0 (s : State) (e : Event) : (s.emit e).ep0 = s.ep0 := rfl
@[simp] theorem State.emit_ep1 (s : State) (e : Event) : (s.emit e).ep1 = s.ep1 := rfl
@[simp] theorem State.emit_gmask (s : State) (e : Event) : (s.emit e).gmask = s.gmask := rfl
@[simp] theorem State.emit_chans (s : State) (e : Event) : (s.emit e).chans = s.chans := rfl
@[simp] theorem State.emit_drvUsable (s : State) (e : Event) : (s.emit e).drvUsable = s.drvUsable := rfl
@[simp] theorem State.emit_drvNumCh (s : State) (e : Event) : (s.emit e).drvNumCh = s.drvNumCh := rfl
@[simp] theorem State.emit_mgr (s : State) (e : Event) : (s.emit e).mgr = s.mgr := rfl
@[simp] theorem State.emit_descs (s : State) (e : Event) : (s.emit e).descs = s.descs := rfl
@[simp] theorem State.emit_binds (s : State) (e : Event) : (s.emit e).binds = s.binds := rfl
@[simp] theorem State.emit_srcs (s : State) (e : Event) : (s.emit e).srcs = s.srcs := rfl
@[simp] theorem State.emit_thr (s : State) (e : Event) : (s.emit e).thr = s.thr := rfl
@[simp] theorem State.emit_icMask (s : State) (e : Event) : (s.emit e).icMask = s.icMask := rfl
@[simp] theorem State.emit_lines (s : State) (e : Event) : (s.emit e).lines = s.lines := rfl
@[simp] theorem State.emit_cpuIe (s : State) (e : Event) : (s.emit e).cpuIe = s.cpuIe := rfl
@[simp] theorem State.emit_isrActive (s : State) (e : Event) : (s.emit e).isrActive = s.isrActive := rfl
@[simp] theorem State.emit_prog (s : State) (e : Event) : (s.emit e).prog = s.prog := rfl
@[simp] theorem State.emit_mainPos (s : State) (e : Event) : (s.emit e).mainPos = s.mainPos := rfl
@[simp] theorem State.emit_isrPos (s : State) (e : Event) : (s.emit e).isrPos = s.isrPos := rfl
@[simp] theorem State.emit_result (s : State) (e : Event) : (s.emit e).result = s.result := rfl
@[simp] theorem State.emit_mem (s : State) (e : Event) : (s.emit e).mem = s.mem := rfl
@[simp] theorem State.emit_draws (s : State) (e : Event) : (s.emit e).draws = s.draws := rfl
@[simp] theorem State.emit_sched (s : State) (e : Event) : (s.emit e).sched = s.sched := rfl
@[simp] theorem State.emit_ticks (s : State) (e : Event) : (s.emit e).ticks = s.ticks := rfl
@[simp] theorem State.emit_ep (s : State) (e : Event) (k : Nat) : (s.emit e).ep k = s.ep k := rfl
@[simp] theorem State.emit_chan (s : State) (e : Event) (k : Nat) : (s.emit e).chan k = s.chan k := rfl
@[simp] theorem State.emit_src (s : State) (e : Event) (k : Nat) : (s.emit e).src k = s.src k := rfl
@[simp] theorem State.emit_slot (s : State) (e : Event) (k : Nat) : (s.emit e).slot k = s.slot k := rfl
@[simp] theorem State.emit_ctrlWord (s : State) (e : Event) (k : Nat) : (s.emit e).ctrlWord k = s.ctrlWord k := rfl
@[simp] theorem State.emit_istatWord (s : State) (e : Event) (k : Nat) : (s.emit e).istatWord k = s.istatWord k := rfl
@[simp] theorem State.emit_refOf (s : State) (e : Event) (k : Nat) : (s.emit e).refOf k = s.refOf k := rfl
@[simp] theorem State.emit_cur (s : State) (e : Event) : (s.emit e).cur = s.cur := rfl
@[simp] theorem State.emit_who (s : State) (e : Event) (i : Instr) : (s.emit e).who i = s.who i := rfl
@[simp] theorem State.emit_pos (s : State) (e : Event) : (s.emit e).pos = s.pos := rfl
@[simp] theorem State.emit_doneAny (s : State) (e : Event) : (s.emit e).doneAny = s.doneAny := rfl
@[simp] theorem State.emit_lastAny (s : State) (e : Event) : (s.emit e).lastAny = s.lastAny := rfl
@[simp] theorem State.emit_gstatus (s : State) (e : Event) : (s.emit e).gstatus = s.gstatus := rfl
@[simp] theorem State.emit_dmaIrq (s : State) (e : Event) : (s.emit e).dmaIrq = s.dmaIrq := rfl
@[simp] theorem State.emit_lineLevel (s : State) (e : Event) (k : Nat) : (s.emit e).lineLevel k = s.lineLevel k := rfl
@[simp] theorem State.emit_pendWord (s : State) (e : Event) : (s.emit e).pendWord = s.pendWord := rfl
@[simp] theorem State.emit_eligible (s : State) (e : Event) (k : Nat) : (s.emit e).eligible k = s.eligible k := rfl
@[simp] theorem State.emit_claimable (s : State) (e : Event) : (s.emit e).claimable = s.claimable := rfl
@[simp] theorem State.emit_eip (s : State) (e : Event) : (s.emit e).eip = s.eip := rfl
@[simp] theorem State.emit_draw (s : State) (e : Event) : (s.emit e).draw = s.draw := rfl
@[simp] theorem State.emit_drawBit (s : State) (e : Event) : (s.emit e).drawBit = s.drawBit := rfl

/-! ### drew -/

@[simp] theorem State.drew_cfg (s : State) : (s.drew).cfg = s.cfg := rfl
@[simp] theorem State.drew_ep0 (s : State) : (s.drew).ep0 = s.ep0 := rfl
@[simp] theorem State.drew_ep1 (s : State) : (s.drew).ep1 = s.ep1 := rfl
@[simp] theorem State.drew_gmask (s : State) : (s.drew).gmask = s.gmask := rfl
@[simp] theorem State.drew_chans (s : State) : (s.drew).chans = s.chans := rfl
@[simp] theorem State.drew_drvUsable (s : State) : (s.drew).drvUsable = s.drvUsable := rfl
@[simp] theorem State.drew_drvNumCh (s : State) : (s.drew).drvNumCh = s.drvNumCh := rfl
@[simp] theorem State.drew_mgr (s : State) : (s.drew).mgr = s.mgr := rfl
@[simp] theorem State.drew_descs (s : State) : (s.drew).descs = s.descs := rfl
@[simp] theorem State.drew_binds (s : State) : (s.drew).binds = s.binds := rfl
@[simp] theorem State.drew_srcs (s : State) : (s.drew).srcs = s.srcs := rfl
@[simp] theorem State.drew_thr (s : State) : (s.drew).thr = s.thr := rfl
@[simp] theorem State.drew_icMask (s : State) : (s.drew).icMask = s.icMask := rfl
@[simp] theorem State.drew_lines (s : State) : (s.drew).lines = s.lines := rfl
@[simp] theorem State.drew_cpuIe (s : State) : (s.drew).cpuIe = s.cpuIe := rfl
@[simp] theorem State.drew_isrActive (s : State) : (s.drew).isrActive = s.isrActive := rfl
@[simp] theorem State.drew_prog (s : State) : (s.drew).prog = s.prog := rfl
@[simp] theorem State.drew_mainPos (s : State) : (s.drew).mainPos = s.mainPos := rfl
@[simp] theorem State.drew_isrPos (s : State) : (s.drew).isrPos = s.isrPos := rfl
@[simp] theorem State.drew_result (s : State) : (s.drew).result = s.result := rfl
@[simp] theorem State.drew_hist (s : State) : (s.drew).hist = s.hist := rfl
@[simp] theorem State.drew_mem (s : State) : (s.drew).mem = s.mem := rfl
@[simp] theorem State.drew_sched (s : State) : (s.drew).sched = s.sched := rfl
@[simp] theorem State.drew_ticks (s : State) : (s.drew).ticks = s.ticks := rfl
@[simp] theorem State.drew_ep (s : State) (k : Nat) : (s.drew).ep k = s.ep k := rfl
@[simp] theorem State.drew_chan (s : State) (k : Nat) : (s.drew).chan k = s.chan k := rfl
@[simp] theorem State.drew_src (s : State) (k : Nat) : (s.drew).src k = s.src k := rfl
@[simp] theorem State.drew_slot (s : State) (k : Nat) : (s.drew).slot k = s.slot k := rfl
@[simp] theorem State.drew_ctrlWord (s : State) (k : Nat) : (s.drew).ctrlWord k = s.ctrlWord k := rfl
@[simp] theorem State.drew_istatWord (s : State) (k : Nat) : (s.drew).istatWord k = s.istatWord k := rfl
@[simp] theorem State.drew_refOf (s : State) (k : Nat) : (s.drew).refOf k = s.refOf k := rfl
@[simp] theorem State.drew_cur (s : State) : (s.drew).cur = s.cur := rfl
@[simp] theorem State.drew_who (s : State) (i : Instr) : (s.drew).who i = s.who i := rfl
@[simp] theorem State.drew_pos (s : State) : (s.drew).pos = s.pos := rfl
@[simp] theorem State.drew_doneAny (s : State) : (s.drew).doneAny = s.doneAny := rfl
@[simp] theorem State.drew_lastAny (s : State) : (s.drew).lastAny = s.lastAny := rfl
@[simp] theorem State.drew_gstatus (s : State) : (s.drew).gstatus = s.gstatus := rfl
@[simp] theorem State.drew_dmaIrq (s : State) : (s.drew).dmaIrq = s.dmaIrq := rfl
@[simp] theorem State.drew_lineLevel (s : State) (k : Nat) : (s.drew).lineLevel k = s.lineLevel k := rfl
@[simp] theorem State.drew_pendWord (s : State) : (s.drew).pendWord = s.pendWord := rfl
@[simp] theorem State.drew_eligible (s : State) (k : Nat) : (s.drew).eligible k = s.eligible k := rfl
@[simp] theorem State.drew_claimable (s : State) : (s.drew).claimable = s.claimable := rfl
@[simp] theorem State.drew_eip (s : State) : (s.drew).eip = s.eip := rfl

/-! ### goto -/

@[simp] theorem State.goto_cfg (s : State) (q : Pos) : (s.goto q).cfg = s.cfg := rfl
@[simp] theorem State.goto_ep0 (s : State) (q : Pos) : (s.goto q).ep0 = s.ep0 := rfl
@[simp] theorem State.goto_ep1 (s : State) (q : Pos) : (s.goto q).ep1 = s.ep1 := rfl
@[simp] theorem State.goto_gmask (s : State) (q : Pos) : (s.goto q).gmask = s.gmask := rfl
@[simp] theorem State.goto_chans (s : State) (q : Pos) : (s.goto q).chans = s.chans := rfl
@[simp] theorem State.goto_drvUsable (s : State) (q : Pos) : (s.goto q).drvUsable = s.drvUsable := rfl
@[simp] theorem State.goto_drvNumCh (s : State) (q : Pos) : (s.goto q).drvNumCh = s.drvNumCh := rfl
@[simp] theorem State.goto_mgr (s : State) (q : Pos) : (s.goto q).mgr = s.mgr := rfl
@[simp] theorem State.goto_descs (s : State) (q : Pos) : (s.goto q).descs = s.descs := rfl
@[simp] theorem State.goto_binds (s : State) (q : Pos) : (s.goto q).binds = s.binds := rfl
@[simp] theorem State.goto_srcs (s : State) (q : Pos) : (s.goto q).srcs = s.srcs := rfl
@[simp] theorem State.goto_thr (s : State) (q : Pos) : (s.goto q).thr = s.thr := rfl
@[simp] theorem State.goto_icMask (s : State) (q : Pos) : (s.goto q).icMask = s.icMask := rfl
@[simp] theorem State.goto_lines (s : State) (q : Pos) : (s.goto q).lines = s.lines := rfl
@[simp] theorem State.goto_cpuIe (s : State) (q : Pos) : (s.goto q).cpuIe = s.cpuIe := rfl
@[simp] theorem State.goto_isrActive (s : State) (q : Pos) : (s.goto q).isrActive = s.isrActive := rfl
@[simp] theorem State.goto_prog (s : State) (q : Pos) : (s.goto q).prog = s.prog := rfl
@[simp] theorem State.goto_result (s : State) (q : Pos) : (s.goto q).result = s.result := rfl
@[simp] theorem State.goto_hist (s : State) (q : Pos) : (s.goto q).hist = s.hist := rfl
@[simp] theorem State.goto_mem (s : State) (q : Pos) : (s.goto q).mem = s.mem := rfl
@[simp] theorem State.goto_draws (s : State) (q : Pos) : (s.goto q).draws = s.draws := rfl
@[simp] theorem State.goto_sched (s : State) (q : Pos) : (s.goto q).sched = s.sched := rfl
@[simp] theorem State.goto_ticks (s : State) (q : Pos) : (s.goto q).ticks = s.ticks := rfl
@[simp] theorem State.goto_ep (s : State) (q : Pos) (k : Nat) : (s.goto q).ep k = s.ep k := rfl
@[simp] theorem State.goto_chan (s : State) (q : Pos) (k : Nat) : (s.goto q).chan k = s.chan k := rfl
@[simp] theorem State.goto_src (s : State) (q : Pos) (k : Nat) : (s.goto q).src k = s.src k := rfl
@[simp] theorem State.goto_slot (s : State) (q : Pos) (k : Nat) : (s.goto q).slot k = s.slot k := rfl
@[simp] theorem State.goto_ctrlWord (s : State) (q : Pos) (k : Nat) : (s.goto q).ctrlWord k = s.ctrlWord k := rfl
@[simp] theorem State.goto_istatWord (s : State) (q : Pos) (k : Nat) : (s.goto q).istatWord k = s.istatWord k := rfl
@[simp] theorem State.goto_refOf (s : State) (q : Pos) (k : Nat) : (s.goto q).refOf k = s.refOf k := rfl
@[simp] theorem State.goto_cur (s : State) (q : Pos) : (s.goto q).cur = s.cur := rfl
@[simp] theorem State.goto_who (s : State) (q : Pos) (i : Instr) : (s.goto q).who i = s.who i := rfl
@[simp] theorem State.goto_doneAny (s : State) (q : Pos) : (s.goto q).doneAny = s.doneAny := rfl
@[simp] theorem State.goto_lastAny (s : State) (q : Pos) : (s.goto q).lastAny = s.lastAny := rfl
@[simp] theorem State.goto_gstatus (s : State) (q : Pos) : (s.goto q).gstatus = s.gstatus := rfl
@[simp] theorem State.goto_dmaIrq (s : State) (q : Pos) : (s.goto q).dmaIrq = s.dmaIrq := rfl
@[simp] theorem State.goto_lineLevel (s : State) (q : Pos) (k : Nat) : (s.goto q).lineLevel k = s.lineLevel k := rfl
@[simp] theorem State.goto_pendWord (s : State) (q : Pos) : (s.goto q).pendWord = s.pendWord := rfl
@[simp] theorem State.goto_eligible (s : State) (q : Pos) (k : Nat) : (s.goto q).eligible k = s.eligible k := rfl
@[simp] theorem State.goto_claimable (s : State) (q : Pos) : (s.goto q).claimable = s.claimable := rfl
@[simp] theorem State.goto_eip (s : State) (q : Pos) : (s.goto q).eip = s.eip := rfl
@[simp] theorem State.goto_draw (s : State) (q : Pos) : (s.goto q).draw = s.draw := rfl
@[simp] theorem State.goto_drawBit (s : State) (q : Pos) : (s.goto q).drawBit = s.drawBit := rfl

/-! ### takeIrq -/

@[simp] theorem State.takeIrq_cfg (s : State) : (s.takeIrq).cfg = s.cfg := rfl
@[simp] theorem State.takeIrq_ep0 (s : State) : (s.takeIrq).ep0 = s.ep0 := rfl
@[simp] theorem State.takeIrq_ep1 (s : State) : (s.takeIrq).ep1 = s.ep1 := rfl
@[simp] theorem State.takeIrq_gmask (s : State) : (s.takeIrq).gmask = s.gmask := rfl
@[simp] theorem State.takeIrq_chans (s : State) : (s.takeIrq).chans = s.chans := rfl
@[simp] theorem State.takeIrq_drvUsable (s : State) : (s.takeIrq).drvUsable = s.drvUsable := rfl
@[simp] theorem State.takeIrq_drvNumCh (s : State) : (s.takeIrq).drvNumCh = s.drvNumCh := rfl
@[simp] theorem State.takeIrq_mgr (s : State) : (s.takeIrq).mgr = s.mgr := rfl
@[simp] theorem State.takeIrq_descs (s : State) : (s.takeIrq).descs = s.descs := rfl
@[simp] theorem State.takeIrq_binds (s : State) : (s.takeIrq).binds = s.binds := rfl
@[simp] theorem State.takeIrq_srcs (s : State) : (s.takeIrq).srcs = s.srcs := rfl
@[simp] theorem State.takeIrq_thr (s : State) : (s.takeIrq).thr = s.thr := rfl
@[simp] theorem State.takeIrq_icMask (s : State) : (s.takeIrq).icMask = s.icMask := rfl
@[simp] theorem State.takeIrq_lines (s : State) : (s.takeIrq).lines = s.lines := rfl
@[simp] theorem State.takeIrq_cpuIe (s : State) : (s.takeIrq).cpuIe = s.cpuIe := rfl
@[simp] theorem State.takeIrq_prog (s : State) : (s.takeIrq).prog = s.prog := rfl
@[simp] theorem State.takeIrq_mainPos (s : State) : (s.takeIrq).mainPos = s.mainPos := rfl
@[simp] theorem State.takeIrq_result (s : State) : (s.takeIrq).result = s.result := rfl
@[simp] theorem State.takeIrq_hist (s : State) : (s.takeIrq).hist = s.hist := rfl
@[simp] theorem State.takeIrq_mem (s : State) : (s.takeIrq).mem = s.mem := rfl
@[simp] theorem State.takeIrq_draws (s : State) : (s.takeIrq).draws = s.draws := rfl
@[simp] theorem State.takeIrq_sched (s : State) : (s.takeIrq).sched = s.sched := rfl
@[simp] theorem State.takeIrq_ticks (s : State) : (s.takeIrq).ticks = s.ticks := rfl
@[simp] theorem State.takeIrq_ep (s : State) (k : Nat) : (s.takeIrq).ep k = s.ep k := rfl
@[simp] theorem State.takeIrq_chan (s : State) (k : Nat) : (s.takeIrq).chan k = s.chan k := rfl
@[simp] theorem State.takeIrq_src (s : State) (k : Nat) : (s.takeIrq).src k = s.src k := rfl
@[simp] theorem State.takeIrq_slot (s : State) (k : Nat) : (s.takeIrq).slot k = s.slot k := rfl
@[simp] theorem State.takeIrq_ctrlWord (s : State) (k : Nat) : (s.takeIrq).ctrlWord k = s.ctrlWord k := rfl
@[simp] theorem State.takeIrq_istatWord (s : State) (k : Nat) : (s.takeIrq).istatWord k = s.istatWord k := rfl
@[simp] theorem State.takeIrq_refOf (s : State) (k : Nat) : (s.takeIrq).refOf k = s.refOf k := rfl
@[simp] theorem State.takeIrq_doneAny (s : State) : (s.takeIrq).doneAny = s.doneAny := rfl
@[simp] theorem State.takeIrq_lastAny (s : State) : (s.takeIrq).lastAny = s.lastAny := rfl
@[simp] theorem State.takeIrq_gstatus (s : State) : (s.takeIrq).gstatus = s.gstatus := rfl
@[simp] theorem State.takeIrq_dmaIrq (s : State) : (s.takeIrq).dmaIrq = s.dmaIrq := rfl
@[simp] theorem State.takeIrq_lineLevel (s : State) (k : Nat) : (s.takeIrq).lineLevel k = s.lineLevel k := rfl
@[simp] theorem State.takeIrq_pendWord (s : State) : (s.takeIrq).pendWord = s.pendWord := rfl
@[simp] theorem State.takeIrq_eligible (s : State) (k : Nat) : (s.takeIrq).eligible k = s.eligible k := rfl
@[simp] theorem State.takeIrq_claimable (s : State) : (s.takeIrq).claimable = s.claimable := rfl
@[simp] theorem State.takeIrq_eip (s : State) : (s.takeIrq).eip = s.eip := rfl
@[simp] theorem State.takeIrq_draw (s : State) : (s.takeIrq).draw = s.draw := rfl
@[simp] theorem State.takeIrq_drawBit (s : State) : (s.takeIrq).drawBit = s.drawBit := rfl

/-! ### returnIrq -/

@[simp] theorem State.returnIrq_cfg (s : State) : (s.returnIrq).cfg = s.cfg := rfl
@[simp] theorem State.returnIrq_ep0 (s : State) : (s.returnIrq).ep0 = s.ep0 := rfl
@[simp] theorem State.returnIrq_ep1 (s : State) : (s.returnIrq).ep1 = s.ep1 := rfl
@[simp] theorem State.returnIrq_gmask (s : State) : (s.returnIrq).gmask = s.gmask := rfl
@[simp] theorem State.returnIrq_chans (s : State) : (s.returnIrq).chans = s.chans := rfl
@[simp] theorem State.returnIrq_drvUsable (s : State) : (s.returnIrq).drvUsable = s.drvUsable := rfl
@[simp] theorem State.returnIrq_drvNumCh (s : State) : (s.returnIrq).drvNumCh = s.drvNumCh := rfl
@[simp] theorem State.returnIrq_mgr (s : State) : (s.returnIrq).mgr = s.mgr := rfl
@[simp] theorem State.returnIrq_descs (s : State) : (s.returnIrq).descs = s.descs := rfl
@[simp] theorem State.returnIrq_binds (s : State) : (s.returnIrq).binds = s.binds := rfl
@[simp] theorem State.returnIrq_srcs (s : State) : (s.returnIrq).srcs = s.srcs := rfl
@[simp] theorem State.returnIrq_thr (s : State) : (s.returnIrq).thr = s.thr := rfl
@[simp] theorem State.returnIrq_icMask (s : State) : (s.returnIrq).icMask = s.icMask := rfl
@[simp] theorem State.returnIrq_lines (s : State) : (s.returnIrq).lines = s.lines := rfl
@[simp] theorem State.returnIrq_cpuIe (s : State) : (s.returnIrq).cpuIe = s.cpuIe := rfl
@[simp] theorem State.returnIrq_prog (s : State) : (s.returnIrq).prog = s.prog := rfl
@[simp] theorem State.returnIrq_mainPos (s : State) : (s.returnIrq).mainPos = s.mainPos := rfl
@[simp] theorem State.returnIrq_result (s : State) : (s.returnIrq).result = s.result := rfl
@[simp] theorem State.returnIrq_hist (s : State) : (s.returnIrq).hist = s.hist := rfl
@[simp] theorem State.returnIrq_mem (s : State) : (s.returnIrq).mem = s.mem := rfl
@[simp] theorem State.returnIrq_draws (s : State) : (s.returnIrq).draws = s.draws := rfl
@[simp] theorem State.returnIrq_sched (s : State) : (s.returnIrq).sched = s.sched := rfl
@[simp] theorem State.returnIrq_ticks (s : State) : (s.returnIrq).ticks = s.ticks := rfl
@[simp] theorem State.returnIrq_ep (s : State) (k : Nat) : (s.returnIrq).ep k = s.ep k := rfl
@[simp] theorem State.returnIrq_chan (s : State) (k : Nat) : (s.returnIrq).chan k = s.chan k := rfl
@[simp] theorem State.returnIrq_src (s : State) (k : Nat) : (s.returnIrq).src k = s.src k := rfl
@[simp] theorem State.returnIrq_slot (s : State) (k : Nat) : (s.returnIrq).slot k = s.slot k := rfl
@[simp] theorem State.returnIrq_ctrlWord (s : State) (k : Nat) : (s.returnIrq).ctrlWord k = s.ctrlWord k := rfl
@[simp] theorem State.returnIrq_istatWord (s : State) (k : Nat) : (s.returnIrq).istatWord k = s.istatWord k := rfl
@[simp] theorem State.returnIrq_refOf (s : State) (k : Nat) : (s.returnIrq).refOf k = s.refOf k := rfl
@[simp] theorem State.returnIrq_doneAny (s : State) : (s.returnIrq).doneAny = s.doneAny := rfl
@[simp] theorem State.returnIrq_lastAny (s : State) : (s.returnIrq).lastAny = s.lastAny := rfl
@[simp] theorem State.returnIrq_gstatus (s : State) : (s.returnIrq).gstatus = s.gstatus := rfl
@[simp] theorem State.returnIrq_dmaIrq (s : State) : (s.returnIrq).dmaIrq = s.dmaIrq := rfl
@[simp] theorem State.returnIrq_lineLevel (s : State) (k : Nat) : (s.returnIrq).lineLevel k = s.lineLevel k := rfl
@[simp] theorem State.returnIrq_pendWord (s : State) : (s.returnIrq).pendWord = s.pendWord := rfl
@[simp] theorem State.returnIrq_eligible (s : State) (k : Nat) : (s.returnIrq).eligible k = s.eligible k := rfl
@[simp] theorem State.returnIrq_claimable (s : State) : (s.returnIrq).claimable = s.claimable := rfl
@[simp] theorem State.returnIrq_eip (s : State) : (s.returnIrq).eip = s.eip := rfl
@[simp] theorem State.returnIrq_draw (s : State) : (s.returnIrq).draw = s.draw := rfl
@[simp] theorem State.returnIrq_drawBit (s : State) : (s.returnIrq).drawBit = s.drawBit := rfl

/-! ### advance -/

@[simp] theorem State.advance_cfg (s : State) (r : Result) : (s.advance r).cfg = s.cfg := rfl
@[simp] theorem State.advance_ep0 (s : State) (r : Result) : (s.advance r).ep0 = s.ep0 := rfl
@[simp] theorem State.advance_ep1 (s : State) (r : Result) : (s.advance r).ep1 = s.ep1 := rfl
@[simp] theorem State.advance_gmask (s : State) (r : Result) : (s.advance r).gmask = s.gmask := rfl
@[simp] theorem State.advance_chans (s : State) (r : Result) : (s.advance r).chans = s.chans := rfl
@[simp] theorem State.advance_drvUsable (s : State) (r : Result) : (s.advance r).drvUsable = s.drvUsable := rfl
@[simp] theorem State.advance_drvNumCh (s : State) (r : Result) : (s.advance r).drvNumCh = s.drvNumCh := rfl
@[simp] theorem State.advance_mgr (s : State) (r : Result) : (s.advance r).mgr = s.mgr := rfl
@[simp] theorem State.advance_descs (s : State) (r : Result) : (s.advance r).descs = s.descs := rfl
@[simp] theorem State.advance_binds (s : State) (r : Result) : (s.advance r).binds = s.binds := rfl
@[simp] theorem State.advance_srcs (s : State) (r : Result) : (s.advance r).srcs = s.srcs := rfl
@[simp] theorem State.advance_thr (s : State) (r : Result) : (s.advance r).thr = s.thr := rfl
@[simp] theorem State.advance_icMask (s : State) (r : Result) : (s.advance r).icMask = s.icMask := rfl
@[simp] theorem State.advance_lines (s : State) (r : Result) : (s.advance r).lines = s.lines := rfl
@[simp] theorem State.advance_cpuIe (s : State) (r : Result) : (s.advance r).cpuIe = s.cpuIe := rfl
@[simp] theorem State.advance_isrActive (s : State) (r : Result) : (s.advance r).isrActive = s.isrActive := rfl
@[simp] theorem State.advance_isrPos (s : State) (r : Result) : (s.advance r).isrPos = s.isrPos := rfl
@[simp] theorem State.advance_hist (s : State) (r : Result) : (s.advance r).hist = s.hist := rfl
@[simp] theorem State.advance_mem (s : State) (r : Result) : (s.advance r).mem = s.mem := rfl
@[simp] theorem State.advance_draws (s : State) (r : Result) : (s.advance r).draws = s.draws := rfl
@[simp] theorem State.advance_sched (s : State) (r : Result) : (s.advance r).sched = s.sched := rfl
@[simp] theorem State.advance_ticks (s : State) (r : Result) : (s.advance r).ticks = s.ticks := rfl
@[simp] theorem State.advance_ep (s : State) (r : Result) (k : Nat) : (s.advance r).ep k = s.ep k := rfl
@[simp] theorem State.advance_chan (s : State) (r : Result) (k : Nat) : (s.advance r).chan k = s.chan k := rfl
@[simp] theorem State.advance_src (s : State) (r : Result) (k : Nat) : (s.advance r).src k = s.src k := rfl
@[simp] theorem State.advance_slot (s : State) (r : Result) (k : Nat) : (s.advance r).slot k = s.slot k := rfl
@[simp] theorem State.advance_ctrlWord (s : State) (r : Result) (k : Nat) : (s.advance r).ctrlWord k = s.ctrlWord k := rfl
@[simp] theorem State.advance_istatWord (s : State) (r : Result) (k : Nat) : (s.advance r).istatWord k = s.istatWord k := rfl
@[simp] theorem State.advance_refOf (s : State) (r : Result) (k : Nat) : (s.advance r).refOf k = s.refOf k := rfl
@[simp] theorem State.advance_cur (s : State) (r : Result) : (s.advance r).cur = s.cur := rfl
@[simp] theorem State.advance_who (s : State) (r : Result) (i : Instr) : (s.advance r).who i = s.who i := rfl
@[simp] theorem State.advance_doneAny (s : State) (r : Result) : (s.advance r).doneAny = s.doneAny := rfl
@[simp] theorem State.advance_lastAny (s : State) (r : Result) : (s.advance r).lastAny = s.lastAny := rfl
@[simp] theorem State.advance_gstatus (s : State) (r : Result) : (s.advance r).gstatus = s.gstatus := rfl
@[simp] theorem State.advance_dmaIrq (s : State) (r : Result) : (s.advance r).dmaIrq = s.dmaIrq := rfl
@[simp] theorem State.advance_lineLevel (s : State) (r : Result) (k : Nat) : (s.advance r).lineLevel k = s.lineLevel k := rfl
@[simp] theorem State.advance_pendWord (s : State) (r : Result) : (s.advance r).pendWord = s.pendWord := rfl
@[simp] theorem State.advance_eligible (s : State) (r : Result) (k : Nat) : (s.advance r).eligible k = s.eligible k := rfl
@[simp] theorem State.advance_claimable (s : State) (r : Result) : (s.advance r).claimable = s.claimable := rfl
@[simp] theorem State.advance_eip (s : State) (r : Result) : (s.advance r).eip = s.eip := rfl
@[simp] theorem State.advance_draw (s : State) (r : Result) : (s.advance r).draw = s.draw := rfl
@[simp] theorem State.advance_drawBit (s : State) (r : Result) : (s.advance r).drawBit = s.drawBit := rfl

/-! ### ret -/

@[simp] theorem State.ret_cfg (s : State) (r : Result) : (s.ret r).cfg = s.cfg := by unfold State.ret; split <;> rfl
@[simp] theorem State.ret_ep0 (s : State) (r : Result) : (s.ret r).ep0 = s.ep0 := by unfold State.ret; split <;> rfl
@[simp] theorem State.ret_ep1 (s : State) (r : Result) : (s.ret r).ep1 = s.ep1 := by unfold State.ret; split <;> rfl
@[simp] theorem State.ret_gmask (s : State) (r : Result) : (s.ret r).gmask = s.gmask := by unfold State.ret; split <;> rfl
@[simp] theorem State.ret_chans (s : State) (r : Result) : (s.ret r).chans = s.chans := by unfold State.ret; split <;> rfl
@[simp] theorem State.ret_drvUsable (s : State) (r : Result) : (s.ret r).drvUsable = s.drvUsable := by unfold State.ret; split <;> rfl
@[simp] theorem State.ret_drvNumCh (s : State) (r : Result) : (s.ret r).drvNumCh = s.drvNumCh := by unfold State.ret; split <;> rfl
@[simp] theorem State.ret_mgr (s : State) (r : Result) : (s.ret r).mgr = s.mgr := by unfold State.ret; split <;> rfl
@[simp] theorem State.ret_descs (s : State) (r : Result) : (s.ret r).descs = s.descs := by unfold State.ret; split <;> rfl
@[simp] theorem State.ret_binds (s : State) (r : Result) : (s.ret r).binds = s.binds := by unfold State.ret; split <;> rfl
@[simp] theorem State.ret_srcs (s : State) (r : Result) : (s.ret r).srcs = s.srcs := by unfold State.ret; split <;> rfl
@[simp] theorem State.ret_thr (s : State) (r : Result) : (s.ret r).thr = s.thr := by unfold State.ret; split <;> rfl
@[simp] theorem State.ret_icMask (s : State) (r : Result) : (s.ret r).icMask = s.icMask := by unfold State.ret; split <;> rfl
@[simp] theorem State.ret_lines (s : State) (r : Result) : (s.ret r).lines = s.lines := by unfold State.ret; split <;> rfl
@[simp] theorem State.ret_cpuIe (s : State) (r : Result) : (s.ret r).cpuIe = s.cpuIe := by unfold State.ret; split <;> rfl
@[simp] theorem State.ret_hist (s : State) (r : Result) : (s.ret r).hist = s.hist := by unfold State.ret; split <;> rfl
@[simp] theorem State.ret_mem (s : State) (r : Result) : (s.ret r).mem = s.mem := by unfold State.ret; split <;> rfl
@[simp] theorem State.ret_draws (s : State) (r : Result) : (s.ret r).draws = s.draws := by unfold State.ret; split <;> rfl
@[simp] theorem State.ret_sched (s : State) (r : Result) : (s.ret r).sched = s.sched := by unfold State.ret; split <;> rfl
@[simp] theorem State.ret_ticks (s : State) (r : Result) : (s.ret r).ticks = s.ticks := by unfold State.ret; split <;> rfl
@[simp] theorem State.ret_ep (s : State) (r : Result) (k : Nat) : (s.ret r).ep k = s.ep k := by unfold State.ret; split <;> rfl
@[simp] theorem State.ret_chan (s : State) (r : Result) (k : Nat) : (s.ret r).chan k = s.chan k := by unfold State.ret; split <;> rfl
@[simp] theorem State.ret_src (s : State) (r : Result) (k : Nat) : (s.ret r).src k = s.src k := by unfold State.ret; split <;> rfl
@[simp] theorem State.ret_slot (s : State) (r : Result) (k : Nat) : (s.ret r).slot k = s.slot k := by unfold State.ret; split <;> rfl
@[simp] theorem State.ret_ctrlWord (s : State) (r : Result) (k : Nat) : (s.ret r).ctrlWord k = s.ctrlWord k := by unfold State.ret; split <;> rfl
@[simp] theorem State.ret_istatWord (s : State) (r : Result) (k : Nat) : (s.ret r).istatWord k = s.istatWord k := by unfold State.ret; split <;> rfl
@[simp] theorem State.ret_refOf (s : State) (r : Result) (k : Nat) : (s.ret r).refOf k = s.refOf k := by unfold State.ret; split <;> rfl
@[simp] theorem State.ret_doneAny (s : State) (r : Result) : (s.ret r).doneAny = s.doneAny := by unfold State.ret; split <;> rfl
@[simp] theorem State.ret_lastAny (s : State) (r : Result) : (s.ret r).lastAny = s.lastAny := by unfold State.ret; split <;> rfl
@[simp] theorem State.ret_gstatus (s : State) (r : Result) : (s.ret r).gstatus = s.gstatus := by unfold State.ret; split <;> rfl
@[simp] theorem State.ret_dmaIrq (s : State) (r : Result) : (s.ret r).dmaIrq = s.dmaIrq := by unfold State.ret; split <;> rfl
@[simp] theorem State.ret_lineLevel (s : State) (r : Result) (k : Nat) : (s.ret r).lineLevel k = s.lineLevel k := by unfold State.ret; split <;> rfl
@[simp] theorem State.ret_pendWord (s : State) (r : Result) : (s.ret r).pendWord = s.pendWord := by unfold State.ret; split <;> rfl
@[simp] theorem State.ret_eligible (s : State) (r : Result) (k : Nat) : (s.ret r).eligible k = s.eligible k := by unfold State.ret; split <;> rfl
@[simp] theorem State.ret_claimable (s : State) (r : Result) : (s.ret r).claimable = s.claimable := by unfold State.ret; split <;> rfl
@[simp] theorem State.ret_eip (s : State) (r : Result) : (s.ret r).eip = s.eip := by unfold State.ret; split <;> rfl
@[simp] theorem State.ret_draw (s : State) (r : Result) : (s.ret r).draw = s.draw := by unfold State.ret; split <;> rfl
@[simp] theorem State.ret_drawBit (s : State) (r : Result) : (s.ret r).drawBit = s.drawBit := by unfold State.ret; split <;> rfl

/-! ### writeByte -/

@[simp] theorem State.writeByte_cfg (s : State) (a : Word) (b : Byte) : (s.writeByte a b).cfg = s.cfg := rfl
@[simp] theorem State.writeByte_ep0 (s : State) (a : Word) (b : Byte) : (s.writeByte a b).ep0 = s.ep0 := rfl
@[simp] theorem State.writeByte_ep1 (s : State) (a : Word) (b : Byte) : (s.writeByte a b).ep1 = s.ep1 := rfl
@[simp] theorem State.writeByte_gmask (s : State) (a : Word) (b : Byte) : (s.writeByte a b).gmask = s.gmask := rfl
@[simp] theorem State.writeByte_chans (s : State) (a : Word) (b : Byte) : (s.writeByte a b).chans = s.chans := rfl
@[simp] theorem State.writeByte_drvUsable (s : State) (a : Word) (b : Byte) : (s.writeByte a b).drvUsable = s.drvUsable := rfl
@[simp] theorem State.writeByte_drvNumCh (s : State) (a : Word) (b : Byte) : (s.writeByte a b).drvNumCh = s.drvNumCh := rfl
@[simp] theorem State.writeByte_mgr (s : State) (a : Word) (b : Byte) : (s.writeByte a b).mgr = s.mgr := rfl
@[simp] theorem State.writeByte_descs (s : State) (a : Word) (b : Byte) : (s.writeByte a b).descs = s.descs := rfl
@[simp] theorem State.writeByte_binds (s : State) (a : Word) (b : Byte) : (s.writeByte a b).binds = s.binds := rfl
@[simp] theorem State.writeByte_srcs (s : State) (a : Word) (b : Byte) : (s.writeByte a b).srcs = s.srcs := rfl
@[simp] theorem State.writeByte_thr (s : State) (a : Word) (b : Byte) : (s.writeByte a b).thr = s.thr := rfl
@[simp] theorem State.writeByte_icMask (s : State) (a : Word) (b : Byte) : (s.writeByte a b).icMask = s.icMask := rfl
@[simp] theorem State.writeByte_lines (s : State) (a : Word) (b : Byte) : (s.writeByte a b).lines = s.lines := rfl
@[simp] theorem State.writeByte_cpuIe (s : State) (a : Word) (b : Byte) : (s.writeByte a b).cpuIe = s.cpuIe := rfl
@[simp] theorem State.writeByte_isrActive (s : State) (a : Word) (b : Byte) : (s.writeByte a b).isrActive = s.isrActive := rfl
@[simp] theorem State.writeByte_prog (s : State) (a : Word) (b : Byte) : (s.writeByte a b).prog = s.prog := rfl
@[simp] theorem State.writeByte_mainPos (s : State) (a : Word) (b : Byte) : (s.writeByte a b).mainPos = s.mainPos := rfl
@[simp] theorem State.writeByte_isrPos (s : State) (a : Word) (b : Byte) : (s.writeByte a b).isrPos = s.isrPos := rfl
@[simp] theorem State.writeByte_result (s : State) (a : Word) (b : Byte) : (s.writeByte a b).result = s.result := rfl
@[simp] theorem State.writeByte_hist (s : State) (a : Word) (b : Byte) : (s.writeByte a b).hist = s.hist := rfl
@[simp] theorem State.writeByte_draws (s : State) (a : Word) (b : Byte) : (s.writeByte a b).draws = s.draws := rfl
@[simp] theorem State.writeByte_sched (s : State) (a : Word) (b : Byte) : (s.writeByte a b).sched = s.sched := rfl
@[simp] theorem State.writeByte_ticks (s : State) (a : Word) (b : Byte) : (s.writeByte a b).ticks = s.ticks := rfl
@[simp] theorem State.writeByte_ep (s : State) (a : Word) (b : Byte) (k : Nat) : (s.writeByte a b).ep k = s.ep k := rfl
@[simp] theorem State.writeByte_chan (s : State) (a : Word) (b : Byte) (k : Nat) : (s.writeByte a b).chan k = s.chan k := rfl
@[simp] theorem State.writeByte_src (s : State) (a : Word) (b : Byte) (k : Nat) : (s.writeByte a b).src k = s.src k := rfl
@[simp] theorem State.writeByte_slot (s : State) (a : Word) (b : Byte) (k : Nat) : (s.writeByte a b).slot k = s.slot k := rfl
@[simp] theorem State.writeByte_ctrlWord (s : State) (a : Word) (b : Byte) (k : Nat) : (s.writeByte a b).ctrlWord k = s.ctrlWord k := rfl
@[simp] theorem State.writeByte_istatWord (s : State) (a : Word) (b : Byte) (k : Nat) : (s.writeByte a b).istatWord k = s.istatWord k := rfl
@[simp] theorem State.writeByte_refOf (s : State) (a : Word) (b : Byte) (k : Nat) : (s.writeByte a b).refOf k = s.refOf k := rfl
@[simp] theorem State.writeByte_cur (s : State) (a : Word) (b : Byte) : (s.writeByte a b).cur = s.cur := rfl
@[simp] theorem State.writeByte_who (s : State) (a : Word) (b : Byte) (i : Instr) : (s.writeByte a b).who i = s.who i := rfl
@[simp] theorem State.writeByte_pos (s : State) (a : Word) (b : Byte) : (s.writeByte a b).pos = s.pos := rfl
@[simp] theorem State.writeByte_doneAny (s : State) (a : Word) (b : Byte) : (s.writeByte a b).doneAny = s.doneAny := rfl
@[simp] theorem State.writeByte_lastAny (s : State) (a : Word) (b : Byte) : (s.writeByte a b).lastAny = s.lastAny := rfl
@[simp] theorem State.writeByte_gstatus (s : State) (a : Word) (b : Byte) : (s.writeByte a b).gstatus = s.gstatus := rfl
@[simp] theorem State.writeByte_dmaIrq (s : State) (a : Word) (b : Byte) : (s.writeByte a b).dmaIrq = s.dmaIrq := rfl
@[simp] theorem State.writeByte_lineLevel (s : State) (a : Word) (b : Byte) (k : Nat) : (s.writeByte a b).lineLevel k = s.lineLevel k := rfl
@[simp] theorem State.writeByte_pendWord (s : State) (a : Word) (b : Byte) : (s.writeByte a b).pendWord = s.pendWord := rfl
@[simp] theorem State.writeByte_eligible (s : State) (a : Word) (b : Byte) (k : Nat) : (s.writeByte a b).eligible k = s.eligible k := rfl
@[simp] theorem State.writeByte_claimable (s : State) (a : Word) (b : Byte) : (s.writeByte a b).claimable = s.claimable := rfl
@[simp] theorem State.writeByte_eip (s : State) (a : Word) (b : Byte) : (s.writeByte a b).eip = s.eip := rfl
@[simp] theorem State.writeByte_draw (s : State) (a : Word) (b : Byte) : (s.writeByte a b).draw = s.draw := rfl
@[simp] theorem State.writeByte_drawBit (s : State) (a : Word) (b : Byte) : (s.writeByte a b).drawBit = s.drawBit := rfl

/-! ### writeEnBank -/

@[simp] theorem State.writeEnBank_cfg (s : State) (b : Nat) (v : Word) : (s.writeEnBank b v).cfg = s.cfg := rfl
@[simp] theorem State.writeEnBank_ep0 (s : State) (b : Nat) (v : Word) : (s.writeEnBank b v).ep0 = s.ep0 := rfl
@[simp] theorem State.writeEnBank_ep1 (s : State) (b : Nat) (v : Word) : (s.writeEnBank b v).ep1 = s.ep1 := rfl
@[simp] theorem State.writeEnBank_gmask (s : State) (b : Nat) (v : Word) : (s.writeEnBank b v).gmask = s.gmask := rfl
@[simp] theorem State.writeEnBank_chans (s : State) (b : Nat) (v : Word) : (s.writeEnBank b v).chans = s.chans := rfl
@[simp] theorem State.writeEnBank_drvUsable (s : State) (b : Nat) (v : Word) : (s.writeEnBank b v).drvUsable = s.drvUsable := rfl
@[simp] theorem State.writeEnBank_drvNumCh (s : State) (b : Nat) (v : Word) : (s.writeEnBank b v).drvNumCh = s.drvNumCh := rfl
@[simp] theorem State.writeEnBank_mgr (s : State) (b : Nat) (v : Word) : (s.writeEnBank b v).mgr = s.mgr := rfl
@[simp] theorem State.writeEnBank_descs (s : State) (b : Nat) (v : Word) : (s.writeEnBank b v).descs = s.descs := rfl
@[simp] theorem State.writeEnBank_binds (s : State) (b : Nat) (v : Word) : (s.writeEnBank b v).binds = s.binds := rfl
@[simp] theorem State.writeEnBank_thr (s : State) (b : Nat) (v : Word) : (s.writeEnBank b v).thr = s.thr := rfl
@[simp] theorem State.writeEnBank_icMask (s : State) (b : Nat) (v : Word) : (s.writeEnBank b v).icMask = s.icMask := rfl
@[simp] theorem State.writeEnBank_lines (s : State) (b : Nat) (v : Word) : (s.writeEnBank b v).lines = s.lines := rfl
@[simp] theorem State.writeEnBank_cpuIe (s : State) (b : Nat) (v : Word) : (s.writeEnBank b v).cpuIe = s.cpuIe := rfl
@[simp] theorem State.writeEnBank_isrActive (s : State) (b : Nat) (v : Word) : (s.writeEnBank b v).isrActive = s.isrActive := rfl
@[simp] theorem State.writeEnBank_prog (s : State) (b : Nat) (v : Word) : (s.writeEnBank b v).prog = s.prog := rfl
@[simp] theorem State.writeEnBank_mainPos (s : State) (b : Nat) (v : Word) : (s.writeEnBank b v).mainPos = s.mainPos := rfl
@[simp] theorem State.writeEnBank_isrPos (s : State) (b : Nat) (v : Word) : (s.writeEnBank b v).isrPos = s.isrPos := rfl
@[simp] theorem State.writeEnBank_result (s : State) (b : Nat) (v : Word) : (s.writeEnBank b v).result = s.result := rfl
@[simp] theorem State.writeEnBank_hist (s : State) (b : Nat) (v : Word) : (s.writeEnBank b v).hist = s.hist := rfl
@[simp] theorem State.writeEnBank_mem (s : State) (b : Nat) (v : Word) : (s.writeEnBank b v).mem = s.mem := rfl
@[simp] theorem State.writeEnBank_draws (s : State) (b : Nat) (v : Word) : (s.writeEnBank b v).draws = s.draws := rfl
@[simp] theorem State.writeEnBank_sched (s : State) (b : Nat) (v : Word) : (s.writeEnBank b v).sched = s.sched := rfl
@[simp] theorem State.writeEnBank_ticks (s : State) (b : Nat) (v : Word) : (s.writeEnBank b v).ticks = s.ticks := rfl
@[simp] theorem State.writeEnBank_ep (s : State) (b : Nat) (v : Word) (k : Nat) : (s.writeEnBank b v).ep k = s.ep k := rfl
@[simp] theorem State.writeEnBank_chan (s : State) (b : Nat) (v : Word) (k : Nat) : (s.writeEnBank b v).chan k = s.chan k := rfl
@[simp] theorem State.writeEnBank_slot (s : State) (b : Nat) (v : Word) (k : Nat) : (s.writeEnBank b v).slot k = s.slot k := rfl
@[simp] theorem State.writeEnBank_ctrlWord (s : State) (b : Nat) (v : Word) (k : Nat) : (s.writeEnBank b v).ctrlWord k = s.ctrlWord k := rfl
@[simp] theorem State.writeEnBank_istatWord (s : State) (b : Nat) (v : Word) (k : Nat) : (s.writeEnBank b v).istatWord k = s.istatWord k := rfl
@[simp] theorem State.writeEnBank_refOf (s : State) (b : Nat) (v : Word) (k : Nat) : (s.writeEnBank b v).refOf k = s.refOf k := rfl
@[simp] theorem State.writeEnBank_cur (s : State) (b : Nat) (v : Word) : (s.writeEnBank b v).cur = s.cur := rfl
@[simp] theorem State.writeEnBank_who (s : State) (b : Nat) (v : Word) (i : Instr) : (s.writeEnBank b v).who i = s.who i := rfl
@[simp] theorem State.writeEnBank_pos (s : State) (b : Nat) (v : Word) : (s.writeEnBank b v).pos = s.pos := rfl
@[simp] theorem State.writeEnBank_doneAny (s : State) (b : Nat) (v : Word) : (s.writeEnBank b v).doneAny = s.doneAny := rfl
@[simp] theorem State.writeEnBank_lastAny (s : State) (b : Nat) (v : Word) : (s.writeEnBank b v).lastAny = s.lastAny := rfl
@[simp] theorem State.writeEnBank_gstatus (s : State) (b : Nat) (v : Word) : (s.writeEnBank b v).gstatus = s.gstatus := rfl
@[simp] theorem State.writeEnBank_dmaIrq (s : State) (b : Nat) (v : Word) : (s.writeEnBank b v).dmaIrq = s.dmaIrq := rfl
@[simp] theorem State.writeEnBank_lineLevel (s : State) (b : Nat) (v : Word) (k : Nat) : (s.writeEnBank b v).lineLevel k = s.lineLevel k := rfl
@[simp] theorem State.writeEnBank_pendWord (s : State) (b : Nat) (v : Word) : (s.writeEnBank b v).pendWord = s.pendWord := rfl
@[simp] theorem State.writeEnBank_draw (s : State) (b : Nat) (v : Word) : (s.writeEnBank b v).draw = s.draw := rfl
@[simp] theorem State.writeEnBank_drawBit (s : State) (b : Nat) (v : Word) : (s.writeEnBank b v).drawBit = s.drawBit := rfl

/-! ### What an update writes -/

@[simp] theorem State.emit_hist (s : State) (e : Event) : (s.emit e).hist = e :: s.hist := rfl
@[simp] theorem State.drew_draws (s : State) : s.drew.draws = s.draws + 1 := rfl
@[simp] theorem State.setChan_chans (s : State) (ch : Nat) (c : Chan) : (s.setChan ch c).chans = s.chans.set ch c := rfl
@[simp] theorem State.setSrc_srcs (s : State) (n : Nat) (x : Source) : (s.setSrc n x).srcs = s.srcs.set n x := rfl
@[simp] theorem State.setDesc_descs (s : State) (r : Nat) (d : Desc) : (s.setDesc r d).descs = s.descs.set r d := rfl
@[simp] theorem State.newDesc_descs (s : State) (d : Nat) (x : Desc) : (s.newDesc d x).descs = s.descs ++ [x] := rfl
@[simp] theorem State.writeByte_mem (s : State) (a : Word) (b : Byte) :
    (s.writeByte a b).mem = Mem.insert a.toNat b s.mem := rfl
@[simp] theorem State.setDoneMask_doneMask (s : State) (m : Word) : (s.setDoneMask m).mgr.doneMask = m := rfl
@[simp] theorem State.setDoneMask_lastMask (s : State) (m : Word) :
    (s.setDoneMask m).mgr.lastMask = s.mgr.lastMask := rfl
@[simp] theorem State.setDoneMask_slots (s : State) (m : Word) : (s.setDoneMask m).mgr.slots = s.mgr.slots := rfl
@[simp] theorem State.setDoneMask_present (s : State) (m : Word) :
    (s.setDoneMask m).mgr.present = s.mgr.present := rfl
@[simp] theorem State.setLastMask_lastMask (s : State) (m : Word) : (s.setLastMask m).mgr.lastMask = m := rfl
@[simp] theorem State.setLastMask_doneMask (s : State) (m : Word) :
    (s.setLastMask m).mgr.doneMask = s.mgr.doneMask := rfl
@[simp] theorem State.setLastMask_slots (s : State) (m : Word) : (s.setLastMask m).mgr.slots = s.mgr.slots := rfl
@[simp] theorem State.setLastMask_present (s : State) (m : Word) :
    (s.setLastMask m).mgr.present = s.mgr.present := rfl
@[simp] theorem State.setSlot_slots (s : State) (ch : Nat) (d : Option Nat) :
    (s.setSlot ch d).mgr.slots = s.mgr.slots.set ch d := rfl
@[simp] theorem State.setSlot_doneMask (s : State) (ch : Nat) (d : Option Nat) :
    (s.setSlot ch d).mgr.doneMask = s.mgr.doneMask := rfl
@[simp] theorem State.setSlot_lastMask (s : State) (ch : Nat) (d : Option Nat) :
    (s.setSlot ch d).mgr.lastMask = s.mgr.lastMask := rfl
@[simp] theorem State.setSlot_present (s : State) (ch : Nat) (d : Option Nat) :
    (s.setSlot ch d).mgr.present = s.mgr.present := rfl
@[simp] theorem State.setPresent_present (s : State) : s.setPresent.mgr.present = true := rfl
@[simp] theorem State.setPresent_slots (s : State) : s.setPresent.mgr.slots = s.mgr.slots := rfl
@[simp] theorem State.setPresent_doneMask (s : State) : s.setPresent.mgr.doneMask = s.mgr.doneMask := rfl
@[simp] theorem State.setPresent_lastMask (s : State) : s.setPresent.mgr.lastMask = s.mgr.lastMask := rfl

@[simp] theorem State.setGmask_gmask (s : State) (m : Word) : (s.setGmask m).gmask = m := rfl
@[simp] theorem State.setThr_thr (s : State) (v : Word) : (s.setThr v).thr = v := rfl
@[simp] theorem State.setIcMask_icMask (s : State) (v : Word) : (s.setIcMask v).icMask = v := rfl
@[simp] theorem State.setNumCh_drvNumCh (s : State) (n : Word) : (s.setNumCh n).drvNumCh = n := rfl
@[simp] theorem State.setUsable_drvUsable (s : State) (b : Bool) : (s.setUsable b).drvUsable = b := rfl
@[simp] theorem State.setCpuIe_cpuIe (s : State) (b : Bool) : (s.setCpuIe b).cpuIe = b := rfl
@[simp] theorem State.setLine_lines (s : State) (n : Nat) (b : Bool) : (s.setLine n b).lines = s.lines.set n b := rfl

/-- The agent that steps is the one whose position moves. -/
@[simp] theorem State.goto_pos (s : State) (q : Pos) : (s.goto q).pos = q := by
  unfold State.pos State.goto; cases s.isrActive <;> rfl

/-- A move after a move is the last one. -/
@[simp] theorem State.goto_goto (s : State) (p q : Pos) : (s.goto p).goto q = s.goto q := by
  unfold State.goto; cases h : s.isrActive <;> simp

/-- A return forgets the position. -/
@[simp] theorem State.ret_goto (s : State) (q : Pos) (r : Result) : (s.goto q).ret r = s.ret r := by
  unfold State.ret State.goto State.returnIrq State.advance; cases h : s.isrActive <;> simp

/-- Moving to where the agent is already changes nothing. -/
theorem State.goto_self (s : State) : s.goto s.pos = s := by
  unfold State.goto State.pos; cases h : s.isrActive <;> simp <;> cases s <;> simp_all

theorem State.setChan_setChan (s : State) (ch : Nat) (c d : Chan) : (s.setChan ch c).setChan ch d = s.setChan ch d := by
  simp [State.setChan]

theorem State.setChan_self (s : State) (ch : Nat) : s.setChan ch (s.chan ch) = s := by
  unfold State.setChan State.chan
  by_cases h : ch < s.chans.length
  · simp [h]
  · simp [h, List.set_eq_of_length_le (Nat.le_of_not_lt h)]

/-- An operation that returns in `ISR` ends the interrupt and leaves `MAIN` alone. -/
theorem State.ret_isr (s : State) (r : Result) (h : s.isrActive = true) : s.ret r = s.returnIrq := by
  simp [State.ret, h]

/-- An operation that returns in `MAIN` moves on to the next item of the program. -/
theorem State.ret_main (s : State) (r : Result) (h : s.isrActive = false) : s.ret r = s.advance r := by
  simp [State.ret, h]

@[simp] theorem State.ep_zero (s : State) : s.ep 0 = s.ep0 := rfl
@[simp] theorem State.ep_one (s : State) : s.ep 1 = s.ep1 := rfl

theorem State.setEp_ep_same (s : State) (e : Nat) (x : Endpoint) : (s.setEp e x).ep e = x := by
  by_cases h : e = 0 <;> simp [State.setEp, State.ep, h]

@[simp] theorem State.setEp_zero_ep0 (s : State) (x : Endpoint) : (s.setEp 0 x).ep0 = x := rfl
@[simp] theorem State.setEp_zero_ep1 (s : State) (x : Endpoint) : (s.setEp 0 x).ep1 = s.ep1 := rfl
@[simp] theorem State.setEp_one_ep0 (s : State) (x : Endpoint) : (s.setEp 1 x).ep0 = s.ep0 := rfl
@[simp] theorem State.setEp_one_ep1 (s : State) (x : Endpoint) : (s.setEp 1 x).ep1 = x := rfl

theorem State.setChan_chan_same (s : State) {ch : Nat} (c : Chan) (h : ch < s.chans.length) :
    (s.setChan ch c).chan ch = c := by
  simp [State.chan, h]

theorem State.setChan_chan_other (s : State) {ch k : Nat} (c : Chan) (h : k ≠ ch) :
    (s.setChan ch c).chan k = s.chan k := by
  simp [State.chan, List.getElem?_set_ne (Ne.symm h)]

theorem State.setSrc_src_same (s : State) {n : Nat} (x : Source) (h : n < s.srcs.length) :
    (s.setSrc n x).src n = x := by
  simp [State.src, h]

theorem State.setSrc_src_other (s : State) {n k : Nat} (x : Source) (h : k ≠ n) :
    (s.setSrc n x).src k = s.src k := by
  simp [State.src, List.getElem?_set_ne (Ne.symm h)]

theorem State.setSlot_slot_same (s : State) {ch : Nat} (d : Option Nat) (h : ch < s.mgr.slots.length) :
    (s.setSlot ch d).slot ch = d := by
  simp [State.slot, h]

theorem State.setSlot_slot_other (s : State) {ch k : Nat} (d : Option Nat) (h : k ≠ ch) :
    (s.setSlot ch d).slot k = s.slot k := by
  simp [State.slot, List.getElem?_set_ne (Ne.symm h)]


/-! ### A move of the position commutes with every other update: a run's states are read with the move outermost -/

@[simp] theorem State.goto_setEp (s : State) (q : Pos) (e : Nat) (x : Endpoint) : (s.goto q).setEp e x = (s.setEp e x).goto q := rfl
@[simp] theorem State.goto_setChan (s : State) (q : Pos) (ch : Nat) (c : Chan) : (s.goto q).setChan ch c = (s.setChan ch c).goto q := rfl
@[simp] theorem State.goto_setGmask (s : State) (q : Pos) (m : Word) : (s.goto q).setGmask m = (s.setGmask m).goto q := rfl
@[simp] theorem State.goto_setThr (s : State) (q : Pos) (v : Word) : (s.goto q).setThr v = (s.setThr v).goto q := rfl
@[simp] theorem State.goto_setIcMask (s : State) (q : Pos) (v : Word) : (s.goto q).setIcMask v = (s.setIcMask v).goto q := rfl
@[simp] theorem State.goto_setNumCh (s : State) (q : Pos) (n : Word) : (s.goto q).setNumCh n = (s.setNumCh n).goto q := rfl
@[simp] theorem State.goto_setUsable (s : State) (q : Pos) (b : Bool) : (s.goto q).setUsable b = (s.setUsable b).goto q := rfl
@[simp] theorem State.goto_setLine (s : State) (q : Pos) (n : Nat) (b : Bool) : (s.goto q).setLine n b = (s.setLine n b).goto q := rfl
@[simp] theorem State.goto_setCpuIe (s : State) (q : Pos) (b : Bool) : (s.goto q).setCpuIe b = (s.setCpuIe b).goto q := rfl
@[simp] theorem State.goto_setSrc (s : State) (q : Pos) (n : Nat) (x : Source) : (s.goto q).setSrc n x = (s.setSrc n x).goto q := rfl
@[simp] theorem State.goto_setSlot (s : State) (q : Pos) (ch : Nat) (d : Option Nat) : (s.goto q).setSlot ch d = (s.setSlot ch d).goto q := rfl
@[simp] theorem State.goto_setDoneMask (s : State) (q : Pos) (m : Word) : (s.goto q).setDoneMask m = (s.setDoneMask m).goto q := rfl
@[simp] theorem State.goto_setLastMask (s : State) (q : Pos) (m : Word) : (s.goto q).setLastMask m = (s.setLastMask m).goto q := rfl
@[simp] theorem State.goto_setPresent (s : State) (q : Pos) : (s.goto q).setPresent = (s.setPresent).goto q := rfl
@[simp] theorem State.goto_setDesc (s : State) (q : Pos) (r : Nat) (d : Desc) : (s.goto q).setDesc r d = (s.setDesc r d).goto q := rfl
@[simp] theorem State.goto_setDescDone (s : State) (q : Pos) (r : Nat) (b : Bool) : (s.goto q).setDescDone r b = (s.setDescDone r b).goto q := by unfold State.setDescDone; cases h : s.descs[r]? <;> simp [h]
@[simp] theorem State.goto_setDescTransferred (s : State) (q : Pos) (r : Nat) (n : Word) : (s.goto q).setDescTransferred r n = (s.setDescTransferred r n).goto q := by unfold State.setDescTransferred; cases h : s.descs[r]? <;> simp [h]
@[simp] theorem State.goto_newDesc (s : State) (q : Pos) (d : Nat) (x : Desc) : (s.goto q).newDesc d x = (s.newDesc d x).goto q := rfl
@[simp] theorem State.goto_emit (s : State) (q : Pos) (e : Event) : (s.goto q).emit e = (s.emit e).goto q := rfl
@[simp] theorem State.goto_drew (s : State) (q : Pos) : (s.goto q).drew = (s.drew).goto q := rfl
@[simp] theorem State.goto_writeByte (s : State) (q : Pos) (a : Word) (b : Byte) : (s.goto q).writeByte a b = (s.writeByte a b).goto q := rfl
@[simp] theorem State.goto_writeEnBank (s : State) (q : Pos) (b : Nat) (v : Word) : (s.goto q).writeEnBank b v = (s.writeEnBank b v).goto q := rfl

end Sys2Proof.Machine
end

