-- ==== Sys2Proof/Laws/Change.lean ====
section
/-! SUPPORT. Everything a step can do to the state, said once: a step is a chain of the small changes listed in
`Change`, each with the condition it happens under and the kind of step it happens in. An invariant kept by each of
them is kept by every step. -/

namespace Sys2Proof.Machine

open Sys2Proof

/-- What can happen to the registers and the engine of one channel. The level `l` is the kind of step: 0 the steps of
`IRQ_ENTRY`, 1 those of every operation, 2 those of every item of MAIN's program, 3 those of every agent. -/
inductive ChanChange (l : Nat) (c : Chan) : Chan → Prop where
  | ack (all : Bool) (v : Word) : ChanChange l c (c.acked all v)
  | ctrl (v : Word) (h : v.getLsbD 2 = false) (hl : 1 ≤ l := by decide) : ChanChange l c (c.ctrlWritten v)
  | start (v : Word) (h : v.getLsbD 2 = true) (hi : c.phase = .idle) (hr : c.rdy = true)
      (ha : (c.ctrlWritten v).startAligned = true) (hl : 1 ≤ l := by decide) :
      ChanChange l c (c.ctrlWritten v).started
  | base (v : Word) (hi : c.phase = .idle) (hl : 1 ≤ l := by decide) : ChanChange l c { c with base := v }
  | len (v : Word) (hi : c.phase = .idle) (hl : 1 ≤ l := by decide) : ChanChange l c { c with len := v }
  | ready (hi : c.phase = .idle) (hr : c.rdy = false) (hl : 3 ≤ l := by decide) : ChanChange l c c.raiseReady
  | byte (hb : c.phase = .busy) (hd : c.doneLen < c.len) (hl : 3 ≤ l := by decide) :
      ChanChange l c { c with doneLen := c.doneLen + 1 }
  | last (hb : c.phase = .busy) (hl : 3 ≤ l := by decide) : ChanChange l c c.raiseLast
  | complete (hb : c.phase = .busy) (hl : 3 ≤ l := by decide) : ChanChange l c c.completed

/-- What can happen to one source of the banked controller. -/
inductive SourceChange (l : Nat) (p : Params) (x : Source) : Source → Prop where
  | claim (hp : x.pending = true) (he : x.en = true) : SourceChange l p x { x with pending := false, inService := true }
  | complete (hi : x.inService = true) : SourceChange l p x { x with inService := false }
  | prio (v : Word) (h : v ≤ p.priorityLevels) (hl : 1 ≤ l := by decide) : SourceChange l p x { x with prio := v }
  | latch (hp : x.pending = false) (hi : x.inService = false) (hl : 3 ≤ l := by decide) :
      SourceChange l p x { x with pending := true }

/-- One small change of the state, in a step of kind `l`. -/
inductive Change (l : Nat) (s : State) : State → Prop where
  | emit (e : Event) : Change l s (s.emit e)
  | drew : Change l s s.drew
  | chan (ch : Nat) (c : Chan) (hc : ch < s.cfg.numCh) (h : ChanChange l (s.chan ch) c) : Change l s (s.setChan ch c)
  | src (n : Nat) (x : Source) (h0 : n ≠ 0) (hn : n < s.cfg.numSources) (h : SourceChange l s.cfg (s.src n) x) :
      Change l s (s.setSrc n x)
  | doneMask (m : Word) : Change l s (s.setDoneMask m)
  | lastMask (m : Word) : Change l s (s.setLastMask m)
  | descDone (r : Nat) (b : Bool) : Change l s (s.setDescDone r b)
  | descTransferred (r : Nat) (n : Word) : Change l s (s.setDescTransferred r n)
  | pulseIn (b : Bool) (h : s.ep0.ready = true) (hl : 1 ≤ l := by decide) :
      Change l s ((s.emit (.streamIn (s.ep0.data &&& s.cfg.inMask))).drew.setEp 0 { s.ep0 with ready := b })
  | pulseOut (v : Word) (b : Bool) (h : s.ep1.ready = true) (hl : 1 ≤ l := by decide) :
      Change l s ((s.drew.emit (.streamOut (v &&& s.cfg.outMask))).drew.setEp 1
        { s.ep1 with data := v &&& s.cfg.outMask, ready := b })
  | inData (v : Word) (hl : 1 ≤ l := by decide) : Change l s (s.setEp 0 { s.ep0 with data := v })
  | gmask (v : Word) (hl : 1 ≤ l := by decide) : Change l s (s.setGmask (v &&& s.cfg.chMask))
  | enBank (b : Nat) (v : Word) (hl : 1 ≤ l := by decide) : Change l s (s.writeEnBank b v)
  | thr (v : Word) (h : v ≤ s.cfg.priorityLevels) (hl : 1 ≤ l := by decide) : Change l s (s.setThr v)
  | icMask (v : Word) (hl : 1 ≤ l := by decide) : Change l s (s.setIcMask v)
  | drvNumCh (v : Word) (hl : 1 ≤ l := by decide) : Change l s (s.setNumCh v)
  | drvUsable (b : Bool) (hl : 1 ≤ l := by decide) : Change l s (s.setUsable b)
  | slot (ch : Nat) (d : Option Nat) (h : ∀ r, d = some r → r < s.descs.length) (hl : 1 ≤ l := by decide) :
      Change l s (s.setSlot ch d)
  | present (hl : 1 ≤ l := by decide) : Change l s s.setPresent
  | newDesc (d : Nat) (x : Desc) (h : x.ch < s.cfg.numCh) (hl : 1 ≤ l := by decide) : Change l s (s.newDesc d x)
  | writeByte (a : Word) (b : Byte) (hl : 2 ≤ l := by decide) : Change l s (s.writeByte a b)
  | goto (q : Pos) (hl : 3 ≤ l := by decide) : Change l s (s.goto q)
  | ret (r : Result) (hl : 3 ≤ l := by decide) : Change l s (s.ret r)
  | takeIrq (h : s.irqEnabled = true) (hl : 3 ≤ l := by decide) : Change l s s.takeIrq
  | raiseReady (e : Nat) (he : e ≤ 1) (h : (s.ep e).ready = false) (hl : 3 ≤ l := by decide) :
      Change l s (s.setEp e { (s.ep e) with ready := true })
  | error (e : Nat) (he : e ≤ 1) (b : Bool) (hl : 3 ≤ l := by decide) :
      Change l s (s.setEp e { (s.ep e) with error := b })
  | line (n : Nat) (b : Bool) (h : n ≠ s.cfg.dmaIrqSource) (hl : 3 ≤ l := by decide) :
      Change l s (s.setLine n b)
  | cpuIe (b : Bool) (hl : 3 ≤ l := by decide) : Change l s (s.setCpuIe b)
  | chosen (hl : 3 ≤ l := by decide) : Change l s s.chosen

/-- A chain of small changes. -/
abbrev Changes (l : Nat) : State → State → Prop := Relation.ReflTransGen (Change l)

/-- A chain of small changes, then the move of the CPU-side agent to its next position, or its operation's return:
what a step of an operation is. -/
def Runs (l : Nat) (s t : State) : Prop :=
  ∃ u, Changes l s u ∧ ((∃ q, t = u.goto q) ∨ ∃ r, t = u.ret r)

theorem Changes.one {l : Nat} {s t : State} (h : Change l s t) : Changes l s t := .single h

theorem Changes.then {l : Nat} {s t u : State} (h : Changes l s t) (k : Change l t u) : Changes l s u := h.tail k

/-- A property kept by every small change is kept by a chain of them. -/
theorem Changes.keeps {l : Nat} {P : State → Prop} (hP : ∀ s t, Change l s t → P s → P t) {s t : State}
    (h : Changes l s t) (hs : P s) : P t := by
  induction h with
  | refl => exact hs
  | tail _ hc ih => exact hP _ _ hc ih

theorem ChanChange.mono {l m : Nat} (hm : l ≤ m) {c d : Chan} (h : ChanChange l c d) : ChanChange m c d := by
  cases h with
  | ack all v => exact .ack all v
  | ctrl v h hl => exact .ctrl v h (hl.trans hm)
  | start v h hi hr ha hl => exact .start v h hi hr ha (hl.trans hm)
  | base v hi hl => exact .base v hi (hl.trans hm)
  | len v hi hl => exact .len v hi (hl.trans hm)
  | ready hi hr hl => exact .ready hi hr (hl.trans hm)
  | byte hb hd hl => exact .byte hb hd (hl.trans hm)
  | last hb hl => exact .last hb (hl.trans hm)
  | complete hb hl => exact .complete hb (hl.trans hm)

theorem SourceChange.mono {l m : Nat} (hm : l ≤ m) {p : Params} {x y : Source} (h : SourceChange l p x y) :
    SourceChange m p x y := by
  cases h with
  | claim hp he => exact .claim hp he
  | complete hi => exact .complete hi
  | prio v h hl => exact .prio v h (hl.trans hm)
  | latch hp hi hl => exact .latch hp hi (hl.trans hm)

/-- What a step of one kind can do, a step of a later kind can. -/
theorem Change.mono {l m : Nat} (hm : l ≤ m) {s t : State} (h : Change l s t) : Change m s t := by
  cases h with
  | emit e => exact .emit e
  | drew => exact .drew
  | chan ch c hc h => exact .chan ch c hc (h.mono hm)
  | src n x h0 hn h => exact .src n x h0 hn (h.mono hm)
  | doneMask m => exact .doneMask m
  | lastMask m => exact .lastMask m
  | descDone r b => exact .descDone r b
  | descTransferred r n => exact .descTransferred r n
  | pulseIn b h hl => exact .pulseIn b h (hl.trans hm)
  | pulseOut v b h hl => exact .pulseOut v b h (hl.trans hm)
  | inData v hl => exact .inData v (hl.trans hm)
  | gmask v hl => exact .gmask v (hl.trans hm)
  | enBank b v hl => exact .enBank b v (hl.trans hm)
  | thr v h hl => exact .thr v h (hl.trans hm)
  | icMask v hl => exact .icMask v (hl.trans hm)
  | drvNumCh v hl => exact .drvNumCh v (hl.trans hm)
  | drvUsable b hl => exact .drvUsable b (hl.trans hm)
  | slot ch d h hl => exact .slot ch d h (hl.trans hm)
  | present hl => exact .present (hl.trans hm)
  | newDesc d x h hl => exact .newDesc d x h (hl.trans hm)
  | writeByte a b hl => exact .writeByte a b (hl.trans hm)
  | goto q hl => exact .goto q (hl.trans hm)
  | ret r hl => exact .ret r (hl.trans hm)
  | takeIrq h hl => exact .takeIrq h (hl.trans hm)
  | raiseReady e he h hl => exact .raiseReady e he h (hl.trans hm)
  | error e he b hl => exact .error e he b (hl.trans hm)
  | line n b h hl => exact .line n b h (hl.trans hm)
  | cpuIe b hl => exact .cpuIe b (hl.trans hm)
  | chosen hl => exact .chosen (hl.trans hm)

theorem Changes.mono {l m : Nat} (hm : l ≤ m) {s t : State} (h : Changes l s t) : Changes m s t := by
  induction h with
  | refl => exact .refl
  | tail _ hc ih => exact ih.tail (hc.mono hm)

/-- A chain before a step of an operation. -/
theorem Changes.thenRuns {l : Nat} {s t u : State} (h : Changes l s t) (k : Runs l t u) : Runs l s u := by
  obtain ⟨v, hv, hu⟩ := k
  exact ⟨v, h.trans hv, hu⟩

theorem Runs.mono {l m : Nat} (hm : l ≤ m) {s t : State} (h : Runs l s t) : Runs m s t := by
  obtain ⟨u, hu, ht⟩ := h
  exact ⟨u, hu.mono hm, ht⟩

/-- A step of an operation, seen as a chain of changes of the whole machine. -/
theorem Runs.changes {l : Nat} (hm : l ≤ 3) {s t : State} (h : Runs l s t) : Changes 3 s t := by
  obtain ⟨u, hu, ⟨q, rfl⟩ | ⟨r, rfl⟩⟩ := h
  · exact (hu.mono hm).then (.goto q)
  · exact (hu.mono hm).then (.ret r)

/-- What the changes inside an operation's step never touch: the program, the positions, the result, the interrupt
context, the environment's lines and `cpu_ie`, the parameters, and the interleaving's data. -/
abbrev State.SameFlow (s t : State) : Prop :=
  t.prog = s.prog ∧ t.mainPos = s.mainPos ∧ t.isrPos = s.isrPos ∧ t.isrActive = s.isrActive ∧ t.result = s.result ∧
  t.lines = s.lines ∧ t.cpuIe = s.cpuIe ∧ t.cfg = s.cfg ∧ t.sched = s.sched ∧ t.ticks = s.ticks

theorem setDescDone_sameFlow (s : State) (r : Nat) (b : Bool) : s.SameFlow (s.setDescDone r b) := by
  simp [State.SameFlow]

theorem setDescTransferred_sameFlow (s : State) (r : Nat) (n : Word) : s.SameFlow (s.setDescTransferred r n) := by
  simp [State.SameFlow]

theorem Change.sameFlow {l : Nat} (hl : l ≤ 2) {s t : State} (h : Change l s t) : s.SameFlow t := by
  cases h with
  | descDone r b => exact setDescDone_sameFlow s r b
  | descTransferred r n => exact setDescTransferred_sameFlow s r n
  | _ => first | (exfalso; omega) | exact ⟨rfl, rfl, rfl, rfl, rfl, rfl, rfl, rfl, rfl, rfl⟩

theorem Changes.sameFlow {l : Nat} (hl : l ≤ 2) {s t : State} (h : Changes l s t) : s.SameFlow t := by
  induction h with
  | refl => exact ⟨rfl, rfl, rfl, rfl, rfl, rfl, rfl, rfl, rfl, rfl⟩
  | tail _ hc ih =>
    have := hc.sameFlow hl
    simp only [State.SameFlow] at *
    simp [this, ih]

/-! ### Outcomes of the shared shapes -/

theorem orFault_next {α : Type} {x : Except Fault α} {k : α → Out} {t : State} (h : orFault x k = .next t) :
    ∃ a, x = .ok a ∧ k a = .next t := by
  cases x with
  | ok a => exact ⟨a, rfl, h⟩
  | error f => cases h

theorem orRefuse_next {x : Except Refusal State} {k : State → Out} {t : State} (h : orRefuse x k = .next t) :
    ∃ a, x = .ok a ∧ k a = .next t := by
  cases x with
  | ok a => exact ⟨a, rfl, h⟩
  | error f => cases h

theorem guardIdx_next {i : Instr} {c : Bool} {s t : State} {k : Out} (h : guardIdx i c s k = .next t) :
    c = true ∧ k = .next t := by
  unfold guardIdx at h; split at h
  · exact ⟨by assumption, h⟩
  · cases h

theorem guardZero_next {i : Instr} {z : Idx} {s t : State} {k : Out} (h : guardZero i z s k = .next t) :
    z = 0 ∧ k = .next t := by
  have := guardIdx_next h; simpa using this

theorem guardUnit_next {i : Instr} {v : Variant} {s t : State} {k : Out} (h : guardUnit i v s k = .next t) :
    s.cfg.variant = v ∧ k = .next t := by
  unfold guardUnit at h; split at h
  · exact ⟨by assumption, h⟩
  · cases h

theorem withRef_next {i : Instr} {r : Nat} {s t : State} {k : Desc → Out} (h : withRef i r s k = .next t) :
    ∃ x, s.descs[r]? = some x ∧ k x = .next t := by
  unfold withRef at h; split at h
  · cases h
  · exact ⟨_, by assumption, h⟩

theorem withDesc_next {i : Instr} {d : Nat} {s t : State} {k : Nat → Desc → Out} (h : withDesc i d s k = .next t) :
    ∃ r x, s.refOf d = some r ∧ s.descs[r]? = some x ∧ k r x = .next t := by
  unfold withDesc at h; split at h
  · cases h
  · split at h
    · cases h
    · exact ⟨_, _, by assumption, by assumption, h⟩

/-- The unusable controller's early return, or going on (R76). -/
theorem guardUsable_next {s t : State} {k : Out} (h : guardUsable s k = .next t) :
    (s.drvUsable = false ∧ t = s.ret (.code .unusable)) ∨ (s.drvUsable = true ∧ k = .next t) := by
  unfold guardUsable at h; split at h
  · exact .inr ⟨by assumption, h⟩
  · simp only [done, Host.Outcome.next.injEq] at h
    exact .inl ⟨Bool.eq_false_iff.2 ‹¬ s.drvUsable = true›, h.symm⟩

/-! ### The claim choice -/

theorem claimPick_elig {elig : Nat → Bool} {prio : Nat → Word} {l : List Nat} {n : Nat}
    (h : claimPick elig prio l = some n) : n ∈ l ∧ elig n = true := by
  induction l generalizing n with
  | nil => simp [claimPick] at h
  | cons m rest ih =>
    unfold claimPick at h
    split at h
    · split at h
      · cases h; exact ⟨List.mem_cons_self, by assumption⟩
      · cases h
    · rename_i k hk
      have := ih hk
      split at h
      · cases h; simp_all
      · cases h; exact ⟨List.mem_cons_of_mem _ this.1, this.2⟩

theorem mem_sourceIds {p : Params} {n : Nat} : n ∈ Params.sourceIds p ↔ n < p.numSources ∧ n ≠ 0 := by
  simp [Params.sourceIds]

/-! ### Accesses -/

theorem claim_changes {l : Nat} (s : State) : Changes l s s.claim.2 := by
  unfold State.claim
  split
  · exact .refl
  · rename_i n hn
    obtain ⟨hm, he⟩ := claimPick_elig hn
    rw [mem_sourceIds] at hm
    simp only [State.eligible, Bool.and_eq_true] at he
    exact Changes.one (.src n _ hm.2 hm.1 (.claim he.1.1 he.1.2))

theorem readReg_changes {l : Nat} (r : Reg) (s : State) : Changes l s (readReg r s).2 := by
  cases r <;> simp only [readReg] <;> first | exact .refl | exact Changes.one .drew | exact claim_changes s | skip
  split
  · exact Changes.one .drew
  · exact .refl

/-- A bus read that is answered: the register exists, its read rule ran, and the access was recorded. -/
theorem busRead_ok {w : Who} {r : Reg} {s : State} {x : Word × State} (h : busRead w r s = .ok x) :
    r.check s.cfg = .present ∧ x.1 = (readReg r s).1 ∧
      x.2 = (readReg r s).2.emit (.bus w.agent false (r.addr s.cfg) 4 (readReg r s).1) := by
  unfold busRead at h
  split at h
  · cases h
  · cases h
  · cases h
    exact ⟨by assumption, rfl, rfl⟩

theorem busRead_changes {l : Nat} {w : Who} {r : Reg} {s : State} {x : Word × State} (h : busRead w r s = .ok x) :
    Changes l s x.2 := by
  obtain ⟨-, -, h2⟩ := busRead_ok h
  rw [h2]
  exact (readReg_changes r s).then (.emit _)

/-- A bus write that is answered: the register exists, and its write rule ran after the access was recorded. -/
theorem busWrite_ok {w : Who} {r : Reg} {v : Word} {s t : State} (h : busWrite w r v s = .ok t) :
    r.check s.cfg = .present ∧
      writeReg (w.atAddr (r.addr s.cfg)) r v (s.emit (.bus w.agent true (r.addr s.cfg) 4 v)) = .ok t := by
  unfold busWrite at h
  split at h
  · cases h
  · cases h
  · exact ⟨by assumption, h⟩

theorem phase_idle_of_not_busy {c : Chan} (h : ¬ c.phase = .busy) : c.phase = .idle := by
  cases hp : c.phase <;> simp_all

theorem chCtrlWrite_changes {i : FaultInfo} {ch : Nat} {v : Word} {s t : State} (hc : ch < s.cfg.numCh)
    (h : chCtrlWrite i ch v s = .ok t) : Changes 1 s t := by
  unfold chCtrlWrite at h
  simp only at h
  split at h
  · rename_i hv
    split at h
    · cases h
    · rename_i hb
      split at h
      · rename_i hr
        split at h
        · rename_i ha
          cases h
          exact Changes.one (.chan ch _ hc (.start v hv (phase_idle_of_not_busy hb) hr ha))
        · cases h
      · cases h
  · rename_i hv
    cases h
    exact Changes.one (.chan ch _ hc (.ctrl v (by simpa using hv)))

theorem chanWriteIdle_base {i : FaultInfo} {ch : Nat} {v : Word} {s t : State} (hc : ch < s.cfg.numCh)
    (h : chanWriteIdle i ch (fun c => { c with base := v }) s = .ok t) : Changes 1 s t := by
  unfold chanWriteIdle at h
  split at h
  · cases h
  · rename_i hb
    cases h
    exact Changes.one (.chan ch _ hc (.base v (phase_idle_of_not_busy hb)))

theorem chanWriteIdle_len {i : FaultInfo} {ch : Nat} {v : Word} {s t : State} (hc : ch < s.cfg.numCh)
    (h : chanWriteIdle i ch (fun c => { c with len := v }) s = .ok t) : Changes 1 s t := by
  unfold chanWriteIdle at h
  split at h
  · cases h
  · rename_i hb
    cases h
    exact Changes.one (.chan ch _ hc (.len v (phase_idle_of_not_busy hb)))

theorem streamCtrlWrite_changes {i : FaultInfo} {e : Nat} {v : Word} {s t : State} (he : e ≤ 1)
    (h : streamCtrlWrite i e v s = .ok t) : Changes 1 s t := by
  unfold streamCtrlWrite at h
  split at h
  · split at h
    · rename_i hr
      have he' : e = 0 ∨ e = 1 := by omega
      rcases he' with rfl | rfl
      · cases h; exact Changes.one (.pulseIn _ hr)
      · cases h; exact Changes.one (.pulseOut _ _ hr)
    · cases h
  · cases h; exact .refl

theorem claimWrite_changes {l : Nat} {i : FaultInfo} {v : Word} {s t : State} (h : claimWrite i v s = .ok t) : Changes l s t := by
  unfold claimWrite at h
  simp only at h
  split at h
  · rename_i hc
    cases h
    exact Changes.one (.src _ _ hc.1 hc.2.1 (.complete hc.2.2))
  · cases h

theorem ofRange_present {c : Bool} (h : RegCheck.ofRange c = .present) : c = true := by
  unfold RegCheck.ofRange at h; split at h <;> first | assumption | cases h

theorem plicCheck_present {p : Params} {c : Bool} (h : p.plicCheck c = .present) : p.variant = .banked ∧ c = true := by
  unfold Params.plicCheck at h
  split at h
  · exact ⟨by assumption, ofRange_present h⟩
  · cases h

theorem writeReg_changes {i : FaultInfo} {r : Reg} {v : Word} {s t : State} (hr : r.check s.cfg = .present)
    (h : writeReg i r v s = .ok t) : Changes 1 s t := by
  cases r <;> simp only [writeReg] at h <;> simp only [Reg.check] at hr
  case streamCtrl e => exact streamCtrlWrite_changes (by simpa using ofRange_present hr) h
  case streamData e =>
    split at h
    · cases h; exact Changes.one (.inData v)
    · cases h
  case chCount => cases h
  case chOff => cases h
  case gmask => cases h; exact Changes.one (.gmask v)
  case gstatus => cases h
  case chCtrl ch => exact chCtrlWrite_changes (by simpa using ofRange_present hr) h
  case chBase ch => exact chanWriteIdle_base (by simpa using ofRange_present hr) h
  case chLen ch => exact chanWriteIdle_len (by simpa using ofRange_present hr) h
  case chDoneLen ch => cases h
  case chIstat ch => cases h; exact Changes.one (.chan ch _ (by simpa using ofRange_present hr) (.ack _ v))
  case prioReserved => cases h; exact .refl
  case prio n =>
    split at h
    · cases h
    · rename_i hv
      have := (plicCheck_present hr).2
      simp at this
      cases h
      exact Changes.one (.src n _ this.1 this.2 (.prio v (by simpa using hv)))
  case pend b => cases h
  case en b => cases h; exact Changes.one (.enBank b v)
  case thr =>
    split at h
    · cases h
    · rename_i hv
      cases h
      exact Changes.one (.thr v (by simpa using hv))
  case claim => exact claimWrite_changes h

theorem busWrite_changes {w : Who} {r : Reg} {v : Word} {s t : State} (h : busWrite w r v s = .ok t) :
    Changes 1 s t := by
  obtain ⟨hr, h2⟩ := busWrite_ok h
  exact Relation.ReflTransGen.head (.emit _) (writeReg_changes hr h2)

/-- The acknowledge write of `UPDATE` (R91). -/
theorem ackWrite_changes {l : Nat} {w : Who} {ch : Nat} {v : Word} {s t : State}
    (h : busWrite w (.chIstat ch) v s = .ok t) : Changes l s t := by
  obtain ⟨hr, h2⟩ := busWrite_ok h
  simp only [Reg.check] at hr
  cases h2
  exact (Changes.one (.emit _)).then (.chan ch _ (by simpa using ofRange_present hr) (.ack _ v))

/-- The complete write of `IRQ_ENTRY` (R114). -/
theorem completeWrite_changes {l : Nat} {w : Who} {v : Word} {s t : State}
    (h : busWrite w .claim v s = .ok t) : Changes l s t := by
  obtain ⟨-, h2⟩ := busWrite_ok h
  exact Relation.ReflTransGen.head (.emit _) (claimWrite_changes h2)

theorem csrWrite_changes {w : Who} {n : Nat} {v : Word} {s t : State} (h : csrWrite w n v s = .ok t) :
    Changes 1 s t := by
  unfold csrWrite at h
  split at h
  · cases h; exact Changes.one (.icMask v)
  · split at h <;> cases h

theorem runCallback_changes {l : Nat} {w : Who} {r : Nat} {cb : Cb} {s t : State} (h : runCallback w r cb s = .ok t) :
    Changes l s t := by
  unfold runCallback at h
  split at h
  · cases h
  · cases h; exact Changes.one (.emit _)

/-! ### The shapes of the meanings -/

theorem goOn_changes {l : Nat} {q : Pos} {s t u : State} (hs : Changes l s t) (h : goOn q t = .next u) : Runs l s u := by
  cases h; exact ⟨_, hs, .inl ⟨q, rfl⟩⟩

theorem done_changes {l : Nat} {r : Result} {s t u : State} (hs : Changes l s t) (h : done r t = .next u) : Runs l s u := by
  cases h; exact ⟨_, hs, .inr ⟨r, rfl⟩⟩

theorem readStep_next {l : Nat} {i : Instr} {r : Reg} {s t : State} {k : Word → State → Out} (h : readStep i r s k = .next t) :
    ∃ v u, Changes l s u ∧ k v u = .next t := by
  obtain ⟨a, ha, hk⟩ := orFault_next h
  exact ⟨a.1, a.2, busRead_changes ha, hk⟩

theorem writeStep_next {i : Instr} {r : Reg} {v : Word} {s t : State} {k : State → Out}
    (h : writeStep i r v s k = .next t) : ∃ u, Changes 1 s u ∧ k u = .next t := by
  obtain ⟨a, ha, hk⟩ := orFault_next h
  exact ⟨a, busWrite_changes ha, hk⟩

theorem readOp_changes {l : Nat} {i : Instr} {r : Reg} {s t : State} (h : readOp i r s = .next t) : Runs l s t := by
  obtain ⟨a, ha, hk⟩ := orFault_next h
  exact done_changes (busRead_changes ha) hk

theorem writeOp_changes {i : Instr} {r : Reg} {v : Word} {s t : State} (h : writeOp i r v s = .next t) :
    Runs 1 s t := by
  obtain ⟨a, ha, hk⟩ := orFault_next h
  exact done_changes (busWrite_changes ha) hk

theorem csrReadOp_changes {l : Nat} {i : Instr} {n : Nat} {s t : State} (h : csrReadOp i n s = .next t) : Runs l s t := by
  obtain ⟨a, _, hk⟩ := orFault_next h
  exact done_changes .refl hk

theorem csrWriteOp_changes {i : Instr} {n : Nat} {v : Word} {s t : State} (h : csrWriteOp i n v s = .next t) :
    Runs 1 s t := by
  obtain ⟨a, ha, hk⟩ := orFault_next h
  exact done_changes (csrWrite_changes ha) hk

theorem descs_lt {s : State} {r : Nat} {x : Desc} (h : s.descs[r]? = some x) : r < s.descs.length :=
  (List.getElem?_eq_some_iff.1 h).1

/-! ### The meanings -/

theorem execIsReady_changes {l : Nat} {e : Idx} {s t : State} (h : execIsReady e s = .next t) : Runs l s t := by
  obtain ⟨v, u, hu, hk⟩ := readStep_next h
  exact done_changes hu hk

theorem execPollAndTransfer_changes {e : Idx} {s t : State} (h : execPollAndTransfer e s = .next t) : Runs 1 s t := by
  unfold execPollAndTransfer at h
  split at h
  · obtain ⟨u, hu, hk⟩ := writeStep_next h
    exact done_changes hu hk
  · obtain ⟨v, u, hu, hk⟩ := readStep_next h
    split at hk <;> exact goOn_changes hu hk

theorem execDmaInit_changes {z : Idx} {s t : State} (h : execDmaInit z s = .next t) : Runs 1 s t := by
  replace h := (guardZero_next h).2
  split at h
  · obtain ⟨v, u, hu, hk⟩ := readStep_next h
    exact goOn_changes hu hk
  · exact goOn_changes (Changes.one (.drvNumCh _)) h
  · exact done_changes (Changes.one (.drvUsable _)) h
  · obtain ⟨v, u, hu, hk⟩ := readStep_next h
    exact goOn_changes hu hk

theorem execDescNew_changes {ch : Idx} {d : Nat} {f : DescFields} {s t : State} (h : execDescNew ch d f s = .next t) :
    Runs 1 s t := by
  obtain ⟨hc, h⟩ := guardIdx_next h
  exact done_changes (Changes.one (.newDesc d _ (by simpa using hc))) h

theorem beginValidated_changes {i : Instr} {r : Nat} {x : Desc} {c : Word} {s t u : State} (hs : Changes 1 s t)
    (h : beginValidated i r x c t = .next u) : Runs 1 s u := by
  unfold beginValidated at h
  repeat' split at h
  all_goals first | exact done_changes hs h | exact goOn_changes hs h | cases h

theorem beginStep_changes {i : Instr} {r : Nat} {x : Desc} {p : BeginPos} {s t : State} (hr : r < s.descs.length)
    (h : beginStep i r x p s = .next t) : Runs 1 s t := by
  cases p <;> simp only [beginStep] at h
  case wait =>
    obtain ⟨v, u, hu, hk⟩ := readStep_next h
    split at hk <;> exact goOn_changes hu hk
  case validate =>
    obtain ⟨v, u, hu, hk⟩ := readStep_next h
    exact beginValidated_changes hu hk
  case slot =>
    exact goOn_changes (Changes.one (.slot _ _ (by intro k hk; cases hk; exact hr))) h
  case clearDoneMask => exact goOn_changes (Changes.one (.doneMask _)) h
  case clearLastMask => exact goOn_changes (Changes.one (.lastMask _)) h
  case clearDone => exact goOn_changes (Changes.one (.descDone _ _)) h
  case goWrite v =>
    obtain ⟨u, hu, hk⟩ := writeStep_next h
    exact done_changes hu hk
  all_goals first
    | (obtain ⟨v, u, hu, hk⟩ := readStep_next h; exact goOn_changes hu hk)
    | (obtain ⟨u, hu, hk⟩ := writeStep_next h; exact goOn_changes hu hk)

theorem execBegin_changes {z : Idx} {d : Nat} {s t : State} (h : execBegin z d s = .next t) : Runs 1 s t := by
  replace h := (guardZero_next h).2
  split at h
  · obtain ⟨x, hx, hk⟩ := withRef_next h
    exact beginStep_changes (descs_lt hx) hk
  · obtain ⟨r, x, -, -, hk⟩ := withDesc_next h
    rcases guardUsable_next hk with ⟨-, rfl⟩ | ⟨-, hk⟩
    · exact ⟨_, .refl, .inr ⟨_, rfl⟩⟩
    · exact goOn_changes .refl (guardIdx_next hk).2

theorem completeStep_changes {l : Nat} {i : Instr} {r : Nat} {x : Desc} {p : CompletePos} {s t : State}
    (h : completeStep i r x p s = .next t) : Runs l s t := by
  cases p <;> simp only [completeStep] at h
  case pollForever =>
    obtain ⟨v, u, hu, hk⟩ := readStep_next h
    split at hk <;> exact goOn_changes hu hk
  case poll n =>
    obtain ⟨v, u, hu, hk⟩ := readStep_next h
    repeat' split at hk
    all_goals exact goOn_changes hu hk
  case waitForever => split at h <;> first | exact done_changes .refl h | exact goOn_changes .refl h
  case wait n => repeat' split at h
                 all_goals first | exact done_changes .refl h | exact goOn_changes .refl h
  case readLen ok =>
    obtain ⟨v, u, hu, hk⟩ := readStep_next h
    exact goOn_changes hu hk
  case setTransferred ok v => exact goOn_changes (Changes.one (.descTransferred _ _)) h
  case setDone ok =>
    split at h
    · exact goOn_changes (Changes.one (.descDone _ _)) h
    · exact done_changes (Changes.one (.descDone _ _)) h
  case callback ok =>
    split at h
    · exact done_changes .refl h
    · obtain ⟨u, hu, hk⟩ := orRefuse_next h
      exact done_changes (runCallback_changes hu) hk

theorem execComplete_changes {l : Nat} {z : Idx} {d : Nat} {n : Word} {s t : State} (h : execComplete z d n s = .next t) :
    Runs l s t := by
  replace h := (guardZero_next h).2
  split at h
  · obtain ⟨x, -, hk⟩ := withRef_next h
    exact completeStep_changes hk
  · obtain ⟨r, x, -, -, hk⟩ := withDesc_next h
    rcases guardUsable_next hk with ⟨-, rfl⟩ | ⟨-, hk⟩
    · exact ⟨_, .refl, .inr ⟨_, rfl⟩⟩
    · repeat' split at hk
      all_goals first | exact goOn_changes .refl hk | exact done_changes .refl hk

theorem execCancel_changes {z : Idx} {d : Nat} {s t : State} (h : execCancel z d s = .next t) : Runs 1 s t := by
  replace h := (guardZero_next h).2
  split at h
  · obtain ⟨x, -, hk⟩ := withRef_next h
    obtain ⟨u, hu, hk⟩ := writeStep_next hk
    exact done_changes hu hk
  · obtain ⟨r, x, -, -, hk⟩ := withDesc_next h
    rcases guardUsable_next hk with ⟨-, rfl⟩ | ⟨-, hk⟩
    · exact ⟨_, .refl, .inr ⟨_, rfl⟩⟩
    · exact goOn_changes .refl (guardIdx_next hk).2

theorem execMgrInit_changes {z : Idx} {s t : State} (h : execMgrInit z s = .next t) : Runs 1 s t := by
  replace h := (guardZero_next h).2
  split at h
  · exact goOn_changes (Changes.one (.slot _ none (by intro r hr; cases hr))) h
  · exact goOn_changes (Changes.one (.doneMask _)) h
  · exact goOn_changes (Changes.one (.lastMask _)) h
  · exact done_changes (Changes.one .present) h
  · rcases guardUsable_next h with ⟨-, rfl⟩ | ⟨-, hk⟩
    · exact ⟨_, .refl, .inr ⟨_, rfl⟩⟩
    · exact goOn_changes .refl hk

/-- The state an `UPDATE` step leads to, where it does not stop. -/
def UpdateFlow.after : UpdateFlow → Option State
  | .go _ s => some s
  | .fin _ s => some s
  | .stop _ => none
  | .refuse _ => none

theorem updateNext_after {ch : Nat} {s t : State} (h : (updateNext ch s).after = some t) : t = s := by
  unfold updateNext at h
  split at h <;> exact (Option.some.inj h).symm

theorem updateAfterDone_after {ch : Nat} {st : Word} {d : Option Nat} {s t : State}
    (h : (updateAfterDone ch st d s).after = some t) : t = s := by
  unfold updateAfterDone at h
  split at h <;> exact (Option.some.inj h).symm

theorem updateRead_after {l : Nat} {w : Who} {r : Reg} {s t : State} {k : Word → State → UpdateFlow}
    (h : (updateRead w r s k).after = some t) : ∃ v u, Changes l s u ∧ (k v u).after = some t := by
  unfold updateRead at h
  split at h
  · rename_i x hx
    exact ⟨x.1, x.2, busRead_changes hx, h⟩
  · cases h

theorem updateStep_changes {l : Nat} {w : Who} {u : UpdatePos} {s t : State} (h : (updateStep w u s).after = some t) :
    Changes l s t := by
  cases u <;> simp only [updateStep] at h
  case enter =>
    repeat' split at h
    all_goals first | (cases h; exact .refl) | cases h
  case gstatus =>
    obtain ⟨v, u, hu, hk⟩ := updateRead_after h
    repeat' split at hk
    all_goals (cases hk; exact hu)
  case chan ch =>
    obtain ⟨v, u, hu, hk⟩ := updateRead_after h
    repeat' split at hk
    · cases hk; exact hu
    · cases hk; exact hu
    · rw [updateNext_after hk]; exact hu
  case markDone ch st d =>
    split at h
    · cases h; exact Changes.one (.doneMask _)
    · rw [updateAfterDone_after h]; exact Changes.one (.doneMask _)
  case readLen ch st r =>
    obtain ⟨v, u, hu, hk⟩ := updateRead_after h
    cases hk; exact hu
  case setTransferred ch st r n => cases h; exact Changes.one (.descTransferred _ _)
  case setDone ch st r => rw [updateAfterDone_after h]; exact Changes.one (.descDone _ _)
  case markLast ch st d => cases h; exact Changes.one (.lastMask _)
  case ack ch st d =>
    split at h
    · cases h
    · rename_i u hu
      split at h
      · cases h; exact ackWrite_changes hu
      · rw [updateNext_after h]; exact ackWrite_changes hu
  case callback ch r =>
    split at h
    · rw [updateNext_after h]
    · split at h
      · rename_i u hu
        rw [updateNext_after h]; exact runCallback_changes hu
      · cases h

theorem runUpdate_changes {l : Nat} {w : Who} {u : UpdatePos} {q : UpdatePos → Pos} {k : ResCode → State → Out} {s t : State}
    (hk : ∀ c v, k c v = .next t → Runs l v t) (h : runUpdate w u q k s = .next t) : Runs l s t := by
  unfold runUpdate at h
  split at h
  · rename_i u' v hv
    exact goOn_changes (updateStep_changes (by rw [hv]; rfl)) h
  · rename_i c v hv
    exact (updateStep_changes (by rw [hv]; rfl)).thenRuns (hk c v h)
  · cases h
  · cases h

theorem execUpdate_changes {l : Nat} {z : Idx} {s t : State} (h : execUpdate z s = .next t) : Runs l s t :=
  runUpdate_changes (fun _ _ hk => done_changes .refl hk) (guardZero_next h).2

theorem icInitBank_changes {i : Instr} {b : Nat} {s t : State} (h : icInitBank i b s = .next t) : Runs 1 s t := by
  obtain ⟨u, hu, hk⟩ := writeStep_next h
  exact goOn_changes hu hk

theorem execIcInit_changes {z : Idx} {s t : State} (h : execIcInit z s = .next t) : Runs 1 s t := by
  replace h := (guardZero_next h).2
  split at h
  · split at h
    · exact icInitBank_changes h
    · obtain ⟨u, hu, hk⟩ := writeStep_next h
      exact done_changes hu hk
    · exact icInitBank_changes h
  · obtain ⟨u, hu, hk⟩ := orFault_next h
    exact done_changes (csrWrite_changes hu) hk

theorem execIcEnable_changes {n : Idx} {s t : State} (h : execIcEnable n s = .next t) : Runs 1 s t := by
  replace h := (guardIdx_next h).2
  split at h
  · split at h
    · obtain ⟨u, hu, hk⟩ := writeStep_next h
      exact goOn_changes hu hk
    · obtain ⟨v, u, hu, hk⟩ := readStep_next h
      exact goOn_changes hu hk
    · obtain ⟨u, hu, hk⟩ := writeStep_next h
      exact done_changes hu hk
    · obtain ⟨v, u, hu, hk⟩ := readStep_next h
      exact goOn_changes hu hk
  · split at h
    · obtain ⟨u, hu, hk⟩ := orFault_next h
      exact done_changes (csrWrite_changes hu) hk
    · obtain ⟨u, -, hk⟩ := orFault_next h
      exact goOn_changes .refl hk

theorem execIcDisable_changes {n : Idx} {s t : State} (h : execIcDisable n s = .next t) : Runs 1 s t := by
  replace h := (guardIdx_next h).2
  split at h
  · split at h
    · obtain ⟨u, hu, hk⟩ := writeStep_next h
      exact done_changes hu hk
    · obtain ⟨v, u, hu, hk⟩ := readStep_next h
      exact goOn_changes hu hk
  · split at h
    · obtain ⟨u, hu, hk⟩ := orFault_next h
      exact done_changes (csrWrite_changes hu) hk
    · obtain ⟨u, -, hk⟩ := orFault_next h
      exact goOn_changes .refl hk

theorem execIcPriorityCount_changes {l : Nat} {z : Idx} {s t : State} (h : execIcPriorityCount z s = .next t) : Runs l s t := by
  replace h := (guardZero_next h).2
  split at h <;> exact done_changes .refl h

theorem execIcSetPriority_changes {n : Idx} {level : Word} {s t : State}
    (h : execIcSetPriority n level s = .next t) : Runs 1 s t := by
  unfold execIcSetPriority at h
  split at h
  · exact done_changes .refl h
  · replace h := (guardIdx_next h).2
    split at h
    · cases h
    · obtain ⟨u, hu, hk⟩ := writeStep_next h
      exact done_changes hu hk

theorem irqAfter_changes {l : Nat} {n : Nat} {s t : State} (h : irqAfter n s = .next t) : Runs l s t := by
  unfold irqAfter at h
  split at h
  · exact goOn_changes .refl h
  · exact done_changes .refl h

theorem execDispatch_changes {l : Nat} {n : Idx} {s t : State} (h : execDispatch n s = .next t) : Runs l s t := by
  unfold execDispatch at h
  split at h
  · exact runUpdate_changes (fun _ _ hk => done_changes .refl hk) h
  · exact done_changes .refl h

theorem irqFirst_changes {l : Nat} {i : Instr} {s t : State} (h : irqFirst i s = .next t) : Runs l s t := by
  unfold irqFirst at h
  split at h
  · obtain ⟨v, u, hu, hk⟩ := readStep_next h
    split at hk
    · exact done_changes hu hk
    · exact goOn_changes hu hk
  · obtain ⟨u, -, hk⟩ := orFault_next h
    exact goOn_changes .refl hk

theorem execIrqEntry_changes {l : Nat} {z : Idx} {s t : State} (h : execIrqEntry z s = .next t) : Runs l s t := by
  replace h := (guardZero_next h).2
  split at h
  · obtain ⟨u, -, hk⟩ := orFault_next h
    split at hk
    · exact done_changes .refl hk
    · exact goOn_changes .refl hk
  · rename_i n _
    unfold irqDispatch at h
    split at h
    · exact goOn_changes (Changes.one (.emit _)) h
    · exact (Changes.one (.emit (.irq n))).thenRuns (irqAfter_changes h)
  · exact runUpdate_changes (fun _ _ hk => irqAfter_changes hk) h
  · obtain ⟨u, hu, hk⟩ := orFault_next h
    exact done_changes (completeWrite_changes hu) hk
  · exact irqFirst_changes h

/-- Every step of every operation is a chain of small changes. -/
theorem exec_changes {i : Instr} {s t : State} (h : exec i s = .next t) : Runs 1 s t := by
  cases i <;> simp only [exec] at h
  case isReady e => exact execIsReady_changes h
  case pollAndTransfer e => exact execPollAndTransfer_changes h
  case dmaInit z => exact execDmaInit_changes h
  case mgrInit z => exact execMgrInit_changes h
  case descNew ch d f => exact execDescNew_changes h
  case beginXfer z d => exact execBegin_changes h
  case completeXfer z d n => exact execComplete_changes h
  case cancelXfer z d => exact execCancel_changes h
  case update z => exact execUpdate_changes h
  case icInit z => exact execIcInit_changes h
  case icEnable n => exact execIcEnable_changes h
  case icDisable n => exact execIcDisable_changes h
  case icPriorityCount z => exact execIcPriorityCount_changes h
  case icSetPriority n level => exact execIcSetPriority_changes h
  case dispatch n => exact execDispatch_changes h
  case irqEntry z => exact execIrqEntry_changes h
  all_goals first
    | exact readOp_changes h
    | exact writeOp_changes h
    | exact readOp_changes (guardZero_next h).2
    | exact writeOp_changes (guardZero_next h).2
    | exact readOp_changes (guardUnit_next h).2
    | exact writeOp_changes (guardUnit_next h).2
    | exact readOp_changes (guardZero_next (guardUnit_next h).2).2
    | exact writeOp_changes (guardZero_next (guardUnit_next h).2).2
    | exact csrReadOp_changes (guardZero_next (guardUnit_next h).2).2
    | exact csrWriteOp_changes (guardZero_next (guardUnit_next h).2).2

/-! ### The plain items, the hardware agents, and the step -/

theorem readByte_changes {l : Nat} (s : State) (a : Word) : Changes l s (s.readByte a).2 := by
  rcases State.readByte_cases s a with ⟨b, -, h⟩ | ⟨-, h⟩ <;> rw [h]
  exact Changes.one .drew

theorem readBytes_changes {l : Nat} (n : Nat) : ∀ (s : State) (a : Word), Changes l s (s.readBytes a n).2 := by
  induction n with
  | zero => intro s a; exact .refl
  | succ n ih => intro s a; exact (readByte_changes s a).trans (ih _ _)

theorem writeBytes_changes (n : Nat) : ∀ (s : State) (a v : Word), Changes 2 s (s.writeBytes a v n) := by
  induction n with
  | zero => intro s a v; exact .refl
  | succ n ih => intro s a v; exact (Changes.one (.writeByte _ _)).trans (ih _ _ _)

theorem plainLoad_changes {a : Word} {width : Width} {s t : State} (h : plainLoad a width s = .next t) :
    Runs 2 s t := by
  unfold plainLoad at h
  split at h
  · exact done_changes ((readBytes_changes _ _ _).then (.emit _)) h
  · obtain ⟨x, hx, hk⟩ := orFault_next h
    exact done_changes (busRead_changes hx) hk
  · cases h

theorem plainStore_changes {a : Word} {width : Width} {v : Word} {s t : State}
    (h : plainStore a width v s = .next t) : Runs 2 s t := by
  unfold plainStore at h
  split at h
  · exact done_changes ((writeBytes_changes _ _ _ _).then (.emit _)) h
  · obtain ⟨x, hx, hk⟩ := orFault_next h
    exact done_changes ((busWrite_changes hx).mono (by decide)) hk
  · cases h

theorem plainRunCode_changes {a : Word} {n : Nat} {s t : State} (h : plainRunCode a n s = .next t) : Runs 2 s t := by
  unfold plainRunCode at h
  split at h
  · cases h
  · exact done_changes .refl h

/-- A step of the item MAIN executes. -/
theorem itemStep_changes {m : Item} {s t : State} (h : itemStep m s = .next t) : Runs 2 s t := by
  unfold itemStep at h
  split at h
  · split at h
    · exact (exec_changes h).mono (by decide)
    · cases h
  · exact plainLoad_changes h
  · exact plainStore_changes h
  · exact plainRunCode_changes h

theorem cpuStep_changes {s t : State} (h : cpuStep s = .next t) : Changes 3 s t := by
  unfold cpuStep at h
  split at h
  · exact (exec_changes h).changes (by decide)
  · split at h
    · cases h; exact .refl
    · exact (itemStep_changes h).changes (by decide)

theorem moveByte_changes (ch : Nat) (s : State) : Changes 3 s (moveByte ch s) := by
  unfold moveByte
  simp only
  split
  · exact ((Changes.one .drew).then (.writeByte _ _)).then (.emit _)
  · exact (readByte_changes _ _).then (.emit _)

/-- Moving a byte leaves the channels, the parameters and the registers as they are. -/
theorem moveByte_chan (ch : Nat) (s : State) (k : Nat) : (moveByte ch s).chan k = s.chan k := by
  unfold moveByte
  simp only
  split
  · simp
  · rcases State.readByte_cases s (s.chan ch).nextAddr with ⟨b, -, h⟩ | ⟨-, h⟩ <;> simp [h]

theorem moveByte_cfg (ch : Nat) (s : State) : (moveByte ch s).cfg = s.cfg := by
  unfold moveByte
  simp only
  split
  · simp
  · rcases State.readByte_cases s (s.chan ch).nextAddr with ⟨b, -, h⟩ | ⟨-, h⟩ <;> simp [h]

theorem countByte_changes {ch : Nat} {s : State} (hc : ch < s.cfg.numCh) (hb : (s.chan ch).phase = .busy)
    (hl : (s.chan ch).doneLen < (s.chan ch).len) : Change 3 s (s.countByte ch) :=
  .chan ch _ hc (.byte hb hl)

theorem eProgress_changes {ch : Nat} {s t : State} (h : eProgress ch s = .next t) : Changes 3 s t := by
  unfold eProgress at h
  simp only at h
  split at h
  · rename_i hc
    split at h
    · cases h; exact Changes.one (countByte_changes hc.1 hc.2.1 hc.2.2)
    · split at h
      · cases h
      · cases h
        refine (moveByte_changes ch s).then (countByte_changes ?_ ?_ ?_)
        · rw [moveByte_cfg]; exact hc.1
        · rw [moveByte_chan]; exact hc.2.1
        · rw [moveByte_chan]; exact hc.2.2
  · cases h; exact .refl

/-- Every step of every agent is a chain of small changes. -/
theorem stepOf_changes {c : Choice} {s t : State} (h : stepOf c s = .next t) : Changes 3 s t := by
  cases c <;> simp only [stepOf] at h
  case cpu => exact cpuStep_changes h
  case eProgress ch => exact eProgress_changes h
  case irqEntry =>
    unfold irqTake at h
    split at h <;> cases h
    · exact Changes.one (.takeIrq (by assumption))
    · exact .refl
  case spReady e =>
    unfold spReady at h
    split at h <;> cases h
    · rename_i hc; exact Changes.one (.raiseReady e hc.1 hc.2)
    · exact .refl
  case spError e =>
    unfold spError at h
    split at h <;> cases h
    · rename_i hc; exact (Changes.one .drew).then (.error e hc _)
    · exact .refl
  case eReady ch =>
    unfold eReady at h
    split at h <;> cases h
    · rename_i hc; exact Changes.one (.chan ch _ hc.1 (.ready hc.2.1 hc.2.2))
    · exact .refl
  case eLast ch =>
    unfold eLast at h
    split at h <;> cases h
    · rename_i hc; exact Changes.one (.chan ch _ hc.1 (.last hc.2))
    · exact .refl
  case eComplete ch =>
    unfold eComplete at h
    split at h <;> cases h
    · rename_i hc; exact Changes.one (.chan ch _ hc.1 (.complete hc.2))
    · exact .refl
  case gwLatch n =>
    unfold gwLatch at h
    split at h <;> cases h
    · rename_i hc; exact Changes.one (.src n _ hc.2.1 hc.2.2.1 (.latch hc.2.2.2.2.1 hc.2.2.2.2.2))
    · exact .refl
  case envLine n level =>
    unfold envLine at h
    split at h <;> cases h
    · rename_i hc; exact Changes.one (.line n level hc.2)
    · exact .refl
  case envCpuIe on => cases h; exact Changes.one (.cpuIe on)

/-- Every step of the machine is a chain of small changes. -/
theorem step_changes {s t : State} (h : step s = .next t) : Changes 3 s t :=
  (Changes.one .chosen).trans (stepOf_changes h)

/-- A property kept by every small change is kept by every step. -/
theorem step_keeps {P : State → Prop} (hP : ∀ s t, Change 3 s t → P s → P t) {s t : State} (h : step s = .next t)
    (hs : P s) : P t := (step_changes h).keeps hP hs

end Sys2Proof.Machine
end

