-- ==== Sys2Proof/Laws/Access.lean ====
section
/-! SUPPORT. What a bus or CSR access never touches, a channel after a channel is replaced, and what the multi-byte
accesses of ordinary memory leave, and what the latest write of a byte is. -/

namespace Sys2Proof.Machine

open Sys2Proof

/-- What no access to a register changes: the driver, the manager, the descriptors, the parameters, the positions, the
program and ordinary memory. -/
abbrev State.SameDriver (s t : State) : Prop :=
  t.drvUsable = s.drvUsable ∧ t.drvNumCh = s.drvNumCh ∧ t.mgr = s.mgr ∧ t.descs = s.descs ∧ t.cfg = s.cfg ∧
  t.mainPos = s.mainPos ∧ t.isrPos = s.isrPos ∧ t.isrActive = s.isrActive ∧ t.prog = s.prog ∧ t.mem = s.mem

theorem writeReg_sameDriver {i : FaultInfo} {r : Reg} {v : Word} {s t : State} (h : writeReg i r v s = .ok t) :
    s.SameDriver t := by
  cases r <;> simp only [writeReg, streamCtrlWrite, chCtrlWrite, chanWriteIdle, claimWrite] at h <;>
    (repeat' split at h) <;>
    first
    | (cases h; exact ⟨rfl, rfl, rfl, rfl, rfl, rfl, rfl, rfl, rfl, rfl⟩)
    | cases h

theorem busWrite_sameDriver {w : Who} {r : Reg} {v : Word} {s t : State} (h : busWrite w r v s = .ok t) :
    s.SameDriver t := by
  obtain ⟨_, h⟩ := busWrite_ok h
  have := writeReg_sameDriver h
  exact this

theorem readReg_sameDriver (r : Reg) (s : State) : s.SameDriver (readReg r s).2 := by
  cases r <;> simp only [readReg] <;> (try split) <;> (try unfold State.claim) <;> (try split) <;>
    exact ⟨rfl, rfl, rfl, rfl, rfl, rfl, rfl, rfl, rfl, rfl⟩

theorem busRead_sameDriver {w : Who} {r : Reg} {s : State} {x : Word × State} (h : busRead w r s = .ok x) :
    s.SameDriver x.2 := by
  obtain ⟨_, _, h⟩ := busRead_ok h
  have := readReg_sameDriver r s
  rw [h]
  exact this

theorem csrWrite_sameDriver {w : Who} {n : Nat} {v : Word} {s t : State} (h : csrWrite w n v s = .ok t) :
    s.SameDriver t := by
  unfold csrWrite at h
  split at h
  · cases h; exact ⟨rfl, rfl, rfl, rfl, rfl, rfl, rfl, rfl, rfl, rfl⟩
  · split at h <;> cases h

/-- A channel of a state in which channel `k` was replaced. -/
theorem setChan_chan (s : State) (k : Nat) (c : Chan) (ch : Nat) :
    (s.setChan k c).chan ch = if k = ch ∧ ch < s.chans.length then c else s.chan ch := by
  unfold State.setChan State.chan
  simp only [List.getD_eq_getElem?_getD, List.getElem?_set]
  split
  · rename_i h; subst h
    split
    · rename_i h; simp [h]
    · rename_i h; simp [h]
  · rename_i h; simp [h]

/-! ### Multi-byte accesses of ordinary memory (R38) -/

theorem Word.add_ofNat_succ (a : Word) (k : Nat) : a + 1 + BitVec.ofNat 32 k = a + BitVec.ofNat 32 (k + 1) := by
  rw [BitVec.ofNat_add, BitVec.add_assoc, BitVec.add_comm 1]; rfl

/-- A multi-byte write changes no byte outside its range. -/
theorem writeBytes_other (n : Nat) : ∀ (s : State) (a v : Word) (x : Nat),
    (∀ k < n, x ≠ (a + BitVec.ofNat 32 k).toNat) → Mem.lookup x (s.writeBytes a v n).mem = Mem.lookup x s.mem := by
  induction n with
  | zero => intro s a v x _; rfl
  | succ n ih =>
    intro s a v x h
    have h0 : x ≠ a.toNat := by simpa using h 0 (by omega)
    have := ih (s.writeByte a (v.setWidth 8)) (a + 1) (v >>> 8) x
      (fun k hk => by rw [Word.add_ofNat_succ]; exact h (k + 1) (by omega))
    rw [← Mem.lookup_insert_other (v.setWidth 8) s.mem h0]
    exact this

/-- A multi-byte write changes nothing but memory. -/
theorem writeBytes_eq (n : Nat) : ∀ (s : State) (a v : Word),
    s.writeBytes a v n = { s with mem := (s.writeBytes a v n).mem } := by
  induction n with
  | zero => intro s a v; rfl
  | succ n ih => intro s a v; exact ih (s.writeByte a (v.setWidth 8)) (a + 1) (v >>> 8)

/-- What an access to `n` bytes outside every unit reaches. -/
theorem target_memory {p : Params} {a : Word} {n : Nat} :
    Params.target p a n = .memory ↔ ∀ k < n, p.inUnit (a + BitVec.ofNat 32 k).toNat = false := by
  constructor
  · intro h
    unfold Params.target at h
    split at h
    · split at h
      · split at h <;> cases h
      · cases h
    · rename_i hh; simpa using hh
  · intro h
    unfold Params.target
    rw [if_neg]
    simpa using h

/-! ### The latest write of a byte (R50) -/

/-- An event that does not write the byte decides nothing. -/
theorem dmaWrote_cons_of_not_writes {x : Word} {e : Event} {l : List Event} (h : eventWrites x e = false) :
    dmaWrote x (e :: l) = dmaWrote x l := by
  cases e <;> first | rfl | skip
  · simp only [eventWrites] at h; simp only [dmaWrote, h]; rfl
  · simp only [eventWrites] at h; simp only [dmaWrote]; rw [if_neg (fun h' => of_decide_eq_false h h'.symm)]

/-- What the refusal of R50 asks of the history: the latest write of the byte is an engine's. -/
theorem dmaWrote_iff (x : Word) (l : List Event) : dmaWrote x l = true ↔ EngineWroteLast x l := by
  induction l with
  | nil =>
    constructor
    · intro h; cases h
    · rintro ⟨l, ch, b, e, h, _⟩; simp at h
  | cons e l ih =>
    cases he : eventWrites x e with
    | false =>
      rw [dmaWrote_cons_of_not_writes he, ih]
      constructor
      · rintro ⟨p, ch, b, q, rfl, hp⟩
        exact ⟨e :: p, ch, b, q, rfl, fun y hy => by rcases List.mem_cons.1 hy with rfl | hy; exact he; exact hp y hy⟩
      · rintro ⟨p, ch, b, q, h, hp⟩
        cases p with
        | nil => simp only [List.nil_append, List.cons.injEq] at h; rw [h.1] at he; simp [eventWrites] at he
        | cons y p =>
          simp only [List.cons_append, List.cons.injEq] at h
          exact ⟨p, ch, b, q, h.2, fun z hz => hp z (List.mem_cons_of_mem _ hz)⟩
    | true =>
      constructor
      · intro h
        cases e <;> simp [eventWrites] at he
        · simp [dmaWrote, he] at h
        · subst he; exact ⟨[], _, _, l, rfl, by simp⟩
      · rintro ⟨p, ch, b, q, h, hp⟩
        cases p with
        | nil => simp only [List.nil_append, List.cons.injEq] at h; rw [h.1]; simp [dmaWrote]
        | cons y p =>
          simp only [List.cons_append, List.cons.injEq] at h
          have := hp y List.mem_cons_self; rw [← h.1, he] at this; cases this

end Sys2Proof.Machine
end

