-- ==== Sys2Proof/Laws/Bits.lean ====
section
/-! SUPPORT. The bits of every register format: what each bit of a packed word is. -/

namespace Sys2Proof

theorem ofBits_getLsbD (f : Nat → Bool) (n k : Nat) : (ofBits f n).getLsbD k = (decide (k < n) && f k) := by
  induction n with
  | zero => simp [ofBits]
  | succ n ih =>
    rw [ofBits, BitVec.getLsbD_cons, ih]
    rcases Nat.lt_trichotomy k n with h | h | h
    · simp [Nat.ne_of_lt h, h, Nat.lt_succ_of_lt h]
    · simp [h]
    · have h1 : ¬ k < n := by omega
      have h2 : ¬ k < n + 1 := by omega
      have h3 : k ≠ n := by omega
      simp [h1, h2, h3]

theorem lowMask_getLsbD {n k : Nat} (hn : n ≤ 32) : (lowMask n).getLsbD k = decide (k < n) := by
  simp only [lowMask, BitVec.getLsbD_ofNat, Nat.testBit_two_pow_sub_one]
  by_cases h : k < n
  · simp [h]; omega
  · simp [h]

theorem bit_getLsbD (n k : Nat) : (bit n).getLsbD k = (decide (k < 32) && decide (k = n)) := by
  simp only [bit, BitVec.getLsbD_shiftLeft, BitVec.getLsbD_one]
  by_cases h1 : k < 32
  · by_cases h2 : k < n
    · have : k ≠ n := by omega
      simp [h1, h2, this]
    · by_cases h3 : k = n
      · subst h3; simp [h1]
      · have h4 : ¬ k - n = 0 := by omega
        simp [h1, h2, h3, h4]
  · simp [h1]

/-- A word below `2^n` has no bit at or above `n`. -/
theorem getLsbD_of_toNat_lt {w n k : Nat} (x : BitVec w) (hx : x.toNat < 2 ^ n) (h : n ≤ k) : x.getLsbD k = false :=
  Nat.testBit_lt_two_pow (Nat.lt_of_lt_of_le hx (Nat.pow_le_pow_right (by decide) h))

@[simp] theorem streamCtrlWord_ready (a b c d : Bool) : (streamCtrlWord a b c d).getLsbD 0 = a := by
  revert a b c d; decide
@[simp] theorem streamCtrlWord_xfer (a b c d : Bool) : (streamCtrlWord a b c d).getLsbD 1 = b := by
  revert a b c d; decide
@[simp] theorem streamCtrlWord_dir (a b c d : Bool) : (streamCtrlWord a b c d).getLsbD 2 = c := by
  revert a b c d; decide
@[simp] theorem streamCtrlWord_error (a b c d : Bool) : (streamCtrlWord a b c d).getLsbD 3 = d := by
  revert a b c d; decide
theorem streamCtrlWord_reserved (a b c d : Bool) {k : Nat} (h : 4 ≤ k) :
    (streamCtrlWord a b c d).getLsbD k = false :=
  getLsbD_of_toNat_lt (n := 4) _ (by revert a b c d; decide) h

@[simp] theorem chCtrlWord_irqDone (a b c d e f g : Bool) : (chCtrlWord a b c d e f g).getLsbD 0 = a := by
  revert a b c d e f g; decide
@[simp] theorem chCtrlWord_irqLast (a b c d e f g : Bool) : (chCtrlWord a b c d e f g).getLsbD 1 = b := by
  revert a b c d e f g; decide
@[simp] theorem chCtrlWord_tsfr (a b c d e f g : Bool) : (chCtrlWord a b c d e f g).getLsbD 2 = c := by
  revert a b c d e f g; decide
@[simp] theorem chCtrlWord_tsfrDone (a b c d e f g : Bool) : (chCtrlWord a b c d e f g).getLsbD 3 = d := by
  revert a b c d e f g; decide
@[simp] theorem chCtrlWord_dir (a b c d e f g : Bool) : (chCtrlWord a b c d e f g).getLsbD 4 = e := by
  revert a b c d e f g; decide
@[simp] theorem chCtrlWord_mode (a b c d e f g : Bool) : (chCtrlWord a b c d e f g).getLsbD 5 = f := by
  revert a b c d e f g; decide
@[simp] theorem chCtrlWord_rdy (a b c d e f g : Bool) : (chCtrlWord a b c d e f g).getLsbD 6 = g := by
  revert a b c d e f g; decide
theorem chCtrlWord_reserved (a b c d e f g : Bool) {k : Nat} (h : 7 ≤ k) :
    (chCtrlWord a b c d e f g).getLsbD k = false :=
  getLsbD_of_toNat_lt (n := 7) _ (by revert a b c d e f g; decide) h

@[simp] theorem twoBitWord_bit0 (a b : Bool) : (twoBitWord a b).getLsbD 0 = a := by
  revert a b; decide
@[simp] theorem twoBitWord_bit1 (a b : Bool) : (twoBitWord a b).getLsbD 1 = b := by
  revert a b; decide
theorem twoBitWord_reserved (a b : Bool) {k : Nat} (h : 2 ≤ k) :
    (twoBitWord a b).getLsbD k = false :=
  getLsbD_of_toNat_lt (n := 2) _ (by revert a b; decide) h

theorem twoBitWord_eq_zero (a b : Bool) : twoBitWord a b = 0 ↔ a = false ∧ b = false := by
  revert a b; decide

theorem bankWord_getLsbD (p : Params) (b : Nat) (f : Nat → Bool) (k : Nat) :
    (p.bankWord b f).getLsbD k =
      (decide (k < 32) && (decide (1 ≤ 32 * b + k) && decide (32 * b + k < p.numSources) && f (32 * b + k))) := by
  rw [Params.bankWord, ofBits_getLsbD]

end Sys2Proof
end

