-- ==== Sys2Proof/Laws/Encode.lean ====
section
/-! SUPPORT. The two fields of an operation word: what each of them reads from a word built from both, and back. -/

namespace Sys2Proof

@[simp] theorem opField_opWord (op : BitVec 8) (i : Idx) : opField (opWord op i) = op := by
  apply BitVec.eq_of_getLsbD_eq
  intro k hk
  simp only [opField, opWord, BitVec.getLsbD_extractLsb', BitVec.getLsbD_append]
  simp [hk]

@[simp] theorem idxField_opWord (op : BitVec 8) (i : Idx) : idxField (opWord op i) = i := by
  apply BitVec.eq_of_getLsbD_eq
  intro k hk
  simp only [idxField, opWord, BitVec.getLsbD_extractLsb', BitVec.getLsbD_append]
  simp [hk]

/-- A word is its two fields (R57). -/
theorem opWord_fields (w : OpWord) : opWord (opField w) (idxField w) = w := by
  apply BitVec.eq_of_getLsbD_eq
  intro k hk
  simp only [opField, idxField, opWord, BitVec.getLsbD_extractLsb', BitVec.getLsbD_append]
  by_cases h : k < 24
  · simp [h]
  · have h1 : k - 24 < 8 := by omega
    have h2 : 24 + (k - 24) = k := by omega
    simp [h, h1, h2]

end Sys2Proof
end

