-- ==== Sys2Proof/Laws/Ops.lean ====
section
/-! SUPPORT. The shared operations where they go through: one equation per guard, access and write rule, so that a
meaning is followed without unfolding it. Laws/Change.lean says the converse, what a step that answered can have done. -/

namespace Sys2Proof.Machine

open Sys2Proof

/-! ### Guards -/

theorem guardIdx_true {i : Instr} {c : Bool} {s : State} {k : Out} (h : c = true) : guardIdx i c s k = k := by
  simp [guardIdx, h]

theorem guardIdx_false {i : Instr} {c : Bool} {s : State} {k : Out} (h : c = false) :
    guardIdx i c s k = .fault (.badIndex (s.who i).noAddr) := by
  simp [guardIdx, h]

@[simp] theorem guardZero_zero (i : Instr) (s : State) (k : Out) : guardZero i 0 s k = k := by
  simp [guardZero, guardIdx]

theorem guardUnit_present {i : Instr} {v : Variant} {s : State} {k : Out} (h : s.cfg.variant = v) :
    guardUnit i v s k = k := by
  simp [guardUnit, h]

theorem guardUsable_true {s : State} {k : Out} (h : s.drvUsable = true) : guardUsable s k = k := by
  simp [guardUsable, h]

theorem guardUsable_false {s : State} {k : Out} (h : s.drvUsable = false) :
    guardUsable s k = .next (s.ret (.code .unusable)) := by
  simp [guardUsable, h, done]

theorem withRef_some {i : Instr} {r : Nat} {s : State} {x : Desc} {k : Desc → Out} (h : s.descs[r]? = some x) :
    withRef i r s k = k x := by
  simp [withRef, h]

theorem withDesc_some {i : Instr} {d r : Nat} {s : State} {x : Desc} {k : Nat → Desc → Out} (h : s.refOf d = some r)
    (hx : s.descs[r]? = some x) : withDesc i d s k = k r x := by
  simp [withDesc, h, hx]

theorem withDesc_none {i : Instr} {d : Nat} {s : State} {k : Nat → Desc → Out} (h : s.refOf d = none) :
    withDesc i d s k = .fault (.badDescriptor (s.who i).noAddr) := by
  simp [withDesc, h]

/-- A bound name's descriptor exists. -/
theorem refOf_desc {s : State} {d r : Nat} (h : s.refOf d = some r) : ∃ x, s.descs[r]? = some x := by
  unfold State.refOf at h
  split at h
  · split at h
    · cases h; exact ⟨_, List.getElem?_eq_getElem (by assumption)⟩
    · cases h
  · cases h

/-! ### Which registers exist -/

@[simp] theorem ofRange_true : RegCheck.ofRange true = .present := rfl
@[simp] theorem ofRange_false : RegCheck.ofRange false = .badIndex := rfl

theorem check_stream {p : Params} {e : Nat} (h : e ≤ 1) :
    Reg.check p (.streamCtrl e) = .present ∧ Reg.check p (.streamData e) = .present := by
  simp [Reg.check, h]

theorem check_chan {p : Params} {ch : Nat} (h : ch < p.numCh) :
    Reg.check p (.chCtrl ch) = .present ∧ Reg.check p (.chBase ch) = .present ∧ Reg.check p (.chLen ch) = .present ∧
      Reg.check p (.chDoneLen ch) = .present ∧ Reg.check p (.chIstat ch) = .present := by
  simp [Reg.check, h]

@[simp] theorem check_header (p : Params) :
    Reg.check p .chCount = .present ∧ Reg.check p .chOff = .present ∧ Reg.check p .gmask = .present ∧
      Reg.check p .gstatus = .present := by
  simp [Reg.check]

theorem check_source {p : Params} {n : Nat} (hv : p.variant = .banked) (h0 : n ≠ 0) (h : n < p.numSources) :
    Reg.check p (.prio n) = .present := by
  simp [Reg.check, Params.plicCheck, hv, h0, h]

theorem check_bank {p : Params} {b : Nat} (hv : p.variant = .banked) (h : b < p.numBanks) :
    Reg.check p (.pend b) = .present ∧ Reg.check p (.en b) = .present := by
  simp [Reg.check, Params.plicCheck, hv, h]

theorem check_banked {p : Params} (hv : p.variant = .banked) :
    Reg.check p .thr = .present ∧ Reg.check p .claim = .present := by
  simp [Reg.check, Params.plicCheck, hv]

/-- A source that exists lies in a bank that exists. -/
theorem bank_of_source {p : Params} {n : Nat} (h : n < p.numSources) : n / 32 < p.numBanks := by
  unfold Params.numBanks; omega

/-! ### Accesses of registers that exist -/

theorem busRead_present {w : Who} {r : Reg} {s : State} (h : r.check s.cfg = .present) :
    busRead w r s =
      .ok ((readReg r s).1, (readReg r s).2.emit (.bus w.agent false (r.addr s.cfg) 4 (readReg r s).1)) := by
  simp [busRead, h]

theorem busWrite_present {w : Who} {r : Reg} {v : Word} {s : State} (h : r.check s.cfg = .present) :
    busWrite w r v s =
      writeReg (w.atAddr (r.addr s.cfg)) r v (s.emit (.bus w.agent true (r.addr s.cfg) 4 v)) := by
  simp [busWrite, h]

@[simp] theorem who_agent (s : State) (i : Instr) : (s.who i).agent = s.cur := rfl

/-- A read step of a register whose read changes nothing. -/
theorem readStep_plain {i : Instr} {r : Reg} {s : State} {v : Word} {k : Word → State → Out}
    (h : r.check s.cfg = .present) (hr : readReg r s = (v, s)) : readStep i r s k = k v (s.sawRead r v) := by
  simp [readStep, busRead_present h, hr, orFault, State.sawRead]

/-- A read of the stream control word takes a draw for DO_TRANSFER. -/
theorem readStep_streamCtrl {i : Instr} {e : Nat} {s : State} {k : Word → State → Out} (h : e ≤ 1) :
    readStep i (.streamCtrl e) s k =
      k (streamCtrlWord (s.ep e).ready s.drawBit (e = 1) (s.ep e).error)
        (s.drew.sawRead (.streamCtrl e) (streamCtrlWord (s.ep e).ready s.drawBit (e = 1) (s.ep e).error)) := by
  simp [readStep, busRead_present (check_stream h).1, readReg, orFault, State.sawRead]

/-- A write step of a register whose write rule goes through. -/
theorem writeStep_ok {i : Instr} {r : Reg} {v : Word} {s t : State} {k : State → Out}
    (h : r.check s.cfg = .present)
    (hw : writeReg ((s.who i).atAddr (r.addr s.cfg)) r v (s.sawWrite r v) = .ok t) : writeStep i r v s k = k t := by
  rw [State.sawWrite] at hw
  simp only [writeStep, busWrite_present h, who_agent, hw, orFault]

theorem writeStep_fault {i : Instr} {r : Reg} {v : Word} {s : State} {f : Fault} {k : State → Out}
    (h : r.check s.cfg = .present)
    (hw : writeReg ((s.who i).atAddr (r.addr s.cfg)) r v (s.sawWrite r v) = .error f) : writeStep i r v s k = .fault f := by
  rw [State.sawWrite] at hw
  simp only [writeStep, busWrite_present h, who_agent, hw, orFault]

/-- An operation that is one read of a register whose read changes nothing. -/
theorem readOp_plain {i : Instr} {r : Reg} {s : State} {v : Word} (h : r.check s.cfg = .present)
    (hr : readReg r s = (v, s)) : readOp i r s = .next ((s.sawRead r v).ret (.word v)) := by
  simp only [readOp, busRead_present h, hr, orFault, State.sawRead, who_agent, done]

/-- An operation that is one write of a register whose write rule goes through. -/
theorem writeOp_ok {i : Instr} {r : Reg} {v : Word} {s t : State} (h : r.check s.cfg = .present)
    (hw : writeReg ((s.who i).atAddr (r.addr s.cfg)) r v (s.sawWrite r v) = .ok t) :
    writeOp i r v s = .next (t.ret .unit) := by
  rw [State.sawWrite] at hw
  simp only [writeOp, busWrite_present h, who_agent, hw, orFault, done]

theorem writeOp_fault {i : Instr} {r : Reg} {v : Word} {s : State} {f : Fault} (h : r.check s.cfg = .present)
    (hw : writeReg ((s.who i).atAddr (r.addr s.cfg)) r v (s.sawWrite r v) = .error f) : writeOp i r v s = .fault f := by
  rw [State.sawWrite] at hw
  simp only [writeOp, busWrite_present h, who_agent, hw, orFault]

/-! ### The write rule of STREAM_CTRL (R66) -/

/-- A bit of a word under a mask of the low `n` bits. -/
theorem and_lowMask_getLsbD (d : Word) (n : Nat) {k : Nat} (hk : k < 32) :
    (d &&& lowMask n).getLsbD k = (decide (k < n) && d.getLsbD k) := by
  rw [BitVec.getLsbD_and, lowMask, BitVec.getLsbD_ofNat, Nat.testBit_two_pow_sub_one, Bool.and_comm]
  simp [hk]

/-- An accepted input pulse. -/
theorem streamCtrlWrite_in {i : FaultInfo} {s : State} {v : Word} (hv : v.getLsbD 1 = true) (hr : s.ep0.ready = true) :
    streamCtrlWrite i 0 v s =
      .ok ((s.drew.emit (.streamIn (s.ep0.data &&& s.cfg.inMask))).setEp 0 { s.ep0 with ready := s.drawBit }) := by
  have : (s.ep 0).ready = true := hr
  simp only [streamCtrlWrite, hv, this, if_true]
  rfl

/-- An accepted output pulse. -/
theorem streamCtrlWrite_out {i : FaultInfo} {s : State} {v : Word} (hv : v.getLsbD 1 = true) (hr : s.ep1.ready = true) :
    streamCtrlWrite i 1 v s =
      .ok ((s.drew.drew.emit (.streamOut (Config.spout s.hist s.draws &&& s.cfg.outMask))).setEp 1
        { s.ep1 with data := Config.spout s.hist s.draws &&& s.cfg.outMask, ready := s.drew.drawBit }) := by
  have : (s.ep 1).ready = true := hr
  simp only [streamCtrlWrite, hv, this, if_true]
  rfl

theorem streamCtrlWrite_notReady {i : FaultInfo} {e : Nat} {s : State} {v : Word} (hv : v.getLsbD 1 = true)
    (hr : (s.ep e).ready = false) : streamCtrlWrite i e v s = .error (.streamPulseNotReady i) := by
  simp only [streamCtrlWrite, hv, hr, if_true, Bool.false_eq_true, if_false]

theorem streamCtrlWrite_noPulse {i : FaultInfo} {e : Nat} {s : State} {v : Word} (hv : v.getLsbD 1 = false) :
    streamCtrlWrite i e v s = .ok s := by
  simp only [streamCtrlWrite, hv, Bool.false_eq_true, if_false]

/-! ### The write rule of CH_CTRL (R84) -/

theorem chCtrlWrite_noGo {i : FaultInfo} {ch : Nat} {v : Word} {s : State} (h : v.getLsbD 2 = false) :
    chCtrlWrite i ch v s = .ok (s.setChan ch ((s.chan ch).ctrlWritten v)) := by
  simp only [chCtrlWrite, h, Bool.false_eq_true, if_false]

theorem chCtrlWrite_busy {i : FaultInfo} {ch : Nat} {v : Word} {s : State} (h : v.getLsbD 2 = true)
    (hb : (s.chan ch).phase = .busy) : chCtrlWrite i ch v s = .error (.dmaWriteWhileBusy i) := by
  simp [chCtrlWrite, h, hb]

theorem chCtrlWrite_notReady {i : FaultInfo} {ch : Nat} {v : Word} {s : State} (h : v.getLsbD 2 = true)
    (hb : (s.chan ch).phase = .idle) (hr : (s.chan ch).rdy = false) :
    chCtrlWrite i ch v s = .error (.dmaGoNotReady i) := by
  simp [chCtrlWrite, h, hb, hr]

theorem chCtrlWrite_unaligned {i : FaultInfo} {ch : Nat} {v : Word} {s : State} (h : v.getLsbD 2 = true)
    (hb : (s.chan ch).phase = .idle) (hr : (s.chan ch).rdy = true)
    (ha : ((s.chan ch).ctrlWritten v).startAligned = false) : chCtrlWrite i ch v s = .error (.dmaUnaligned i) := by
  simp [chCtrlWrite, h, hb, hr, ha]

theorem chCtrlWrite_go {i : FaultInfo} {ch : Nat} {v : Word} {s : State} (h : v.getLsbD 2 = true)
    (hb : (s.chan ch).phase = .idle) (hr : (s.chan ch).rdy = true)
    (ha : ((s.chan ch).ctrlWritten v).startAligned = true) :
    chCtrlWrite i ch v s = .ok (s.setChan ch ((s.chan ch).ctrlWritten v).started) := by
  simp [chCtrlWrite, h, hb, hr, ha]

/-- Idle, a write of the control word stores its fields and leaves the rest (R84). -/
theorem ctrlWritten_idle {c : Chan} {v : Word} (h : c.phase = .idle) :
    c.ctrlWritten v =
      { c with irqDone := v.getLsbD 0, irqLast := v.getLsbD 1, mode := v.getLsbD 5,
               tsfrDone := c.tsfrDone && v.getLsbD 3, rdy := c.rdy && v.getLsbD 6 } := by
  simp [Chan.ctrlWritten, h]

end Sys2Proof.Machine
end

