-- ==== Sys2Proof/Laws/Transfer.lean ====
section
/-! SUPPORT. The Transfer Engine step by step: what one step of BEGIN, COMPLETE and CANCEL at each position answers,
where its accesses go through (R101, R102, R103). -/

namespace Sys2Proof.Machine

open Sys2Proof

/-! ### What a record of an access leaves as it is -/

@[simp] theorem sawRead_goto (s : State) (q : Pos) (r : Reg) (v : Word) :
    (s.goto q).sawRead r v = (s.sawRead r v).goto q := rfl
@[simp] theorem sawWrite_goto (s : State) (q : Pos) (r : Reg) (v : Word) :
    (s.goto q).sawWrite r v = (s.sawWrite r v).goto q := rfl
@[simp] theorem sawRead_cfg (s : State) (r : Reg) (v : Word) : (s.sawRead r v).cfg = s.cfg := rfl
@[simp] theorem sawWrite_cfg (s : State) (r : Reg) (v : Word) : (s.sawWrite r v).cfg = s.cfg := rfl
@[simp] theorem sawRead_descs (s : State) (r : Reg) (v : Word) : (s.sawRead r v).descs = s.descs := rfl
@[simp] theorem sawWrite_descs (s : State) (r : Reg) (v : Word) : (s.sawWrite r v).descs = s.descs := rfl
@[simp] theorem sawRead_chans (s : State) (r : Reg) (v : Word) : (s.sawRead r v).chans = s.chans := rfl
@[simp] theorem sawWrite_chans (s : State) (r : Reg) (v : Word) : (s.sawWrite r v).chans = s.chans := rfl
@[simp] theorem sawRead_chan (s : State) (r : Reg) (v : Word) (k : Nat) : (s.sawRead r v).chan k = s.chan k := rfl
@[simp] theorem sawWrite_chan (s : State) (r : Reg) (v : Word) (k : Nat) : (s.sawWrite r v).chan k = s.chan k := rfl
@[simp] theorem sawRead_ctrlWord (s : State) (r : Reg) (v : Word) (k : Nat) :
    (s.sawRead r v).ctrlWord k = s.ctrlWord k := rfl
@[simp] theorem sawWrite_ctrlWord (s : State) (r : Reg) (v : Word) (k : Nat) :
    (s.sawWrite r v).ctrlWord k = s.ctrlWord k := rfl
@[simp] theorem sawRead_gmask (s : State) (r : Reg) (v : Word) : (s.sawRead r v).gmask = s.gmask := rfl
@[simp] theorem sawWrite_gmask (s : State) (r : Reg) (v : Word) : (s.sawWrite r v).gmask = s.gmask := rfl
@[simp] theorem sawRead_mgr (s : State) (r : Reg) (v : Word) : (s.sawRead r v).mgr = s.mgr := rfl
@[simp] theorem sawWrite_mgr (s : State) (r : Reg) (v : Word) : (s.sawWrite r v).mgr = s.mgr := rfl
@[simp] theorem sawRead_cur (s : State) (r : Reg) (v : Word) : (s.sawRead r v).cur = s.cur := rfl
@[simp] theorem sawWrite_cur (s : State) (r : Reg) (v : Word) : (s.sawWrite r v).cur = s.cur := rfl

/-! ### The control word of one channel -/

/-- A control write with bit 2 clear, in a compound operation. -/
theorem writeStep_ctrl {i : Instr} {ch : Nat} {v : Word} {s : State} {k : State → Out} (h : ch < s.cfg.numCh)
    (hv : v.getLsbD 2 = false) :
    writeStep i (.chCtrl ch) v s k = k ((s.sawWrite (.chCtrl ch) v).setChan ch ((s.chan ch).ctrlWritten v)) :=
  writeStep_ok (check_chan h).1 (chCtrlWrite_noGo hv)

/-- The go write, in a compound operation. -/
theorem writeStep_go {i : Instr} {ch : Nat} {v : Word} {s : State} {k : State → Out} (h : ch < s.cfg.numCh)
    (hv : v.getLsbD 2 = true) (hb : (s.chan ch).phase = .idle) (hr : (s.chan ch).rdy = true)
    (ha : ((s.chan ch).ctrlWritten v).startAligned = true) :
    writeStep i (.chCtrl ch) v s k = k ((s.sawWrite (.chCtrl ch) v).setChan ch ((s.chan ch).ctrlWritten v).started) :=
  writeStep_ok (check_chan h).1 (chCtrlWrite_go hv hb hr ha)

theorem readStep_ctrl {i : Instr} {ch : Nat} {s : State} {k : Word → State → Out} (h : ch < s.cfg.numCh) :
    readStep i (.chCtrl ch) s k = k (s.ctrlWord ch) (s.sawRead (.chCtrl ch) (s.ctrlWord ch)) :=
  readStep_plain (check_chan h).1 rfl

theorem readStep_doneLen {i : Instr} {ch : Nat} {s : State} {k : Word → State → Out} (h : ch < s.cfg.numCh) :
    readStep i (.chDoneLen ch) s k =
      k (s.chan ch).doneLen (s.sawRead (.chDoneLen ch) (s.chan ch).doneLen) :=
  readStep_plain (check_chan h).2.2.2.1 rfl

theorem writeStep_base {i : Instr} {ch : Nat} {v : Word} {s : State} {k : State → Out} (h : ch < s.cfg.numCh)
    (hb : (s.chan ch).phase = .idle) :
    writeStep i (.chBase ch) v s k = k ((s.sawWrite (.chBase ch) v).setChan ch { (s.chan ch) with base := v }) := by
  refine writeStep_ok (check_chan h).2.1 ?_
  simp [writeReg, chanWriteIdle, hb]

theorem writeStep_len {i : Instr} {ch : Nat} {v : Word} {s : State} {k : State → Out} (h : ch < s.cfg.numCh)
    (hb : (s.chan ch).phase = .idle) :
    writeStep i (.chLen ch) v s k = k ((s.sawWrite (.chLen ch) v).setChan ch { (s.chan ch) with len := v }) := by
  refine writeStep_ok (check_chan h).2.2.1 ?_
  simp [writeReg, chanWriteIdle, hb]

theorem readStep_gmask {i : Instr} {s : State} {k : Word → State → Out} :
    readStep i .gmask s k = k s.gmask (s.sawRead .gmask s.gmask) :=
  readStep_plain (by simp) rfl

theorem writeStep_gmask {i : Instr} {v : Word} {s : State} {k : State → Out} :
    writeStep i .gmask v s k = k ((s.sawWrite .gmask v).setGmask (v &&& s.cfg.chMask)) :=
  writeStep_ok (by simp) rfl

/-! ### One step at a position inside the operation -/

/-- A step of BEGIN inside it is `beginStep` of the descriptor it runs for. -/
theorem begin_at {s : State} {d r : Nat} {x : Desc} {p : BeginPos} (h : s.pos = .begun r p) (hx : s.descs[r]? = some x) :
    exec (.beginXfer 0 d) s = beginStep (.beginXfer 0 d) r x p s := by
  simp only [exec, execBegin, guardZero_zero, h, withRef_some hx]

/-- A step of COMPLETE inside it is `completeStep` of the descriptor it runs for. -/
theorem complete_at {s : State} {d r : Nat} {n : Word} {x : Desc} {p : CompletePos} (h : s.pos = .completing r p)
    (hx : s.descs[r]? = some x) :
    exec (.completeXfer 0 d n) s = completeStep (.completeXfer 0 d n) r x p s := by
  simp only [exec, execComplete, guardZero_zero, h, withRef_some hx]

/-- A run whose first step answers. -/
theorem runOp_step {i : Instr} {n : Nat} {s t : State} (h : exec i s = .next t) : runOp i (n + 1) s = runOp i n t := by
  simp [runOp, h]

/-- A run is its parts, one after the other. -/
theorem runOp_add {i : Instr} {m n : Nat} {s t : State} (h : runOp i m s = .next t) :
    runOp i (m + n) s = runOp i n t := by
  induction m generalizing s with
  | zero => cases h; rw [Nat.zero_add]
  | succ m ih =>
    rw [Nat.succ_add]
    simp only [runOp] at h ⊢
    split at h
    · exact ih h
    · cases h
    · cases h

end Sys2Proof.Machine
end

