-- ==== Sys2Proof/Tests/Slice0.lean ====
section
/-! SUPPORT. Tests: the refusal of ill-formed operations, the decoding of written-out words, single steps whose
expected results are those of 95_test_vectors.md (the vector is named in the comment), and for every statement with
hypotheses a state and operands that meet them. -/

namespace Sys2Proof.Tests

open Sys2Proof Sys2Proof.Machine

/-! ### Small states -/

/-- An idle, ready channel. -/
def idle (base len : Word) : Chan := { Chan.afterReset ResetDraws.zero 0 with rdy := true, base := base, len := len }

/-- A channel in flight with `n` bytes moved. -/
def busy (base len n : Word) : Chan :=
  { idle base len with tsfr := true, rdy := false, doneLen := n, phase := .busy }

/-- State S0 of 95_test_vectors.md section 0, with the draws of reset zero. -/
def s0 : State :=
  { State.reset with
    ep0 := { ready := true, error := false, data := 0x161 }
    chans := [idle 0x2000 16, idle 0x3000 0]
    drvUsable := true, drvNumCh := 2
    mgr := { present := true, slots := [none, none], doneMask := 0, lastMask := 0 } }

/-- S0 with these channels. -/
def withChans (c0 c1 : Chan) : State := { s0 with chans := [c0, c1] }

/-- S0 in Config B, the built-in interrupt controller. -/
def s0B : State := { s0 with cfg := Config.exampleB }

/-- A polling-mode descriptor on channel 0 (program P2) and an interrupt-mode one on channel 1 (V-T8). -/
def fieldsP : DescFields :=
  { ptr := 0x2000, len := 8, dir := false, ignore := false, mode := .polling, cb := none, mgr := false }
def fieldsI : DescFields :=
  { ptr := 0x3000, len := 8, dir := true, ignore := false, mode := .interrupt, cb := none, mgr := true }
/-- A callback, as in the vectors V-T22 and V-M6. -/
def cb0 : Cb := { id := 0, ctx := 0, reenters := false }

/-- S0 with descriptor name 0 bound to a descriptor on channel `ch` with fields `f`, at position `q` of MAIN. -/
def withDesc (ch : Nat) (f : DescFields) (q : Pos) (s : State := s0) : State :=
  { s with
    descs := [{ ch := ch, fields := f, done := false, transferred := 0 }], binds := [(0, 0)], mainPos := q }

/-- S0 with these sources, from id 0 on. -/
def withSrcs (l : List Source) : State := { s0 with srcs := l ++ s0.srcs.drop l.length }
/-- A source. -/
def src (prio : Word) (en pending inService : Bool) : Source :=
  { prio := prio, en := en, pending := pending, inService := inService }

/-- The operation answered this word. -/
def gives (o : Out) (v : Word) : Bool := nextHas o fun t => t.result = some (.word v)
/-- The operation answered this code. -/
def answers (o : Out) (c : ResCode) : Bool := nextHas o fun t => t.result = some (.code c)
/-- The outcome is a fault with this code of R135. -/
def faultCode (o : Out) (n : Nat) : Bool :=
  match o with
  | .next _ => false
  | .fault f => f.code = n
  | .refused _ => false

theorem test_configs : Config.exampleA.ok ∧ Config.exampleB.ok :=
  ⟨⟨by decide, by decide, by decide, by decide⟩, by decide, by decide, by decide, by decide⟩

/-! ### Well-formed and ill-formed operations, one for each check -/

theorem test_wf_admits :
    (Instr.srdCtrl 1).wf Config.exampleA ∧ (Instr.drdGmask 0).wf Config.exampleA ∧
    (Instr.drdCtrl 1).wf Config.exampleA ∧ (Instr.prdPrio 31).wf Config.exampleA ∧
    (Instr.prdPend 0).wf Config.exampleA ∧ (Instr.icEnable 31).wf Config.exampleA ∧
    (Instr.icEnable 0).wf Config.exampleB ∧ (Instr.crdMask 0).wf Config.exampleB ∧
    (Instr.icSetPriority 40 3).wf Config.exampleB ∧ (Instr.dispatch 99).wf Config.exampleA := by decide

theorem test_wf_refuses_zero : (Instr.drdChcount 1).wf Config.exampleA = false := by decide
theorem test_wf_refuses_endpoint : (Instr.srdCtrl 2).wf Config.exampleA = false := by decide
theorem test_wf_refuses_channel : (Instr.drdCtrl 2).wf Config.exampleA = false := by decide
theorem test_wf_refuses_source :
    (Instr.prdPrio 0).wf Config.exampleA = false ∧ (Instr.prdPrio 32).wf Config.exampleA = false := by decide
theorem test_wf_refuses_bank : (Instr.prdPend 1).wf Config.exampleA = false := by decide
theorem test_wf_refuses_icSource :
    (Instr.icEnable 0).wf Config.exampleA = false ∧ (Instr.icEnable 32).wf Config.exampleB = false := by decide
theorem test_wf_refuses_icSetSource : (Instr.icSetPriority 0 3).wf Config.exampleA = false := by decide
theorem test_wf_refuses_banked_unit : (Instr.prdPrio 5).wf Config.exampleB = false := by decide
theorem test_wf_refuses_builtIn_unit : (Instr.crdMask 0).wf Config.exampleA = false := by decide

/-! ### Words written out from R57 and the table of R60: op in bits 31 to 24, idx in bits 23 to 0 -/

theorem test_decode_stream :
    decode 0b00000001_000000000000000000000001#32 {} = .ok (.srdCtrl 1) ∧
    decode 0b00000010_000000000000000000000000#32 { v := 2 } = .ok (.swrCtrl 0 2) ∧
    decode 0b00000011_000000000000000000000001#32 {} = .ok (.srdData 1) ∧
    decode 0b00000100_000000000000000000000000#32 { v := 0x162 } = .ok (.swrData 0 0x162) ∧
    decode 0b10000000_000000000000000000000001#32 {} = .ok (.isReady 1) ∧
    decode 0b10000001_000000000000000000000000#32 {} = .ok (.pollAndTransfer 0) := by decide

theorem test_decode_header :
    decode 0b00010000_000000000000000000000000#32 {} = .ok (.drdChcount 0) ∧
    decode 0b00010001_000000000000000000000000#32 { v := 4 } = .ok (.dwrChcount 0 4) ∧
    decode 0b00010010_000000000000000000000000#32 {} = .ok (.drdChoff 0) ∧
    decode 0b00010011_000000000000000000000000#32 { v := 4 } = .ok (.dwrChoff 0 4) ∧
    decode 0b00010100_000000000000000000000000#32 {} = .ok (.drdGmask 0) ∧
    decode 0b00010101_000000000000000000000000#32 { v := 3 } = .ok (.dwrGmask 0 3) ∧
    decode 0b00010110_000000000000000000000000#32 {} = .ok (.drdGstatus 0) ∧
    decode 0b00010111_000000000000000000000000#32 { v := 3 } = .ok (.dwrGstatus 0 3) ∧
    decode 0b10010000_000000000000000000000000#32 {} = .ok (.dmaInit 0) := by decide

theorem test_decode_channel :
    decode 0b00011000_000000000000000000011111#32 {} = .ok (.drdCtrl 31) ∧
    decode 0b00011001_000000000000000000000000#32 { v := 0x45 } = .ok (.dwrCtrl 0 0x45) ∧
    decode 0b00011010_000000000000000000000001#32 {} = .ok (.drdBase 1) ∧
    decode 0b00011011_000000000000000000000001#32 { v := 8 } = .ok (.dwrBase 1 8) ∧
    decode 0b00011100_000000000000000000000001#32 {} = .ok (.drdLen 1) ∧
    decode 0b00011101_000000000000000000000001#32 { v := 8 } = .ok (.dwrLen 1 8) ∧
    decode 0b00011110_000000000000000000000001#32 {} = .ok (.drdDonelen 1) ∧
    decode 0b00011111_000000000000000000000001#32 { v := 8 } = .ok (.dwrDonelen 1 8) ∧
    decode 0b00100000_000000000000000000000001#32 {} = .ok (.drdIstat 1) ∧
    decode 0b00100001_000000000000000000000001#32 { v := 3 } = .ok (.dwrIstat 1 3) := by decide

theorem test_decode_plic :
    decode 0b00110000_000000000000000000000101#32 {} = .ok (.prdPrio 5) ∧
    decode 0b00110001_000000000000000000000101#32 { v := 7 } = .ok (.pwrPrio 5 7) ∧
    decode 0b00110010_000000000000000000000000#32 {} = .ok (.prdPend 0) ∧
    decode 0b00110011_000000000000000000000000#32 { v := 1 } = .ok (.pwrPend 0 1) ∧
    decode 0b00110100_000000000000000000000000#32 {} = .ok (.prdEn 0) ∧
    decode 0b00110101_000000000000000000000000#32 { v := 1 } = .ok (.pwrEn 0 1) ∧
    decode 0b00110110_000000000000000000000000#32 {} = .ok (.prdThr 0) ∧
    decode 0b00110111_000000000000000000000000#32 { v := 1 } = .ok (.pwrThr 0 1) ∧
    decode 0b00111000_000000000000000000000000#32 {} = .ok (.prdClaim 0) ∧
    decode 0b00111001_000000000000000000000000#32 { v := 3 } = .ok (.pwrClaim 0 3) := by decide

theorem test_decode_csr :
    decode 0b01000000_000000000000000000000000#32 {} = .ok (.crdMask 0) ∧
    decode 0b01000001_000000000000000000000000#32 { v := 9 } = .ok (.cwrMask 0 9) ∧
    decode 0b01000010_000000000000000000000000#32 {} = .ok (.crdPend 0) ∧
    decode 0b01000011_000000000000000000000000#32 { v := 9 } = .ok (.cwrPend 0 9) := by decide

theorem test_decode_engine :
    decode 0b10010001_000000000000000000000000#32 {} = .ok (.mgrInit 0) ∧
    decode 0b10010010_000000000000000000000001#32 { d := 4, desc := fieldsI } = .ok (.descNew 1 4 fieldsI) ∧
    decode 0b10010011_000000000000000000000000#32 { d := 3 } = .ok (.beginXfer 0 3) ∧
    decode 0b10010100_000000000000000000000000#32 { d := 3, t := 7 } = .ok (.completeXfer 0 3 7) ∧
    decode 0b10010101_000000000000000000000000#32 { d := 3 } = .ok (.cancelXfer 0 3) ∧
    decode 0b10010110_000000000000000000000000#32 {} = .ok (.update 0) := by decide

theorem test_decode_ic :
    decode 0b10100000_000000000000000000000000#32 {} = .ok (.icInit 0) ∧
    decode 0b10100001_000000000000000000000101#32 {} = .ok (.icEnable 5) ∧
    decode 0b10100010_000000000000000000000101#32 {} = .ok (.icDisable 5) ∧
    decode 0b10100011_000000000000000000000000#32 {} = .ok (.icPriorityCount 0) ∧
    decode 0b10100100_000000000000000000000101#32 { level := 3 } = .ok (.icSetPriority 5 3) ∧
    decode 0b10101000_000000000000000000000111#32 {} = .ok (.dispatch 7) ∧
    decode 0b10101001_000000000000000000000000#32 {} = .ok (.irqEntry 0) := by decide

/-- V-DEC1 to V-DEC3, and the words beside the table's ranges. -/
theorem test_decode_refuses :
    decode 0x00000000#32 {} = .error (.unknownOp 0) ∧ decode 0x05000000#32 {} = .error (.unknownOp 0x05000000) ∧
    decode 0x22000000#32 {} = .error (.unknownOp 0x22000000) ∧ decode 0x3A000000#32 {} = .error (.unknownOp 0x3A000000) ∧
    decode 0x44000000#32 {} = .error (.unknownOp 0x44000000) ∧ decode 0x97000000#32 {} = .error (.unknownOp 0x97000000) ∧
    decode 0xAA000000#32 {} = .error (.unknownOp 0xAA000000) ∧
    decode 0xFF000000#32 {} = .error (.unknownOp 0xFF000000) := by decide

/-! ### One step of each operation, from the vectors of 95_test_vectors.md -/

/-- V-S4, and the one record a read leaves. -/
theorem test_srdCtrl : faultCode (exec (.srdCtrl 2) s0) 1 ∧ nextHas (exec (.srdCtrl 0) s0) (fun t => t.hist.length = 1) := by
  decide
/-- V-S9, V-S10, V-S11. -/
theorem test_swrCtrl_pulse :
    nextHas (exec (.swrCtrl 0 2) { s0 with ep0 := { s0.ep0 with data := 0xFFFFFE61 } }) fun t =>
      t.hist.head? = some (.streamIn 0x61) := by decide
theorem test_swrCtrl_notReady :
    faultCode (exec (.swrCtrl 1 2) s0) 4 ∧ nextHas (exec (.swrCtrl 1 0xD) s0) (fun t => t.ep1 = s0.ep1) := by decide
/-- V-S14. -/
theorem test_srdData : gives (exec (.srdData 1) { s0 with ep1 := { s0.ep1 with data := 0x0462 } }) 0x0462 := by decide
/-- V-S5, V-S7. -/
theorem test_swrData :
    nextHas (exec (.swrData 0 0x162) s0) (fun t => t.ep0.data = 0x162 ∧ t.ep0.ready ∧ t.hist.length = 1) ∧
    faultCode (exec (.swrData 1 0) s0) 3 := by decide
/-- V-S16, V-S17. -/
theorem test_isReady :
    nextHas (exec (.isReady 0) s0) (fun t => t.result = some (.bool true)) ∧
    nextHas (exec (.isReady 1) s0) (fun t => t.result = some (.bool false)) := by
  constructor <;> rw [exec, execIsReady, readStep_streamCtrl (by decide), streamCtrlWord_ready] <;> rfl
/-- V-S18: the pulse. -/
theorem test_pollAndTransfer :
    nextHas (exec (.pollAndTransfer 0) { s0 with mainPos := .pulse }) fun t =>
      t.hist = [.streamIn 0x161, .bus .main true 0x10000000 4 2] := by decide

/-- V-H3, V-DEC4. -/
theorem test_drdChcount : gives (exec (.drdChcount 0) s0) 2 ∧ faultCode (exec (.drdChcount 1) s0) 1 := by decide
/-- V-H5, V-H6, V-H14, V-C21, V-C22. -/
theorem test_readOnly :
    faultCode (exec (.dwrChcount 0 4) s0) 3 ∧ faultCode (exec (.dwrChoff 0 0x10) s0) 3 ∧
    faultCode (exec (.dwrGstatus 0 0) s0) 3 ∧ faultCode (exec (.dwrDonelen 0 0) s0) 3 ∧
    faultCode (exec (.dwrDonelen 2 0) s0) 1 := by decide
/-- V-H4. -/
theorem test_drdChoff : gives (exec (.drdChoff 0) s0) 0x10 := by decide
/-- V-H7, V-H8. -/
theorem test_gmask :
    nextHas (exec (.dwrGmask 0 0xFFFFFFFF) s0) (fun t => t.gmask = 3) ∧
    gives (exec (.drdGmask 0) { s0 with gmask := 3 }) 3 := by decide
/-- V-H13: DONE from channel 0, LAST from channel 1, the DONE of channel 1 masked. -/
theorem test_drdGstatus :
    gives (exec (.drdGstatus 0) { withChans { idle 0 0 with irqDone := true, istDone := true }
      { idle 0 0 with irqLast := true, istLast := true, istDone := true } with gmask := 3 }) 3 := by decide
/-- V-H9, V-H10, V-H11. -/
theorem test_drdGstatus_masked :
    gives (exec (.drdGstatus 0)
      { withChans { idle 0 0 with irqDone := true, istDone := true } (idle 0 0) with gmask := 1 }) 1 ∧
    gives (exec (.drdGstatus 0)
      { withChans { idle 0 0 with irqDone := true, istDone := true } (idle 0 0) with gmask := 0 }) 0 ∧
    gives (exec (.drdGstatus 0) { withChans { idle 0 0 with istDone := true } (idle 0 0) with gmask := 1 }) 0 := by decide
/-- V-H1, V-H2: the last step. -/
theorem test_dmaInit :
    nextHas (exec (.dmaInit 0) { s0 with drvUsable := false, mainPos := .initUsable 0x10 })
      (fun t => t.drvUsable ∧ t.result = some (.bool true)) ∧
    nextHas (exec (.dmaInit 0) { s0 with mainPos := .initUsable 0x14 })
      (fun t => t.drvUsable = false ∧ t.result = some (.bool false)) := by decide

/-- V-C1, V-C2. -/
theorem test_drdCtrl : gives (exec (.drdCtrl 0) s0) 0x40 ∧ gives (exec (.drdCtrl 1) s0) 0x50 := by decide
/-- V-C3, V-C8, V-C14, V-C15. -/
theorem test_dwrCtrl_start :
    nextHas (exec (.dwrCtrl 0 0x45) s0) (fun t => t.ctrlWord 0 = 0x05 ∧ (t.chan 0).phase = .busy ∧ (t.chan 0).doneLen = 0) ∧
    faultCode (exec (.dwrCtrl 0 4) (withChans { idle 0 0 with rdy := false } (idle 0 0))) 5 ∧
    faultCode (exec (.dwrCtrl 0 4) (withChans (idle 0x2002 8) (idle 0 0))) 7 ∧
    nextHas (exec (.dwrCtrl 0 0x24) (withChans (idle 0x2002 7) (idle 0 0))) (fun t => t.ctrlWord 0 = 0x24) := by decide
/-- V-C7, V-C9, V-C12, V-C4. -/
theorem test_dwrCtrl_stop :
    nextHas (exec (.dwrCtrl 0 1) (withChans (busy 0x2000 16 3) (idle 0 0)))
      (fun t => t.ctrlWord 0 = 1 ∧ (t.chan 0).phase = .idle ∧ (t.chan 0).doneLen = 3) ∧
    nextHas (exec (.dwrCtrl 0 8) (withChans { idle 0 0 with tsfrDone := true, irqDone := true, irqLast := true } (idle 0 0)))
      (fun t => t.ctrlWord 0 = 8) ∧
    nextHas (exec (.dwrCtrl 1 0) s0) (fun t => t.ctrlWord 1 = 0x10) ∧
    faultCode (exec (.dwrCtrl 0 5) (withChans (busy 0x2000 16 3) (idle 0 0))) 6 := by decide
/-- V-C18. -/
theorem test_drdBase : gives (exec (.drdBase 0) (withChans (idle 0x2002 0) (idle 0 0))) 0x2002 := by decide
/-- V-C17, V-C5. -/
theorem test_dwrBase :
    nextHas (exec (.dwrBase 0 0x2002) s0) (fun t => (t.chan 0).base = 0x2002) ∧
    faultCode (exec (.dwrBase 0 0x4000) (withChans (busy 0 16 0) (idle 0 0))) 6 := by decide
theorem test_drdLen : gives (exec (.drdLen 0) s0) 16 := by decide
/-- V-C19, V-C6. -/
theorem test_dwrLen :
    nextHas (exec (.dwrLen 1 0) (withChans (idle 0 0) (idle 0 9))) (fun t => (t.chan 1).len = 0) ∧
    faultCode (exec (.dwrLen 0 4) (withChans (busy 0 16 0) (idle 0 0))) 6 := by decide
theorem test_drdDonelen : gives (exec (.drdDonelen 0) (withChans (busy 0 16 3) (idle 0 0))) 3 := by decide
/-- V-C26. -/
theorem test_drdIstat : gives (exec (.drdIstat 0) (withChans { idle 0 0 with istDone := true } (idle 0 0))) 1 := by decide
/-- V-C23, V-C25. -/
theorem test_dwrIstat :
    nextHas (exec (.dwrIstat 0 1) (withChans { idle 0 0 with istDone := true, istLast := true } (idle 0 0)))
      (fun t => t.istatWord 0 = 2) ∧
    nextHas (exec (.dwrIstat 0 0) (withChans { idle 0 0 with istDone := true, istLast := true } (idle 0 0)))
      (fun t => t.istatWord 0 = 3) := by decide
/-- V-C24. -/
theorem test_dwrIstat_all :
    nextHas (exec (.dwrIstat 0 1) { withChans { idle 0 0 with istDone := true, istLast := true } (idle 0 0) with
      cfg := { Config.exampleA with irqAckClearsAll := true } }) (fun t => t.istatWord 0 = 0) := by decide

/-- V-C27, V-C31, V-C32, V-C33. -/
theorem test_engine_status :
    nextHas (stepOf (.eReady 0) (withChans { idle 0 0 with rdy := false } (idle 0 0))) (fun t => t.ctrlWord 0 = 0x40) ∧
    nextHas (stepOf (.eComplete 0) (withChans (busy 0 16 3) (idle 0 0)))
      (fun t => t.ctrlWord 0 = 8 ∧ t.istatWord 0 = 1 ∧ (t.chan 0).doneLen = 3) ∧
    nextHas (stepOf (.eLast 1) (withChans (idle 0 0) (busy 0 16 3))) (fun t => t.istatWord 1 = 2) ∧
    stepOf (.eLast 1) s0 = .next s0 := by
  refine ⟨by decide, by decide, by decide, rfl⟩
/-- V-C28, V-C30. -/
theorem test_engine_progress :
    nextHas (stepOf (.eProgress 0) { withChans (busy 0x2000 16 0) (idle 0 0) with mem := [(0x2000, 0x61)] })
      (fun t => t.hist = [.dmaRead 0 0x2000 0x61] ∧ (t.chan 0).doneLen = 1) ∧
    nextHas (stepOf (.eProgress 0) (withChans { busy 0 7 5 with mode := true } (idle 0 0)))
      (fun t => t.hist = [] ∧ (t.chan 0).doneLen = 6) := by decide
/-- V-C29: the byte is a draw; its place and the count are not. -/
theorem test_engine_progress_write :
    nextHas (stepOf (.eProgress 1) (withChans (idle 0 0) (busy 0x3000 16 2)))
      (fun t => t.mem.map Prod.fst = [0x3002] ∧ (t.chan 1).doneLen = 3) := by decide

/-- V-T1, V-T2. -/
theorem test_descNew :
    faultCode (exec (.descNew 2 0 fieldsP) s0) 1 ∧
    nextHas (exec (.descNew 0 7 fieldsP) s0)
      (fun t => t.descs = [{ ch := 0, fields := fieldsP, done := false, transferred := 0 }] ∧ t.refOf 7 = some 0 ∧
        t.hist = []) := by decide
/-- V-T6, V-T7, V-T9 at the validation and at the go write. -/
theorem test_begin :
    answers (exec (.beginXfer 0 0) (withDesc 1 { fieldsI with mgr := false } (.begun 0 .validate))) .noManager ∧
    faultCode (exec (.beginXfer 0 0)
      { withDesc 1 fieldsI (.begun 0 .validate) with mgr := { s0.mgr with present := false } }) 8 ∧
    faultCode (exec (.beginXfer 0 0) (withDesc 0 fieldsP (.begun 0 (.goWrite 0x43)) (withChans (idle 0x2002 8) (idle 0 0)))) 7 := by
  decide
/-- V-T8: the slot is registered, and the go write starts the transfer. -/
theorem test_begin_steps :
    nextHas (exec (.beginXfer 0 0) (withDesc 1 fieldsI (.begun 0 .slot))) (fun t => t.mgr.slots = [none, some 0]) ∧
    nextHas (exec (.beginXfer 0 0) (withDesc 1 fieldsI (.begun 0 (.goWrite 0x51)))) (fun t => t.ctrlWord 1 = 0x15) := by
  decide
/-- V-T11, V-T13, V-T14: one test, one read. -/
theorem test_complete :
    nextHas (exec (.completeXfer 0 0 2) (withDesc 1 fieldsI (.completing 0 (.wait 2))))
      (fun t => t.mainPos = .completing 0 (.wait 1) ∧ t.hist = []) ∧
    nextHas (exec (.completeXfer 0 0 1) (withDesc 0 fieldsP (.completing 0 (.poll 1))))
      (fun t => t.mainPos = .completing 0 (.readLen false) ∧ t.hist.length = 1) ∧
    answers (exec (.completeXfer 0 0 2) (withDesc 1 { fieldsI with mgr := false } .start)) .noManager := by decide
/-- V-T22: the callback. -/
theorem test_complete_callback :
    nextHas (exec (.completeXfer 0 0 0) (withDesc 0 { fieldsP with cb := some cb0 } (.completing 0 (.callback true))))
      (fun t => t.hist = [.callback 0 .main] ∧ t.result = some (.code .ok)) := by decide
/-- V-T20, V-T21. -/
theorem test_cancel :
    nextHas (exec (.cancelXfer 0 0) (withDesc 1 fieldsI (.cancelWrite 0) (withChans (idle 0 0) (busy 0x3000 8 4))))
      (fun t => t.ctrlWord 1 = 0x10 ∧ (t.chan 1).doneLen = 4) ∧
    nextHas (exec (.cancelXfer 0 0) { withDesc 0 fieldsP .start with drvUsable := false })
      (fun t => t.result = some (.code .unusable) ∧ t.hist = []) := by decide

/-- V-M1, V-M10: the early return, and one slot. -/
theorem test_mgrInit :
    answers (exec (.mgrInit 0) { s0 with drvUsable := false }) .unusable ∧
    nextHas (exec (.mgrInit 0) { s0 with mainPos := .mgrSlot 1, mgr := { s0.mgr with slots := [none, some 3] } })
      (fun t => t.mgr.slots = [none, none] ∧ t.mainPos = .mgrDoneMask) := by decide
/-- V-M2, V-M3, V-M4. -/
theorem test_update :
    faultCode (exec (.update 0) { s0 with mgr := { s0.mgr with present := false } }) 8 ∧
    answers (exec (.update 0) { s0 with drvUsable := false }) .unusable ∧
    nextHas (exec (.update 0) { withChans { idle 0 0 with istDone := true, irqDone := true } (idle 0 0) with
      mainPos := .updating .gstatus }) (fun t => t.result = some (.code .ok) ∧ t.istatWord 0 = 1) := by decide
/-- V-M7: the callback although d.done stays false. -/
theorem test_update_callback :
    nextHas (exec (.update 0) (withDesc 1 { fieldsI with cb := some cb0 } (.updating (.callback 1 0))))
      (fun t => t.hist = [.callback 0 .main] ∧ t.descs.map (·.done) = [false]) := by decide

/-- V-P15, V-P16, and the value. -/
theorem test_prdPrio :
    faultCode (exec (.prdPrio 0) s0) 1 ∧ faultCode (exec (.prdPrio 32) s0) 1 ∧
    gives (exec (.prdPrio 1) (withSrcs [src 0 false false false, src 6 false false false])) 6 := by decide
/-- V-P13, V-P14, V-DEC7. -/
theorem test_pwrPrio :
    nextHas (exec (.pwrPrio 5 7) s0) (fun t => (t.src 5).prio = 7) ∧ faultCode (exec (.pwrPrio 5 8) s0) 9 ∧
    faultCode (exec (.prdPrio 5) s0B) 11 := by decide
/-- V-P17, V-P18. -/
theorem test_prdPend :
    gives (exec (.prdPend 0) (s0.setSrc 5 (src 0 false true false))) 0x20 ∧ faultCode (exec (.prdPend 1) s0) 1 := by decide
/-- V-P19. -/
theorem test_pwrPend : faultCode (exec (.pwrPend 0 0) s0) 3 := by decide
theorem test_prdEn : gives (exec (.prdEn 0) (s0.setSrc 31 (src 0 true false false))) 0x80000000 := by decide
/-- V-P20. -/
theorem test_pwrEn :
    nextHas (exec (.pwrEn 0 0xFFFFFFFF) s0) (fun t => (t.src 0).en = false ∧ (t.src 1).en ∧ (t.src 31).en) := by decide
theorem test_prdThr : gives (exec (.prdThr 0) { s0 with thr := 3 }) 3 := by decide
/-- V-P21, V-P22. -/
theorem test_pwrThr :
    faultCode (exec (.pwrThr 0 8) s0) 9 ∧
    nextHas (exec (.pwrThr 0 1) (s0.setSrc 5 (src 1 true true false))) (fun t => t.thr = 1 ∧ t.eip = false) := by decide
/-- V-P1, V-P4. -/
theorem test_prdClaim :
    nextHas (exec (.prdClaim 0) ((s0.setSrc 3 (src 2 true true false)).setSrc 5 (src 2 true true false)))
      (fun t => t.result = some (.word 3) ∧ t.src 3 = src 2 true false true ∧ t.src 5 = src 2 true true false) ∧
    gives (exec (.prdClaim 0) { s0.setSrc 3 (src 2 true true false) with thr := 2 }) 0 := by decide
/-- V-P6, V-P7, V-P8, V-P9. -/
theorem test_pwrClaim :
    nextHas (exec (.pwrClaim 0 3) (s0.setSrc 3 (src 0 false false true))) (fun t => (t.src 3).inService = false) ∧
    faultCode (exec (.pwrClaim 0 4) s0) 10 ∧ faultCode (exec (.pwrClaim 0 0) s0) 10 ∧
    faultCode (exec (.pwrClaim 0 32) s0) 10 := by decide
/-- V-DEC8, and a mask write and read. -/
theorem test_csr_mask :
    faultCode (exec (.crdMask 0) s0) 11 ∧ gives (exec (.crdMask 0) { s0B with icMask := 9 }) 9 ∧
    nextHas (exec (.cwrMask 0 0xFFFFFFFF) s0B) (fun t => t.icMask = 0xFFFFFFFF) := by decide
/-- V-B7, V-B8. -/
theorem test_csr_pend :
    gives (exec (.crdPend 0) { s0B.setLine 6 true with chans := [idle 0 0, idle 0 0] }) 0x40 ∧
    faultCode (exec (.cwrPend 0 0) s0B) 3 := by decide
/-- V-B1, and the last banked step of R127. -/
theorem test_icInit :
    nextHas (exec (.icInit 0) { s0B with icMask := 0xFF }) (fun t => t.icMask = 0) ∧
    nextHas (exec (.icInit 0) { s0 with thr := 5, mainPos := .icInitThr }) (fun t => t.thr = 0) := by decide
/-- V-P23, V-P24, V-B3, V-B4. -/
theorem test_icEnable :
    nextHas (exec (.icEnable 5) (s0.setSrc 5 (src 3 false false false))) (fun t => t.mainPos = .icReadEn) ∧
    faultCode (exec (.icEnable 0) s0) 1 ∧ faultCode (exec (.icEnable 32) s0B) 1 ∧
    nextHas (exec (.icEnable 0) { s0B with mainPos := .icWriteEn 0 }) (fun t => t.icMask = 1) := by decide
/-- V-P25. -/
theorem test_icDisable :
    nextHas (exec (.icDisable 5) { s0.setSrc 5 (src 2 true false false) with mainPos := .icWriteEn 0x20 })
      (fun t => t.src 5 = src 2 false false false) := by decide
/-- V-P26, V-B6. -/
theorem test_icPriorityCount : gives (exec (.icPriorityCount 0) s0) 7 ∧ gives (exec (.icPriorityCount 0) s0B) 0 := by decide
/-- V-P27, V-P29, V-B5. -/
theorem test_icSetPriority :
    nextHas (exec (.icSetPriority 5 3) s0) (fun t => (t.src 5).prio = 3) ∧ faultCode (exec (.icSetPriority 5 9) s0) 9 ∧
    answers (exec (.icSetPriority 40 3) s0B) .unimplemented := by decide
/-- V-P30, V-P31. -/
theorem test_dispatch :
    nextHas (exec (.dispatch 7) s0) (fun t => t.hist = [] ∧ t.result = some .unit) ∧
    nextHas (exec (.dispatch 5) { s0 with mainPos := .updating .gstatus }) (fun t => t.result = some .unit) := by decide
/-- V-P32, V-B9. -/
theorem test_irqEntry :
    nextHas (exec (.irqEntry 0) { s0 with isrActive := true }) (fun t => t.isrActive = false ∧ t.mainPos = s0.mainPos) ∧
    nextHas (exec (.irqEntry 0) { s0B with isrActive := true, isrPos := .irqReadMask 0x28, icMask := 0x20 })
      (fun t => t.isrPos = .irqEmit 5) := by decide
/-- V-I1, V-I2, V-I3. -/
theorem test_irq_enabled :
    (s0.setSrc 3 (src 2 true true false)).irqEnabled = false ∧
    { s0.setSrc 3 (src 2 true true false) with cpuIe := true }.irqEnabled ∧
    { s0.setSrc 3 (src 2 true true false) with cpuIe := true, isrActive := true }.irqEnabled = false := by decide
/-- V-P10, V-P11. -/
theorem test_gateway :
    nextHas (stepOf (.gwLatch 6) (s0.setLine 6 true)) (fun t => (t.src 6).pending) ∧
    nextHas (stepOf (.gwLatch 6) ((s0.setLine 6 true).setSrc 6 (src 0 false false true))) (fun t => (t.src 6).pending = false) := by
  decide

/-! ### The fetch (log entry 7) -/

/-- The placed word is the operation the very next step runs. -/
theorem test_fetch :
    step (State.reset.withFetchWord 32 0x10000000) = exec (.drdChcount 0) (State.reset.withFetchWord 32 0x10000000).chosen ∧
    faultCode (step (State.reset.withFetchWord 32 0x93000000)) 12 ∧
    refusesWith (step (State.reset.withFetchWord 32 0x05000000)) (.unknownOp 0x05000000) := by
  refine ⟨rfl, by decide, by decide⟩

/-! ### Witnesses: for each statement with hypotheses, states and operands that meet them, clause by clause -/

theorem witness_DecoderTotal :
    ((0x01000000 : OpWord).extractLsb' 24 8).toNat ∈ opCodes ∧ ((0xA9FFFFFF : OpWord).extractLsb' 24 8).toNat ∈ opCodes ∧
    ((0xAA000000 : OpWord).extractLsb' 24 8).toNat ∉ opCodes ∧
    ({ s0 with sched := [.cpu], prog := [.op 0xAA000000 {}] } : State).choice = .cpu ∧
    ({ s0 with sched := [.cpu], prog := [.op 0xAA000000 {}] } : State).isrActive = false := by decide

theorem witness_IllFormedOperationFaults :
    (Instr.prdPrio 5).unitPresent s0B.cfg = false ∧
    (Instr.drdCtrl 2).unitPresent s0.cfg = true ∧ (Instr.drdCtrl 2).idxKind.inRange s0.cfg 2 = false := by decide

theorem witness_StepRunsDecodedOperation :
    ({ s0 with sched := [.cpu], prog := [.op 0x10000000 {}] } : State).choice = .cpu ∧ s0.isrActive = false ∧
    decode 0x10000000 {} = .ok (.drdChcount 0) ∧
    ({ s0 with sched := [.cpu], isrActive := true } : State).choice = .cpu ∧ s0.prog = [] := by decide

/-- Both endpoints, ready and not, with bit 1 set and clear (StreamControlReads, StreamControlWrite). -/
theorem witness_StreamControlWrite :
    (0 : Idx).toNat ≤ 1 ∧ (1 : Idx).toNat ≤ 1 ∧ (2 : Word).getLsbD 1 = true ∧ s0.ep0.ready = true ∧
    ({ s0 with ep1 := { s0.ep1 with ready := true } } : State).ep1.ready = true ∧ (s0.ep (1 : Idx).toNat).ready = false ∧
    (0xFFFFFFFD : Word).getLsbD 1 = false := by decide

theorem witness_PollAndTransferSteps :
    s0.pos ≠ .pulse ∧ (1 : Idx).toNat ≤ 1 ∧ ({ s0 with mainPos := .pulse } : State).pos = .pulse ∧ s0.ep0.ready = true ∧
    ({ s0 with mainPos := .pulse, ep1 := { s0.ep1 with ready := true } } : State).ep1.ready = true := by decide

theorem witness_ReadyHandshake :
    (s0.ep 1).ready = false ∧ (s0.ep 0).ready = true ∧
    nextHas (step { s0 with sched := [.spReady 1] }) (fun t => (t.ep 1).ready) ∧
    nextHas (step { s0 with sched := [.cpu], prog := [.op 0x02000000 { v := 2 }] }) (fun t => t.hist.length = 2) := by decide

theorem witness_ReadOnlyWritesFault :
    (1 : Idx).toNat < s0.cfg.numCh ∧ s0.cfg.variant = .banked ∧ (0 : Idx).toNat < s0.cfg.numBanks ∧
    s0B.cfg.variant = .builtIn ∧ s0B.cfg.csrIrqMask ≠ s0B.cfg.csrIrqPending := by decide

theorem witness_DmaInitRun :
    ({ s0 with mainPos := .initUsable 0x10 } : State).pos = .initUsable 0x10 ∧ s0.pos = .start := by decide

/-- The first and the last channel: ChannelReads, BaseAndLengthWrites, StatusAcknowledge, DescNew. -/
theorem witness_ChannelReads :
    (0 : Idx).toNat < s0.cfg.numCh ∧ (1 : Idx).toNat < s0.cfg.numCh ∧ ¬ (2 : Idx).toNat < s0.cfg.numCh := by decide

theorem witness_ChannelControlWrite :
    (0x7B : Word).getLsbD 2 = false ∧ (4 : Word).getLsbD 2 = true ∧
    (busy 0 16 3).phase = .busy ∧
    ((idle 0 0).phase = .idle ∧ ({ idle 0 0 with rdy := false } : Chan).rdy = false) ∧
    ((idle 0x2002 8).rdy = true ∧ (4 : Word).getLsbD 5 = false ∧ (idle 0x2002 8).base.toNat % 4 ≠ 0) ∧
    ((0x24 : Word).getLsbD 5 = true ∧ (idle 0x2000 16).base.toNat % 4 = 0 ∧ (idle 0x2000 16).len.toNat % 4 = 0) := by decide

theorem witness_BaseAndLengthWrites : (idle 0 0).phase = .idle ∧ (busy 0 16 3).phase = .busy := by decide

theorem witness_StatusAcknowledge :
    ({ Config.exampleA with irqAckClearsAll := true } : Params).irqAckClearsAll = true ∧
    Config.exampleA.irqAckClearsAll = false := by decide

theorem witness_EngineStatusSteps :
    1 < s0.cfg.numCh ∧ ((idle 0 0).phase = .idle ∧ ({ idle 0 0 with rdy := false } : Chan).rdy = false) ∧
    (idle 0 0).rdy = true ∧ (busy 0 16 3).phase = .busy := by decide

/-- The last byte of a transfer, a finished one, ignore mode, a byte inside a unit, and both directions. -/
theorem witness_EngineProgress :
    0 < s0.cfg.numCh ∧ 1 < s0.cfg.numCh ∧ (busy 0 16 16).len ≤ (busy 0 16 16).doneLen ∧
    (busy 0 16 15).phase = .busy ∧ (busy 0 16 15).doneLen < (busy 0 16 15).len ∧
    ({ busy 0 16 15 with mode := true } : Chan).mode = true ∧ (busy 0 16 15).mode = false ∧
    s0.cfg.inUnit (0x10000000 + 7 : Word).toNat = true ∧ s0.cfg.inUnit (0x10000000 + 8 : Word).toNat = false ∧
    s0.cfg.chDir.getLsbD 0 = false ∧ s0.cfg.chDir.getLsbD 1 = true := by decide

theorem witness_BurstWritesBufferInOrder :
    1 < s0.cfg.numCh ∧ 1 < (withChans (idle 0 0) (busy 0x3000 16 12)).chans.length ∧ (busy 0x3000 16 12).phase = .busy ∧
    (busy 0x3000 16 12).mode = false ∧ s0.cfg.chDir.getLsbD 1 = true ∧
    (busy 0x3000 16 12).doneLen.toNat + 4 ≤ (busy 0x3000 16 12).len.toNat ∧
    ∀ k < 4, s0.cfg.inUnit ((0x3000 : Word) + 12 + BitVec.ofNat 32 k).toNat = false := by decide

theorem witness_DescNew : (1 : Idx).toNat < s0.cfg.numCh ∧ ∀ b ∈ s0.binds, b.2 < s0.descs.length := by decide

theorem witness_UnusableReturns :
    ({ withDesc 0 fieldsP .start with drvUsable := false } : State).drvUsable = false ∧
    (withDesc 0 fieldsP .start).pos = .start ∧ (withDesc 0 fieldsP .start).refOf 0 = some 0 := by decide

theorem witness_BeginChecks :
    (s0.pos = .start ∧ s0.refOf 9 = none) ∧
    ((withDesc 1 fieldsI .start).refOf 0 = some 0 ∧ (withDesc 1 fieldsI .start).drvUsable = true ∧
      ({ s0 with drvNumCh := 1 } : State).drvNumCh.toNat ≤ 1 ∧ 1 < s0.drvNumCh.toNat) ∧
    (1 < s0.cfg.numCh ∧ (withDesc 0 fieldsP (.begun 0 .wait)).pos = .begun 0 .wait ∧
      (withDesc 0 fieldsP (.begun 0 .validate)).pos = .begun 0 .validate) ∧
    (s0.cfg.chDir.getLsbD 1 ≠ fieldsP.dir ∧ s0.cfg.chDir.getLsbD 1 = fieldsI.dir ∧ s0.cfg.chDir.getLsbD 0 = fieldsP.dir) ∧
    ((s0.chan 1).rdy = true ∧ (State.reset.chan 1).rdy = false ∧ fieldsP.mode = .polling ∧ fieldsI.mode = .interrupt) ∧
    (({ fieldsI with mgr := false } : DescFields).mgr = false ∧ fieldsI.mgr = true ∧ State.reset.mgr.present = false ∧
      s0.mgr.present = true) := by decide

theorem witness_BeginGoWrite :
    (withDesc 1 fieldsI (.begun 0 (.goWrite 0x51))).pos = .begun 0 (.goWrite 0x51) ∧ 1 < s0.cfg.numCh ∧
    (idle 0x3000 8).phase = .idle ∧ (idle 0x3000 8).rdy = true ∧
    ((0x71 : Word).getLsbD 5 = true ∨ ((idle 0x3000 8).base.toNat % 4 = 0 ∧ (idle 0x3000 8).len.toNat % 4 = 0)) ∧
    ((0x51 : Word).getLsbD 5 = false ∧ (idle 0x3002 8).base.toNat % 4 ≠ 0) := by decide

theorem witness_BeginPollingRun :
    let s := withDesc 0 fieldsP .start
    s.pos = .start ∧ s.drvUsable = true ∧ s.refOf 0 = some 0 ∧
    s.descs[0]? = some { ch := 0, fields := fieldsP, done := false, transferred := 0 } ∧ fieldsP.mode = .polling ∧
    0 < s.drvNumCh.toNat ∧ 0 < s.cfg.numCh ∧ 0 < s.chans.length ∧ (s.chan 0).phase = .idle ∧ (s.chan 0).tsfr = false ∧
    (s.chan 0).rdy = true ∧ s.cfg.chDir.getLsbD 0 = fieldsP.dir ∧ fieldsP.ptr.toNat % 4 = 0 ∧ fieldsP.len.toNat % 4 = 0 ∧
    ∀ k < 32, s.cfg.numCh ≤ k → s.gmask.getLsbD k = false := by decide

theorem witness_BeginInterruptRun :
    let s := withDesc 1 fieldsI .start
    s.pos = .start ∧ s.drvUsable = true ∧ s.refOf 0 = some 0 ∧
    s.descs[0]? = some { ch := 1, fields := fieldsI, done := false, transferred := 0 } ∧ fieldsI.mode = .interrupt ∧
    fieldsI.mgr = true ∧ s.mgr.present = true ∧ 1 < s.drvNumCh.toNat ∧ 1 < s.cfg.numCh ∧ 1 < s.chans.length ∧
    (s.chan 1).phase = .idle ∧ (s.chan 1).tsfr = false ∧ (s.chan 1).rdy = true ∧ s.cfg.chDir.getLsbD 1 = fieldsI.dir ∧
    fieldsI.ptr.toNat % 4 = 0 ∧ fieldsI.len.toNat % 4 = 0 ∧
    ∀ k < 32, s.cfg.numCh ≤ k → s.gmask.getLsbD k = false := by decide

/-- The wrong direction and RDY = 0 in both modes, and no manager reference. -/
theorem witness_BeginErrorRuns :
    let s := withDesc 1 fieldsP .start
    let u := withDesc 1 fieldsI .start (withChans (idle 0 0) { idle 0 0 with rdy := false })
    (s.pos = .start ∧ s.drvUsable = true ∧ s.refOf 0 = some 0 ∧ 1 < s.drvNumCh.toNat ∧ 1 < s.cfg.numCh) ∧
    ((s.chan 1).rdy = true ∧ s.cfg.chDir.getLsbD 1 ≠ fieldsP.dir ∧ fieldsP.mode = .polling) ∧
    ((u.chan 1).rdy = false ∧ u.cfg.chDir.getLsbD 1 = fieldsI.dir ∧ fieldsI.mode = .interrupt ∧ u.refOf 0 = some 0) ∧
    s0.cfg.chDir.getLsbD 0 ≠ fieldsI.dir ∧ ({ fieldsI with mgr := false } : DescFields).mgr = false := by decide

theorem witness_cbReturns : CbReturns none ∧ CbReturns (some cb0) :=
  ⟨fun _ h => (by cases h), fun _ h => (by cases h; rfl)⟩

/-- A channel that has completed, and one that has not, with the bounds 1 and 0xFFFFFFFF. -/
theorem witness_CompletePollingRun :
    let s := withDesc 0 fieldsP .start (withChans { idle 0x2000 8 with tsfrDone := true } (idle 0 0))
    let u := withDesc 0 fieldsP .start (withChans (busy 0x2000 8 3) (idle 0 0))
    s.pos = .start ∧ s.drvUsable = true ∧ s.refOf 0 = some 0 ∧
    s.descs[0]? = some { ch := 0, fields := fieldsP, done := false, transferred := 0 } ∧ fieldsP.mode = .polling ∧
    0 < s.cfg.numCh ∧ (s.chan 0).tsfrDone = true ∧ (u.chan 0).tsfrDone = false ∧ 0 < (1 : Word).toNat ∧
    0 < (0xFFFFFFFF : Word).toNat := by decide

theorem witness_CompleteInterruptRuns :
    let s := withDesc 1 fieldsI .start
    s.pos = .start ∧ s.drvUsable = true ∧ s.refOf 0 = some 0 ∧ fieldsI.mode = .interrupt ∧ fieldsI.mgr = true ∧
    s.descs[0]? = some { ch := 1, fields := fieldsI, done := false, transferred := 0 } ∧
    (s.setDescDone 0 true).descs[0]? = some { ch := 1, fields := fieldsI, done := true, transferred := 0 } ∧
    (1 : Word) ≠ 0 ∧ ({ fieldsI with mgr := false } : DescFields).mgr = false ∧ 1 < s.cfg.numCh := by decide

theorem witness_CompleteStopsAndEnds :
    (s0.pos = .start ∧ s0.refOf 0 = none) ∧
    ((withDesc 0 fieldsP (.completing 0 (.setDone true))).pos = .completing 0 (.setDone true) ∧ fieldsP.cb = none ∧
      ({ fieldsP with cb := some cb0 } : DescFields).cb = some cb0) ∧
    ((withDesc 0 fieldsP (.completing 0 (.callback false))).pos = .completing 0 (.callback false) ∧ cb0.reenters = false ∧
      ({ cb0 with reenters := true } : Cb).reenters = true) := by decide

theorem witness_CancelRun :
    (s0.pos = .start ∧ s0.refOf 0 = none) ∧
    ((withDesc 1 fieldsI .start).refOf 0 = some 0 ∧ (withDesc 1 fieldsI .start).drvUsable = true ∧
      ({ s0 with drvNumCh := 1 } : State).drvNumCh.toNat ≤ 1 ∧ 1 < s0.drvNumCh.toNat ∧ 1 < s0.cfg.numCh) ∧
    ((idle 0 0).tsfr = false ∧ (busy 0 8 4).phase = .busy) ∧
    (withDesc 1 fieldsI (.cancelWrite 0)).pos = .cancelWrite 0 := by decide

theorem witness_MgrInitRun :
    ({ s0 with mainPos := .mgrPresent } : State).pos = .mgrPresent ∧ s0.pos = .start ∧ s0.drvUsable = true := by decide

/-- S0 with both channels raising their interrupts, and slot 1 holding a descriptor with a callback (V-M6). -/
def sIrq : State :=
  { withDesc 1 { fieldsI with cb := some cb0 } .start (withChans { idle 0 0 with irqDone := true, istDone := true }
      { idle 0 0 with irqLast := true, istDone := true, istLast := true }) with
    gmask := 3, mgr := { s0.mgr with slots := [none, some 0] } }

theorem witness_callbacksReturn : sIrq.CallbacksReturn := by
  intro ch x h
  rcases ch with _ | _ | ch <;> cases h
  rfl

theorem witness_UpdateSteps :
    (s0.pos = .start ∧ s0.drvUsable = true ∧ s0.mgr.present = true ∧
      ({ s0 with mgr := State.reset.mgr } : State).mgr.present = false) ∧
    (({ s0 with mainPos := .updating .gstatus } : State).pos = .updating .gstatus ∧ s0.gstatus = 0 ∧ sIrq.gstatus ≠ 0 ∧
      0 < s0.drvNumCh.toNat) ∧
    (({ s0 with mainPos := .updating (.chan 1) } : State).pos = .updating (.chan 1) ∧ (sIrq.chan 0).istDone = true ∧
      ({ idle 0 0 with istLast := true } : Chan).istLast = true ∧ (s0.chan 1).istDone = false ∧ (s0.chan 1).istLast = false ∧
      0 + 1 < s0.drvNumCh.toNat ∧ s0.drvNumCh.toNat ≤ 1 + 1) ∧
    (({ s0 with mainPos := .updating (.ack 1 3 none) } : State).pos = .updating (.ack 1 3 none) ∧
      s0.cfg.irqAckClearsAll = false ∧ s0.slotCb none = none) := by decide

theorem witness_UpdateRun :
    sIrq.pos = .start ∧ sIrq.drvUsable = true ∧ sIrq.mgr.present = true ∧ sIrq.gstatus ≠ 0 ∧
    sIrq.drvNumCh.toNat ≤ sIrq.cfg.numCh := by decide

theorem witness_ServiceEffect :
    1 < sIrq.chans.length ∧ sIrq.slot 1 = some 0 ∧ sIrq.slot 0 ≠ some 0 ∧ sIrq.descs[0]?.isSome = true := by decide

theorem witness_SlotWriters :
    nextHas (step { withDesc 1 fieldsI (.begun 0 .slot) with sched := [.cpu], prog := [.op 0x93000000 { d := 0 }] })
      (fun t => t.mgr.slots ≠ s0.mgr.slots) ∧
    nextHas (step { sIrq with sched := [.cpu], prog := [.op 0x91000000 {}], mainPos := .mgrSlot 1 })
      (fun t => t.mgr.slots ≠ sIrq.mgr.slots) := by decide

/-- The first and last source, the last bank, the levels 7 and 8 at the edge of the range. -/
theorem witness_PlicWrites :
    s0.cfg.variant = .banked ∧ (1 : Idx).toNat ≠ 0 ∧ (31 : Idx).toNat < s0.cfg.numSources ∧
    (0 : Idx).toNat < s0.cfg.numBanks ∧ s0.srcs.length = s0.cfg.numSources ∧
    (7 : Word).toNat ≤ s0.cfg.priorityLevels.toNat ∧ s0.cfg.priorityLevels.toNat < (8 : Word).toNat ∧
    (((s0.setSrc 31 (src 0 false false true)).src (31 : Word).toNat).inService = true ∧ (31 : Word).toNat < s0.cfg.numSources) ∧
    s0.cfg.numSources ≤ (32 : Word).toNat ∧ (s0.src (4 : Word).toNat).inService = false := by decide

/-- Two candidates of equal priority: the smaller id is the one the hypothesis picks. -/
theorem witness_ClaimRead :
    let s := (s0.setSrc 3 (src 2 true true false)).setSrc 5 (src 2 true true false)
    (s.src 3).pending = true ∧ (s.src 3).en = true ∧ s.thr.toNat < (s.src 3).prio.toNat ∧
    (s.src 5).prio = (s.src 3).prio ∧ 3 ≤ 5 ∧
    (∀ n < 32, ((s.src n).pending && (s.src n).en) = (decide (n = 3) || decide (n = 5))) ∧
    ∀ n < 32, (s0.src n).pending = false := by decide

theorem witness_CsrAccesses : s0B.cfg.variant = .builtIn ∧ s0B.cfg.csrIrqMask ≠ s0B.cfg.csrIrqPending := by decide

theorem witness_IcInitRun :
    s0B.cfg.variant = .builtIn ∧ s0.cfg.variant = .banked ∧ ({ s0 with mainPos := .icInitThr } : State).pos = .icInitThr ∧
    s0.pos = .start ∧ s0.srcs.length = s0.cfg.numSources ∧ 1 ≤ s0.cfg.numSources := by decide

theorem witness_IcEnableDisableRuns :
    (s0.cfg.variant = .banked ∧ (31 : Idx).toNat = 31 ∧ 31 ≠ 0 ∧ 31 < s0.cfg.numSources ∧
      ({ s0 with mainPos := .icWriteEn 0 } : State).pos = .icWriteEn 0) ∧
    (s0.pos = .start ∧ s0.srcs.length = s0.cfg.numSources ∧ (s0.src 31).prio = 0 ∧ 1 ≤ s0.cfg.priorityLevels.toNat ∧
      ((s0.setSrc 31 (src 3 false false false)).src 31).prio ≠ 0) ∧
    (s0B.cfg.variant = .builtIn ∧ 31 < 32 ∧ s0B.pos = .start) := by decide

theorem witness_PriorityOperations :
    s0B.cfg.variant = .builtIn ∧ s0.cfg.variant = .banked ∧ (31 : Idx).toNat < s0.cfg.numSources ∧
    (7 : Word).toNat ≤ s0.cfg.priorityLevels.toNat ∧ s0.cfg.priorityLevels.toNat < (8 : Word).toNat := by decide

theorem witness_InterruptLines :
    s0.cfg.variant = .banked ∧ (s0.setSrc 3 (src 2 true true false)).eip = true ∧ s0.eip = false ∧
    s0B.cfg.variant = .builtIn ∧ ({ s0B.setLine 31 true with icMask := 0x80000000 } : State).eip = true ∧ sIrq.dmaIrq = true ∧
    (31 < s0.cfg.numSources ∧ 31 < s0.lines.length ∧ 31 ≠ s0.cfg.dmaIrqSource) := by decide

theorem witness_Gateway :
    s0.cfg.variant = .banked ∧ 1 ≤ 31 ∧ 31 < s0.cfg.numSources ∧
    ((s0.setLine 31 true).lineLevel 31 = true ∧ (s0.src 31).pending = false ∧ (s0.src 31).inService = false) ∧
    s0.lineLevel 31 = false ∧
    nextHas (step { s0.setLine 31 true with sched := [.gwLatch 31] }) (fun t => (t.src 31).pending) := by decide

theorem witness_DispatchRuns :
    (7 : Idx).toNat ≠ sIrq.cfg.dmaIrqSource ∧ (5 : Idx).toNat = sIrq.cfg.dmaIrqSource ∧ sIrq.pos = .start ∧
    ({ s0 with drvUsable := false } : State).drvUsable = false ∧
    ({ s0 with mainPos := .updating .gstatus } : State).pos = .updating .gstatus ∧ s0.gstatus = 0 ∧
    sIrq.drvUsable = true ∧ sIrq.mgr.present = true ∧ sIrq.gstatus ≠ 0 ∧
    sIrq.drvNumCh.toNat ≤ sIrq.cfg.numCh := by decide

/-- The DMA source 5 and source 31 as the ones claimed, and none. -/
theorem witness_IrqEntryBankedRun :
    sIrq.cfg.variant = .banked ∧ sIrq.pos = .start ∧ sIrq.claimable = none ∧
    (sIrq.setSrc 5 (src 2 true true false)).claimable = some 5 ∧ 5 = sIrq.cfg.dmaIrqSource ∧
    (sIrq.setSrc 31 (src 2 true true false)).claimable = some 31 ∧ 31 ≠ sIrq.cfg.dmaIrqSource ∧ 31 < sIrq.srcs.length ∧
    ({ s0 with mainPos := .irqComplete 31 } : State).pos = .irqComplete 31 ∧ 31 < s0.cfg.numSources ∧
    ((s0.setSrc 31 (src 0 false false true)).src 31).inService = true ∧ sIrq.drvUsable = true ∧
    sIrq.mgr.present = true ∧ sIrq.gstatus ≠ 0 ∧ sIrq.drvNumCh.toNat ≤ sIrq.cfg.numCh ∧
    ((s0.setSrc 5 (src 2 true true false)).claimable = some 5 ∧ 5 = s0.cfg.dmaIrqSource ∧ s0.drvUsable = true ∧
      s0.mgr.present = true ∧ (s0.setSrc 5 (src 2 true true false)).gstatus = 0) := by decide

/-- No unmasked line, line 31 alone, and the DMA line 5 alone. -/
theorem witness_IrqEntryBuiltInRun :
    let s := { sIrq with cfg := Config.exampleB, icMask := 0x20 }
    let u := { s0B.setLine 31 true with icMask := 0x80000000 }
    s.cfg.variant = .builtIn ∧ s.cfg.csrIrqMask ≠ s.cfg.csrIrqPending ∧ s.pos = .start ∧ s.lineLevel 5 = true ∧
    s.icMask.getLsbD 5 = true ∧ (∀ k < 5, s.lineLevel k = true → s.icMask.getLsbD k = false) ∧ 5 = s.cfg.dmaIrqSource ∧
    s.drvUsable = true ∧ s.mgr.present = true ∧ s.drvNumCh.toNat ≤ s.cfg.numCh ∧
    u.lineLevel 31 = true ∧ u.icMask.getLsbD 31 = true ∧ (∀ k < 31, u.lineLevel k = true → u.icMask.getLsbD k = false) ∧
    (∀ k < 32, s0B.lineLevel k = true → s0B.icMask.getLsbD k = false) ∧ (3 : Word) &&& s0B.icMask = 0 ∧
    ({ s0B with mainPos := .irqReadMask 3 } : State).pos = .irqReadMask 3 := by decide

theorem witness_InterruptEntryAndReturn :
    let s := { s0.setSrc 3 (src 2 true true false) with cpuIe := true }
    s.eip = true ∧ s.cpuIe = true ∧ s.isrActive = false ∧ s0.eip = false ∧
    nextHas (step { s with sched := [.irqEntry] }) (fun t => t.isrActive) ∧
    nextHas (step { s with sched := [.cpu], isrActive := true }) (fun t => t.isrActive) := by decide

/-- MAIN past the validation of a BEGIN (InvariantKept, TrackerDriverKept, CheckedPositionsKept). -/
def sBegin : State :=
  { withDesc 0 fieldsP (.begun 0 .irqRead) with sched := [.cpu], prog := [.op 0x93000000 { d := 0 }] }

theorem witness_InvariantKept : sBegin.Inv ∧ nextHas (step sBegin) fun t => t.mainPos = .begun 0 (.irqWrite 0x40) := by
  refine ⟨⟨by decide, by decide, by decide, by decide, ⟨by decide, ?_, by decide⟩, by decide⟩, by decide⟩
  intro r h
  rcases List.mem_cons.1 h with h | h
  · cases h
  · rcases List.mem_cons.1 h with h | h <;> cases h

theorem witness_TrackerDriverKept : sBegin.MasksInRange ∧ sBegin.DriverLawful :=
  ⟨⟨by decide, trivial, trivial⟩, by decide, trivial⟩

theorem witness_CheckedPositionsKept : sBegin.BeginHolds ∧ sBegin.PulseReady := by
  refine ⟨fun r p d z h _ _ => ?_, fun h => by cases h⟩
  cases h
  exact ⟨_, rfl, by decide, by decide, by decide, fun v hv => by cases hv⟩

theorem witness_MemoryFrame :
    nextHas (step { s0 with sched := [.cpu], prog := [.store 0x2000 .byte 7] }) (fun t => t.mem = [(0x2000, 7)]) ∧
    nextHas (step { withChans (idle 0 0) (busy 0x3000 16 15) with sched := [.eProgress 1] })
      (fun t => t.mem.map Prod.fst = [0x300F]) := by decide

theorem witness_ResetValues :
    31 ≠ 0 ∧ 31 < Config.exampleA.numSources ∧ ResetDraws.zero.prio 31 ≤ Config.exampleA.priorityLevels ∧
    1 < Config.exampleA.numCh ∧ Config.exampleA.variant = .banked := by decide

/-- The first and last register of the map, an address that names none, an unaligned one, and a word whose last two bytes
alone lie in the DMA controller. -/
theorem witness_PlainRegisterAccess :
    s0.cfg.ok ∧ (Reg.streamCtrl 0).check s0.cfg = .present ∧ Reg.claim.check s0.cfg = .present ∧
    (s0.cfg.inUnit (0x0C200008 : Word).toNat = true ∧ s0.cfg.regAt (0x0C200008 : Word).toNat = none) ∧
    (s0.cfg.inUnit (0x10001001 : Word).toNat = true ∧ (0x10001001 : Word).toNat % 4 ≠ 0) ∧ Width.half ≠ .word ∧
    s0.cfg.regAt (0x0C200004 : Word).toNat = some .claim ∧
    (s0.cfg.inUnit (0x10000FFE : Word).toNat = false ∧ 2 < Width.word.bytes ∧
      s0.cfg.inUnit ((0x10000FFE : Word) + BitVec.ofNat 32 2).toNat = true ∧ (0x10000FFE : Word).toNat % 4 ≠ 0) :=
  ⟨test_configs.1, by decide, by decide, by decide, by decide, by decide, by decide, by decide⟩

theorem witness_PlainMemoryAccess :
    (∀ k < Width.word.bytes, s0.cfg.inUnit ((0xFFFFFFFF : Word) + BitVec.ofNat 32 k).toNat = false) ∧
    (∀ k < Width.half.bytes, Mem.lookup ((0x2000 : Word) + BitVec.ofNat 32 k).toNat [(0x2000, 1), (0x2001, 2)] =
      some (BitVec.ofNat 8 (k + 1))) ∧ 0 < 1 ∧ s0.hist = [] := by decide

/-- Code of 2 bytes at 0x2000: an engine wrote the second and CPU events follow; then a byte store overwrites it. -/
theorem witness_PlainMemoryAccess_code :
    let h := [.irq 5, .bus .main true 0x1FFC 4 0, .dmaWrite 1 0x2001 7]
    EngineWroteLast ((0x2000 : Word) + BitVec.ofNat 32 1) h ∧
    (∀ e ∈ h, eventWrites ((0x2000 : Word) + BitVec.ofNat 32 0) e = false) ∧
    StoreWroteLast ((0x2000 : Word) + BitVec.ofNat 32 1) (.bus .main true 0x2001 1 9 :: h) :=
  ⟨⟨[.irq 5, .bus .main true 0x1FFC 4 0], 1, 7, [], rfl, by decide⟩, by decide,
    ⟨[], .main, 0x2001, 1, 9, _, rfl, by decide, by decide⟩⟩

/-! ### The named premises (R98, R107) -/

/-- Channel 1 in flight, with `c` the next choice. -/
def sFlight (c : Choice) : State := { withChans (idle 0 0) (busy 0x3000 16 0) with sched := [c] }

/-- A transfer whose E_COMPLETE is taken meets FAIR_DONE. -/
theorem test_FairDone_completes : FairDone 1 fun n => if n = 0 then sFlight (.eComplete 1) else s0 := by
  intro n h
  by_cases h0 : n = 0
  · subst h0
    exact ⟨0, le_rfl, fun k _ hk => by rw [Nat.le_zero.1 hk]; decide, by decide, by decide, by decide⟩
  · simp only [h0, if_false] at h; exact absurd h (by decide)

/-- One that another step ends (an abort) does not (log entry 35). -/
theorem test_FairDone_abort : ¬ FairDone 1 fun n => if n = 0 then sFlight .cpu else s0 := by
  intro h
  obtain ⟨m, _, hb, hc⟩ := h 0 (by decide)
  have hm := hb m (Nat.zero_le m) le_rfl
  by_cases h0 : m = 0
  · subst h0; exact absurd hc.1 (by decide)
  · simp only [h0, if_false] at hm; exact absurd hm (by decide)

/-- An `MGR_INIT` before the transfer is serviced breaks ONCE_EXCL. -/
theorem test_OnceExcl_mgrInit : ¬ OnceExcl 1 0 fun _ => { sFlight .cpu with prog := [.op 0x91000000 {}] } := by
  intro h
  obtain ⟨i, j, k, _, hij, hjk, hk, _⟩ := h 0 le_rfl (.inl ⟨rfl, rfl, .inl ⟨0, 0x91000000, {}, [], rfl, rfl⟩⟩)
  omega

end Sys2Proof.Tests
end

section
/-! PROOFS. The address map of R42 unit by unit: a register is its unit and its offset there, and the units' ranges do not
overlap. What a plain CPU access reaches follows from it (R39). -/

namespace Sys2Proof

open Sys2Proof.Machine

/-! ### Units of the bus space -/

/-- The address ranges of R42. -/
inductive BusUnit where
  | streamIn
  | streamOut
  | dma
  | plic

/-- Whether the build has the unit: the banked controller is one of the two variants (R42, R60). -/
def BusUnit.present (p : Params) : BusUnit → Prop
  | .streamIn | .streamOut | .dma => True
  | .plic => p.variant = .banked

def BusUnit.base (p : Params) : BusUnit → Word
  | .streamIn => p.streamInBase
  | .streamOut => p.streamOutBase
  | .dma => p.dmaBase
  | .plic => p.plicBase

def BusUnit.size (p : Params) : BusUnit → Nat
  | .streamIn | .streamOut => 8
  | .dma => p.dmaSize
  | .plic => Params.plicSize

/-- The register at a byte offset of the unit. -/
def BusUnit.regAt (p : Params) : BusUnit → Nat → Option Reg
  | .streamIn => streamRegAt 0
  | .streamOut => streamRegAt 1
  | .dma => dmaRegAt
  | .plic => p.plicRegAt

theorem inRange_iff {base : Word} {size a : Nat} :
    inRange base size a = true ↔ base.toNat ≤ a ∧ a < base.toNat + size := by
  simp [inRange]

theorem BusUnit.inRange_offset {p : Params} (u : BusUnit) {o : Nat} (ho : o < u.size p) :
    inRange (u.base p) (u.size p) ((u.base p).toNat + o) = true :=
  inRange_iff.2 ⟨by omega, by omega⟩

theorem BusUnit.base_aligned {p : Params} (h : p.aligned) (u : BusUnit) : (u.base p).toNat % 4 = 0 := by
  obtain ⟨hin, hout, hdma, hplic⟩ := h
  cases u <;> assumption

theorem BusUnit.end_le {p : Params} (h : p.inSpace) {u : BusUnit} (hu : u.present p) :
    (u.base p).toNat + u.size p ≤ 2 ^ 32 := by
  obtain ⟨hin, hout, hdma, hplic⟩ := h
  cases u with
  | streamIn => exact hin
  | streamOut => exact hout
  | dma => exact hdma
  | plic => exact hplic hu

theorem BusUnit.inUnit_offset {p : Params} {u : BusUnit} {o : Nat} (hu : u.present p) (ho : o < u.size p) :
    p.inUnit ((u.base p).toNat + o) = true := by
  have h := u.inRange_offset ho
  simp only [Params.inUnit, Bool.or_eq_true, Bool.and_eq_true, decide_eq_true_eq]
  cases u with
  | streamIn => exact .inl (.inl (.inl h))
  | streamOut => exact .inl (.inl (.inr h))
  | dma => exact .inl (.inr h)
  | plic => exact .inr ⟨hu, h⟩

/-- As the ranges are disjoint (R42), the address map answers what the unit answers. -/
theorem BusUnit.regAt_offset {p : Params} (h : p.disjoint) {u : BusUnit} {o : Nat} (hu : u.present p)
    (ho : o < u.size p) : p.regAt ((u.base p).toNat + o) = u.regAt p o := by
  obtain ⟨hio, hid, hod, hplic⟩ := h
  have hin := u.inRange_offset ho
  cases u with
  | streamIn =>
    simp only [base, size, regAt] at ho hin ⊢
    rw [Params.regAt, if_pos hin, Nat.add_sub_cancel_left]
  | streamOut =>
    simp only [base, size, regAt] at ho hin ⊢
    rw [Params.regAt, if_neg (by rw [inRange_iff]; omega), if_pos hin, Nat.add_sub_cancel_left]
  | dma =>
    simp only [base, size, regAt] at ho hin ⊢
    rw [Params.regAt, if_neg (by rw [inRange_iff]; omega), if_neg (by rw [inRange_iff]; omega), if_pos hin,
      Nat.add_sub_cancel_left]
  | plic =>
    have hv : p.variant = .banked := hu
    obtain ⟨hip, hop, hdp⟩ := hplic hv
    simp only [base, size, regAt] at ho hin ⊢
    rw [Params.regAt, if_neg (by rw [inRange_iff]; omega), if_neg (by rw [inRange_iff]; omega),
      if_neg (by rw [inRange_iff]; omega), if_pos (by simp [hv, hin]), Nat.add_sub_cancel_left]

/-- The form in which the branches of the address map give a unit: its range holds the address. -/
theorem BusUnit.exists_offset {p : Params} (u : BusUnit) {a : Nat} {r : Reg} (hu : u.present p)
    (ha : inRange (u.base p) (u.size p) a = true) (h : u.regAt p (a - (u.base p).toNat) = some r) :
    ∃ (u : BusUnit) (o : Nat), u.present p ∧ o < u.size p ∧ a = (u.base p).toNat + o ∧ u.regAt p o = some r := by
  rw [inRange_iff] at ha
  exact ⟨u, _, hu, by omega, by omega, h⟩

/-- An address that names a register lies in a present unit, which names the register at its offset. -/
theorem exists_unit_of_regAt {p : Params} {a : Nat} {r : Reg} (h : p.regAt a = some r) :
    ∃ (u : BusUnit) (o : Nat), u.present p ∧ o < u.size p ∧ a = (u.base p).toNat + o ∧ u.regAt p o = some r := by
  unfold Params.regAt at h
  split at h
  next hin => exact BusUnit.exists_offset .streamIn trivial hin h
  split at h
  next hout => exact BusUnit.exists_offset .streamOut trivial hout h
  split at h
  next hdma => exact BusUnit.exists_offset .dma trivial hdma h
  split at h
  next hplic =>
    obtain ⟨hv, hplic⟩ := Bool.and_eq_true_iff.1 hplic
    exact BusUnit.exists_offset .plic (by simpa [BusUnit.present] using hv) hplic h
  cases h

/-! ### A register's unit and its offset there -/

def Reg.busUnit : Reg → BusUnit
  | .streamCtrl e | .streamData e => if e = 0 then .streamIn else .streamOut
  | .chCount | .chOff | .gmask | .gstatus => .dma
  | .chCtrl _ | .chBase _ | .chLen _ | .chDoneLen _ | .chIstat _ => .dma
  | .prioReserved | .prio _ | .pend _ | .en _ | .thr | .claim => .plic

/-- The byte offset of a register in its unit (R11, R22, R23, R110). -/
def Reg.offset : Reg → Nat
  | .streamCtrl _ => 0
  | .streamData _ => 4
  | .chCount => 0
  | .chOff => 4
  | .gmask => 8
  | .gstatus => 0xC
  | .chCtrl ch => 0x10 + 0x14 * ch
  | .chBase ch => 0x10 + 0x14 * ch + 4
  | .chLen ch => 0x10 + 0x14 * ch + 8
  | .chDoneLen ch => 0x10 + 0x14 * ch + 0xC
  | .chIstat ch => 0x10 + 0x14 * ch + 0x10
  | .prioReserved => 0
  | .prio n => 4 * n
  | .pend b => 0x1000 + 4 * b
  | .en b => 0x2000 + 4 * b
  | .thr => 0x200000
  | .claim => 0x200004

theorem Reg.offset_aligned (r : Reg) : r.offset % 4 = 0 := by
  cases r <;> simp only [offset] <;> omega

theorem ofRange_eq_present {c : Bool} : RegCheck.ofRange c = .present ↔ c = true := by
  cases c <;> simp [RegCheck.ofRange]

theorem plicCheck_eq_present {p : Params} {c : Bool} :
    p.plicCheck c = .present ↔ p.variant = .banked ∧ c = true := by
  cases hv : p.variant <;> simp [Params.plicCheck, hv, ofRange_eq_present]

theorem numSources_le {p : Params} (h : p.bounds) (hv : p.variant = .banked) : p.numSources ≤ 1024 := by
  obtain ⟨-, -, hb, -⟩ := h
  exact (hb hv).1.2

theorem numBanks_le {p : Params} (hn : p.numSources ≤ 1024) : p.numBanks ≤ 32 := by
  unfold Params.numBanks
  omega

theorem Reg.addr_eq (p : Params) (r : Reg) : r.addr p = r.busUnit.base p + BitVec.ofNat 32 r.offset := by
  cases r with
  | streamCtrl e => by_cases h : e = 0 <;> simp [addr, busUnit, BusUnit.base, offset, Params.streamBase, h]
  | streamData e => by_cases h : e = 0 <;> simp [addr, busUnit, BusUnit.base, offset, Params.streamBase, h]
  | _ => simp [addr, busUnit, BusUnit.base, offset, Params.chAddr, BitVec.ofNat_add, BitVec.add_assoc]

/-! ### The registers of each unit -/

theorem streamRegAt_some {p : Params} {e o : Nat} {r : Reg} (he : e ≤ 1) (h : streamRegAt e o = some r) :
    r.check p = .present ∧ r.busUnit = (if e = 0 then .streamIn else .streamOut) ∧ r.offset = o := by
  unfold streamRegAt at h
  split at h
  next h0 => cases h; exact ⟨(check_stream he).1, rfl, h0.symm⟩
  split at h
  next h4 => cases h; exact ⟨(check_stream he).2, rfl, h4.symm⟩
  cases h

theorem dmaRegAt_some {p : Params} {o : Nat} {r : Reg} (ho : o < p.dmaSize) (h : dmaRegAt o = some r) :
    r.check p = .present ∧ r.busUnit = .dma ∧ r.offset = o := by
  unfold dmaRegAt at h
  split at h
  next h0 => cases h; exact ⟨rfl, rfl, h0.symm⟩
  split at h
  next h4 => cases h; exact ⟨rfl, rfl, h4.symm⟩
  split at h
  next h8 => cases h; exact ⟨rfl, rfl, h8.symm⟩
  split at h
  next hC => cases h; exact ⟨rfl, rfl, hC.symm⟩
  split at h
  · cases h
  have hch : (o - 0x10) / 0x14 < p.numCh := by unfold Params.dmaSize at ho; omega
  obtain ⟨hctrl, hbase, hlen, hdoneLen, histat⟩ := check_chan hch
  dsimp only at h
  split at h <;> cases h
  · exact ⟨hctrl, rfl, by simp only [Reg.offset]; omega⟩
  · exact ⟨hbase, rfl, by simp only [Reg.offset]; omega⟩
  · exact ⟨hlen, rfl, by simp only [Reg.offset]; omega⟩
  · exact ⟨hdoneLen, rfl, by simp only [Reg.offset]; omega⟩
  · exact ⟨histat, rfl, by simp only [Reg.offset]; omega⟩

/-- The test of the address map for one array of `n` banks at offset `lo` (R110). -/
theorem bankRange_iff {lo n o : Nat} :
    (decide (lo ≤ o) && decide (o < lo + 4 * n)) = true ↔ lo ≤ o ∧ o < lo + 4 * n := by
  simp

theorem plicRegAt_some {p : Params} {o : Nat} {r : Reg} (hv : p.variant = .banked) (h : p.plicRegAt o = some r) :
    r.check p = .present ∧ r.busUnit = .plic ∧ r.offset = o := by
  unfold Params.plicRegAt at h
  split at h
  · cases h
  split at h
  next h0 => cases h; exact ⟨plicCheck_eq_present.2 ⟨hv, rfl⟩, rfl, h0.symm⟩
  split at h
  next hs => cases h; exact ⟨check_source hv (by omega) (by omega), rfl, by simp only [Reg.offset]; omega⟩
  split at h
  next hb =>
    rw [bankRange_iff] at hb
    cases h; exact ⟨(check_bank hv (by omega)).1, rfl, by simp only [Reg.offset]; omega⟩
  split at h
  next hb =>
    rw [bankRange_iff] at hb
    cases h; exact ⟨(check_bank hv (by omega)).2, rfl, by simp only [Reg.offset]; omega⟩
  split at h
  next ht => cases h; exact ⟨(check_banked hv).1, rfl, ht.symm⟩
  split at h
  next hc => cases h; exact ⟨(check_banked hv).2, rfl, hc.symm⟩
  cases h

/-- What a present unit names at an offset is a register that exists, of that unit and that offset. -/
theorem BusUnit.regAt_some {p : Params} {u : BusUnit} {o : Nat} {r : Reg} (hu : u.present p) (ho : o < u.size p)
    (h : u.regAt p o = some r) : r.check p = .present ∧ r.busUnit = u ∧ r.offset = o := by
  cases u with
  | streamIn => exact streamRegAt_some (by decide) h
  | streamOut => exact streamRegAt_some (by decide) h
  | dma => exact dmaRegAt_some ho h
  | plic => exact plicRegAt_some hu h

/-- Offset `k` of channel `ch`, seen from the channel array. -/
theorem chan_offset_div_mod (ch : Nat) {k : Nat} (hk : k < 0x14) :
    (0x10 + 0x14 * ch + k - 0x10) / 0x14 = ch ∧ (0x10 + 0x14 * ch + k - 0x10) % 0x14 = k := by
  omega

/-- The register at byte offset `k` of a channel (R11, R23). -/
def chanRegAt (ch k : Nat) : Option Reg :=
  match k with
  | 0x0 => some (.chCtrl ch)
  | 0x4 => some (.chBase ch)
  | 0x8 => some (.chLen ch)
  | 0xC => some (.chDoneLen ch)
  | 0x10 => some (.chIstat ch)
  | _ => none

theorem dmaRegAt_chan (ch : Nat) {k : Nat} (hk : k < 0x14) : dmaRegAt (0x10 + 0x14 * ch + k) = chanRegAt ch k := by
  obtain ⟨hdiv, hmod⟩ := chan_offset_div_mod ch hk
  rw [dmaRegAt, if_neg (by omega), if_neg (by omega), if_neg (by omega), if_neg (by omega), if_neg (by omega)]
  simp only [hdiv, hmod]
  rfl

section Banked
variable {p : Params}

theorem plicRegAt_prio {n : Nat} (h0 : n ≠ 0) (h : n < p.numSources) : p.plicRegAt (4 * n) = some (.prio n) := by
  rw [Params.plicRegAt, if_neg (by omega), if_neg (by omega), if_pos (by omega), Nat.mul_div_cancel_left n (by omega)]

theorem plicRegAt_pend {b : Nat} (hn : p.numSources ≤ 1024) (h : b < p.numBanks) :
    p.plicRegAt (0x1000 + 4 * b) = some (.pend b) := by
  rw [Params.plicRegAt, if_neg (by omega), if_neg (by omega), if_neg (by omega), if_pos (by rw [bankRange_iff]; omega),
    Nat.add_sub_cancel_left, Nat.mul_div_cancel_left b (by omega)]

theorem plicRegAt_en {b : Nat} (hn : p.numSources ≤ 1024) (h : b < p.numBanks) :
    p.plicRegAt (0x2000 + 4 * b) = some (.en b) := by
  have hb := numBanks_le hn
  rw [Params.plicRegAt, if_neg (by omega), if_neg (by omega), if_neg (by omega), if_neg (by rw [bankRange_iff]; omega),
    if_pos (by rw [bankRange_iff]; omega), Nat.add_sub_cancel_left, Nat.mul_div_cancel_left b (by omega)]

/-- Above the banks only the threshold and the claim register are named. -/
theorem plicRegAt_high {o : Nat} (hn : p.numSources ≤ 1024) (h4 : o % 4 = 0) (ho : 0x200000 ≤ o) :
    p.plicRegAt o = if o = 0x200000 then some .thr else if o = 0x200004 then some .claim else none := by
  have hb := numBanks_le hn
  rw [Params.plicRegAt, if_neg (by omega), if_neg (by omega), if_neg (by omega), if_neg (by rw [bankRange_iff]; omega),
    if_neg (by rw [bankRange_iff]; omega)]

end Banked

/-- A register that exists lies inside a unit the build has. -/
theorem Reg.offset_lt {p : Params} (hp : p.bounds) {r : Reg} (h : r.check p = .present) :
    r.busUnit.present p ∧ r.offset < r.busUnit.size p := by
  cases r with
  | streamCtrl e | streamData e =>
    simp only [busUnit]
    split <;> exact ⟨trivial, by simp [offset, BusUnit.size]⟩
  | chCount | chOff | gmask | gstatus =>
    exact ⟨trivial, by simp only [offset, busUnit, BusUnit.size, Params.dmaSize]; omega⟩
  | chCtrl ch | chBase ch | chLen ch | chDoneLen ch | chIstat ch =>
    simp only [check, ofRange_eq_present, decide_eq_true_eq] at h
    exact ⟨trivial, by simp only [offset, busUnit, BusUnit.size, Params.dmaSize]; omega⟩
  | prioReserved | prio n | pend b | en b | thr | claim =>
    simp only [check, plicCheck_eq_present, Bool.and_eq_true, decide_eq_true_eq] at h
    have hn := numSources_le hp h.1
    have hb := numBanks_le hn
    exact ⟨h.1, by simp only [offset, busUnit, BusUnit.size, Params.plicSize]; omega⟩

/-- A register that exists is what its unit names at its offset. -/
theorem Reg.regAt_busUnit {p : Params} (hp : p.bounds) {r : Reg} (h : r.check p = .present) :
    r.busUnit.regAt p r.offset = some r := by
  cases r with
  | streamCtrl e | streamData e =>
    have he : e ≤ 1 := by simpa [check, ofRange_eq_present] using h
    obtain rfl | rfl : e = 0 ∨ e = 1 := by omega
    · rfl
    · rfl
  | chCount | chOff | gmask | gstatus => rfl
  | chCtrl ch => exact dmaRegAt_chan ch (k := 0) (by decide)
  | chBase ch => exact dmaRegAt_chan ch (by decide)
  | chLen ch => exact dmaRegAt_chan ch (by decide)
  | chDoneLen ch => exact dmaRegAt_chan ch (by decide)
  | chIstat ch => exact dmaRegAt_chan ch (by decide)
  | prioReserved => rfl
  | prio n =>
    simp only [check, plicCheck_eq_present, Bool.and_eq_true, decide_eq_true_eq] at h
    exact plicRegAt_prio h.2.1 h.2.2
  | pend b =>
    obtain ⟨hv, hb⟩ := plicCheck_eq_present.1 h
    exact plicRegAt_pend (numSources_le hp hv) (of_decide_eq_true hb)
  | en b =>
    obtain ⟨hv, hb⟩ := plicCheck_eq_present.1 h
    exact plicRegAt_en (numSources_le hp hv) (of_decide_eq_true hb)
  | thr | claim =>
    exact plicRegAt_high (numSources_le hp (plicCheck_eq_present.1 h).1) (by decide) (by decide)

/-! ### The address map, register by register -/

theorem Reg.addr_toNat {p : Params} (hp : p.ok) {r : Reg} (h : r.check p = .present) :
    (r.addr p).toNat = (r.busUnit.base p).toNat + r.offset := by
  obtain ⟨hb, -, hs, -⟩ := hp
  obtain ⟨hu, ho⟩ := offset_lt hb h
  have hend := BusUnit.end_le hs hu
  rw [addr_eq, BitVec.toNat_add, BitVec.toNat_ofNat, Nat.add_mod_mod, Nat.mod_eq_of_lt (by omega)]

theorem Reg.addr_aligned {p : Params} (hp : p.ok) {r : Reg} (h : r.check p = .present) :
    (r.addr p).toNat % 4 = 0 := by
  have hbase := r.busUnit.base_aligned hp.2.1
  have hoff := r.offset_aligned
  rw [addr_toNat hp h]
  omega

theorem Reg.inUnit_addr {p : Params} (hp : p.ok) {r : Reg} (h : r.check p = .present) :
    p.inUnit (r.addr p).toNat = true := by
  obtain ⟨hu, ho⟩ := offset_lt hp.1 h
  rw [addr_toNat hp h]
  exact BusUnit.inUnit_offset hu ho

/-- An address names a register exactly where the register exists and has that address. -/
theorem regAt_toNat_iff {p : Params} (hp : p.ok) {a : Word} {r : Reg} :
    p.regAt a.toNat = some r ↔ r.check p = .present ∧ a = r.addr p := by
  constructor
  · intro h
    obtain ⟨u, o, hu, ho, ha, hr⟩ := exists_unit_of_regAt h
    obtain ⟨hc, rfl, rfl⟩ := BusUnit.regAt_some hu ho hr
    exact ⟨hc, BitVec.eq_of_toNat_eq (by rw [ha, Reg.addr_toNat hp hc])⟩
  · rintro ⟨hc, rfl⟩
    have ⟨hb, _, _, hd⟩ := hp
    obtain ⟨hu, ho⟩ := Reg.offset_lt hb hc
    rw [Reg.addr_toNat hp hc, BusUnit.regAt_offset hd hu ho, Reg.regAt_busUnit hb hc]

end Sys2Proof

namespace Sys2Proof.Machine

open Sys2Proof

/-! ### What a plain access reaches (R39) -/

theorem bytes_eq_four {w : Width} : w.bytes = 4 ↔ w = .word := by
  cases w <;> simp [Width.bytes]

theorem target_register {p : Params} (hp : p.ok) {r : Reg} (h : r.check p = .present) :
    Params.target p (r.addr p) 4 = .register r := by
  have hany : ((List.range 4).any fun k => p.inUnit (r.addr p + BitVec.ofNat 32 k).toNat) = true :=
    List.any_eq_true.2 ⟨0, by simp, by simpa using Reg.inUnit_addr hp h⟩
  rw [Params.target, if_pos hany, if_pos ⟨rfl, Reg.addr_aligned hp h⟩, (regAt_toNat_iff hp).2 ⟨h, rfl⟩]

theorem target_bad {p : Params} {a : Word} {n : Nat} (h : ∃ k < n, p.inUnit (a + BitVec.ofNat 32 k).toNat = true)
    (hb : n ≠ 4 ∨ a.toNat % 4 ≠ 0 ∨ p.regAt a.toNat = none) : Params.target p a n = .bad := by
  obtain ⟨k, hk, hu⟩ := h
  have hany : ((List.range n).any fun k => p.inUnit (a + BitVec.ofNat 32 k).toNat) = true :=
    List.any_eq_true.2 ⟨k, by simpa using hk, hu⟩
  rw [Params.target, if_pos hany]
  split
  next hal =>
    obtain hn | ha | hr := hb
    · exact absurd hal.1 hn
    · exact absurd hal.2 ha
    · rw [hr]
  next => rfl

section Plain
variable {s : State} {r : Reg} {v : Word}

/-- A read rule moves neither the agent that steps nor the map, so the record made after it is the one the bus makes. -/
theorem sawRead_readReg :
    (readReg r s).2.sawRead r v = (readReg r s).2.emit (.bus s.cur false (r.addr s.cfg) 4 v) := by
  obtain ⟨-, -, -, -, hcfg, -, -, hact, -, -⟩ := readReg_sameDriver r s
  rw [State.sawRead, hcfg, State.cur, hact, State.cur]

theorem plainLoad_register (hp : s.cfg.ok) (h : r.check s.cfg = .present) :
    plainLoad (r.addr s.cfg) .word s =
      .next (((readReg r s).2.sawRead r (readReg r s).1).ret (.word (readReg r s).1)) := by
  rw [plainLoad, Width.bytes, target_register hp h, sawRead_readReg]
  simp only [busRead_present h, orFault, done, State.plainWho]

theorem plainStore_register (hp : s.cfg.ok) (h : r.check s.cfg = .present) :
    plainStore (r.addr s.cfg) .word v s =
      orFault (writeReg { agent := s.cur, word := none, addr := some (r.addr s.cfg) } r v (s.sawWrite r v))
        (done .unit) := by
  rw [plainStore, Width.bytes, target_register hp h]
  simp only [busWrite_present h, State.plainWho, Who.atAddr, State.sawWrite]

end Plain

theorem plain_bad {s : State} {a : Word} {w : Width} (v : Word) (h : Params.target s.cfg a w.bytes = .bad) :
    plainLoad a w s = .fault (.badAccess { agent := s.cur, word := none, addr := some a }) ∧
      plainStore a w v s = .fault (.badAccess { agent := s.cur, word := none, addr := some a }) := by
  rw [plainLoad, plainStore, h]
  exact ⟨rfl, rfl⟩

/-- Settles O59: the address map names each register at its own address only (`regAt_toNat_iff`), and what a plain access
reaches follows from it. -/
theorem plainRegisterAccess : Obligations.PlainRegisterAccess := by
  unfold Obligations.PlainRegisterAccess
  intro s v hp
  refine ⟨fun r h => ⟨(regAt_toNat_iff hp).2 ⟨h, rfl⟩, plainLoad_register hp h, fun t ht => ?_, fun f hf => ?_⟩,
    fun a r => (regAt_toNat_iff hp).1, fun a w hu hb => plain_bad v (target_bad hu ?_)⟩
  · rw [plainStore_register hp h, ht]; rfl
  · rw [plainStore_register hp h, hf]; rfl
  · rwa [Ne, bytes_eq_four]

end Sys2Proof.Machine
end

section
/-! PROOFS. The invariant of the machine (R20, R22, R26, R31, R47): what each small change of a step does to each part of
it, and the state after reset. -/

namespace Sys2Proof.Machine

open Sys2Proof

/-! ### What a small change does to each table -/

/-- A choice uses up the scheduled one, or counts one that was not scheduled (R44). -/
theorem State.chosen_eq (s : State) :
    s.chosen = { s with sched := s.sched.tail, ticks := if s.sched = [] then s.ticks + 1 else s.ticks } := by
  unfold State.chosen
  cases h : s.sched <;> simp

section Change
variable {l : Nat} {s t : State}

theorem Change.cfg_eq (h : Change l s t) : t.cfg = s.cfg := by
  cases h <;> simp [State.chosen_eq]

theorem Change.chans_cases (h : Change l s t) :
    t.chans = s.chans ∨ ∃ ch c, ChanChange l (s.chan ch) c ∧ t.chans = s.chans.set ch c := by
  cases h with
  | chan ch c hc h => exact .inr ⟨ch, c, h, rfl⟩
  | _ => exact .inl (by simp [State.chosen_eq])

theorem Change.srcs_cases (h : Change l s t) :
    t.srcs = s.srcs ∨
    (∃ n x, n ≠ 0 ∧ SourceChange l s.cfg (s.src n) x ∧ t.srcs = s.srcs.set n x) ∨
    ∃ b v, t = s.writeEnBank b v := by
  cases h with
  | src n x h0 hn h => exact .inr (.inl ⟨n, x, h0, h, rfl⟩)
  | enBank b v => exact .inr (.inr ⟨b, v, rfl⟩)
  | _ => exact .inl (by simp [State.chosen_eq])

theorem Change.slots_cases (h : Change l s t) :
    t.mgr.slots = s.mgr.slots ∨
    ∃ ch d, (∀ r, d = some r → r < s.descs.length) ∧ t.mgr.slots = s.mgr.slots.set ch d := by
  cases h with
  | slot ch d h => exact .inr ⟨ch, d, h, rfl⟩
  | _ => exact .inl (by simp [State.chosen_eq])

theorem Change.mem_cases (h : Change l s t) :
    t.mem = s.mem ∨ ∃ (a : Word) (b : Byte), t.mem = Mem.insert a.toNat b s.mem := by
  cases h with
  | writeByte a b => exact .inr ⟨a, b, rfl⟩
  | _ => exact .inl (by simp [State.chosen_eq])

theorem Change.lines_length (h : Change l s t) : t.lines.length = s.lines.length := by
  cases h <;> simp [State.chosen_eq]

theorem Change.gmask_cases (h : Change l s t) : t.gmask = s.gmask ∨ ∃ v, t.gmask = v &&& s.cfg.chMask := by
  cases h with
  | gmask v => exact .inr ⟨v, rfl⟩
  | _ => exact .inl (by simp [State.chosen_eq])

/-- The output slot is loaded by an accepted output pulse only. -/
theorem Change.outData_cases (h : Change l s t) :
    t.ep1.data = s.ep1.data ∨ ∃ v, t.ep1.data = v &&& s.cfg.outMask := by
  cases h with
  | pulseOut v b => exact .inr ⟨v, rfl⟩
  | raiseReady e | error e => exact .inl (by by_cases he : e = 0 <;> simp [State.setEp, State.ep, he])
  | _ => exact .inl (by simp [State.chosen_eq])

theorem descs_setDescDone_cases (s : State) (r : Nat) (b : Bool) :
    (s.setDescDone r b).descs = s.descs ∨
      ∃ x y, s.descs[r]? = some x ∧ y.ch = x.ch ∧ (s.setDescDone r b).descs = s.descs.set r y := by
  unfold State.setDescDone
  cases h : s.descs[r]? with
  | none => exact .inl rfl
  | some x => exact .inr ⟨x, { x with done := b }, rfl, rfl, rfl⟩

theorem descs_setDescTransferred_cases (s : State) (r : Nat) (n : Word) :
    (s.setDescTransferred r n).descs = s.descs ∨
      ∃ x y, s.descs[r]? = some x ∧ y.ch = x.ch ∧ (s.setDescTransferred r n).descs = s.descs.set r y := by
  unfold State.setDescTransferred
  cases h : s.descs[r]? with
  | none => exact .inl rfl
  | some x => exact .inr ⟨x, { x with transferred := n }, rfl, rfl, rfl⟩

/-- The descriptor store: a descriptor changes on its own channel, or a new one is bound to its name. -/
theorem Change.descs_cases (h : Change l s t) :
    (t.binds = s.binds ∧ (t.descs = s.descs ∨
      ∃ r x y, s.descs[r]? = some x ∧ y.ch = x.ch ∧ t.descs = s.descs.set r y)) ∨
    ∃ d x, x.ch < s.cfg.numCh ∧ t = s.newDesc d x := by
  cases h with
  | descDone r b => exact .inl ⟨by simp, (descs_setDescDone_cases s r b).imp_right fun h => ⟨r, h⟩⟩
  | descTransferred r n => exact .inl ⟨by simp, (descs_setDescTransferred_cases s r n).imp_right fun h => ⟨r, h⟩⟩
  | newDesc d x hx => exact .inr ⟨d, x, hx, rfl⟩
  | _ => exact .inl ⟨by simp [State.chosen_eq], .inl (by simp [State.chosen_eq])⟩

/-! ### Each part of the invariant is kept -/

theorem Change.keeps_sized (h : Change l s t) (hs : s.Sized) : t.Sized := by
  obtain ⟨hc, hr, hm, hl⟩ := hs
  refine ⟨?_, ?_, ?_, by rw [h.lines_length, h.cfg_eq, hl]⟩
  · obtain he | ⟨ch, c, -, he⟩ := h.chans_cases <;> simp [he, h.cfg_eq, hc]
  · obtain he | ⟨n, x, -, -, he⟩ | ⟨b, v, rfl⟩ := h.srcs_cases
    · simp [he, h.cfg_eq, hr]
    · simp [he, h.cfg_eq, hr]
    · simpa [State.writeEnBank] using hr
  · obtain he | ⟨ch, d, -, he⟩ := h.slots_cases <;> simp [he, h.cfg_eq, hm]

/-- R26, one channel: a start is the only way to Busy, and a Busy channel moves bytes while some are left. -/
theorem ChanChange.keeps_lawful {c d : Chan} (h : ChanChange l c d) (hc : c.Lawful) : d.Lawful := by
  obtain ⟨hbusy, hidle⟩ := hc
  cases h with
  | ack | last => exact ⟨hbusy, hidle⟩
  | ctrl v =>
    cases hp : c.phase with
    | busy => simp [Chan.Lawful, Chan.ctrlWritten, hp, Chan.abort]
    | idle => simp [Chan.Lawful, Chan.ctrlWritten, hp, hidle hp]
  | start => exact ⟨fun _ => ⟨rfl, rfl, rfl, Nat.zero_le _⟩, fun hi => by cases hi⟩
  | base v hi | len v hi => exact ⟨fun hb => (by simp [hi] at hb), hidle⟩
  | ready hi => exact ⟨fun hb => (by simp [Chan.raiseReady, hi] at hb), hidle⟩
  | byte hb hd =>
    obtain ⟨htsfr, hdone, hrdy, -⟩ := hbusy hb
    exact ⟨fun _ => ⟨htsfr, hdone, hrdy, by bv_omega⟩, hidle⟩
  | complete => simp [Chan.Lawful, Chan.completed]

theorem State.ChansLawful.chan (hs : s.ChansLawful) (ch : Nat) : (s.chan ch).Lawful := by
  unfold State.chan
  by_cases h : ch < s.chans.length
  · simpa [h] using hs _ (List.getElem_mem h)
  · simp only [List.getD_eq_default _ _ (Nat.le_of_not_lt h)]
    decide

theorem Change.keeps_chansLawful (h : Change l s t) (hs : s.ChansLawful) : t.ChansLawful := by
  obtain he | ⟨ch, c, hc, he⟩ := h.chans_cases
  · rwa [State.ChansLawful, he]
  · intro d hd
    rw [he] at hd
    obtain hd | rfl := List.mem_or_eq_of_mem_set hd
    · exact hs d hd
    · exact hc.keeps_lawful (hs.chan ch)

/-- No bit is left above a mask of the low `n` bits. -/
theorem and_lowMask_above (d : Word) {n k : Nat} (hk : k < 32) (hn : n ≤ k) : (d &&& lowMask n).getLsbD k = false := by
  rw [and_lowMask_getLsbD d n hk, decide_eq_false (Nat.not_lt.2 hn), Bool.false_and]

theorem Change.keeps_reservedZero (h : Change l s t) (hs : s.ReservedZero) : t.ReservedZero := by
  obtain ⟨hg, hd⟩ := hs
  rw [State.ReservedZero, h.cfg_eq]
  constructor
  · intro k hk hn
    obtain he | ⟨v, he⟩ := h.gmask_cases <;> rw [he]
    · exact hg k hk hn
    · exact and_lowMask_above v hk hn
  · intro k hk hn
    obtain he | ⟨v, he⟩ := h.outData_cases <;> rw [he]
    · exact hd k hk hn
    · exact and_lowMask_above v hk hn

/-- A source is claimed out of pending, latched out of service, and its priority written in range (R111, R113, R116). -/
theorem SourceChange.keeps_lawful {p : Params} {x y : Source} (h : SourceChange l p x y)
    (hx : (x.pending && x.inService) = false ∧ x.prio ≤ p.priorityLevels) :
    (y.pending && y.inService) = false ∧ y.prio ≤ p.priorityLevels := by
  obtain ⟨hpi, hprio⟩ := hx
  cases h with
  | claim | complete => exact ⟨by simp, hprio⟩
  | prio v hv => exact ⟨hpi, hv⟩
  | latch hp hi => exact ⟨by simp [hi], hprio⟩

theorem State.SourcesLawful.src (hs : s.SourcesLawful) (n : Nat) :
    ((s.src n).pending && (s.src n).inService) = false ∧ (s.src n).prio ≤ s.cfg.priorityLevels := by
  unfold State.src
  by_cases h : n < s.srcs.length
  · simpa [h] using hs.1 _ (List.getElem_mem h)
  · simp only [List.getD_eq_default _ _ (Nat.le_of_not_lt h)]
    exact ⟨rfl, Nat.zero_le _⟩

/-- A bank write moves enable bits only, and never that of source 0 (R120). -/
theorem writeEnBank_keeps_sourcesLawful (b : Nat) (v : Word) (hs : s.SourcesLawful) :
    (s.writeEnBank b v).SourcesLawful := by
  obtain ⟨hall, hzero⟩ := hs
  constructor
  · intro x hx
    obtain ⟨n, hn, rfl⟩ := List.mem_mapIdx.1 hx
    have := hall _ (List.getElem_mem hn)
    split <;> exact this
  · have h0 : (s.writeEnBank b v).src 0 = s.src 0 := by
      simp only [State.src, State.writeEnBank, List.getD_eq_getElem?_getD, List.getElem?_mapIdx]
      cases s.srcs[0]? <;> simp
    rwa [h0]

theorem Change.keeps_sourcesLawful (h : Change l s t) (hs : s.SourcesLawful) : t.SourcesLawful := by
  obtain he | ⟨n, x, hn, hx, he⟩ | ⟨b, v, rfl⟩ := h.srcs_cases
  · rwa [State.SourcesLawful, State.src, he, h.cfg_eq]
  · have h0 : t.src 0 = s.src 0 := by simp [State.src, he, List.getElem?_set_ne hn]
    rw [State.SourcesLawful, h0, h.cfg_eq]
    refine ⟨fun y hy => ?_, hs.2⟩
    rw [he] at hy
    obtain hy | rfl := List.mem_or_eq_of_mem_set hy
    · exact hs.1 y hy
    · exact hx.keeps_lawful (hs.src n)
  · exact writeEnBank_keeps_sourcesLawful b v hs

theorem newDesc_keeps_descsLawful {d : Nat} {x : Desc} (hx : x.ch < s.cfg.numCh) (hs : s.DescsLawful) :
    (s.newDesc d x).DescsLawful := by
  obtain ⟨hch, hslot, hbind⟩ := hs
  refine ⟨fun y hy => ?_, fun r hr => ?_, fun b hb => ?_⟩
  · obtain hy | hy := List.mem_append.1 hy
    · exact hch y hy
    · rw [List.mem_singleton.1 hy]; exact hx
  · simpa using Nat.lt_succ_of_lt (hslot r hr)
  · obtain rfl | hb := List.mem_cons.1 hb
    · simp
    · simpa using Nat.lt_succ_of_lt (hbind b (List.mem_of_mem_filter hb))

theorem set_desc_ch_lt {n r : Nat} {xs : List Desc} {x y : Desc} (hx : xs[r]? = some x) (hy : y.ch = x.ch)
    (hs : ∀ z ∈ xs, z.ch < n) : ∀ z ∈ xs.set r y, z.ch < n := by
  intro z hz
  obtain hz | rfl := List.mem_or_eq_of_mem_set hz
  · exact hs z hz
  · rw [hy]; exact hs x (List.mem_of_getElem? hx)

theorem Change.keeps_slots_lt (h : Change l s t) (hs : ∀ r, some r ∈ s.mgr.slots → r < s.descs.length) :
    ∀ r, some r ∈ t.mgr.slots → r < s.descs.length := by
  intro r hr
  obtain he | ⟨ch, d, hd, he⟩ := h.slots_cases <;> rw [he] at hr
  · exact hs r hr
  · obtain hr | hr := List.mem_or_eq_of_mem_set hr
    · exact hs r hr
    · exact hd r hr.symm

theorem Change.keeps_descsLawful (h : Change l s t) (hs : s.DescsLawful) : t.DescsLawful := by
  obtain ⟨hb, he⟩ | ⟨d, x, hx, rfl⟩ := h.descs_cases
  · obtain ⟨hch, hslot, hbind⟩ := hs
    rw [State.DescsLawful, h.cfg_eq, hb]
    obtain he | ⟨r, x, y, hx, hy, he⟩ := he
    · rw [he]; exact ⟨hch, h.keeps_slots_lt hslot, hbind⟩
    · rw [he, List.length_set]; exact ⟨set_desc_ch_lt hx hy hch, h.keeps_slots_lt hslot, hbind⟩
  · exact newDesc_keeps_descsLawful hx hs

theorem Change.keeps_memWf (h : Change l s t) (hs : Mem.wf s.mem) : Mem.wf t.mem := by
  obtain he | ⟨a, b, he⟩ := h.mem_cases <;> rw [he]
  · exact hs
  · exact Mem.insert_wf b a.isLt hs

theorem Change.keeps_inv (h : Change l s t) (hs : s.Inv) : t.Inv := by
  obtain ⟨hsize, hchan, hzero, hsrc, hdesc, hmem⟩ := hs
  exact ⟨h.keeps_sized hsize, h.keeps_chansLawful hchan, h.keeps_reservedZero hzero, h.keeps_sourcesLawful hsrc,
    h.keeps_descsLawful hdesc, h.keeps_memWf hmem⟩

end Change

theorem step_cfg {s t : State} (h : step s = .next t) : t.cfg = s.cfg :=
  step_keeps (P := fun u => u.cfg = s.cfg) (fun _ _ hc hu => hc.cfg_eq.trans hu) h rfl

/-- Settles O53: each part of `Inv` is kept by every small change, so by every step. -/
theorem invariantKept : Obligations.InvariantKept := by
  unfold Obligations.InvariantKept
  intro s t hs h
  exact ⟨step_keeps (P := State.Inv) (fun _ _ hc => hc.keeps_inv) h hs, step_cfg h⟩

/-! ### Reset (R147) -/

section Reset
variable (p : Params) (r : ResetDraws)

theorem resetWith_sized : (State.resetWith p r).Sized := by
  simp [State.Sized, State.resetWith]

theorem resetWith_chansLawful : (State.resetWith p r).ChansLawful := by
  intro c hc
  obtain ⟨ch, -, rfl⟩ := List.mem_map.1 hc
  exact ⟨nofun, fun _ => rfl⟩

theorem resetWith_reservedZero : (State.resetWith p r).ReservedZero :=
  ⟨fun _ _ _ => BitVec.getLsbD_zero, fun _ hk hn => and_lowMask_above _ hk hn⟩

/-- A drawn priority out of range is taken as 0 (log entry 24), and source 0 has no enable. -/
theorem sourceAfterReset_lawful (n : Nat) :
    ((Source.afterReset p r n).pending && (Source.afterReset p r n).inService) = false ∧
      (Source.afterReset p r n).prio ≤ p.priorityLevels := by
  refine ⟨rfl, ?_⟩
  unfold Source.afterReset
  dsimp only
  split
  next h => exact h.2
  next => exact Nat.zero_le _

theorem resetWith_sourcesLawful : (State.resetWith p r).SourcesLawful := by
  constructor
  · intro x hx
    obtain ⟨n, -, rfl⟩ := List.mem_map.1 hx
    exact sourceAfterReset_lawful p r n
  · cases h : p.numSources with
    | zero => simp only [State.src, State.resetWith, h]; exact ⟨rfl, rfl, rfl⟩
    | succ n => simp [State.src, State.resetWith, h, Source.afterReset]

theorem resetWith_descsLawful : (State.resetWith p r).DescsLawful := by
  refine ⟨nofun, fun k hk => ?_, nofun⟩
  cases List.eq_of_mem_replicate hk

theorem resetWith_inv : (State.resetWith p r).Inv :=
  ⟨resetWith_sized p r, resetWith_chansLawful p r, resetWith_reservedZero p r, resetWith_sourcesLawful p r,
    resetWith_descsLawful p r, List.Pairwise.nil, nofun⟩

theorem resetWith_masksInRange : (State.resetWith p r).MasksInRange :=
  ⟨fun _ _ _ => ⟨BitVec.getLsbD_zero, BitVec.getLsbD_zero⟩, trivial, trivial⟩

theorem resetWith_driverLawful : (State.resetWith p r).DriverLawful :=
  ⟨nofun, trivial⟩

theorem resetWith_pulseReady : (State.resetWith p r).PulseReady :=
  nofun

theorem resetWith_beginHolds : (State.resetWith p r).BeginHolds :=
  nofun

end Reset

/-- Settles O54: the tables after reset meet the invariant entry by entry, and MAIN is at no position that promises
anything. -/
theorem invariantsAtReset : Obligations.InvariantsAtReset := by
  unfold Obligations.InvariantsAtReset
  intro p r s hs
  have hreset : ∃ p r, s = State.resetWith p r := hs.elim (fun h => ⟨p, r, h⟩) fun h => ⟨_, _, h⟩
  obtain ⟨p, r, rfl⟩ := hreset
  exact ⟨resetWith_inv p r, resetWith_masksInRange p r, resetWith_driverLawful p r, resetWith_pulseReady p r,
    resetWith_beginHolds p r⟩

end Sys2Proof.Machine
end

section
/-! PROOFS. Which agent moves what (R16, R44, R138, R139): a step of the CPU runs one step of the item MAIN executes, or of
`IRQ_ENTRY` in service; every other agent leaves MAIN, the driver and the tracker alone. -/

namespace Sys2Proof.Machine

open Sys2Proof

/-! ### A step of the CPU (R44) -/

theorem step_cpu {s : State} (hc : s.choice = .cpu) : step s = cpuStep s.chosen := by
  rw [step, hc]; rfl

theorem cpuStep_isr {s : State} (ha : s.isrActive = true) : cpuStep s = exec (.irqEntry 0) s := by
  rw [cpuStep, if_pos ha]

theorem cpuStep_item {s : State} {m : Item} {rest : List Item} (ha : s.isrActive = false) (hp : s.prog = m :: rest) :
    cpuStep s = itemStep m s := by
  simp [cpuStep, ha, hp]

theorem cpuStep_ended {s : State} (ha : s.isrActive = false) (hp : s.prog = []) : cpuStep s = .next s := by
  simp [cpuStep, ha, hp]

theorem itemStep_op {w : OpWord} {a : Args} {i : Instr} (s : State) (h : decode w a = .ok i) :
    itemStep (.op w a) s = exec i s := by
  simp [itemStep, h]

/-- Settles O5: making the choice moves neither the program nor the interrupt context, so the CPU's step is that of the
item they name. -/
theorem stepRunsDecodedOperation : Obligations.StepRunsDecodedOperation := by
  unfold Obligations.StepRunsDecodedOperation
  intro s hc
  have hact : s.chosen.isrActive = s.isrActive := by rw [s.chosen_eq]
  have hprog : s.chosen.prog = s.prog := by rw [s.chosen_eq]
  refine ⟨s.chosen_eq, fun ha w a rest i hp hd => ?_, fun ha => ?_, fun ha hp => ?_⟩ <;> rw [step_cpu hc]
  · rw [cpuStep_item (hact.trans ha) (hprog.trans hp), itemStep_op _ hd]
  · rw [cpuStep_isr (hact.trans ha)]
  · rw [cpuStep_ended (hact.trans ha) (hprog.trans hp)]

/-- The three things a step of the CPU can be. -/
theorem cpuStep_next {s t : State} (h : cpuStep s = .next t) :
    (s.isrActive = true ∧ exec (.irqEntry 0) s = .next t) ∨
    (s.isrActive = false ∧ ∃ m, itemStep m s = .next t) ∨ (s.isrActive = false ∧ t = s) := by
  cases ha : s.isrActive with
  | true => exact .inl ⟨rfl, by rwa [cpuStep_isr ha] at h⟩
  | false =>
    cases hp : s.prog with
    | nil =>
      rw [cpuStep_ended ha hp] at h
      cases h
      exact .inr (.inr ⟨rfl, rfl⟩)
    | cons m rest => exact .inr (.inl ⟨rfl, m, by rwa [cpuStep_item ha hp] at h⟩)

/-! ### The moves of the two CPU-side agents (R16, R139) -/

section Moves
variable {s : State} (q : Pos) (r : Result)

theorem goto_isr (ha : s.isrActive = true) : s.goto q = { s with isrPos := q } := by
  simp [State.goto, ha]

theorem goto_main (ha : s.isrActive = false) : s.goto q = { s with mainPos := q } := by
  simp [State.goto, ha]

/-- A step of an operation that `ISR` runs leaves MAIN where it is. -/
theorem Runs.isr {l : Nat} (hl : l ≤ 2) {t : State} (h : Runs l s t) (ha : s.isrActive = true) :
    t.prog = s.prog ∧ t.mainPos = s.mainPos ∧ t.result = s.result := by
  obtain ⟨u, hu, ht⟩ := h
  obtain ⟨hprog, hmain, -, hact, hres, -⟩ := hu.sameFlow hl
  have hu' : u.isrActive = true := hact.trans ha
  obtain ⟨q, rfl⟩ | ⟨r, rfl⟩ := ht
  · rw [goto_isr q hu']; exact ⟨hprog, hmain, hres⟩
  · rw [State.ret_isr u r hu']; exact ⟨hprog, hmain, hres⟩

/-- No step of an operation enters an interrupt. -/
theorem Runs.isrActive {l : Nat} (hl : l ≤ 2) {t : State} (h : Runs l s t) (ha : s.isrActive = false) :
    t.isrActive = false := by
  obtain ⟨u, hu, ht⟩ := h
  obtain ⟨-, -, -, hact, -⟩ := hu.sameFlow hl
  have hu' : u.isrActive = false := hact.trans ha
  obtain ⟨q, rfl⟩ | ⟨r, rfl⟩ := ht
  · rw [goto_main q hu']; exact hu'
  · rw [State.ret_main u r hu']; exact hu'

theorem Runs.cpuIe {l : Nat} (hl : l ≤ 2) {t : State} (h : Runs l s t) : t.cpuIe = s.cpuIe := by
  obtain ⟨u, hu, ht⟩ := h
  obtain ⟨-, -, -, -, -, -, hie, -⟩ := hu.sameFlow hl
  obtain ⟨q, rfl⟩ | ⟨r, rfl⟩ := ht <;> simpa using hie

end Moves

/-! ### The agents that are not the CPU -/

/-- What a step of a peripheral, an engine, the gateway or a line leaves alone: both CPU-side agents, the driver, the
tracker and the parameters. -/
structure State.SameControl (s t : State) : Prop where
  cfg : t.cfg = s.cfg
  prog : t.prog = s.prog
  mainPos : t.mainPos = s.mainPos
  isrPos : t.isrPos = s.isrPos
  isrActive : t.isrActive = s.isrActive
  result : t.result = s.result
  cpuIe : t.cpuIe = s.cpuIe
  drvUsable : t.drvUsable = s.drvUsable
  drvNumCh : t.drvNumCh = s.drvNumCh
  mgr : t.mgr = s.mgr

@[refl] theorem State.SameControl.refl (s : State) : s.SameControl s :=
  ⟨rfl, rfl, rfl, rfl, rfl, rfl, rfl, rfl, rfl, rfl⟩

theorem chosen_sameControl (s : State) : s.SameControl s.chosen := by
  rw [s.chosen_eq]
  exact ⟨rfl, rfl, rfl, rfl, rfl, rfl, rfl, rfl, rfl, rfl⟩

theorem setEp_sameControl (s : State) (e : Nat) (x : Endpoint) : s.SameControl (s.setEp e x) :=
  ⟨rfl, rfl, rfl, rfl, rfl, rfl, rfl, rfl, rfl, rfl⟩

theorem setChan_sameControl (s : State) (ch : Nat) (c : Chan) : s.SameControl (s.setChan ch c) :=
  ⟨rfl, rfl, rfl, rfl, rfl, rfl, rfl, rfl, rfl, rfl⟩

theorem setSrc_sameControl (s : State) (n : Nat) (x : Source) : s.SameControl (s.setSrc n x) :=
  ⟨rfl, rfl, rfl, rfl, rfl, rfl, rfl, rfl, rfl, rfl⟩

theorem setLine_sameControl (s : State) (n : Nat) (b : Bool) : s.SameControl (s.setLine n b) :=
  ⟨rfl, rfl, rfl, rfl, rfl, rfl, rfl, rfl, rfl, rfl⟩

theorem readByte_eq (s : State) (a : Word) : (s.readByte a).2 = { s with draws := (s.readByte a).2.draws } := by
  obtain ⟨b, -, h⟩ | ⟨-, h⟩ := State.readByte_cases s a <;> rw [h]
  rfl

/-- An engine's memory access changes only memory, the record of the access and the count of draws (R94). -/
theorem moveByte_eq (ch : Nat) (s : State) :
    moveByte ch s =
      { s with mem := (moveByte ch s).mem, hist := (moveByte ch s).hist, draws := (moveByte ch s).draws } := by
  unfold moveByte
  dsimp only
  split
  · rfl
  · rw [readByte_eq]; rfl

theorem moveByte_sameControl (ch : Nat) (s : State) : s.SameControl (moveByte ch s) := by
  rw [moveByte_eq]
  exact ⟨rfl, rfl, rfl, rfl, rfl, rfl, rfl, rfl, rfl, rfl⟩

theorem eProgress_sameControl {ch : Nat} {s t : State} (h : eProgress ch s = .next t) : s.SameControl t := by
  unfold eProgress at h
  dsimp only at h
  split at h
  · split at h
    · cases h; exact setChan_sameControl _ _ _
    · split at h
      · cases h
      · cases h
        have hm := moveByte_sameControl ch s
        exact ⟨hm.cfg, hm.prog, hm.mainPos, hm.isrPos, hm.isrActive, hm.result, hm.cpuIe, hm.drvUsable, hm.drvNumCh,
          hm.mgr⟩
  · cases h; rfl

/-- A step that is enabled or leaves the state as it is (R14, log entry 6). -/
theorem ite_next {c : Prop} [Decidable c] {s t u : State}
    (h : (if c then Host.Outcome.next u else Host.Outcome.next s : Out) = .next t) : c ∧ t = u ∨ t = s := by
  split at h
  next hc => cases h; exact .inl ⟨hc, rfl⟩
  next => cases h; exact .inr rfl

/-- A step of an agent that is not the CPU leaves control as it is, or is the interrupt entry, or ENV's drive of
`cpu_ie`. -/
theorem agentStep_cases {c : Choice} {s t : State} (hc : c ≠ .cpu) (h : stepOf c s = .next t) :
    s.SameControl t ∨ (c = .irqEntry ∧ s.irqEnabled = true ∧ t = s.takeIrq) ∨
      (c = .envCpuIe t.cpuIe ∧ t = s.setCpuIe t.cpuIe) := by
  cases c with
  | cpu => exact absurd rfl hc
  | irqEntry =>
    obtain ⟨he, rfl⟩ | rfl := ite_next h
    · exact .inr (.inl ⟨rfl, he, rfl⟩)
    · exact .inl (.refl _)
  | envCpuIe on => cases h; exact .inr (.inr ⟨rfl, rfl⟩)
  | eProgress ch => exact .inl (eProgress_sameControl h)
  | spReady e =>
    obtain ⟨-, rfl⟩ | rfl := ite_next h
    · exact .inl (setEp_sameControl _ _ _)
    · exact .inl (.refl _)
  | spError e =>
    obtain ⟨-, rfl⟩ | rfl := ite_next h
    · exact .inl ⟨rfl, rfl, rfl, rfl, rfl, rfl, rfl, rfl, rfl, rfl⟩
    · exact .inl (.refl _)
  | eReady ch | eLast ch | eComplete ch =>
    obtain ⟨-, rfl⟩ | rfl := ite_next h
    · exact .inl (setChan_sameControl _ _ _)
    · exact .inl (.refl _)
  | gwLatch n =>
    obtain ⟨-, rfl⟩ | rfl := ite_next h
    · exact .inl (setSrc_sameControl _ _ _)
    · exact .inl (.refl _)
  | envLine n level =>
    obtain ⟨-, rfl⟩ | rfl := ite_next h
    · exact .inl (setLine_sameControl _ _ _)
    · exact .inl (.refl _)

/-! ### Interrupt entry and return (R138, R139) -/

theorem irqEnabled_iff (s : State) :
    s.irqEnabled = true ↔ s.eip = true ∧ s.cpuIe = true ∧ s.isrActive = false := by
  simp [State.irqEnabled, and_assoc]

theorem irqTake_enabled {s : State} (h : s.irqEnabled = true) : stepOf .irqEntry s = .next s.takeIrq := by
  simp [stepOf, irqTake, h]

theorem irqTake_disabled {s : State} (h : s.irqEnabled = false) : stepOf .irqEntry s = .next s := by
  simp [stepOf, irqTake, h]

section Step
variable {s t : State}

theorem cpuStep_isr_runs (h : cpuStep s = .next t) (ha : s.isrActive = true) : Runs 2 s t := by
  rw [cpuStep_isr ha] at h
  exact (exec_changes h).mono (by decide)

/-- While an interrupt is in service MAIN keeps its place. -/
theorem step_isr_main (h : step s = .next t) (ha : s.isrActive = true) :
    t.prog = s.prog ∧ t.mainPos = s.mainPos ∧ t.result = s.result := by
  have hs := chosen_sameControl s
  rw [← hs.prog, ← hs.mainPos, ← hs.result]
  by_cases hc : s.choice = .cpu
  · rw [step_cpu hc] at h
    have ha' := hs.isrActive.trans ha
    exact (cpuStep_isr_runs h ha').isr (by decide) ha'
  · obtain ht | ⟨-, -, rfl⟩ | ⟨-, he⟩ := agentStep_cases hc h
    · exact ⟨ht.prog, ht.mainPos, ht.result⟩
    · exact ⟨rfl, rfl, rfl⟩
    · rw [he]; exact ⟨rfl, rfl, rfl⟩

/-- Only the interrupt entry sets `isr_active`. -/
theorem step_enters (h : step s = .next t) (ht : t.isrActive = true) (ha : s.isrActive = false) :
    s.choice = .irqEntry ∧ t.isrPos = .start ∧ t.mainPos = s.mainPos := by
  have hs := chosen_sameControl s
  have ha' := hs.isrActive.trans ha
  by_cases hc : s.choice = .cpu
  · rw [step_cpu hc] at h
    obtain ⟨hi, -⟩ | ⟨-, m, hm⟩ | ⟨-, rfl⟩ := cpuStep_next h
    · rw [ha'] at hi; cases hi
    · rw [(itemStep_changes hm).isrActive (by decide) ha'] at ht; cases ht
    · rw [ha'] at ht; cases ht
  · obtain hk | ⟨he, -, rfl⟩ | ⟨-, he⟩ := agentStep_cases hc h
    · rw [hk.isrActive, ha'] at ht; cases ht
    · exact ⟨he, rfl, hs.mainPos⟩
    · rw [he] at ht; cases ha'.symm.trans ht

theorem step_cpuIe (h : step s = .next t) : t.cpuIe = s.cpuIe ∨ s.choice = .envCpuIe t.cpuIe := by
  have hs := chosen_sameControl s
  by_cases hc : s.choice = .cpu
  · rw [step_cpu hc] at h
    refine .inl (Eq.trans ?_ hs.cpuIe)
    obtain ⟨-, he⟩ | ⟨-, m, hm⟩ | ⟨-, rfl⟩ := cpuStep_next h
    · exact (exec_changes he).cpuIe (by decide)
    · exact (itemStep_changes hm).cpuIe (by decide)
    · rfl
  · obtain hk | ⟨-, -, rfl⟩ | ⟨he, -⟩ := agentStep_cases hc h
    · exact .inl (hk.cpuIe.trans hs.cpuIe)
    · exact .inl hs.cpuIe
    · exact .inr he

end Step

/-- Settles O52: the moves are those of the agent that steps, and the interrupt context changes by the entry alone. -/
theorem interruptEntryAndReturn : Obligations.InterruptEntryAndReturn := by
  unfold Obligations.InterruptEntryAndReturn
  refine ⟨fun s => ⟨fun he hi ha => ?_, fun h => ?_, fun ha r q => ?_, fun ha r q => ?_⟩,
    fun s t h => ⟨step_isr_main h, step_enters h, step_cpuIe h⟩⟩
  · exact irqTake_enabled ((irqEnabled_iff s).2 ⟨he, hi, ha⟩)
  · refine irqTake_disabled (Bool.eq_false_iff.2 fun he => ?_)
    obtain ⟨heip, hie, hact⟩ := (irqEnabled_iff s).1 he
    simp [heip, hie, hact] at h
  · exact ⟨State.ret_isr s r ha, goto_isr q ha⟩
  · exact ⟨State.ret_main s r ha, goto_main q ha⟩

end Sys2Proof.Machine
end

section
/-! PROOFS. The driver and the tracker (R28, R75, R109): every step of every operation but `DMA_INIT` keeps the driver's
fields and sets no tracker bit of a channel that does not exist, and `DMA_INIT` stores what the header reports. -/

namespace Sys2Proof.Machine

open Sys2Proof

/-! ### Step positions that promise something -/

/-- A position outside `UPDATE` and `DMA_INIT`: neither invariant says anything of it. -/
def Pos.plain : Pos → Bool
  | .updating _ => false
  | .irqUpdate _ _ => false
  | .initReadOff _ => false
  | .initNumCh _ _ => false
  | .initUsable _ => false
  | _ => true

theorem Pos.updateChanExists_of_plain {q : Pos} (p : Params) (h : q.plain = true) : q.UpdateChanExists p := by
  cases q with
  | updating | irqUpdate => cases h
  | _ => trivial

theorem Pos.initRead_of_plain {q : Pos} (s : State) (h : q.plain = true) : s.InitRead q := by
  cases q with
  | initReadOff | initNumCh | initUsable => cases h
  | _ => trivial

theorem Pos.updateChanExists_of_inUpdate {q : Pos} {u : UpdatePos} {p : Params} (h : q.inUpdate? = some u) :
    q.UpdateChanExists p ↔ u.ChanExists p := by
  cases q <;> cases h <;> exact Iff.rfl

theorem Pos.initRead_of_inUpdate {q : Pos} {u : UpdatePos} (s : State) (h : q.inUpdate? = some u) : s.InitRead q := by
  cases q <;> cases h <;> trivial

/-! ### What a step writes before it moves -/

/-- The step has left the driver and the positions alone, and raised no tracker bit at or above NUM_CH; the last where the
channel its position is about exists. -/
structure State.Marks (s t : State) : Prop where
  cfg : t.cfg = s.cfg
  mainPos : t.mainPos = s.mainPos
  isrPos : t.isrPos = s.isrPos
  drvUsable : t.drvUsable = s.drvUsable
  drvNumCh : t.drvNumCh = s.drvNumCh
  masks : s.pos.UpdateChanExists s.cfg → ∀ k, s.cfg.numCh ≤ k →
    (t.mgr.doneMask.getLsbD k = true → s.mgr.doneMask.getLsbD k = true) ∧
    (t.mgr.lastMask.getLsbD k = true → s.mgr.lastMask.getLsbD k = true)

section Marks
variable {s t : State}

theorem State.Marks.self : s.Marks s := ⟨rfl, rfl, rfl, rfl, rfl, fun _ _ _ => ⟨id, id⟩⟩

theorem State.SameDriver.marks (h : s.SameDriver t) : s.Marks t := by
  obtain ⟨hu, hn, hm, -, hc, hmain, hisr, -⟩ := h
  exact ⟨hc, hmain, hisr, hu, hn, fun _ _ _ => by rw [hm]; exact ⟨id, id⟩⟩

theorem State.SameControl.marks (h : s.SameControl t) : s.Marks t :=
  ⟨h.cfg, h.mainPos, h.isrPos, h.drvUsable, h.drvNumCh, fun _ _ _ => by rw [h.mgr]; exact ⟨id, id⟩⟩

theorem emit_marks (s : State) (e : Event) : s.Marks (s.emit e) := ⟨rfl, rfl, rfl, rfl, rfl, fun _ _ _ => ⟨id, id⟩⟩

theorem setSlot_marks (s : State) (ch : Nat) (d : Option Nat) : s.Marks (s.setSlot ch d) :=
  ⟨rfl, rfl, rfl, rfl, rfl, fun _ _ _ => ⟨id, id⟩⟩

theorem setPresent_marks (s : State) : s.Marks s.setPresent := ⟨rfl, rfl, rfl, rfl, rfl, fun _ _ _ => ⟨id, id⟩⟩

theorem newDesc_marks (s : State) (d : Nat) (x : Desc) : s.Marks (s.newDesc d x) :=
  ⟨rfl, rfl, rfl, rfl, rfl, fun _ _ _ => ⟨id, id⟩⟩

theorem setDescDone_marks (s : State) (r : Nat) (b : Bool) : s.Marks (s.setDescDone r b) := by
  constructor <;> simp

theorem setDescTransferred_marks (s : State) (r : Nat) (n : Word) : s.Marks (s.setDescTransferred r n) := by
  constructor <;> simp

/-- A mask that has a bit at or above NUM_CH only where the old one has it. -/
def NoNewBits (n : Nat) (old new : Word) : Prop := ∀ k, n ≤ k → new.getLsbD k = true → old.getLsbD k = true

theorem noNewBits_zero (n : Nat) (m : Word) : NoNewBits n m 0 := by
  intro k _ h
  simp at h

theorem noNewBits_and (n : Nat) (m c : Word) : NoNewBits n m (m &&& c) := by
  intro k _ h
  rw [BitVec.getLsbD_and, Bool.and_eq_true] at h
  exact h.1

/-- Raising the bit of a channel that exists. -/
theorem noNewBits_or_bit {n ch : Nat} (m : Word) (h : ch < n) : NoNewBits n m (m ||| bit ch) := by
  intro k hk hb
  have hne : k ≠ ch := by omega
  simpa [bit_getLsbD, hne] using hb

theorem setDoneMask_marks {m : Word} (h : s.pos.UpdateChanExists s.cfg → NoNewBits s.cfg.numCh s.mgr.doneMask m) :
    s.Marks (s.setDoneMask m) :=
  ⟨rfl, rfl, rfl, rfl, rfl, fun hp k hk => ⟨h hp k hk, id⟩⟩

theorem setLastMask_marks {m : Word} (h : s.pos.UpdateChanExists s.cfg → NoNewBits s.cfg.numCh s.mgr.lastMask m) :
    s.Marks (s.setLastMask m) :=
  ⟨rfl, rfl, rfl, rfl, rfl, fun hp k hk => ⟨id, h hp k hk⟩⟩

end Marks

/-! ### A step of an operation but `DMA_INIT` -/

/-- What a step of an operation is to the driver and the tracker: its writes, then a move that promises nothing, a move
inside `UPDATE` to a channel that exists, or the return. -/
inductive State.Tracks (s : State) : State → Prop where
  | goto {u : State} {q : Pos} (hu : s.Marks u) (hq : q.plain = true) : s.Tracks (u.goto q)
  | update {u : State} {q : Pos} {p : UpdatePos} (hu : s.Marks u) (hq : q.inUpdate? = some p)
      (hp : s.pos.UpdateChanExists s.cfg → p.ChanExists s.cfg) : s.Tracks (u.goto q)
  | ret {u : State} (hu : s.Marks u) (r : Result) : s.Tracks (u.ret r)

/-- The outcome is such a step, or a stop. -/
def State.TracksOut (s : State) : Out → Prop
  | .next t => s.Tracks t
  | .fault _ => True
  | .refused _ => True

section Shapes
variable {s u : State} {i : Instr} {k : Out}

theorem State.TracksOut.next {t : State} (hk : s.TracksOut k) (h : k = .next t) : s.Tracks t := by
  rwa [h] at hk

theorem goOn_tracks {q : Pos} (hu : s.Marks u) (hq : q.plain = true) : s.TracksOut (goOn q u) := .goto hu hq

theorem done_tracks (hu : s.Marks u) (r : Result) : s.TracksOut (done r u) := .ret hu r

theorem guardIdx_tracks {c : Bool} (h : s.TracksOut k) : s.TracksOut (guardIdx i c s k) := by
  unfold guardIdx; split
  · exact h
  · trivial

theorem guardZero_tracks {z : Idx} (h : s.TracksOut k) : s.TracksOut (guardZero i z s k) := guardIdx_tracks h

theorem guardUnit_tracks {v : Variant} (h : s.TracksOut k) : s.TracksOut (guardUnit i v s k) := by
  unfold guardUnit; split
  · exact h
  · trivial

theorem guardUsable_tracks (h : s.TracksOut k) : s.TracksOut (guardUsable s k) := by
  unfold guardUsable; split
  · exact h
  · exact done_tracks .self _

theorem withRef_tracks {r : Nat} {f : Desc → Out} (h : ∀ x, s.TracksOut (f x)) : s.TracksOut (withRef i r s f) := by
  unfold withRef; split
  · trivial
  · exact h _

theorem withDesc_tracks {d : Nat} {f : Nat → Desc → Out} (h : ∀ r x, s.TracksOut (f r x)) :
    s.TracksOut (withDesc i d s f) := by
  unfold withDesc; split
  · trivial
  · split
    · trivial
    · exact h _ _

theorem orFault_tracks {α : Type} {x : Except Fault α} {f : α → Out} (h : ∀ a, x = .ok a → s.TracksOut (f a)) :
    s.TracksOut (orFault x f) := by
  cases x with
  | ok a => exact h a rfl
  | error e => trivial

theorem readStep_tracks {r : Reg} {f : Word → State → Out} (h : ∀ v u, s.Marks u → s.TracksOut (f v u)) :
    s.TracksOut (readStep i r s f) :=
  orFault_tracks fun _ hx => h _ _ (busRead_sameDriver hx).marks

theorem writeStep_tracks {r : Reg} {v : Word} {f : State → Out} (h : ∀ u, s.Marks u → s.TracksOut (f u)) :
    s.TracksOut (writeStep i r v s f) :=
  orFault_tracks fun _ hx => h _ (busWrite_sameDriver hx).marks

theorem csrWrite_tracks {w : Who} {n : Nat} {v : Word} {f : State → Out} (h : ∀ u, s.Marks u → s.TracksOut (f u)) :
    s.TracksOut (orFault (csrWrite w n v s) f) :=
  orFault_tracks fun _ hx => h _ (csrWrite_sameDriver hx).marks

theorem readOp_tracks {r : Reg} : s.TracksOut (readOp i r s) :=
  orFault_tracks fun _ hx => done_tracks (busRead_sameDriver hx).marks _

theorem writeOp_tracks {r : Reg} {v : Word} : s.TracksOut (writeOp i r v s) :=
  writeStep_tracks fun _ hu => done_tracks hu _

theorem csrReadOp_tracks {n : Nat} : s.TracksOut (csrReadOp i n s) := orFault_tracks fun _ _ => done_tracks .self _

theorem csrWriteOp_tracks {n : Nat} {v : Word} : s.TracksOut (csrWriteOp i n v s) :=
  csrWrite_tracks fun _ hu => done_tracks hu _

theorem runCallback_marks {w : Who} {r : Nat} {cb : Cb} (h : runCallback w r cb s = .ok u) : s.Marks u := by
  unfold runCallback at h
  split at h <;> cases h
  exact emit_marks _ _

end Shapes

/-! ### `UPDATE` (R105), wherever it runs -/

/-- What a step of `UPDATE` leads to: a position about a channel that exists where the last one was, or its end. -/
def UpdateFlow.Tracks (s : State) : UpdateFlow → Prop
  | .go p t => s.Marks t ∧ (s.pos.UpdateChanExists s.cfg → p.ChanExists s.cfg)
  | .fin _ t => s.Marks t
  | .stop _ => True
  | .refuse _ => True

section Update
variable {s t : State} {ch : Nat} {w : Who}

theorem updateNext_tracks (ht : s.Marks t) : (updateNext ch t).Tracks s := by
  unfold updateNext; split
  · exact ⟨ht, fun _ => trivial⟩
  · exact ht

theorem updateAfterDone_tracks {st : Word} {d : Option Nat} (ht : s.Marks t)
    (hc : s.pos.UpdateChanExists s.cfg → ch < s.cfg.numCh) : (updateAfterDone ch st d t).Tracks s := by
  unfold updateAfterDone; split <;> exact ⟨ht, hc⟩

theorem updateRead_tracks {r : Reg} {f : Word → State → UpdateFlow}
    (h : ∀ v u, r.check s.cfg = .present → s.Marks u → (f v u).Tracks s) : (updateRead w r s f).Tracks s := by
  unfold updateRead; split
  next x hx => exact h _ _ (busRead_ok hx).1 (busRead_sameDriver hx).marks
  next => trivial

/-- The channel of a status read exists, and every later position of the loop body keeps the channel. -/
theorem updateStep_tracks {p : UpdatePos} (hp : s.pos.UpdateChanExists s.cfg → p.ChanExists s.cfg) :
    (updateStep w p s).Tracks s := by
  cases p <;> dsimp only [updateStep]
  case enter =>
    split
    · split
      · exact ⟨.self, fun _ => trivial⟩
      · trivial
    · exact State.Marks.self
  case gstatus =>
    refine updateRead_tracks fun g u _ hu => ?_
    split
    · split
      · exact ⟨hu, fun _ => trivial⟩
      · exact hu
    · exact hu
  case chan ch =>
    refine updateRead_tracks fun st u hr hu => ?_
    have hc : ch < s.cfg.numCh := by simpa [Reg.check] using ofRange_present hr
    split
    · exact ⟨hu, fun _ => hc⟩
    · split
      · exact ⟨hu, fun _ => hc⟩
      · exact updateNext_tracks hu
  case markDone ch st d =>
    have hm : s.Marks (s.setDoneMask (s.mgr.doneMask ||| bit ch)) := setDoneMask_marks fun h => noNewBits_or_bit _ (hp h)
    cases d with
    | some r => exact ⟨hm, hp⟩
    | none => exact updateAfterDone_tracks hm hp
  case readLen ch st r => exact updateRead_tracks fun n u _ hu => ⟨hu, hp⟩
  case setTransferred ch st r n => exact ⟨setDescTransferred_marks _ _ _, hp⟩
  case setDone ch st r => exact updateAfterDone_tracks (setDescDone_marks _ _ _) hp
  case markLast ch st d => exact ⟨setLastMask_marks fun h => noNewBits_or_bit _ (hp h), hp⟩
  case ack ch st d =>
    split
    · trivial
    next u hu =>
      have hm := (busWrite_sameDriver hu).marks
      split
      · exact ⟨hm, hp⟩
      · exact updateNext_tracks hm
  case callback ch r =>
    split
    · exact updateNext_tracks .self
    · split
      next u hu => exact updateNext_tracks (runCallback_marks hu)
      · trivial

theorem runUpdate_tracks {p : UpdatePos} {q : UpdatePos → Pos} {k : ResCode → State → Out}
    (hp : s.pos.UpdateChanExists s.cfg → p.ChanExists s.cfg) (hq : ∀ p, (q p).inUpdate? = some p)
    (hk : ∀ c t, s.Marks t → s.TracksOut (k c t)) : s.TracksOut (runUpdate w p q k s) := by
  have h := updateStep_tracks (w := w) hp
  unfold runUpdate
  split <;> rename_i he <;> rw [he] at h
  · exact .update h.1 (hq _) h.2
  · exact hk _ _ h
  · trivial
  · trivial

theorem updatePos_chanExists (h : s.pos.UpdateChanExists s.cfg) : s.updatePos.ChanExists s.cfg := by
  unfold State.updatePos
  split
  next u hu => rwa [hu] at h
  next => trivial

end Update

/-! ### The meanings -/

section Meanings
variable {s : State} {i : Instr}

theorem execIsReady_tracks (e : Idx) : s.TracksOut (execIsReady e s) := by
  unfold execIsReady
  exact readStep_tracks fun w u hu => done_tracks hu _

theorem execPollAndTransfer_tracks (e : Idx) : s.TracksOut (execPollAndTransfer e s) := by
  unfold execPollAndTransfer
  split
  · exact writeStep_tracks fun u hu => done_tracks hu _
  · exact readStep_tracks fun w u hu => by split <;> exact goOn_tracks hu rfl

theorem execMgrInit_tracks (z : Idx) : s.TracksOut (execMgrInit z s) := by
  refine guardZero_tracks ?_
  split
  · exact goOn_tracks (setSlot_marks _ _ _) (by split <;> rfl)
  · exact goOn_tracks (setDoneMask_marks fun _ => noNewBits_zero _ _) rfl
  · exact goOn_tracks (setLastMask_marks fun _ => noNewBits_zero _ _) rfl
  · exact done_tracks (setPresent_marks _) _
  · exact guardUsable_tracks (goOn_tracks .self (by split <;> rfl))

theorem beginValidated_tracks {u : State} {r : Nat} {x : Desc} {c : Word} (hu : s.Marks u) :
    s.TracksOut (beginValidated i r x c u) := by
  unfold beginValidated
  split
  · exact done_tracks hu _
  · split
    · exact done_tracks hu _
    · split
      · exact goOn_tracks hu rfl
      · split
        · split
          · exact goOn_tracks hu rfl
          · trivial
        · exact done_tracks hu _

theorem beginStep_tracks (r : Nat) (x : Desc) (p : BeginPos) : s.TracksOut (beginStep i r x p s) := by
  cases p <;> dsimp only [beginStep]
  case wait => exact readStep_tracks fun c u hu => by split <;> exact goOn_tracks hu rfl
  case validate => exact readStep_tracks fun c u hu => beginValidated_tracks hu
  case slot => exact goOn_tracks (setSlot_marks _ _ _) rfl
  case clearDoneMask => exact goOn_tracks (setDoneMask_marks fun _ => noNewBits_and _ _ _) rfl
  case clearLastMask => exact goOn_tracks (setLastMask_marks fun _ => noNewBits_and _ _ _) rfl
  case clearDone => exact goOn_tracks (setDescDone_marks _ _ _) rfl
  case gmaskRead | irqRead | modeRead | goRead => exact readStep_tracks fun v u hu => goOn_tracks hu rfl
  case gmaskWrite | irqWrite | modeWrite | base | len => exact writeStep_tracks fun u hu => goOn_tracks hu rfl
  case goWrite => exact writeStep_tracks fun u hu => done_tracks hu _

theorem execBegin_tracks (z : Idx) (d : Nat) : s.TracksOut (execBegin z d s) := by
  refine guardZero_tracks ?_
  split
  · exact withRef_tracks fun x => beginStep_tracks _ _ _
  · exact withDesc_tracks fun r x => guardUsable_tracks (guardIdx_tracks (goOn_tracks .self rfl))

theorem completeStep_tracks (r : Nat) (x : Desc) (p : CompletePos) : s.TracksOut (completeStep i r x p s) := by
  cases p <;> dsimp only [completeStep]
  case pollForever => exact readStep_tracks fun c u hu => by split <;> exact goOn_tracks hu rfl
  case poll n =>
    refine readStep_tracks fun c u hu => ?_
    split
    · exact goOn_tracks hu rfl
    · split <;> exact goOn_tracks hu rfl
  case waitForever =>
    split
    · exact done_tracks .self _
    · exact goOn_tracks .self rfl
  case wait n =>
    split
    · exact done_tracks .self _
    · split <;> exact goOn_tracks .self rfl
  case readLen ok => exact readStep_tracks fun v u hu => goOn_tracks hu rfl
  case setTransferred ok v => exact goOn_tracks (setDescTransferred_marks _ _ _) rfl
  case setDone ok =>
    split
    · exact goOn_tracks (setDescDone_marks _ _ _) rfl
    · exact done_tracks (setDescDone_marks _ _ _) _
  case callback ok =>
    split
    · exact done_tracks .self _
    next cb _ =>
      cases h : runCallback (s.who i) r cb s with
      | ok u => exact done_tracks (runCallback_marks h) _
      | error e => trivial

theorem execComplete_tracks (z : Idx) (d : Nat) (n : Word) : s.TracksOut (execComplete z d n s) := by
  refine guardZero_tracks ?_
  split
  · exact withRef_tracks fun x => completeStep_tracks _ _ _
  · refine withDesc_tracks fun r x => guardUsable_tracks ?_
    split
    · exact goOn_tracks .self rfl
    · split
      · exact goOn_tracks .self rfl
      · split
        · exact goOn_tracks .self rfl
        · exact done_tracks .self _

theorem execCancel_tracks (z : Idx) (d : Nat) : s.TracksOut (execCancel z d s) := by
  refine guardZero_tracks ?_
  split
  · exact withRef_tracks fun x => writeStep_tracks fun u hu => done_tracks hu _
  · exact withDesc_tracks fun r x => guardUsable_tracks (guardIdx_tracks (goOn_tracks .self rfl))

theorem execUpdate_tracks (z : Idx) : s.TracksOut (execUpdate z s) :=
  guardZero_tracks (runUpdate_tracks updatePos_chanExists (fun _ => rfl) fun _ _ ht => done_tracks ht _)

theorem icInitBank_tracks (b : Nat) : s.TracksOut (icInitBank i b s) :=
  writeStep_tracks fun u hu => goOn_tracks hu (by split <;> rfl)

theorem execIcInit_tracks (z : Idx) : s.TracksOut (execIcInit z s) := by
  refine guardZero_tracks ?_
  split
  · split
    · exact icInitBank_tracks _
    · exact writeStep_tracks fun u hu => done_tracks hu _
    · exact icInitBank_tracks _
  · exact csrWrite_tracks fun u hu => done_tracks hu _

theorem execIcEnable_tracks (n : Idx) : s.TracksOut (execIcEnable n s) := by
  refine guardIdx_tracks ?_
  split
  · split
    · exact writeStep_tracks fun u hu => goOn_tracks hu rfl
    · exact readStep_tracks fun v u hu => goOn_tracks hu rfl
    · exact writeStep_tracks fun u hu => done_tracks hu _
    · exact readStep_tracks fun v u hu => goOn_tracks hu (by split <;> rfl)
  · split
    · exact csrWrite_tracks fun u hu => done_tracks hu _
    · exact orFault_tracks fun _ _ => goOn_tracks .self rfl

theorem execIcDisable_tracks (n : Idx) : s.TracksOut (execIcDisable n s) := by
  refine guardIdx_tracks ?_
  split
  · split
    · exact writeStep_tracks fun u hu => done_tracks hu _
    · exact readStep_tracks fun v u hu => goOn_tracks hu rfl
  · split
    · exact csrWrite_tracks fun u hu => done_tracks hu _
    · exact orFault_tracks fun _ _ => goOn_tracks .self rfl

theorem execIcPriorityCount_tracks (z : Idx) : s.TracksOut (execIcPriorityCount z s) := by
  refine guardZero_tracks ?_
  split <;> exact done_tracks .self _

theorem execIcSetPriority_tracks (n : Idx) (level : Word) : s.TracksOut (execIcSetPriority n level s) := by
  unfold execIcSetPriority
  split
  · exact done_tracks .self _
  · refine guardIdx_tracks ?_
    split
    · trivial
    · exact writeStep_tracks fun u hu => done_tracks hu _

theorem execDispatch_tracks (n : Idx) : s.TracksOut (execDispatch n s) := by
  unfold execDispatch
  split
  · exact runUpdate_tracks updatePos_chanExists (fun _ => rfl) fun _ _ ht => done_tracks ht _
  · exact done_tracks .self _

theorem irqAfter_tracks {u : State} (n : Nat) (hu : s.Marks u) : s.TracksOut (irqAfter n u) := by
  unfold irqAfter
  split
  · exact goOn_tracks hu rfl
  · exact done_tracks hu _

theorem irqDispatch_tracks {u : State} (n : Nat) (hu : s.Marks u) : s.TracksOut (irqDispatch n u) := by
  unfold irqDispatch
  split
  · exact .update (p := .enter) hu rfl fun _ => trivial
  · exact irqAfter_tracks n hu

theorem irqFirst_tracks : s.TracksOut (irqFirst i s) := by
  unfold irqFirst
  split
  · refine readStep_tracks fun n u hu => ?_
    split
    · exact done_tracks hu _
    · exact goOn_tracks hu rfl
  · exact orFault_tracks fun _ _ => goOn_tracks .self rfl

theorem execIrqEntry_tracks (z : Idx) : s.TracksOut (execIrqEntry z s) := by
  refine guardZero_tracks ?_
  split
  · refine orFault_tracks fun m _ => ?_
    split
    · exact done_tracks .self _
    · exact goOn_tracks .self rfl
  · exact irqDispatch_tracks _ (emit_marks _ _)
  next n p hpos =>
    refine runUpdate_tracks (fun h => ?_) (fun _ => rfl) fun _ t ht => irqAfter_tracks n ht
    rwa [hpos] at h
  · exact writeStep_tracks fun u hu => done_tracks hu _
  · exact irqFirst_tracks

/-- Every operation but `DMA_INIT` leaves the driver alone, and raises tracker bits of existing channels only. -/
theorem exec_tracks (h : ∀ z, i ≠ .dmaInit z) : s.TracksOut (exec i s) := by
  cases i with
  | dmaInit z => exact absurd rfl (h z)
  | srdCtrl | srdData | drdCtrl | drdBase | drdLen | drdDonelen | drdIstat => exact readOp_tracks
  | swrCtrl | swrData | dwrCtrl | dwrBase | dwrLen | dwrDonelen | dwrIstat => exact writeOp_tracks
  | drdChcount | drdChoff | drdGmask | drdGstatus => exact guardZero_tracks readOp_tracks
  | dwrChcount | dwrChoff | dwrGmask | dwrGstatus => exact guardZero_tracks writeOp_tracks
  | prdPrio | prdPend | prdEn => exact guardUnit_tracks readOp_tracks
  | pwrPrio | pwrPend | pwrEn => exact guardUnit_tracks writeOp_tracks
  | prdThr | prdClaim => exact guardUnit_tracks (guardZero_tracks readOp_tracks)
  | pwrThr | pwrClaim => exact guardUnit_tracks (guardZero_tracks writeOp_tracks)
  | crdMask | crdPend => exact guardUnit_tracks (guardZero_tracks csrReadOp_tracks)
  | cwrMask | cwrPend => exact guardUnit_tracks (guardZero_tracks csrWriteOp_tracks)
  | isReady e => exact execIsReady_tracks e
  | pollAndTransfer e => exact execPollAndTransfer_tracks e
  | mgrInit z => exact execMgrInit_tracks z
  | descNew ch d f => exact guardIdx_tracks (done_tracks (newDesc_marks _ _ _) _)
  | beginXfer z d => exact execBegin_tracks z d
  | completeXfer z d n => exact execComplete_tracks z d n
  | cancelXfer z d => exact execCancel_tracks z d
  | update z => exact execUpdate_tracks z
  | icInit z => exact execIcInit_tracks z
  | icEnable n => exact execIcEnable_tracks n
  | icDisable n => exact execIcDisable_tracks n
  | icPriorityCount z => exact execIcPriorityCount_tracks z
  | icSetPriority n level => exact execIcSetPriority_tracks n level
  | dispatch n => exact execDispatch_tracks n
  | irqEntry z => exact execIrqEntry_tracks z

end Meanings

/-! ### `DMA_INIT` (R75) -/

/-- The steps of `DMA_INIT`: the two header reads, the store of the count, the store of the self-check. -/
inductive State.Inits (s : State) : State → Prop where
  | readCount {u : State} (hu : s.Marks u) : s.Inits (u.goto (.initReadOff (BitVec.ofNat 32 s.cfg.numCh)))
  | readOffset {u : State} {n : Word} (hu : s.Marks u) (hp : s.pos = .initReadOff n) :
      s.Inits (u.goto (.initNumCh n s.cfg.hwChOffset))
  | setNumCh {n o : Word} (hp : s.pos = .initNumCh n o) : s.Inits ((s.setNumCh n).goto (.initUsable o))
  | setUsable {o : Word} (hp : s.pos = .initUsable o) :
      s.Inits ((s.setUsable (o = chArrayOffset)).ret (.bool (o = chArrayOffset)))

theorem execDmaInit_inits {z : Idx} {s t : State} (h : execDmaInit z s = .next t) : s.Inits t := by
  replace h := (guardZero_next h).2
  split at h
  next n hp =>
    obtain ⟨x, hx, hk⟩ := orFault_next h
    cases hk
    rw [(busRead_ok hx).2.1]
    exact .readOffset (busRead_sameDriver hx).marks hp
  next n o hp => cases h; exact .setNumCh hp
  next o hp => cases h; exact .setUsable hp
  next =>
    obtain ⟨x, hx, hk⟩ := orFault_next h
    cases hk
    rw [(busRead_ok hx).2.1]
    exact .readCount (busRead_sameDriver hx).marks

/-! ### A plain item of MAIN's program -/

theorem readBytes_eq (n : Nat) : ∀ (s : State) (a : Word),
    (s.readBytes a n).2 = { s with draws := (s.readBytes a n).2.draws } := by
  induction n with
  | zero => intro s a; rfl
  | succ n ih => intro s a; rw [State.readBytes]; dsimp only; rw [ih, readByte_eq]

theorem readBytes_marks (s : State) (a : Word) (n : Nat) : s.Marks (s.readBytes a n).2 := by
  rw [readBytes_eq]
  exact ⟨rfl, rfl, rfl, rfl, rfl, fun _ _ _ => ⟨id, id⟩⟩

theorem writeBytes_marks (s : State) (a v : Word) (n : Nat) : s.Marks (s.writeBytes a v n) := by
  rw [writeBytes_eq]
  exact ⟨rfl, rfl, rfl, rfl, rfl, fun _ _ _ => ⟨id, id⟩⟩

/-- The record of an access after it. -/
theorem State.Marks.emit {s t : State} (h : s.Marks t) (e : Event) : s.Marks (t.emit e) :=
  ⟨h.cfg, h.mainPos, h.isrPos, h.drvUsable, h.drvNumCh, h.masks⟩

section Plain
variable {s : State}

theorem plainLoad_tracks (a : Word) (width : Width) : s.TracksOut (plainLoad a width s) := by
  unfold plainLoad
  split
  · exact done_tracks ((readBytes_marks s a _).emit _) _
  · exact orFault_tracks fun _ hx => done_tracks (busRead_sameDriver hx).marks _
  · trivial

theorem plainStore_tracks (a : Word) (width : Width) (v : Word) : s.TracksOut (plainStore a width v s) := by
  unfold plainStore
  split
  · exact done_tracks ((writeBytes_marks s a v _).emit _) _
  · exact orFault_tracks fun _ hx => done_tracks (busWrite_sameDriver hx).marks _
  · trivial

theorem plainRunCode_tracks (a : Word) (n : Nat) : s.TracksOut (plainRunCode a n s) := by
  unfold plainRunCode
  split
  · trivial
  · exact done_tracks .self _

/-- What a step of the item MAIN executes is to the driver and the tracker. -/
theorem itemStep_cases {m : Item} {t : State} (h : itemStep m s = .next t) : s.Tracks t ∨ s.Inits t := by
  cases m with
  | op w a =>
    dsimp only [itemStep] at h
    split at h
    next i _ =>
      by_cases hi : ∃ z, i = .dmaInit z
      · obtain ⟨z, rfl⟩ := hi
        exact .inr (execDmaInit_inits h)
      · exact .inl ((exec_tracks fun z hz => hi ⟨z, hz⟩).next h)
    next => cases h
  | load a width => exact .inl ((plainLoad_tracks a width).next h)
  | store a width v => exact .inl ((plainStore_tracks a width v).next h)
  | runCode a n => exact .inl ((plainRunCode_tracks a n).next h)

theorem irqEntry_tracks {t : State} (h : exec (.irqEntry 0) s = .next t) : s.Tracks t :=
  (exec_tracks fun z hz => by cases hz).next h

end Plain

/-! ### The tracker's masks (R109) -/

section Masks
variable {s t u : State}

theorem State.MasksInRange.pos (hs : s.MasksInRange) : s.pos.UpdateChanExists s.cfg := by
  obtain ⟨-, hmain, hisr⟩ := hs
  unfold State.pos
  split <;> assumption

theorem State.Marks.masksInRange (hu : s.Marks u) (hs : s.MasksInRange) : u.MasksInRange := by
  have hpos := hs.pos
  obtain ⟨hm, hmain, hisr⟩ := hs
  rw [State.MasksInRange, hu.cfg, hu.mainPos, hu.isrPos]
  refine ⟨fun k hk hn => ?_, hmain, hisr⟩
  obtain ⟨hdone, hlast⟩ := hu.masks hpos k hn
  obtain ⟨hd, hl⟩ := hm k hk hn
  exact ⟨Bool.eq_false_iff.2 fun h => by simp [hdone h] at hd, Bool.eq_false_iff.2 fun h => by simp [hlast h] at hl⟩

theorem State.MasksInRange.goto {q : Pos} (hs : s.MasksInRange) (hq : q.UpdateChanExists s.cfg) :
    (s.goto q).MasksInRange := by
  obtain ⟨hm, hmain, hisr⟩ := hs
  cases ha : s.isrActive with
  | true => rw [goto_isr q ha]; exact ⟨hm, hmain, hq⟩
  | false => rw [goto_main q ha]; exact ⟨hm, hq, hisr⟩

theorem State.MasksInRange.ret (hs : s.MasksInRange) (r : Result) : (s.ret r).MasksInRange := by
  obtain ⟨hm, hmain, hisr⟩ := hs
  cases ha : s.isrActive with
  | true => rw [State.ret_isr s r ha]; exact ⟨hm, hmain, trivial⟩
  | false => rw [State.ret_main s r ha]; exact ⟨hm, trivial, hisr⟩

theorem State.Tracks.masksInRange (h : s.Tracks t) (hs : s.MasksInRange) : t.MasksInRange := by
  cases h with
  | goto hu hq => exact (hu.masksInRange hs).goto (Pos.updateChanExists_of_plain _ hq)
  | update hu hq hp =>
    refine (hu.masksInRange hs).goto ((Pos.updateChanExists_of_inUpdate hq).2 ?_)
    rw [hu.cfg]
    exact hp hs.pos
  | ret hu r => exact (hu.masksInRange hs).ret r

theorem State.Inits.masksInRange (h : s.Inits t) (hs : s.MasksInRange) : t.MasksInRange := by
  cases h with
  | readCount hu | readOffset hu => exact (hu.masksInRange hs).goto trivial
  | @setNumCh n o => exact State.MasksInRange.goto (s := s.setNumCh n) hs trivial
  | @setUsable o => exact State.MasksInRange.ret (s := s.setUsable (o = chArrayOffset)) hs _

theorem step_masksInRange (h : step s = .next t) (hs : s.MasksInRange) : t.MasksInRange := by
  replace hs := (chosen_sameControl s).marks.masksInRange hs
  by_cases hc : s.choice = .cpu
  · rw [step_cpu hc] at h
    obtain ⟨-, he⟩ | ⟨-, m, hm⟩ | ⟨-, rfl⟩ := cpuStep_next h
    · exact (irqEntry_tracks he).masksInRange hs
    · exact (itemStep_cases hm).elim (·.masksInRange hs) (·.masksInRange hs)
    · exact hs
  · obtain hk | ⟨-, -, rfl⟩ | ⟨-, he⟩ := agentStep_cases hc h
    · exact hk.marks.masksInRange hs
    · obtain ⟨hm, hmain, -⟩ := hs
      exact ⟨hm, hmain, trivial⟩
    · rw [he]; exact hs

end Masks

/-! ### The driver (R28, R75) -/

section Driver
variable {s t u : State}

theorem initRead_iff (hc : u.cfg = s.cfg) (hn : u.drvNumCh = s.drvNumCh) (q : Pos) : u.InitRead q ↔ s.InitRead q := by
  cases q <;> simp [State.InitRead, hc, hn]

theorem State.Marks.driverLawful (hu : s.Marks u) (hs : s.DriverLawful) : u.DriverLawful := by
  obtain ⟨huse, hread⟩ := hs
  rw [State.DriverLawful, hu.cfg, hu.mainPos, hu.drvUsable, hu.drvNumCh, initRead_iff hu.cfg hu.drvNumCh]
  exact ⟨huse, hread⟩

theorem State.DriverLawful.goto {q : Pos} (hs : s.DriverLawful) (hq : s.InitRead q) : (s.goto q).DriverLawful := by
  obtain ⟨huse, hread⟩ := hs
  cases ha : s.isrActive with
  | true => rw [goto_isr q ha]; exact ⟨huse, (initRead_iff rfl rfl _).2 hread⟩
  | false => rw [goto_main q ha]; exact ⟨huse, (initRead_iff rfl rfl _).2 hq⟩

theorem State.DriverLawful.ret (hs : s.DriverLawful) (r : Result) : (s.ret r).DriverLawful := by
  obtain ⟨huse, hread⟩ := hs
  cases ha : s.isrActive with
  | true => rw [State.ret_isr s r ha]; exact ⟨huse, (initRead_iff rfl rfl _).2 hread⟩
  | false => rw [State.ret_main s r ha]; exact ⟨huse, trivial⟩

theorem State.Tracks.driverLawful (h : s.Tracks t) (hs : s.DriverLawful) : t.DriverLawful := by
  cases h with
  | goto hu hq => exact (hu.driverLawful hs).goto (Pos.initRead_of_plain _ hq)
  | update hu hq => exact (hu.driverLawful hs).goto (Pos.initRead_of_inUpdate _ hq)
  | ret hu r => exact (hu.driverLawful hs).ret r

/-- `DMA_INIT` run by MAIN: what it has read is what the header reports, so the self-check stores the truth. -/
theorem State.Inits.driverLawful (h : s.Inits t) (ha : s.isrActive = false) (hs : s.DriverLawful) : t.DriverLawful := by
  have hpos : s.pos = s.mainPos := by simp [State.pos, ha]
  have ⟨huse, hread⟩ := hs
  rw [← hpos] at hread
  cases h with
  | readCount hu =>
    refine (hu.driverLawful hs).goto ?_
    simp only [State.InitRead, hu.cfg]
  | readOffset hu hp =>
    rw [hp] at hread
    refine (hu.driverLawful hs).goto ?_
    exact (initRead_iff hu.cfg hu.drvNumCh _).2 ⟨hread, rfl⟩
  | @setNumCh n o hp =>
    rw [hp] at hread
    obtain ⟨hn, ho⟩ := hread
    rw [goto_main (s := s.setNumCh n) _ ha]
    exact ⟨fun h => ⟨hn, (huse h).2⟩, hn, ho⟩
  | @setUsable o hp =>
    rw [hp] at hread
    obtain ⟨hn, ho⟩ := hread
    rw [State.ret_main (s.setUsable (o = chArrayOffset)) _ ha]
    exact ⟨fun h => ⟨hn, ho ▸ of_decide_eq_true h⟩, trivial⟩

theorem step_driverLawful (h : step s = .next t) (hs : s.DriverLawful) : t.DriverLawful := by
  replace hs := (chosen_sameControl s).marks.driverLawful hs
  by_cases hc : s.choice = .cpu
  · rw [step_cpu hc] at h
    obtain ⟨-, he⟩ | ⟨ha, m, hm⟩ | ⟨-, rfl⟩ := cpuStep_next h
    · exact (irqEntry_tracks he).driverLawful hs
    · exact (itemStep_cases hm).elim (·.driverLawful hs) (·.driverLawful ha hs)
    · exact hs
  · obtain hk | ⟨-, -, rfl⟩ | ⟨-, he⟩ := agentStep_cases hc h
    · exact hk.marks.driverLawful hs
    · exact ⟨hs.1, (initRead_iff rfl rfl _).2 hs.2⟩
    · rw [he]; exact ⟨hs.1, (initRead_iff rfl rfl _).2 hs.2⟩

end Driver

/-- Settles O55: `Tracks` and `Inits` are all a CPU step can be, and each keeps both invariants. -/
theorem trackerDriverKept : Obligations.TrackerDriverKept := by
  unfold Obligations.TrackerDriverKept
  exact fun s t h => ⟨step_masksInRange h, step_driverLawful h⟩

end Sys2Proof.Machine
end

section
/-! PROOFS. The interrupt lines and the CPU's request (R27, R33, R82, R112), and the stream data slots (R67, R68). -/

namespace Sys2Proof.Machine

open Sys2Proof

/-! ### The DMA line (R27, R82) -/

theorem gstatus_ne_zero_iff (s : State) : s.gstatus ≠ 0 ↔ s.doneAny = true ∨ s.lastAny = true := by
  rw [State.gstatus, Ne, twoBitWord_eq_zero, not_and_or, Bool.not_eq_false, Bool.not_eq_false]

theorem dmaIrq_iff (s : State) : s.dmaIrq = true ↔ s.gstatus ≠ 0 := by
  rw [State.dmaIrq, decide_eq_true_iff]

theorem doneAny_iff (s : State) :
    s.doneAny = true ↔
      ∃ ch < s.cfg.numCh, s.gmask.getLsbD ch = true ∧ (s.chan ch).istDone = true ∧ (s.chan ch).irqDone = true := by
  simp [State.doneAny, and_assoc]

theorem lastAny_iff (s : State) :
    s.lastAny = true ↔
      ∃ ch < s.cfg.numCh, s.gmask.getLsbD ch = true ∧ (s.chan ch).istLast = true ∧ (s.chan ch).irqLast = true := by
  simp [State.lastAny, and_assoc]

/-- The line is high where some channel has an event that its own masks and the global mask let through. -/
theorem dmaIrq_iff_event (s : State) :
    s.dmaIrq = true ↔ ∃ ch < s.cfg.numCh, s.gmask.getLsbD ch = true ∧
      (((s.chan ch).istDone = true ∧ (s.chan ch).irqDone = true) ∨
        ((s.chan ch).istLast = true ∧ (s.chan ch).irqLast = true)) := by
  rw [dmaIrq_iff, gstatus_ne_zero_iff, doneAny_iff, lastAny_iff]
  constructor
  · rintro (⟨ch, hc, hg, he⟩ | ⟨ch, hc, hg, he⟩)
    · exact ⟨ch, hc, hg, .inl he⟩
    · exact ⟨ch, hc, hg, .inr he⟩
  · rintro ⟨ch, hc, hg, he | he⟩
    · exact .inl ⟨ch, hc, hg, he⟩
    · exact .inr ⟨ch, hc, hg, he⟩

/-! ### The levels of the lines (R33) -/

theorem lineLevel_dma (s : State) : s.lineLevel s.cfg.dmaIrqSource = s.dmaIrq := if_pos rfl

theorem lineLevel_env {s : State} {n : Nat} (h : n ≠ s.cfg.dmaIrqSource) : s.lineLevel n = s.lines.getD n false :=
  if_neg h

theorem setLine_lineLevel_same {s : State} {n : Nat} (b : Bool) (hn : n < s.lines.length) (hd : n ≠ s.cfg.dmaIrqSource) :
    (s.setLine n b).lineLevel n = b := by
  rw [lineLevel_env (s := s.setLine n b) hd]
  simp [hn]

theorem setLine_lineLevel_other {s : State} {n k : Nat} (b : Bool) (hk : k ≠ n) :
    (s.setLine n b).lineLevel k = s.lineLevel k := by
  have hl : (s.setLine n b).lines.getD k false = s.lines.getD k false := by
    simp [List.getElem?_set_ne (Ne.symm hk)]
  rw [State.lineLevel, State.lineLevel, hl]
  rfl

theorem envLine_drives {s : State} {n : Nat} (level : Bool) (hn : n < s.cfg.numSources) (hd : n ≠ s.cfg.dmaIrqSource) :
    stepOf (.envLine n level) s = .next (s.setLine n level) :=
  if_pos ⟨hn, hd⟩

theorem envLine_dma (s : State) (level : Bool) : stepOf (.envLine s.cfg.dmaIrqSource level) s = .next s :=
  if_neg fun h => h.2 rfl

/-! ### The CPU's request (R112) -/

theorem eip_banked_iff {s : State} (hv : s.cfg.variant = .banked) :
    s.eip = true ↔ ∃ n, 1 ≤ n ∧ n < s.cfg.numSources ∧
      (s.src n).pending = true ∧ (s.src n).en = true ∧ s.thr.toNat < (s.src n).prio.toNat := by
  simp only [State.eip, hv, List.any_eq_true, mem_sourceIds, State.eligible, Bool.and_eq_true, decide_eq_true_eq,
    BitVec.lt_def, Nat.one_le_iff_ne_zero]
  constructor
  · rintro ⟨n, ⟨hn, h0⟩, ⟨hp, he⟩, ht⟩
    exact ⟨n, h0, hn, hp, he, ht⟩
  · rintro ⟨n, h0, hn, hp, he, ht⟩
    exact ⟨n, ⟨hn, h0⟩, ⟨hp, he⟩, ht⟩

theorem ne_zero_iff_bit (x : Word) : x ≠ 0 ↔ ∃ n < 32, x.getLsbD n = true := by
  constructor
  · intro hx
    by_contra hn
    push Not at hn
    exact hx (BitVec.eq_of_getLsbD_eq fun n h => by simpa using hn n h)
  · rintro ⟨n, -, hn⟩ rfl
    simp at hn

theorem eip_builtIn_iff {s : State} (hv : s.cfg.variant = .builtIn) :
    s.eip = true ↔ ∃ n < 32, s.lineLevel n = true ∧ s.icMask.getLsbD n = true := by
  simp only [State.eip, hv, decide_eq_true_eq, ne_zero_iff_bit, BitVec.getLsbD_and, State.pendWord, ofBits_getLsbD,
    Bool.and_eq_true]
  constructor
  · rintro ⟨n, hn, ⟨-, hl⟩, hm⟩
    exact ⟨n, hn, hl, hm⟩
  · rintro ⟨n, hn, hl, hm⟩
    exact ⟨n, hn, ⟨hn, hl⟩, hm⟩

/-- Settles O47: each line and request is an `any` over its channels, sources or bits. -/
theorem interruptLines : Obligations.InterruptLines := by
  unfold Obligations.InterruptLines
  intro s
  refine ⟨dmaIrq_iff s, lineLevel_dma s, dmaIrq_iff_event s, eip_banked_iff, eip_builtIn_iff, fun n level =>
    ⟨fun hn hl hd => ?_, envLine_dma s level⟩⟩
  exact ⟨s.setLine n level, envLine_drives level hn hd, setLine_lineLevel_same level hl hd,
    fun k hk => setLine_lineLevel_other level hk, rfl⟩

/-! ### The stream data slots (R67, R68) -/

/-- An operation that is one read of a register whose read takes a draw. -/
theorem readOp_draw {i : Instr} {r : Reg} {s : State} {v : Word} (h : r.check s.cfg = .present)
    (hr : readReg r s = (v, s.drew)) : readOp i r s = .next ((s.drew.sawRead r v).ret (.word v)) := by
  simp only [readOp, busRead_present h, hr, orFault, State.sawRead, who_agent, done, State.drew_cur, State.drew_cfg]

/-- Settles O8: one access each, by the slot's read and write rules. -/
theorem streamDataAccess : Obligations.StreamDataAccess := by
  unfold Obligations.StreamDataAccess
  intro s v
  have h0 : Reg.check s.cfg (.streamData 0) = .present := (check_stream (by decide)).2
  have h1 : Reg.check s.cfg (.streamData 1) = .present := (check_stream (by decide)).2
  refine ⟨⟨s.draw &&& s.cfg.inMask, fun k hk hn => and_lowMask_above _ hk hn, ?_⟩, ?_, ?_, ?_⟩
  · exact readOp_draw h0 rfl
  · exact readOp_plain h1 rfl
  · exact writeOp_ok h0 rfl
  · exact writeOp_fault (v := v) h1 rfl

end Sys2Proof.Machine
end

section
/-! PROOFS. What an operation checked before it acts (R49, R74, R101): the steps of the other agents spare a ready
endpoint and a ready channel, and MAIN's own steps reach the position that acts through the check alone. -/

namespace Sys2Proof.Machine

open Sys2Proof

/-! ### What the steps of the other agents spare -/

/-- Idle with RDY = 1: what a go write asks of a channel (R84). -/
def Chan.Ready (c : Chan) : Prop := c.phase = .idle ∧ c.rdy = true

/-- The step has left every ready endpoint and every ready channel so, and every descriptor on its channel. -/
structure State.Spares (s t : State) : Prop where
  cfg : t.cfg = s.cfg
  desc : ∀ (r : Nat) (x : Desc), s.descs[r]? = some x → ∃ y : Desc, t.descs[r]? = some y ∧ y.ch = x.ch
  chan : ∀ ch, (s.chan ch).Ready → (t.chan ch).Ready
  ep : ∀ e, (s.ep e).ready = true → (t.ep e).ready = true

section Spares
variable {s t u : State}

/-- A step that moves none of the tables spares them. -/
theorem State.Spares.of_eq (hc : t.cfg = s.cfg) (hd : t.descs = s.descs) (hch : t.chans = s.chans) (h0 : t.ep0 = s.ep0)
    (h1 : t.ep1 = s.ep1) : s.Spares t where
  cfg := hc
  desc r x hx := ⟨x, by rwa [hd], rfl⟩
  chan ch h := by rwa [State.chan, hch]
  ep e h := by rwa [State.ep, h0, h1]

@[refl] theorem State.Spares.refl (s : State) : s.Spares s := .of_eq rfl rfl rfl rfl rfl

theorem State.Spares.trans (h : s.Spares t) (k : t.Spares u) : s.Spares u where
  cfg := k.cfg.trans h.cfg
  desc r x hx := by
    obtain ⟨y, hy, hxy⟩ := h.desc r x hx
    obtain ⟨z, hz, hyz⟩ := k.desc r y hy
    exact ⟨z, hz, hyz.trans hxy⟩
  chan ch hr := k.chan ch (h.chan ch hr)
  ep e hr := k.ep e (h.ep e hr)

theorem chosen_spares (s : State) : s.Spares s.chosen := by
  rw [s.chosen_eq]; exact .of_eq rfl rfl rfl rfl rfl

theorem goto_spares (s : State) (q : Pos) : s.Spares (s.goto q) := .of_eq rfl rfl rfl rfl rfl

theorem ret_spares (s : State) (r : Result) : s.Spares (s.ret r) := by
  apply State.Spares.of_eq <;> simp

theorem setChan_spares {ch : Nat} {c : Chan} (h : (s.chan ch).Ready → c.Ready) : s.Spares (s.setChan ch c) where
  cfg := rfl
  desc _ x hx := ⟨x, hx, rfl⟩
  chan k hk := by
    rw [setChan_chan]
    split
    next hc => exact h (hc.1 ▸ hk)
    next => exact hk
  ep _ he := he

theorem setEp_spares {e : Nat} {x : Endpoint} (h : (s.ep e).ready = true → x.ready = true) :
    s.Spares (s.setEp e x) where
  cfg := rfl
  desc _ y hy := ⟨y, hy, rfl⟩
  chan _ hk := hk
  ep k hk := by
    by_cases he : e = 0 <;> by_cases hk0 : k = 0 <;> simp_all [State.ep, State.setEp]

/-- A descriptor keeps its channel in every change. -/
theorem Change.desc_ch {l : Nat} (h : Change l s t) (r : Nat) (x : Desc) (hx : s.descs[r]? = some x) :
    ∃ y, t.descs[r]? = some y ∧ y.ch = x.ch := by
  obtain ⟨-, he | ⟨k, y, z, hy, hz, he⟩⟩ | ⟨d, y, -, rfl⟩ := h.descs_cases
  · exact ⟨x, by rwa [he], rfl⟩
  · rw [he, List.getElem?_set]
    by_cases hk : k = r
    · subst hk
      rw [hx] at hy
      cases hy
      exact ⟨z, by simp [descs_lt hx], hz⟩
    · exact ⟨x, by simpa [hk] using hx, rfl⟩
  · exact ⟨x, by simp [State.newDesc, List.getElem?_append_left (descs_lt hx), hx], rfl⟩

/-- `IRQ_ENTRY` writes no control word, no pulse and no address or length: it only acknowledges. -/
theorem Change.spares (h : Change 0 s t) : s.Spares t := by
  have hdesc := h.desc_ch
  cases h with
  | chan ch c hc h =>
    cases h with
    | ack all v => exact setChan_spares id
    | _ => omega
  | descDone | descTransferred => exact ⟨by simp, hdesc, by simp, by simp⟩
  | emit | drew | src | doneMask | lastMask => exact .of_eq rfl rfl rfl rfl rfl
  | _ => omega

theorem Runs.spares (h : Runs 0 s t) : s.Spares t := by
  obtain ⟨u, hu, ht⟩ := h
  have hsu : s.Spares u := hu.keeps (P := s.Spares) (fun _ _ hc hs => hs.trans hc.spares) (.refl s)
  obtain ⟨q, rfl⟩ | ⟨r, rfl⟩ := ht
  · exact hsu.trans (goto_spares u q)
  · exact hsu.trans (ret_spares u r)

theorem moveByte_spares (ch : Nat) (s : State) : s.Spares (moveByte ch s) := by
  rw [moveByte_eq]; exact .of_eq rfl rfl rfl rfl rfl

theorem eProgress_spares {ch : Nat} (h : eProgress ch s = .next t) : s.Spares t := by
  unfold eProgress at h
  dsimp only at h
  split at h
  · split at h
    · cases h; exact setChan_spares id
    · split at h
      · cases h
      · cases h; exact (moveByte_spares ch s).trans (setChan_spares id)
  · cases h; rfl

/-- An engine completes a Busy channel only, and readiness is raised, never taken back, but by a pulse or a control
write (R69, R93, R96). -/
theorem agentStep_spares {c : Choice} (hc : c ≠ .cpu) (h : stepOf c s = .next t) : s.Spares t := by
  cases c with
  | cpu => exact absurd rfl hc
  | eProgress ch => exact eProgress_spares h
  | envCpuIe on => cases h; exact .of_eq rfl rfl rfl rfl rfl
  | irqEntry | gwLatch | envLine =>
    obtain ⟨-, rfl⟩ | rfl := ite_next h
    · exact .of_eq rfl rfl rfl rfl rfl
    · rfl
  | spReady e =>
    obtain ⟨-, rfl⟩ | rfl := ite_next h
    · exact setEp_spares fun _ => rfl
    · rfl
  | spError e =>
    obtain ⟨-, rfl⟩ | rfl := ite_next h
    · exact State.Spares.trans (t := s.drew) (.of_eq rfl rfl rfl rfl rfl) (setEp_spares id)
    · rfl
  | eReady ch =>
    obtain ⟨-, rfl⟩ | rfl := ite_next h
    · exact setChan_spares fun hr => ⟨hr.1, rfl⟩
    · rfl
  | eLast ch =>
    obtain ⟨-, rfl⟩ | rfl := ite_next h
    · exact setChan_spares id
    · rfl
  | eComplete ch =>
    obtain ⟨⟨-, hb⟩, rfl⟩ | rfl := ite_next h
    · exact setChan_spares fun hr => by rw [hr.1] at hb; cases hb
    · rfl

end Spares

/-! ### A step of MAIN, or of another agent -/

section Main
variable {s t : State}

/-- The step of an agent that is not MAIN spares what is ready and leaves MAIN where it is; MAIN steps the first item of
its program. -/
theorem step_main_cases (h : step s = .next t) :
    (s.Spares t ∧ t.mainPos = s.mainPos ∧ t.prog = s.prog) ∨
      (s.chosen.isrActive = false ∧ ∃ m rest, s.chosen.prog = m :: rest ∧ itemStep m s.chosen = .next t) := by
  have hs := chosen_spares s
  have hc := chosen_sameControl s
  rw [← hc.mainPos, ← hc.prog]
  by_cases hcpu : s.choice = .cpu
  · rw [step_cpu hcpu] at h
    cases ha : s.chosen.isrActive with
    | true =>
      rw [cpuStep_isr ha] at h
      have hr : Runs 0 s.chosen t := execIrqEntry_changes h
      obtain ⟨hprog, hmain, -⟩ := hr.isr (by decide) ha
      exact .inl ⟨hs.trans hr.spares, hmain, hprog⟩
    | false =>
      cases hp : s.chosen.prog with
      | nil => rw [cpuStep_ended ha hp] at h; cases h; exact .inl ⟨hs, rfl, hp⟩
      | cons m rest => exact .inr ⟨rfl, m, rest, rfl, by rwa [cpuStep_item ha hp] at h⟩
  · have ht := hs.trans (agentStep_spares hcpu h)
    obtain hk | ⟨-, -, rfl⟩ | ⟨-, he⟩ := agentStep_cases hcpu h
    · exact .inl ⟨ht, hk.mainPos, hk.prog⟩
    · exact .inl ⟨ht, rfl, rfl⟩
    · exact .inl ⟨ht, by rw [he]; rfl, by rw [he]; rfl⟩

/-- Inside an operation after a step of MAIN, MAIN was running it before, and the step was one of its. -/
theorem itemStep_inside {m : Item} {rest : List Item} {i : Instr} (ha : s.isrActive = false) (hp : s.prog = m :: rest)
    (h : itemStep m s = .next t) (hpos : t.mainPos ≠ .start) (hi : t.MainRuns i) :
    s.MainRuns i ∧ exec i s = .next t := by
  obtain ⟨u, hu, ⟨q, rfl⟩ | ⟨r, rfl⟩⟩ := itemStep_changes h
  · obtain ⟨w, a, rest', hprog, hd⟩ := hi
    obtain ⟨hup, -⟩ := hu.sameFlow (le_refl 2)
    rw [State.goto_prog, hup, hp] at hprog
    cases hprog
    exact ⟨⟨w, a, rest, hp, hd⟩, by rwa [itemStep_op s hd] at h⟩
  · obtain ⟨-, -, -, hact, -⟩ := hu.sameFlow (le_refl 2)
    rw [State.ret_main u r (hact.trans ha)] at hpos
    exact absurd rfl hpos

theorem State.MainRuns.of_prog {i : Instr} (h : t.MainRuns i) (hp : t.prog = s.prog) : s.MainRuns i := by
  rwa [State.MainRuns, ← hp]

theorem readStep_present {i : Instr} {r : Reg} {k : Word → State → Out} (h : readStep i r s k = .next t) :
    r.check s.cfg = .present := by
  obtain ⟨x, hx, -⟩ := orFault_next h
  exact (busRead_ok hx).1

/-! ### POLL_AND_TRANSFER (R74) -/

/-- The pulse comes next only where the poll has read READY = 1. -/
theorem poll_reaches_pulse {e : Idx} (ha : s.isrActive = false) (h : exec (.pollAndTransfer e) s = .next t)
    (hpos : t.mainPos = .pulse) : (t.ep e.toNat).ready = true := by
  change execPollAndTransfer e s = .next t at h
  unfold execPollAndTransfer at h
  split at h
  next =>
    obtain ⟨u, hu, hk⟩ := writeStep_next h
    obtain ⟨-, -, -, hact, -⟩ := hu.sameFlow (by decide)
    cases hk
    rw [State.ret_main u _ (hact.trans ha)] at hpos
    cases hpos
  next =>
    have he : e.toNat ≤ 1 := by simpa [Reg.check] using ofRange_present (readStep_present h)
    rw [readStep_streamCtrl he, streamCtrlWord_ready] at h
    split at h
    next hr => cases h; exact hr
    next =>
      cases h
      rw [goto_main _ (by exact ha)] at hpos
      cases hpos

theorem step_pulseReady (h : step s = .next t) (hs : s.PulseReady) : t.PulseReady := by
  intro hpos e hi
  obtain ⟨hsp, hmain, hprog⟩ | ⟨ha, m, rest, hp, hm⟩ := step_main_cases h
  · exact hsp.ep _ (hs (hmain ▸ hpos) e (hi.of_prog hprog))
  · exact poll_reaches_pulse ha (itemStep_inside ha hp hm (by simp [hpos]) hi).2 hpos

/-! ### BEGIN (R101) -/

/-- What the validation of a BEGIN of the descriptor at `r` has established. -/
def State.BeginReady (s : State) (r : Nat) : Prop :=
  ∃ x, s.descs[r]? = some x ∧ x.ch < s.cfg.numCh ∧ (s.chan x.ch).Ready

theorem State.BeginReady.chan {r : Nat} {x : Desc} (h : s.BeginReady r) (hx : s.descs[r]? = some x) :
    x.ch < s.cfg.numCh ∧ (s.chan x.ch).Ready := by
  obtain ⟨y, hy, hc⟩ := h
  rw [hx] at hy
  cases hy
  exact hc

/-- A control word that neither starts a channel nor takes its readiness back. -/
def SafeCtrl (v : Word) : Prop := v.getLsbD 6 = true ∧ v.getLsbD 2 = false

/-- The control word the position carries, if any, is such a word. -/
def BeginPos.CarriesSafe (p : BeginPos) : Prop := ∀ v, p.ctrl? = some v → SafeCtrl v

/-- Where MAIN stands inside a BEGIN past its validation, what the validation established holds. -/
def State.BeginPromise (s : State) : Prop :=
  ∀ r p, s.mainPos = .begun r p → p.validated = true → s.BeginReady r ∧ p.CarriesSafe

theorem beginHolds_iff : s.BeginHolds ↔ ((∃ z d, s.MainRuns (.beginXfer z d)) → s.BeginPromise) := by
  constructor
  · rintro h ⟨z, d, hi⟩ r p hpos hp
    obtain ⟨x, hx, hc, hidle, hrdy, hv⟩ := h r p d z hpos hp hi
    exact ⟨⟨x, hx, hc, hidle, hrdy⟩, hv⟩
  · intro h r p d z hpos hp hi
    obtain ⟨⟨x, hx, hc, hidle, hrdy⟩, hv⟩ := h ⟨z, d, hi⟩ r p hpos hp
    exact ⟨x, hx, hc, hidle, hrdy, hv⟩

theorem State.Spares.beginReady {r : Nat} (h : s.Spares t) (hs : s.BeginReady r) : t.BeginReady r := by
  obtain ⟨x, hx, hc, hr⟩ := hs
  obtain ⟨y, hy, hxy⟩ := h.desc r x hx
  exact ⟨y, hy, by rwa [hxy, h.cfg], by rw [hxy]; exact h.chan _ hr⟩

theorem State.Spares.beginPromise (h : s.Spares t) (hpos : t.mainPos = s.mainPos) (hs : s.BeginPromise) :
    t.BeginPromise := by
  intro r p hp hv
  obtain ⟨hr, hc⟩ := hs r p (hpos ▸ hp) hv
  exact ⟨h.beginReady hr, hc⟩

/-- MAIN moves inside BEGIN. -/
theorem goto_beginPromise {r : Nat} {q : BeginPos} (ha : s.isrActive = false)
    (h : q.validated = true → s.BeginReady r ∧ q.CarriesSafe) : (s.goto (.begun r q)).BeginPromise := by
  intro r' p hpos hp
  rw [goto_main _ ha] at hpos
  cases hpos
  obtain ⟨hr, hc⟩ := h hp
  exact ⟨(goto_spares s _).beginReady hr, hc⟩

/-- A move to a position that carries no control word. -/
theorem goto_beginPromise_plain {r : Nat} {q : BeginPos} (ha : s.isrActive = false) (hr : s.BeginReady r)
    (hq : q.ctrl? = none) : (s.goto (.begun r q)).BeginPromise :=
  goto_beginPromise ha fun _ => ⟨hr, fun v hv => by rw [hq] at hv; cases hv⟩

theorem ret_beginPromise (ha : s.isrActive = false) (res : Result) : (s.ret res).BeginPromise := by
  rw [State.ret_main s res ha]; nofun

/-- R26: a channel with RDY = 1 is not Busy. -/
theorem Chan.Lawful.ready {c : Chan} (h : c.Lawful) (hr : c.rdy = true) : c.Ready := by
  refine ⟨phase_idle_of_not_busy fun hb => ?_, hr⟩
  obtain ⟨-, -, hrdy, -⟩ := h.1 hb
  rw [hr] at hrdy
  cases hrdy

theorem ctrlWord_rdy (s : State) (ch : Nat) : (s.ctrlWord ch).getLsbD 6 = (s.chan ch).rdy :=
  chCtrlWord_rdy _ _ _ _ _ _ _

/-- The control word of a ready channel is safe to write back. -/
theorem ctrlWord_safe {ch : Nat} (h : (s.chan ch).Lawful) (hr : (s.chan ch).Ready) : SafeCtrl (s.ctrlWord ch) := by
  exact ⟨(ctrlWord_rdy s ch).trans hr.2, (chCtrlWord_tsfr _ _ _ _ _ _ _).trans (h.2 hr.1)⟩

theorem beginIrqMask_safe {v : Word} (m : XferMode) (h : SafeCtrl v) : SafeCtrl (v ||| beginIrqMask m) := by
  cases m <;> simpa [SafeCtrl, beginIrqMask, mIrqDone, mIrqLast] using h

theorem assignMode_safe {v : Word} (b : Bool) (h : SafeCtrl v) : SafeCtrl (assignMode b v) := by
  cases b <;> simpa [SafeCtrl, assignMode, mMode] using h

/-- A safe write of a ready channel leaves it ready. -/
theorem ctrlWritten_ready {c : Chan} {v : Word} (hc : c.Ready) (hv : SafeCtrl v) : (c.ctrlWritten v).Ready := by
  rw [ctrlWritten_idle hc.1]
  exact ⟨hc.1, by simp [hc.2, hv.1]⟩

theorem sawRead_spares (s : State) (r : Reg) (v : Word) : s.Spares (s.sawRead r v) := .of_eq rfl rfl rfl rfl rfl

theorem sawWrite_spares (s : State) (r : Reg) (v : Word) : s.Spares (s.sawWrite r v) := .of_eq rfl rfl rfl rfl rfl

/-- A recorded write that leaves a ready channel ready. -/
theorem chanWrite_beginReady {r ch : Nat} {reg : Reg} {v : Word} {c : Chan} (h : (s.chan ch).Ready → c.Ready)
    (hs : s.BeginReady r) : ((s.sawWrite reg v).setChan ch c).BeginReady r :=
  ((sawWrite_spares s reg v).trans (setChan_spares h)).beginReady hs

/-- The validation read answers RDY = 1 of an idle channel only (R26). -/
theorem beginValidated_promise {i : Instr} {r : Nat} {x : Desc} {c : Word} (ha : s.isrActive = false)
    (hr : c.getLsbD 6 = true → s.BeginReady r) (h : beginValidated i r x c s = .next t) : t.BeginPromise := by
  unfold beginValidated at h
  split at h
  next => cases h; exact ret_beginPromise ha _
  next =>
    split at h
    next => cases h; exact ret_beginPromise ha _
    next hrdy =>
      replace hr := hr (by simpa using hrdy)
      split at h
      next => cases h; exact goto_beginPromise_plain ha hr rfl
      next =>
        split at h
        next =>
          split at h
          next => cases h; exact goto_beginPromise_plain ha hr rfl
          next => cases h
        next => cases h; exact ret_beginPromise ha _

/-- The steps of BEGIN past its validation: each keeps the channel ready, and what is written back was read of a ready
channel. -/
theorem beginStep_validated_promise {i : Instr} {r : Nat} {x : Desc} {p : BeginPos} (hinv : s.Inv)
    (ha : s.isrActive = false) (hx : s.descs[r]? = some x) (hval : p.validated = true) (hready : s.BeginReady r)
    (hsafe : p.CarriesSafe) (h : beginStep i r x p s = .next t) : t.BeginPromise := by
  obtain ⟨-, hlaw, -⟩ := hinv
  have ⟨hch, hchan⟩ := hready.chan hx
  cases p <;> dsimp only [beginStep] at h
  case wait | validate => cases hval
  case slot | clearDoneMask | clearLastMask =>
    cases h
    exact goto_beginPromise_plain ha (State.Spares.beginReady (.of_eq rfl rfl rfl rfl rfl) hready) rfl
  case clearDone =>
    cases h
    exact goto_beginPromise_plain (by simpa using ha) ((Change.descDone (l := 0) r false).spares.beginReady hready) rfl
  case gmaskRead =>
    rw [readStep_gmask] at h
    cases h
    exact goto_beginPromise_plain ha ((sawRead_spares s _ _).beginReady hready) rfl
  case gmaskWrite v =>
    rw [writeStep_gmask] at h
    cases h
    refine goto_beginPromise_plain ha (State.Spares.beginReady (.of_eq rfl rfl rfl rfl rfl) hready) ?_
    cases x.fields.mode <;> rfl
  case irqRead | modeRead | goRead =>
    rw [readStep_ctrl hch] at h
    cases h
    refine goto_beginPromise ha fun _ => ⟨(sawRead_spares s _ _).beginReady hready, fun v hv => ?_⟩
    cases hv
    exact ctrlWord_safe (hlaw.chan x.ch) hchan
  case irqWrite v =>
    have hv := beginIrqMask_safe x.fields.mode (hsafe v rfl)
    rw [writeStep_ctrl hch hv.2] at h
    cases h
    refine goto_beginPromise_plain ha (chanWrite_beginReady (fun hc => ctrlWritten_ready hc hv) hready) ?_
    cases x.fields.mode <;> rfl
  case modeWrite v =>
    have hv := assignMode_safe x.fields.ignore (hsafe v rfl)
    rw [writeStep_ctrl hch hv.2] at h
    cases h
    refine goto_beginPromise_plain ha (chanWrite_beginReady (fun hc => ctrlWritten_ready hc hv) hready) ?_
    cases x.fields.ignore <;> rfl
  case base =>
    rw [writeStep_base hch hchan.1] at h
    cases h
    exact goto_beginPromise_plain ha (chanWrite_beginReady (fun hc => hc) hready) rfl
  case len =>
    rw [writeStep_len hch hchan.1] at h
    cases h
    exact goto_beginPromise_plain ha (chanWrite_beginReady (fun hc => hc) hready) rfl
  case goWrite v =>
    obtain ⟨u, hu, hk⟩ := writeStep_next h
    obtain ⟨-, -, -, hact, -⟩ := hu.sameFlow (by decide)
    cases hk
    exact ret_beginPromise (hact.trans ha) _
/-- One step of BEGIN: the validation establishes the promise, and each later step keeps it. -/
theorem beginStep_promise {i : Instr} {r : Nat} {x : Desc} {p : BeginPos} (hinv : s.Inv) (ha : s.isrActive = false)
    (hx : s.descs[r]? = some x) (hp : p.validated = true → s.BeginReady r ∧ p.CarriesSafe)
    (h : beginStep i r x p s = .next t) : t.BeginPromise := by
  by_cases hval : p.validated = true
  · obtain ⟨hready, hsafe⟩ := hp hval
    exact beginStep_validated_promise hinv ha hx hval hready hsafe h
  · obtain ⟨-, hlaw, -, -, ⟨hdesc, -⟩, -⟩ := hinv
    have hch : x.ch < s.cfg.numCh := hdesc x (List.mem_of_getElem? hx)
    cases p with
    | wait =>
      dsimp only [beginStep] at h
      rw [readStep_ctrl hch] at h
      split at h <;> cases h <;> exact goto_beginPromise ha nofun
    | validate =>
      dsimp only [beginStep] at h
      rw [readStep_ctrl hch] at h
      refine beginValidated_promise (s := s.sawRead _ _) ha (fun hr => ?_) h
      have hrdy : (s.chan x.ch).rdy = true := (ctrlWord_rdy s x.ch).symm.trans hr
      exact (sawRead_spares s _ _).beginReady ⟨x, hx, hch, (hlaw.chan x.ch).ready hrdy⟩
    | _ => exact absurd rfl hval

theorem execBegin_promise {z : Idx} {d : Nat} (hinv : s.Inv) (ha : s.isrActive = false) (hs : s.BeginPromise)
    (h : execBegin z d s = .next t) : t.BeginPromise := by
  replace h := (guardZero_next h).2
  split at h
  next r p hpos =>
    obtain ⟨x, hx, hk⟩ := withRef_next h
    exact beginStep_promise hinv ha hx (hs r p (by simpa [State.pos, ha] using hpos)) hk
  next =>
    obtain ⟨r, x, -, -, hk⟩ := withDesc_next h
    obtain ⟨-, rfl⟩ | ⟨-, hk⟩ := guardUsable_next hk
    · exact ret_beginPromise ha _
    · cases (guardIdx_next hk).2
      refine goto_beginPromise ha fun hq => ?_
      cases hm : x.fields.mode <;> rw [hm] at hq <;> cases hq

theorem step_beginHolds (h : step s = .next t) (hinv : s.Inv) (hs : s.BeginHolds) : t.BeginHolds := by
  rw [beginHolds_iff] at hs ⊢
  rintro ⟨z, d, hi⟩
  obtain ⟨hsp, hmain, hprog⟩ | ⟨ha, m, rest, hp, hm⟩ := step_main_cases h
  · exact hsp.beginPromise hmain (hs ⟨z, d, hi.of_prog hprog⟩)
  · have hc := chosen_sameControl s
    intro r p hpos hv
    obtain ⟨hrun, he⟩ := itemStep_inside ha hp hm (by simp [hpos]) hi
    have hpromise := (chosen_spares s).beginPromise hc.mainPos (hs ⟨z, d, hrun.of_prog hc.prog⟩)
    exact execBegin_promise ((Change.chosen (l := 3)).keeps_inv hinv) ha hpromise he r p hpos hv

end Main

/-- Settles O56: MAIN comes to the position that acts through the check alone (`poll_reaches_pulse`,
`beginValidated_promise`), and no other agent's step takes back what the check read (`agentStep_spares`,
`Change.spares`). -/
theorem checkedPositionsKept : Obligations.CheckedPositionsKept := by
  unfold Obligations.CheckedPositionsKept
  exact fun s t h => ⟨step_pulseReady h, step_beginHolds h⟩

end Sys2Proof.Machine
end

section
/-! PROOFS. Ordinary memory (R37, R38, R46, R47, R50): who writes it and where, what a CPU access stores and answers,
which code is refused, and what a burst of an engine leaves. -/

namespace Sys2Proof.Machine

open Sys2Proof

/-! ### Who writes memory (R37, R46, R47) -/

section Writers
variable {s t : State}

/-- No change that an operation makes writes memory. -/
theorem Change.mem_eq {l : Nat} (hl : l ≤ 1) (h : Change l s t) : t.mem = s.mem := by
  cases h with
  | writeByte a b h2 => omega
  | _ => simp [State.chosen_eq]

theorem Runs.mem_eq {l : Nat} (hl : l ≤ 1) (h : Runs l s t) : t.mem = s.mem := by
  obtain ⟨u, hu, ht⟩ := h
  have hsu : u.mem = s.mem := hu.keeps (P := fun u => u.mem = s.mem) (fun _ _ hc hm => (hc.mem_eq hl).trans hm) rfl
  obtain ⟨q, rfl⟩ | ⟨r, rfl⟩ := ht <;> simpa using hsu

theorem exec_mem {i : Instr} (h : exec i s = .next t) : t.mem = s.mem :=
  (exec_changes h).mem_eq (le_refl 1)

theorem plainLoad_mem {a : Word} {w : Width} (h : plainLoad a w s = .next t) : t.mem = s.mem := by
  unfold plainLoad at h
  split at h
  · cases h
    rw [State.ret_mem, State.emit_mem, readBytes_eq]
  · obtain ⟨x, hx, hk⟩ := orFault_next h
    obtain ⟨-, -, -, -, -, -, -, -, -, hmem⟩ := busRead_sameDriver hx
    cases hk
    rw [State.ret_mem, hmem]
  · cases h

/-- A store changes its own bytes of ordinary memory. -/
theorem plainStore_changed {a v : Word} {w : Width} {x : Nat} (h : plainStore a w v s = .next t)
    (hx : Mem.lookup x t.mem ≠ Mem.lookup x s.mem) :
    ∃ k < w.bytes, x = (a + BitVec.ofNat 32 k).toNat ∧ s.cfg.inUnit x = false := by
  unfold plainStore at h
  split at h
  next ht =>
    cases h
    by_contra hn
    refine hx ?_
    rw [State.ret_mem, State.emit_mem]
    refine writeBytes_other _ s a v x fun k hk he => hn ⟨k, hk, he, ?_⟩
    rw [he]
    exact target_memory.1 ht k hk
  next =>
    obtain ⟨u, hu, hk⟩ := orFault_next h
    obtain ⟨-, -, -, -, -, -, -, -, -, hmem⟩ := busWrite_sameDriver hu
    cases hk
    rw [State.ret_mem, hmem] at hx
    exact absurd rfl hx
  next => cases h

theorem plainRunCode_mem {a : Word} {n : Nat} (h : plainRunCode a n s = .next t) : t.mem = s.mem := by
  unfold plainRunCode at h
  split at h <;> cases h
  exact State.ret_mem _ _

/-- Of MAIN's items only a store writes memory. -/
theorem itemStep_changed {m : Item} {x : Nat} (h : itemStep m s = .next t)
    (hx : Mem.lookup x t.mem ≠ Mem.lookup x s.mem) :
    ∃ a w v k, m = .store a w v ∧ k < w.bytes ∧ x = (a + BitVec.ofNat 32 k).toNat ∧ s.cfg.inUnit x = false := by
  cases m with
  | op w a =>
    dsimp only [itemStep] at h
    split at h
    · rw [exec_mem h] at hx; exact absurd rfl hx
    · cases h
  | load a w => rw [plainLoad_mem h] at hx; exact absurd rfl hx
  | store a w v =>
    obtain ⟨k, hk, he, hu⟩ := plainStore_changed h hx
    exact ⟨a, w, v, k, rfl, hk, he, hu⟩
  | runCode a n => rw [plainRunCode_mem h] at hx; exact absurd rfl hx

theorem cpuStep_changed {x : Nat} (h : cpuStep s = .next t) (hx : Mem.lookup x t.mem ≠ Mem.lookup x s.mem) :
    s.isrActive = false ∧ ∃ a w v rest k, s.prog = .store a w v :: rest ∧ k < w.bytes ∧
      x = (a + BitVec.ofNat 32 k).toNat ∧ s.cfg.inUnit x = false := by
  cases ha : s.isrActive with
  | true =>
    rw [cpuStep_isr ha] at h
    rw [exec_mem h] at hx
    exact absurd rfl hx
  | false =>
    cases hp : s.prog with
    | nil =>
      rw [cpuStep_ended ha hp] at h
      cases h
      exact absurd rfl hx
    | cons m rest =>
      rw [cpuStep_item ha hp] at h
      obtain ⟨a, w, v, k, rfl, hk, he, hu⟩ := itemStep_changed h hx
      exact ⟨rfl, a, w, v, rest, k, rfl, hk, he, hu⟩

/-- An engine's byte access writes at the transfer's next address, and only from the peripheral (R94). -/
theorem moveByte_changed {ch x : Nat} (hx : Mem.lookup x (moveByte ch s).mem ≠ Mem.lookup x s.mem) :
    s.cfg.chDir.getLsbD ch = true ∧ x = (s.chan ch).nextAddr.toNat := by
  unfold moveByte at hx
  dsimp only at hx
  split at hx
  next hd =>
    refine ⟨hd, ?_⟩
    by_contra hne
    exact hx (Mem.lookup_insert_other _ _ hne)
  next =>
    rw [State.emit_mem, State.readByte_mem] at hx
    exact absurd rfl hx

theorem eProgress_changed {ch x : Nat} (h : eProgress ch s = .next t) (hx : Mem.lookup x t.mem ≠ Mem.lookup x s.mem) :
    ch < s.cfg.numCh ∧ s.cfg.chDir.getLsbD ch = true ∧ (s.chan ch).phase = .busy ∧ (s.chan ch).mode = false ∧
      x = (s.chan ch).nextAddr.toNat ∧ s.cfg.inUnit x = false := by
  unfold eProgress at h
  dsimp only at h
  split at h
  next hc =>
    obtain ⟨hch, hbusy, -⟩ := hc
    split at h
    next => cases h; exact absurd rfl hx
    next hmode =>
      split at h
      next => cases h
      next hu =>
        cases h
        obtain ⟨hdir, rfl⟩ := moveByte_changed hx
        exact ⟨hch, hdir, hbusy, by simpa using hmode, rfl, by simpa using hu⟩
  next => cases h; exact absurd rfl hx

/-- The other agents write no memory. -/
theorem agentStep_mem {c : Choice} (hcpu : c ≠ .cpu) (hdma : ∀ ch, c ≠ .eProgress ch) (h : stepOf c s = .next t) :
    t.mem = s.mem := by
  cases c with
  | cpu => exact absurd rfl hcpu
  | eProgress ch => exact absurd rfl (hdma ch)
  | envCpuIe on => cases h; rfl
  | _ => obtain ⟨-, rfl⟩ | rfl := ite_next h <;> rfl

/-- Where a step writes memory: an engine its next byte, MAIN the bytes of a store. -/
theorem stepOf_changed {c : Choice} {x : Nat} (h : stepOf c s = .next t)
    (hx : Mem.lookup x t.mem ≠ Mem.lookup x s.mem) :
    (∃ ch, c = .eProgress ch ∧ ch < s.cfg.numCh ∧ s.cfg.chDir.getLsbD ch = true ∧ (s.chan ch).phase = .busy ∧
      (s.chan ch).mode = false ∧ x = (s.chan ch).nextAddr.toNat ∧ s.cfg.inUnit x = false) ∨
    (c = .cpu ∧ s.isrActive = false ∧ ∃ a w v rest k, s.prog = .store a w v :: rest ∧ k < w.bytes ∧
      x = (a + BitVec.ofNat 32 k).toNat ∧ s.cfg.inUnit x = false) := by
  cases c with
  | cpu => exact .inr ⟨rfl, cpuStep_changed h hx⟩
  | eProgress ch => exact .inl ⟨ch, rfl, eProgress_changed h hx⟩
  | _ => rw [agentStep_mem (by nofun) (by nofun) h] at hx; exact absurd rfl hx

end Writers

/-- Settles O57: an operation makes no change that writes memory (`Change.mem_eq`), and of the other steps only an engine's
byte and a CPU store do (`stepOf_changed`). -/
theorem memoryFrame : Obligations.MemoryFrame := by
  unfold Obligations.MemoryFrame
  refine ⟨fun i s t => exec_mem, fun s t x h hx => ?_⟩
  rw [step, s.chosen_eq] at h
  have hwrite := stepOf_changed (x := x) h (by exact hx)
  exact hwrite

/-! ### CPU accesses of ordinary memory (R38, R47) -/

/-- Fewer than 2^32 successive addresses are distinct, also across the end of the address space. -/
theorem Word.add_ofNat_toNat_ne (a : Word) {j k : Nat} (hj : j < 2 ^ 32) (hk : k < 2 ^ 32) (h : j ≠ k) :
    (a + BitVec.ofNat 32 j).toNat ≠ (a + BitVec.ofNat 32 k).toNat := by
  simp only [BitVec.toNat_add, BitVec.toNat_ofNat]
  omega

/-- A multi-byte write leaves byte `k` of the value at the `k`-th address (R38). -/
theorem writeBytes_lookup (n : Nat) (hn : n < 2 ^ 32) : ∀ (s : State) (a v : Word), ∀ k < n,
    Mem.lookup (a + BitVec.ofNat 32 k).toNat (s.writeBytes a v n).mem = some (v.extractLsb' (8 * k) 8) := by
  induction n with
  | zero => intro s a v k hk; omega
  | succ n ih =>
    intro s a v k hk
    rw [State.writeBytes]
    cases k with
    | zero =>
      rw [writeBytes_other n _ _ _ _ fun j hj => ?_]
      · simp [Mem.lookup_insert_same, BitVec.setWidth_eq_extractLsb']
      · rw [Word.add_ofNat_succ]
        exact Word.add_ofNat_toNat_ne a (by omega) (by omega) (by omega)
    | succ k =>
      rw [← Word.add_ofNat_succ, ih (by omega) _ _ _ k (by omega)]
      congr 1
      ext i hi
      simp [Nat.mul_add, Nat.add_comm, Nat.add_left_comm]

theorem readByte_written {s : State} {a : Word} {b : Byte} (h : Mem.lookup a.toNat s.mem = some b) :
    s.readByte a = (b, s) := by
  rw [State.readByte, h]

/-- A multi-byte read of written bytes answers them, little-endian, and changes nothing (R38). -/
theorem readBytes_written (n : Nat) : ∀ (s : State) (a : Word) (b : Nat → Byte),
    (∀ k < n, Mem.lookup (a + BitVec.ofNat 32 k).toNat s.mem = some (b k)) →
    ∃ x : Word, s.readBytes a n = (x, s) ∧
      ∀ j < 32, x.getLsbD j = (decide (j < 8 * n) && (b (j / 8)).getLsbD (j % 8)) := by
  induction n with
  | zero => intro s a b _; exact ⟨0, rfl, fun j _ => by simp⟩
  | succ n ih =>
    intro s a b h
    obtain ⟨x, hx, hbits⟩ := ih s (a + 1) (fun k => b (k + 1)) fun k hk => by
      rw [Word.add_ofNat_succ]
      exact h (k + 1) (by omega)
    have h0 : s.readByte a = (b 0, s) := readByte_written (by simpa using h 0 (by omega))
    refine ⟨x <<< 8 ||| (b 0).setWidth 32, by simp only [State.readBytes, h0, hx], fun j hj => ?_⟩
    by_cases hlow : j < 8
    · have hlt : j < 8 * (n + 1) := by omega
      simp [hlow, hj, hlt, Nat.div_eq_of_lt hlow, Nat.mod_eq_of_lt hlow]
    · have hdiv : (j - 8) / 8 + 1 = j / 8 := by omega
      have hmod : (j - 8) % 8 = j % 8 := by omega
      have hlt : j - 8 < 8 * n ↔ j < 8 * (n + 1) := by omega
      have hhigh : (b 0).getLsbD j = false := BitVec.getLsbD_of_ge _ _ (by omega)
      simp only [BitVec.getLsbD_or, BitVec.getLsbD_shiftLeft, BitVec.getLsbD_setWidth, hbits (j - 8) (by omega), hdiv,
        hmod, hlt, hhigh, hlow, hj]
      simp

section Plain
variable {s : State} {a v : Word} {w : Width}

theorem Width.bytes_le (w : Width) : w.bytes ≤ 4 := by
  cases w <;> decide

theorem plainStore_memory (h : ∀ k < w.bytes, s.cfg.inUnit (a + BitVec.ofNat 32 k).toNat = false) :
    plainStore a w v s = .next
      (({ s with mem := (s.writeBytes a v w.bytes).mem }.emit (.bus s.cur true a w.bytes v)).ret .unit) := by
  rw [plainStore, target_memory.2 h]
  dsimp only
  rw [← writeBytes_eq]
  rfl

theorem plainLoad_memory {b : Nat → Byte} (h : ∀ k < w.bytes, s.cfg.inUnit (a + BitVec.ofNat 32 k).toNat = false)
    (hb : ∀ k < w.bytes, Mem.lookup (a + BitVec.ofNat 32 k).toNat s.mem = some (b k)) :
    ∃ x : Word, (∀ j < 32, x.getLsbD j = (decide (j < 8 * w.bytes) && (b (j / 8)).getLsbD (j % 8))) ∧
      plainLoad a w s = .next ((s.emit (.bus s.cur false a w.bytes x)).ret (.word x)) := by
  obtain ⟨x, hx, hbits⟩ := readBytes_written w.bytes s a b hb
  refine ⟨x, hbits, ?_⟩
  rw [plainLoad, target_memory.2 h]
  simp only [hx, done]

/-- Byte `k` of a word whose bits are those of the bytes `b`. -/
theorem extract_byte {x : Word} {n k : Nat} {b : Nat → Byte} (hn : n ≤ 4) (hk : k < n)
    (h : ∀ j < 32, x.getLsbD j = (decide (j < 8 * n) && (b (j / 8)).getLsbD (j % 8))) :
    x.extractLsb' (8 * k) 8 = b k := by
  refine BitVec.eq_of_getLsbD_eq fun i hi => ?_
  have hdiv : (8 * k + i) / 8 = k := by omega
  have hmod : (8 * k + i) % 8 = i := by omega
  have hlt : 8 * k + i < 8 * n := by omega
  rw [BitVec.getLsbD_extractLsb', h _ (by omega), hdiv, hmod]
  simp [hi, hlt]

/-! ### Executing code (R50) -/

/-- Events that do not write the byte decide nothing. -/
theorem dmaWrote_append {x : Word} {later l : List Event} (h : ∀ e ∈ later, eventWrites x e = false) :
    dmaWrote x (later ++ l) = dmaWrote x l := by
  induction later with
  | nil => rfl
  | cons e later ih =>
    rw [List.cons_append, dmaWrote_cons_of_not_writes (h e List.mem_cons_self)]
    exact ih fun e he => h e (List.mem_cons_of_mem _ he)

theorem not_engineWroteLast_of_store {x : Word} {l : List Event} (h : StoreWroteLast x l) : ¬ EngineWroteLast x l := by
  obtain ⟨later, g, b, n, u, earlier, rfl, hin, hlater⟩ := h
  rw [← dmaWrote_iff, dmaWrote_append hlater]
  rw [dmaWrote, Bool.true_and, decide_eq_true hin]
  exact Bool.false_ne_true

theorem not_engineWroteLast_of_unwritten {x : Word} {l : List Event} (h : ∀ e ∈ l, eventWrites x e = false) :
    ¬ EngineWroteLast x l := by
  have hl := dmaWrote_append (l := []) h
  rw [List.append_nil] at hl
  rw [← dmaWrote_iff, hl]
  exact Bool.false_ne_true

theorem plainRunCode_refused {n k : Nat} (hk : k < n) (h : EngineWroteLast (a + BitVec.ofNat 32 k) s.hist)
    (hfirst : ∀ j < k, ¬ EngineWroteLast (a + BitVec.ofNat 32 j) s.hist) :
    plainRunCode a n s = .refused (.execDmaData (a + BitVec.ofNat 32 k)) := by
  have hfind : (List.range n).find? (fun k => dmaWrote (a + BitVec.ofNat 32 k) s.hist) = some k := by
    rw [List.find?_range_eq_some]
    exact ⟨(dmaWrote_iff _ _).2 h, List.mem_range.2 hk, fun j hj => by simpa [← dmaWrote_iff] using hfirst j hj⟩
  simp only [plainRunCode, hfind]

theorem plainRunCode_runs {n : Nat} (h : ∀ k < n, ¬ EngineWroteLast (a + BitVec.ofNat 32 k) s.hist) :
    plainRunCode a n s = .next (s.ret .unit) := by
  have hfind : (List.range n).find? (fun k => dmaWrote (a + BitVec.ofNat 32 k) s.hist) = none := by
    rw [List.find?_range_eq_none]
    exact fun k hk => by simpa [← dmaWrote_iff] using h k hk
  simp only [plainRunCode, hfind, done]

end Plain

/-- Settles O60: the bytes of an access are those of its value, and the search of R50 looks for the first byte an engine
wrote last. -/
theorem plainMemoryAccess : Obligations.PlainMemoryAccess := by
  unfold Obligations.PlainMemoryAccess
  intro s a v w
  have hw := w.bytes_le
  refine ⟨fun hu => ⟨⟨_, plainStore_memory hu, writeBytes_lookup _ (by omega) s a v, writeBytes_other _ s a v⟩,
    fun b hb => ?_⟩, fun n => ⟨fun k hk => plainRunCode_refused hk, plainRunCode_runs, fun h => plainRunCode_runs ?_⟩⟩
  · obtain ⟨x, hbits, hload⟩ := plainLoad_memory hu hb
    refine ⟨x, fun k hk => extract_byte hw hk hbits, fun k hk hge => ?_, hload⟩
    rw [hbits k hk, decide_eq_false (by omega), Bool.false_and]
  · exact fun k hk => (h k hk).elim not_engineWroteLast_of_store not_engineWroteLast_of_unwritten

/-! ### A burst of an engine (R46, R94) -/

/-- The state after an engine has stored byte `b` of the transfer of channel `ch` (R94). -/
def State.stored (s : State) (ch : Nat) (b : Byte) : State :=
  ((s.drew.writeByte (s.chan ch).nextAddr b).emit (.dmaWrite ch (s.chan ch).nextAddr b)).countByte ch

/-- The address of the `k`-th byte still to move, modulo 2^32. -/
def Chan.addrAt (c : Chan) (k : Nat) : Word := c.base + c.doneLen + BitVec.ofNat 32 k

/-- `b` after a first byte. -/
def consByte (b₀ : Byte) (b : Nat → Byte) : Nat → Byte
  | 0 => b₀
  | k + 1 => b k

section Burst
variable {s t : State} {ch n : Nat}

theorem eProgress_stores (hch : ch < s.cfg.numCh) (hbusy : (s.chan ch).phase = .busy) (hmode : (s.chan ch).mode = false)
    (hdir : s.cfg.chDir.getLsbD ch = true) (hlen : (s.chan ch).doneLen < (s.chan ch).len)
    (hunit : s.cfg.inUnit (s.chan ch).nextAddr.toNat = false) :
    ∃ b, stepOf (.eProgress ch) s = .next (s.stored ch b) := by
  refine ⟨Config.dmaOut s.hist s.draws ch, ?_⟩
  have hmove : moveByte ch s = (s.drew.writeByte (s.chan ch).nextAddr (Config.dmaOut s.hist s.draws ch)).emit
      (.dmaWrite ch (s.chan ch).nextAddr (Config.dmaOut s.hist s.draws ch)) := if_pos hdir
  simp only [stepOf, eProgress, hch, hbusy, hlen, hmode, hunit, hmove, State.stored]
  simp

theorem stored_chan (b : Byte) (hl : ch < s.chans.length) :
    (s.stored ch b).chan ch = { (s.chan ch) with doneLen := (s.chan ch).doneLen + 1 } := by
  rw [State.stored, State.countByte, setChan_chan, if_pos ⟨rfl, hl⟩]
  rfl

theorem stored_chan_other (b : Byte) {k : Nat} (hk : k ≠ ch) : (s.stored ch b).chan k = s.chan k := by
  rw [State.stored, State.countByte, setChan_chan, if_neg fun h => hk h.1.symm]
  rfl

theorem stored_addrAt (b : Byte) (hl : ch < s.chans.length) (k : Nat) :
    ((s.stored ch b).chan ch).addrAt k = (s.chan ch).addrAt (k + 1) := by
  rw [stored_chan b hl, Chan.addrAt, Chan.addrAt, ← Word.add_ofNat_succ, ← BitVec.add_assoc (s.chan ch).base]

theorem Chan.addrAt_zero (c : Chan) : c.addrAt 0 = c.nextAddr := BitVec.add_zero _

theorem stored_hist (b : Byte) : (s.stored ch b).hist = .dmaWrite ch ((s.chan ch).addrAt 0) b :: s.hist := by
  rw [Chan.addrAt_zero]; rfl

theorem stored_lookup_same (b : Byte) : Mem.lookup ((s.chan ch).addrAt 0).toNat (s.stored ch b).mem = some b := by
  rw [Chan.addrAt_zero]
  exact Mem.lookup_insert_same _ _ _

theorem stored_lookup_other {b : Byte} {x : Nat} (hx : x ≠ ((s.chan ch).addrAt 0).toNat) :
    Mem.lookup x (s.stored ch b).mem = Mem.lookup x s.mem := by
  rw [Chan.addrAt_zero] at hx
  exact Mem.lookup_insert_other _ _ hx

/-- What `n` stored bytes `b` of the transfer of channel `ch` make of `s`. -/
structure State.Burst (s : State) (ch n : Nat) (b : Nat → Byte) (t : State) : Prop where
  chan : t.chan ch = { (s.chan ch) with doneLen := (s.chan ch).doneLen + BitVec.ofNat 32 n }
  others : ∀ k, k ≠ ch → t.chan k = s.chan k
  hist : t.hist = ((List.range n).map fun k => Event.dmaWrite ch ((s.chan ch).addrAt k) (b k)).reverse ++ s.hist
  written : ∀ k < n, Mem.lookup ((s.chan ch).addrAt k).toNat t.mem = some (b k)
  frame : ∀ x, (∀ k < n, x ≠ ((s.chan ch).addrAt k).toNat) → Mem.lookup x t.mem = Mem.lookup x s.mem
  rest : t.mgr = s.mgr ∧ t.descs = s.descs ∧ t.srcs = s.srcs ∧ t.gmask = s.gmask

theorem burst_zero (b : Nat → Byte) : s.Burst ch 0 b s where
  chan := by simp
  others _ _ := rfl
  hist := rfl
  written _ hk := by omega
  frame _ _ := rfl
  rest := ⟨rfl, rfl, rfl, rfl⟩

/-- One byte, then a burst that does not come round to it. -/
theorem State.Burst.cons {b₀ : Byte} {b : Nat → Byte} (hl : ch < s.chans.length) (hn : n + 1 < 2 ^ 32)
    (h : (s.stored ch b₀).Burst ch n b t) : s.Burst ch (n + 1) (consByte b₀ b) t where
  chan := by
    rw [h.chan, stored_chan b₀ hl]
    simp only [Word.add_ofNat_succ]
  others k hk := (h.others k hk).trans (stored_chan_other b₀ hk)
  hist := by
    rw [h.hist, stored_hist, List.range_succ_eq_map]
    simp [stored_addrAt b₀ hl, consByte, Function.comp_def]
  written k hk := by
    cases k with
    | zero =>
      rw [h.frame _ fun j hj => ?_]
      · exact stored_lookup_same b₀
      · rw [stored_addrAt b₀ hl]
        exact Word.add_ofNat_toNat_ne _ (by omega) (by omega) (by omega)
    | succ k =>
      rw [← stored_addrAt b₀ hl]
      exact h.written k (by omega)
  frame x hx := by
    rw [h.frame x fun k hk => by rw [stored_addrAt b₀ hl]; exact hx (k + 1) (by omega)]
    exact stored_lookup_other (hx 0 (by omega))
  rest := h.rest

/-- `n` engine steps of a from-peripheral store transfer with `n` bytes left are such a burst. -/
theorem runChoices_burst (n : Nat) : ∀ s : State, ch < s.cfg.numCh → ch < s.chans.length →
    (s.chan ch).phase = .busy → (s.chan ch).mode = false → s.cfg.chDir.getLsbD ch = true →
    (s.chan ch).doneLen.toNat + n ≤ (s.chan ch).len.toNat →
    (∀ k < n, s.cfg.inUnit ((s.chan ch).addrAt k).toNat = false) →
    ∃ t b, runChoices (List.replicate n (.eProgress ch)) s = .next t ∧ s.Burst ch n b t := by
  induction n with
  | zero => intro s _ _ _ _ _ _ _; exact ⟨s, fun _ => 0, rfl, burst_zero _⟩
  | succ n ih =>
    intro s hch hl hbusy hmode hdir hlen hunit
    have hlt := (s.chan ch).len.isLt
    obtain ⟨b₀, hstep⟩ := eProgress_stores hch hbusy hmode hdir (BitVec.lt_def.2 (by omega))
      (by rw [← Chan.addrAt_zero]; exact hunit 0 (by omega))
    have hchan := stored_chan b₀ hl
    have hcount : ((s.chan ch).doneLen + 1).toNat = (s.chan ch).doneLen.toNat + 1 := by bv_omega
    obtain ⟨t, b, hrun, hburst⟩ := ih (s.stored ch b₀) hch (by simpa [State.stored, State.countByte] using hl)
      (by rw [hchan]; exact hbusy) (by rw [hchan]; exact hmode) hdir
      (by rw [hchan]; dsimp only; omega)
      (fun k hk => by rw [stored_addrAt b₀ hl]; exact hunit (k + 1) (by omega))
    refine ⟨t, consByte b₀ b, ?_, hburst.cons hl (by omega)⟩
    rw [List.replicate_succ, runChoices, hstep]
    exact hrun

end Burst

/-- Settles O22, by induction on the number of bytes (`runChoices_burst`). -/
theorem burstWritesBufferInOrder : Obligations.BurstWritesBufferInOrder := by
  unfold Obligations.BurstWritesBufferInOrder
  rintro n s ch c hch hl rfl hbusy hmode hdir hlen hunit
  obtain ⟨t, b, hrun, h⟩ := runChoices_burst n s hch hl hbusy hmode hdir hlen hunit
  exact ⟨t, b, hrun, h.chan, h.others, h.hist, h.written, h.frame, h.rest⟩

end Sys2Proof.Machine
end

section
/-! PROOFS. The operation word (R57 to R60): what a word built from an op code and an index decodes to, and what a word
that decodes says of its two fields. The table's rows are the cases of these two facts; the obligations follow. -/

namespace Sys2Proof.Machine

open Sys2Proof

/-! ### From an operation to its word and back (R57, R58) -/

/-- The decoder reads back the two fields a word was built from. -/
theorem decode_opWord (op : BitVec 8) (i : Idx) (a : Args) :
    decode (opWord op i) a = decodeOp (opWord op i) i a op.toNat := by
  rw [decode, opField_opWord, idxField_opWord]

/-- Settles O1: each row of the table puts its op code and index in the word, which the decoder reads back
(`decode_opWord`), and the operands it has in the arguments. -/
theorem decodeEncodeRoundTrip : Obligations.DecodeEncodeRoundTrip := by
  unfold Obligations.DecodeEncodeRoundTrip
  intro i
  cases i <;> exact decode_opWord _ _ _

/-! ### From a word to its operation, or to its refusal (R59, R60) -/

section Decoder
variable {w : OpWord} {i : Idx} {a : Args} {n : Nat} {x : Instr}

/-- An op code that stands for an operation is listed; the operation's word has that op code and the index, which is the
operation's own. -/
theorem decodeOp_ok (h : decodeOp w i a n = .ok x) :
    n ∈ opCodes ∧ encode x = opWord (BitVec.ofNat 8 n) i ∧ x.idx = i := by
  unfold decodeOp at h
  split at h <;> cases h <;> exact ⟨by decide, rfl, rfl⟩

/-- Whatever the index and the arguments, each op code of R60 has its row. -/
theorem decodeOp_listed (h : n ∈ opCodes) : ∃ x, decodeOp w i a n = .ok x := by
  have hall : opCodes.all (fun m => (decodeOp w i a m).isOk) = true := rfl
  have hok := List.all_eq_true.1 hall n h
  cases hd : decodeOp w i a n with
  | ok x => exact ⟨x, rfl⟩
  | error e => rw [hd] at hok; cases hok

theorem decodeOp_error {e : DecodeError} (h : decodeOp w i a n = .error e) : e = .unknownOp w := by
  unfold decodeOp at h
  split at h <;> cases h
  rfl

/-- A listed word decodes, and the operation's word is the word itself (R57: a word is its two fields). -/
theorem decode_listed (h : (opField w).toNat ∈ opCodes) :
    ∃ x, decode w a = .ok x ∧ encode x = w ∧ x.idx = idxField w := by
  obtain ⟨x, hd⟩ := decodeOp_listed (w := w) (i := idxField w) (a := a) h
  obtain ⟨-, henc, hidx⟩ := decodeOp_ok hd
  rw [BitVec.ofNat_toNat, BitVec.setWidth_eq, opWord_fields] at henc
  exact ⟨x, hd, henc, hidx⟩

theorem decode_unlisted (h : (opField w).toNat ∉ opCodes) : decode w a = .error (.unknownOp w) := by
  cases hd : decodeOp w (idxField w) a (opField w).toNat with
  | ok x => exact absurd (decodeOp_ok hd).1 h
  | error e => rw [decode, hd, decodeOp_error hd]

end Decoder

theorem itemStep_unknownOp {w : OpWord} {a : Args} (s : State) (h : decode w a = .error (.unknownOp w)) :
    itemStep (.op w a) s = .refused (.unknownOp w) := by
  simp [itemStep, h]

/-- The step that fetches an item MAIN is at runs it, from the state in which the choice has been made (R44). -/
theorem step_item {s : State} {m : Item} {rest : List Item} (hc : s.choice = .cpu) (ha : s.isrActive = false)
    (hp : s.prog = m :: rest) : step s = itemStep m s.chosen := by
  have hact : s.chosen.isrActive = s.isrActive := by rw [s.chosen_eq]
  have hprog : s.chosen.prog = s.prog := by rw [s.chosen_eq]
  rw [step_cpu hc, cpuStep_item (hact.trans ha) (hprog.trans hp)]

/-- Settles O2: a listed op code has its row (`decode_listed`), and every other word is refused where it is decoded and
so where it is fetched (`decode_unlisted`). -/
theorem decoderTotal : Obligations.DecoderTotal := by
  unfold Obligations.DecoderTotal
  intro w a
  refine ⟨decode_listed, fun h => ⟨decode_unlisted h, fun s rest hc ha hp => ?_⟩⟩
  rw [step_item hc ha hp, itemStep_unknownOp _ (decode_unlisted h)]

/-- Settles O3: the words are closed, so the decoder evaluates on them. -/
theorem sampleWordsDecode : Obligations.SampleWordsDecode := by
  unfold Obligations.SampleWordsDecode
  decide

end Sys2Proof.Machine
end

section
/-! PROOFS. Operations that are not well-formed (R59, R60, R62): the fault of each guard and of each access of a
register that does not exist, and which of them an operation meets first, at every step position. -/

namespace Sys2Proof.Machine

open Sys2Proof

/-! ### The guards and accesses that fail -/

section Fails
variable {i : Instr} {s : State} {p : Params}

theorem guardUnit_absent {v : Variant} {k : Out} (h : s.cfg.variant ≠ v) :
    guardUnit i v s k = .fault (.noSuchUnit (s.infoOf i)) :=
  if_neg h

theorem guardZero_badIndex {z : Idx} {k : Out} (h : IdxKind.zero.inRange p z.toNat = false) :
    guardZero i z s k = .fault (.badIndex (s.infoOf i)) := by
  have hz : z ≠ 0 := by
    rintro rfl
    cases h
  exact guardIdx_false (decide_eq_false hz)

theorem ofRange_badIndex {c : Bool} (h : c = false) : RegCheck.ofRange c = .badIndex := by
  rw [h, ofRange_false]

theorem plicCheck_badIndex {c : Bool} (hv : p.variant = .banked) (h : c = false) : p.plicCheck c = .badIndex := by
  rw [Params.plicCheck, hv]
  exact ofRange_badIndex h

variable {r : Reg} {v : Word} {k : Word → State → Out} {k' : State → Out} (h : r.check s.cfg = .badIndex)
include h

theorem busRead_badIndex (w : Who) : busRead w r s = .error (.badIndex w.noAddr) := by
  simp [busRead, h]

theorem busWrite_badIndex (w : Who) : busWrite w r v s = .error (.badIndex w.noAddr) := by
  simp [busWrite, h]

theorem readStep_badIndex : readStep i r s k = .fault (.badIndex (s.infoOf i)) := by
  rw [readStep, busRead_badIndex h]
  rfl

theorem writeStep_badIndex : writeStep i r v s k' = .fault (.badIndex (s.infoOf i)) := by
  rw [writeStep, busWrite_badIndex h]
  rfl

theorem readOp_badIndex : readOp i r s = .fault (.badIndex (s.infoOf i)) := by
  rw [readOp, busRead_badIndex h]
  rfl

theorem writeOp_badIndex : writeOp i r v s = .fault (.badIndex (s.infoOf i)) := by
  rw [writeOp, busWrite_badIndex h]
  rfl

end Fails

/-! ### The unit comes first (R60, log entry 11) -/

section Unit
variable {i : Instr} {v : Variant}

theorem unitPresent_some {p : Params} (hi : i.unit? = some v) : i.unitPresent p = decide (p.variant = v) := by
  rw [Instr.unitPresent, hi]

/-- An operation of one controller variant checks for its unit before anything else. -/
theorem exec_guardUnit (s : State) (hi : i.unit? = some v) : ∃ k, exec i s = guardUnit i v s k := by
  cases i <;> cases hi <;> exact ⟨_, rfl⟩

theorem exec_noSuchUnit {s : State} (h : i.unitPresent s.cfg = false) :
    exec i s = .fault (.noSuchUnit (s.infoOf i)) := by
  cases hi : i.unit? with
  | none => rw [Instr.unitPresent, hi] at h; cases h
  | some v =>
    obtain ⟨k, hk⟩ := exec_guardUnit s hi
    rw [unitPresent_some hi] at h
    rw [hk, guardUnit_absent (of_decide_eq_false h)]

end Unit

/-! ### Then the index (R59, R62) -/

section Index
variable {s : State}

theorem execIsReady_badIndex {e : Idx} (h : IdxKind.endpoint.inRange s.cfg e.toNat = false) :
    execIsReady e s = .fault (.badIndex (s.infoOf (.isReady e))) := by
  unfold execIsReady
  exact readStep_badIndex (ofRange_badIndex h)

/-- Both the poll and the pulse access the control word of the endpoint that does not exist (R74). -/
theorem execPollAndTransfer_badIndex {e : Idx} (h : IdxKind.endpoint.inRange s.cfg e.toNat = false) :
    execPollAndTransfer e s = .fault (.badIndex (s.infoOf (.pollAndTransfer e))) := by
  unfold execPollAndTransfer
  split
  · exact writeStep_badIndex (ofRange_badIndex h)
  · exact readStep_badIndex (ofRange_badIndex h)

/-- The built-in variant has no priorities and checks no source, so an index out of range is the banked variant's
(R131). -/
theorem execIcSetPriority_badIndex {n : Idx} {level : Word} (h : IdxKind.icSetSource.inRange s.cfg n.toNat = false) :
    execIcSetPriority n level s = .fault (.badIndex (s.infoOf (.icSetPriority n level))) := by
  obtain ⟨hv, hn⟩ := Bool.or_eq_false_iff.1 h
  unfold execIcSetPriority
  split
  next hb => exact absurd hb (of_decide_eq_false hv)
  next => exact guardIdx_false hn

/-- An index out of its range faults before anything else, where the unit exists: in the operation's own guard, or in
the check of the register that its first access names. -/
theorem exec_badIndex {i : Instr} (hu : i.unitPresent s.cfg = true) (h : i.idxKind.inRange s.cfg i.idx.toNat = false) :
    exec i s = .fault (.badIndex (s.infoOf i)) := by
  cases i with
  | dispatch n => cases h
  | srdCtrl | srdData | drdCtrl | drdBase | drdLen | drdDonelen | drdIstat =>
    exact readOp_badIndex (ofRange_badIndex h)
  | swrCtrl | swrData | dwrCtrl | dwrBase | dwrLen | dwrDonelen | dwrIstat =>
    exact writeOp_badIndex (ofRange_badIndex h)
  | isReady => exact execIsReady_badIndex h
  | pollAndTransfer => exact execPollAndTransfer_badIndex h
  | prdPrio | prdPend | prdEn =>
    have hv := of_decide_eq_true hu
    exact (guardUnit_present hv).trans (readOp_badIndex (plicCheck_badIndex hv h))
  | pwrPrio | pwrPend | pwrEn =>
    have hv := of_decide_eq_true hu
    exact (guardUnit_present hv).trans (writeOp_badIndex (plicCheck_badIndex hv h))
  | prdThr | pwrThr | prdClaim | pwrClaim | crdMask | cwrMask | crdPend | cwrPend =>
    exact (guardUnit_present (of_decide_eq_true hu)).trans (guardZero_badIndex h)
  | drdChcount | dwrChcount | drdChoff | dwrChoff | drdGmask | dwrGmask | drdGstatus | dwrGstatus | dmaInit | mgrInit |
      beginXfer | completeXfer | cancelXfer | update | icInit | icPriorityCount | irqEntry =>
    exact guardZero_badIndex h
  | descNew | icEnable | icDisable => exact guardIdx_false h
  | icSetPriority => exact execIcSetPriority_badIndex h

end Index

/-- Settles O4: the absent unit by the guard every such operation begins with (`exec_noSuchUnit`), the index by the
check that comes next (`exec_badIndex`). -/
theorem illFormedOperationFaults : Obligations.IllFormedOperationFaults := by
  unfold Obligations.IllFormedOperationFaults
  intro i s
  exact ⟨exec_noSuchUnit, exec_badIndex⟩

end Sys2Proof.Machine
end

section
/-! PROOFS. The stream endpoints (R65, R66, R69, R70, R72 to R74): READY as each small change of a step leaves it, and
the read and the pulse of the control word, which SRD_CTRL, IS_READY, SWR_CTRL and POLL_AND_TRANSFER share. -/

namespace Sys2Proof.Machine

open Sys2Proof

/-! ### What a small change does to READY (R69) -/

/-- The record of an accepted pulse of endpoint `e` that moved the element `v` (R66). -/
def pulseEvent (e : Nat) (v : Word) : Event := if e = 0 then .streamIn v else .streamOut v

section Ready
variable {l e : Nat} {s t : State}

/-- The endpoints of a state in which endpoint `k` was replaced. -/
theorem setEp_ep {k : Nat} (hk : k ≤ 1) (he : e ≤ 1) (s : State) (x : Endpoint) :
    (s.setEp k x).ep e = if k = e then x else s.ep e := by
  obtain rfl | rfl := Nat.le_one_iff_eq_zero_or_eq_one.1 hk <;>
    obtain rfl | rfl := Nat.le_one_iff_eq_zero_or_eq_one.1 he <;> rfl

/-- Replacing an endpoint by one with the same READY moves no READY. -/
theorem setEp_ready_same {k : Nat} (hk : k ≤ 1) (he : e ≤ 1) {x : Endpoint} (hx : x.ready = (s.ep k).ready) :
    ((s.setEp k x).ep e).ready = (s.ep e).ready := by
  rw [setEp_ep hk he]
  split
  next h => rw [hx, h]
  next => rfl

/-- READY of an endpoint stays as it is, or an accepted pulse of it is recorded, or SP_READY raises it. -/
theorem Change.ready_cases (he : e ≤ 1) (h : Change l s t) :
    ((t.ep e).ready = (s.ep e).ready ∧ s.hist <:+ t.hist) ∨
    ((s.ep e).ready = true ∧ ∃ v, t.hist = pulseEvent e v :: s.hist) ∨
    (3 ≤ l ∧ (t.ep e).ready = true ∧ t.hist = s.hist) := by
  cases h with
  | emit ev => exact .inl ⟨rfl, List.suffix_cons ev s.hist⟩
  | pulseIn b hr =>
    obtain rfl | rfl := Nat.le_one_iff_eq_zero_or_eq_one.1 he
    · exact .inr (.inl ⟨hr, _, rfl⟩)
    · exact .inl ⟨rfl, List.suffix_cons _ s.hist⟩
  | pulseOut v b hr =>
    obtain rfl | rfl := Nat.le_one_iff_eq_zero_or_eq_one.1 he
    · exact .inl ⟨rfl, List.suffix_cons _ s.hist⟩
    · exact .inr (.inl ⟨hr, _, rfl⟩)
  | raiseReady k hk _ hl =>
    by_cases hke : k = e
    · exact .inr (.inr ⟨hl, by rw [setEp_ep hk he, if_pos hke], rfl⟩)
    · exact .inl ⟨by rw [setEp_ep hk he, if_neg hke], List.suffix_refl _⟩
  | error k hk => exact .inl ⟨setEp_ready_same hk he rfl, List.suffix_refl _⟩
  | inData v => exact .inl ⟨setEp_ready_same (Nat.zero_le 1) he rfl, List.suffix_refl _⟩
  | descDone | descTransferred | ret => exact .inl (by simp)
  | chosen => rw [s.chosen_eq]; exact .inl ⟨rfl, List.suffix_refl _⟩
  | _ => exact .inl ⟨rfl, List.suffix_refl _⟩

/-- No step of an operation or of another item of MAIN's program raises READY: a pulse needs it raised already. -/
theorem Changes.notReady (he : e ≤ 1) (hl : l ≤ 2) (h : Changes l s t) (hs : (s.ep e).ready = false) :
    (t.ep e).ready = false := by
  refine h.keeps (P := fun u => (u.ep e).ready = false) (fun u v hc hu => ?_) hs
  obtain ⟨hr, -⟩ | ⟨hr, -⟩ | ⟨h3, -⟩ := hc.ready_cases he
  · exact hr.trans hu
  · rw [hu] at hr; cases hr
  · omega

theorem Runs.notReady (he : e ≤ 1) (hl : l ≤ 2) (h : Runs l s t) (hs : (s.ep e).ready = false) :
    (t.ep e).ready = false := by
  obtain ⟨u, hu, ⟨q, rfl⟩ | ⟨r, rfl⟩⟩ := h
  · rw [State.goto_ep]; exact hu.notReady he hl hs
  · rw [State.ret_ep]; exact hu.notReady he hl hs

theorem cpuStep_notReady (he : e ≤ 1) (h : cpuStep s = .next t) (hs : (s.ep e).ready = false) :
    (t.ep e).ready = false := by
  obtain ⟨-, h⟩ | ⟨-, m, h⟩ | ⟨-, rfl⟩ := cpuStep_next h
  · exact (exec_changes h).notReady he (by decide) hs
  · exact (itemStep_changes h).notReady he (le_refl 2) hs
  · exact hs

theorem eProgress_ep {ch : Nat} (h : eProgress ch s = .next t) : t.ep e = s.ep e := by
  unfold eProgress at h
  dsimp only at h
  split at h
  · split at h
    · cases h; rfl
    · split at h
      · cases h
      · cases h; rw [State.countByte, State.setChan_ep, moveByte_eq]; rfl
  · cases h; rfl

/-- Of the agents that are not the CPU, only SP_READY(e) moves READY of endpoint `e`. -/
theorem agentStep_ready {c : Choice} (he : e ≤ 1) (hcpu : c ≠ .cpu) (hc : c ≠ .spReady e) (h : stepOf c s = .next t) :
    (t.ep e).ready = (s.ep e).ready := by
  cases c with
  | cpu => exact absurd rfl hcpu
  | eProgress ch => rw [eProgress_ep h]
  | envCpuIe on => cases h; rfl
  | spReady k =>
    obtain ⟨⟨hk, -⟩, rfl⟩ | rfl := ite_next h
    · have hke : k ≠ e := fun h => hc (congrArg _ h)
      rw [setEp_ep hk he, if_neg hke]
    · rfl
  | spError k =>
    obtain ⟨hk, rfl⟩ | rfl := ite_next h
    · exact setEp_ready_same (s := s.drew) hk he rfl
    · rfl
  | irqEntry | eReady | eLast | eComplete | gwLatch | envLine =>
    obtain ⟨-, rfl⟩ | rfl := ite_next h <;> rfl

theorem step_raises_ready (he : e ≤ 1) (h : step s = .next t) (hs : (s.ep e).ready = false)
    (ht : (t.ep e).ready = true) : s.choice = .spReady e := by
  by_contra hc
  have hs' : (s.chosen.ep e).ready = false := by rw [s.chosen_eq]; exact hs
  have ht' : (t.ep e).ready = false := by
    by_cases hcpu : s.choice = .cpu
    · exact cpuStep_notReady he (step_cpu hcpu ▸ h) hs'
    · exact (agentStep_ready he hcpu hc h).trans hs'
  rw [ht'] at ht
  cases ht

/-- From `s` to `t` the history has grown, and READY of endpoint `e`, where it was 1, is 1 or an accepted pulse of that
endpoint is in the new part. -/
def State.ClearsByPulse (e : Nat) (s t : State) : Prop :=
  ∃ new, t.hist = new ++ s.hist ∧ ((s.ep e).ready = true → (t.ep e).ready = true ∨ ∃ v, pulseEvent e v ∈ new)

theorem State.ClearsByPulse.refl (e : Nat) (s : State) : State.ClearsByPulse e s s := ⟨[], rfl, .inl⟩

theorem State.ClearsByPulse.trans {u : State} (h : State.ClearsByPulse e s t) (k : State.ClearsByPulse e t u) :
    State.ClearsByPulse e s u := by
  obtain ⟨new, hn, h⟩ := h
  obtain ⟨newer, hm, k⟩ := k
  refine ⟨newer ++ new, by rw [hm, hn, List.append_assoc], fun hs => ?_⟩
  obtain ht | ⟨v, hv⟩ := h hs
  · exact (k ht).imp_right fun ⟨v, hv⟩ => ⟨v, List.mem_append_left _ hv⟩
  · exact .inr ⟨v, List.mem_append_right _ hv⟩

theorem Change.clearsByPulse (he : e ≤ 1) (h : Change l s t) : State.ClearsByPulse e s t := by
  obtain ⟨hr, new, hn⟩ | ⟨-, v, hv⟩ | ⟨-, ht, hh⟩ := h.ready_cases he
  · exact ⟨new, hn.symm, fun hs => .inl (hr.trans hs)⟩
  · exact ⟨[pulseEvent e v], hv, fun _ => .inr ⟨v, List.mem_singleton_self _⟩⟩
  · exact ⟨[], hh, fun _ => .inl ht⟩

theorem step_clearsByPulse (he : e ≤ 1) (h : step s = .next t) : State.ClearsByPulse e s t :=
  step_keeps (P := State.ClearsByPulse e s) (fun _ _ hc hu => hu.trans (hc.clearsByPulse he)) h (.refl e s)

end Ready

/-- Settles O10: the raise by cases over the agents, since no change inside an operation raises READY; the clearing by a
chain of small changes, each of which leaves READY at 1 or records the pulse. -/
theorem readyHandshake : Obligations.ReadyHandshake := by
  unfold Obligations.ReadyHandshake
  intro e he
  refine ⟨fun s hr => if_pos ⟨he, hr⟩, fun s hr => if_neg ?_, fun s t h => ⟨step_raises_ready he h, fun hs => ?_⟩⟩
  · simp [hr]
  · obtain ⟨new, hn, hk⟩ := step_clearsByPulse he h
    exact (hk hs).imp_right fun ⟨v, hv⟩ => ⟨new, v, hn, hv⟩

/-! ### The read of the control word (R65, R72, R73) -/

/-- What a read of `STREAM_CTRL(e)` answers: DO_TRANSFER is drawn, DIRECTION is the endpoint's number. -/
def State.streamCtrl (s : State) (e : Nat) : Word :=
  streamCtrlWord (s.ep e).ready s.drawBit (e = 1) (s.ep e).error

theorem readReg_streamCtrl (s : State) (e : Nat) : readReg (.streamCtrl e) s = (s.streamCtrl e, s.drew) := rfl

theorem State.streamCtrl_ready (s : State) (e : Nat) : (s.streamCtrl e).getLsbD 0 = (s.ep e).ready :=
  streamCtrlWord_ready ..

theorem State.streamCtrl_dir (s : State) {e : Idx} (he : e.toNat ≤ 1) :
    (s.streamCtrl e.toNat).getLsbD 2 = e.getLsbD 0 := by
  rw [State.streamCtrl, streamCtrlWord_dir, BitVec.getLsbD]
  obtain h | h := Nat.le_one_iff_eq_zero_or_eq_one.1 he <;> rw [h] <;> rfl

theorem execIsReady_eq {e : Idx} {s : State} (he : e.toNat ≤ 1) :
    execIsReady e s = .next ((s.drew.sawRead (.streamCtrl e.toNat) (s.streamCtrl e.toNat)).ret
      (.bool (s.ep e.toNat).ready)) := by
  rw [execIsReady, readStep_streamCtrl he, streamCtrlWord_ready]; rfl

/-- Settles O6: both reads are the one control word, whose bits are those of its format. -/
theorem streamControlReads : Obligations.StreamControlReads := by
  unfold Obligations.StreamControlReads
  intro s e he
  exact ⟨s.streamCtrl e.toNat, s.streamCtrl_ready _, s.streamCtrl_dir he, streamCtrlWord_error ..,
    fun k _ hk => streamCtrlWord_reserved _ _ _ _ hk, readOp_draw (check_stream he).1 (readReg_streamCtrl s _),
    execIsReady_eq he, s.drawBit, if_pos he⟩

/-! ### The pulse (R66) -/

section Pulse
variable {s : State} {v : Word}

/-- An accepted input pulse hands over bits SW:0 of the slot and leaves READY drawn. -/
theorem inputPulse (hv : v.getLsbD 1 = true) (hr : s.ep0.ready = true) : ∃ (x : Word) (b : Bool),
    (∀ k < 32, x.getLsbD k = (decide (k ≤ s.cfg.sw) && s.ep0.data.getLsbD k)) ∧
    ∀ i, writeReg i (.streamCtrl 0) v (s.sawWrite (.streamCtrl 0) v) =
      .ok (((s.drew.sawWrite (.streamCtrl 0) v).emit (.streamIn x)).setEp 0 { s.ep0 with ready := b }) := by
  refine ⟨s.ep0.data &&& s.cfg.inMask, s.drawBit, fun k hk => ?_, fun i => ?_⟩
  · rw [Params.inMask, and_lowMask_getLsbD _ _ hk, decide_eq_decide.2 Nat.lt_succ_iff]
  · exact streamCtrlWrite_in (s := s.sawWrite (.streamCtrl 0) v) hv hr

/-- An accepted output pulse loads an element of bits SW+CW:0 and leaves READY drawn. -/
theorem outputPulse (hv : v.getLsbD 1 = true) (hr : s.ep1.ready = true) : ∃ (x : Word) (b : Bool),
    (∀ k < 32, s.cfg.sw + s.cfg.cw + 1 ≤ k → x.getLsbD k = false) ∧
    ∀ i, writeReg i (.streamCtrl 1) v (s.sawWrite (.streamCtrl 1) v) =
      .ok (((s.drew.drew.sawWrite (.streamCtrl 1) v).emit (.streamOut x)).setEp 1
        { s.ep1 with data := x, ready := b }) :=
  ⟨_, _, fun _ hk hn => and_lowMask_above _ hk hn,
    fun _ => streamCtrlWrite_out (s := s.sawWrite (.streamCtrl 1) v) hv hr⟩

end Pulse

/-- Settles O7: the operation is one write of the control word, by its write rule. -/
theorem streamControlWrite : Obligations.StreamControlWrite := by
  unfold Obligations.StreamControlWrite
  intro s v
  refine ⟨fun hv hr => ?_, fun hv hr => ?_, fun e he => ⟨fun hv hr => ?_, fun hv => ?_⟩⟩
  · obtain ⟨x, b, hx, hw⟩ := inputPulse hv hr
    exact ⟨x, b, hx, writeOp_ok (check_stream (by decide)).1 (hw _)⟩
  · obtain ⟨x, b, hx, hw⟩ := outputPulse hv hr
    exact ⟨x, b, hx, writeOp_ok (check_stream (by decide)).1 (hw _)⟩
  · exact writeOp_fault (check_stream he).1 (streamCtrlWrite_notReady hv hr)
  · exact writeOp_ok (check_stream he).1 (streamCtrlWrite_noPulse hv)

/-! ### POLL_AND_TRANSFER (R74) -/

/-- Before the pulse the step reads the control word, and goes to the pulse where it reads READY. -/
theorem execPollAndTransfer_poll {e : Idx} {s : State} (he : e.toNat ≤ 1) (hp : s.pos ≠ .pulse) :
    execPollAndTransfer e s = .next ((s.drew.sawRead (.streamCtrl e.toNat) (s.streamCtrl e.toNat)).goto
      (if (s.ep e.toNat).ready then .pulse else .start)) := by
  unfold execPollAndTransfer
  split
  next h => exact absurd h hp
  next =>
    rw [readStep_streamCtrl he, streamCtrlWord_ready]
    split <;> rfl

/-- At the pulse the step writes the constant 2, and the operation returns. -/
theorem execPollAndTransfer_pulse {e : Idx} {s t : State} (he : e.toNat ≤ 1) (hp : s.pos = .pulse)
    (hw : ∀ i, writeReg i (.streamCtrl e.toNat) 2 (s.sawWrite (.streamCtrl e.toNat) 2) = .ok t) :
    execPollAndTransfer e s = .next (t.ret .unit) := by
  simp only [execPollAndTransfer, hp]
  exact writeStep_ok (check_stream he).1 (hw _)

/-- Settles O9: the poll's read and the pulse's write, each at its position. -/
theorem pollAndTransferSteps : Obligations.PollAndTransferSteps := by
  unfold Obligations.PollAndTransferSteps
  intro s
  refine ⟨fun e he hp => ⟨_, s.streamCtrl_ready _, execPollAndTransfer_poll he hp⟩, fun hp hr => ?_, fun hp hr => ?_⟩
  · obtain ⟨x, b, hx, hw⟩ := inputPulse (v := 2) (by decide) hr
    exact ⟨x, b, hx, execPollAndTransfer_pulse (e := 0) (by decide) hp hw⟩
  · obtain ⟨x, b, hx, hw⟩ := outputPulse (v := 2) (by decide) hr
    exact ⟨x, b, hx, execPollAndTransfer_pulse (e := 1) (by decide) hp hw⟩

end Sys2Proof.Machine
end

section
/-! PROOFS. The DMA controller's header (R77 to R82), the writes of read-only registers (R79, R118, R126), and DMA_INIT
(R75) step by step. -/

namespace Sys2Proof.Machine

open Sys2Proof

/-! ### The header's registers (R77 to R82) -/

/-- Settles O11: each operation is one read of a register of the header, which always exists. -/
theorem headerReads : Obligations.HeaderReads := by
  unfold Obligations.HeaderReads
  intro s
  obtain ⟨hcount, hoff, hgmask, -⟩ := check_header s.cfg
  exact ⟨readOp_plain hcount rfl, readOp_plain hoff rfl, readOp_plain hgmask rfl⟩

/-- Settles O12: the word read is the computed status, whose two bits are `doneAny_iff` and `lastAny_iff`. -/
theorem globalStatusRead : Obligations.GlobalStatusRead := by
  unfold Obligations.GlobalStatusRead
  intro s
  obtain ⟨-, -, -, hcheck⟩ := check_header s.cfg
  refine ⟨s.gstatus, readOp_plain hcheck rfl, ?_, ?_, fun k _ hk => twoBitWord_reserved _ _ hk⟩
  · rw [State.gstatus, twoBitWord_bit0, doneAny_iff]
  · rw [State.gstatus, twoBitWord_bit1, lastAny_iff]

/-- Settles O13: what is stored is the value under the mask of the low NUM_CH bits. -/
theorem globalMaskWrite : Obligations.GlobalMaskWrite := by
  unfold Obligations.GlobalMaskWrite
  intro s v
  obtain ⟨-, -, hcheck, -⟩ := check_header s.cfg
  exact ⟨v &&& s.cfg.chMask, fun _ hk => and_lowMask_getLsbD _ _ hk, writeOp_ok hcheck rfl⟩

/-! ### Writes of read-only registers (R79, R118, R126) -/

/-- A write of the pending CSR, which is not the mask CSR. -/
theorem csrWriteOp_pending {i : Instr} {v : Word} {s : State} (hv : s.cfg.variant = .builtIn)
    (hne : s.cfg.csrIrqMask ≠ s.cfg.csrIrqPending) :
    csrWriteOp i s.cfg.csrIrqPending v s = .fault (.writeReadOnly (s.infoOf i)) := by
  rw [csrWriteOp, csrWrite, if_neg fun h => hne h.2.symm, if_pos ⟨hv, rfl⟩]
  rfl

/-- Settles O14: the unit and the index pass their checks, and the write rule of each register is the fault. -/
theorem readOnlyWritesFault : Obligations.ReadOnlyWritesFault := by
  unfold Obligations.ReadOnlyWritesFault
  intro s v
  obtain ⟨hcount, hoff, -, hgstatus⟩ := check_header s.cfg
  refine ⟨writeOp_fault (v := v) hcount rfl, writeOp_fault (v := v) hoff rfl, writeOp_fault (v := v) hgstatus rfl,
    fun ch hch => ?_, fun b hv hb => ?_, fun hv hne => ?_⟩
  · obtain ⟨-, -, -, hdone, -⟩ := check_chan hch
    exact writeOp_fault (v := v) hdone rfl
  · exact (guardUnit_present hv).trans (writeOp_fault (v := v) (check_bank hv hb).1 rfl)
  · exact (guardUnit_present hv).trans (csrWriteOp_pending hv hne)

/-! ### DMA_INIT (R75) -/

section DmaInit
variable {s : State}

theorem dmaInit_start (h : s.pos = .start) :
    exec (.dmaInit 0) s = .next ((s.sawRead .chCount (BitVec.ofNat 32 s.cfg.numCh)).goto
      (.initReadOff (BitVec.ofNat 32 s.cfg.numCh))) := by
  simp only [exec, execDmaInit, guardZero_zero, h]
  exact readStep_plain (check_header s.cfg).1 rfl

theorem dmaInit_readOff {n o : Word} (h : s.pos = .initReadOff n) (ho : s.cfg.hwChOffset = o) :
    exec (.dmaInit 0) s = .next ((s.sawRead .chOff o).goto (.initNumCh n o)) := by
  subst ho
  simp only [exec, execDmaInit, guardZero_zero, h]
  exact readStep_plain (check_header s.cfg).2.1 rfl

theorem dmaInit_numCh {n o : Word} (h : s.pos = .initNumCh n o) :
    exec (.dmaInit 0) s = .next ((s.setNumCh n).goto (.initUsable o)) := by
  simp only [exec, execDmaInit, guardZero_zero, h]
  rfl

theorem dmaInit_usable {o : Word} (h : s.pos = .initUsable o) :
    exec (.dmaInit 0) s = .next ((s.setUsable (decide (o = 0x10))).ret (.bool (decide (o = 0x10)))) := by
  simp only [exec, execDmaInit, guardZero_zero, h]
  rfl

end DmaInit

/-- Settles O15: the run is its four steps, and the moves between them leave no trace in the state it ends in. -/
theorem dmaInitRun : Obligations.DmaInitRun := by
  unfold Obligations.DmaInitRun
  intro s
  refine ⟨fun o h => dmaInit_usable h, fun h => ?_⟩
  rw [runOp_step (dmaInit_start h),
    runOp_step (dmaInit_readOff (s := (s.sawRead _ _).goto _) (o := s.cfg.hwChOffset) (State.goto_pos _ _) rfl),
    runOp_step (dmaInit_numCh (State.goto_pos _ _)), runOp_step (dmaInit_usable (State.goto_pos _ _)), runOp]
  simp only [sawRead_goto, State.goto_setNumCh, State.goto_setUsable, State.ret_goto]

end Sys2Proof.Machine
end

section
/-! PROOFS. The registers of a DMA channel (R83 to R92, R97) and the steps of its engine (R93 to R96): the write rule of
the control word in the fields it stores, which DWR_CTRL and the last step of BEGIN share, and E_PROGRESS by what it
moves. -/

namespace Sys2Proof.Machine

open Sys2Proof

/-! ### Reads (R83, R85, R87, R89, R90) -/

/-- Settles O16: each operation is one read of a register of a channel that exists, and the two packed words have the
bits of their formats. -/
theorem channelReads : Obligations.ChannelReads := by
  unfold Obligations.ChannelReads
  intro s ch hch
  obtain ⟨hctrl, hbase, hlen, hdone, histat⟩ := check_chan hch
  exact ⟨s.ctrlWord ch.toNat, s.istatWord ch.toNat,
    ⟨chCtrlWord_irqDone .., chCtrlWord_irqLast .., chCtrlWord_tsfr .., chCtrlWord_tsfrDone .., chCtrlWord_dir ..,
      chCtrlWord_mode .., chCtrlWord_rdy .., fun _ _ hk => chCtrlWord_reserved _ _ _ _ _ _ _ hk⟩,
    ⟨twoBitWord_bit0 .., twoBitWord_bit1 .., fun _ _ hk => twoBitWord_reserved _ _ hk⟩,
    readOp_plain hctrl rfl, readOp_plain histat rfl, readOp_plain hbase rfl, readOp_plain hlen rfl,
    readOp_plain hdone rfl⟩

/-! ### The fields a control write stores (R84, R92, R97) -/

section Control
variable {c : Chan} {v : Word}

/-- Busy or idle, a control write leaves the channel idle, with TSFR 0 after an abort. -/
theorem ctrlWritten_eq (c : Chan) (v : Word) :
    c.ctrlWritten v =
      { c with
        irqDone := v.getLsbD 0, irqLast := v.getLsbD 1, mode := v.getLsbD 5
        tsfrDone := c.tsfrDone && v.getLsbD 3, rdy := c.rdy && v.getLsbD 6
        tsfr := if c.phase = .busy then false else c.tsfr, phase := .idle } := by
  cases h : c.phase <;> simp [Chan.ctrlWritten, Chan.abort, h]

/-- A start after a control write keeps the masks and MODE of the write. -/
theorem started_ctrlWritten (c : Chan) (v : Word) :
    (c.ctrlWritten v).started =
      { c with
        irqDone := v.getLsbD 0, irqLast := v.getLsbD 1, mode := v.getLsbD 5
        tsfr := true, tsfrDone := false, rdy := false, doneLen := 0, phase := .busy } := by
  rw [ctrlWritten_eq]
  rfl

theorem umod_four_eq_zero_iff (x : Word) : x % 4 = 0 ↔ x.toNat % 4 = 0 := by
  bv_omega

/-- The alignment rule of a start reads MODE as the control write stores it. -/
theorem ctrlWritten_startAligned_iff :
    (c.ctrlWritten v).startAligned = true ↔ v.getLsbD 5 = true ∨ (c.base.toNat % 4 = 0 ∧ c.len.toNat % 4 = 0) := by
  rw [ctrlWritten_eq, Chan.startAligned]
  simp only [Bool.or_eq_true, Bool.and_eq_true, decide_eq_true_iff, umod_four_eq_zero_iff]

theorem ctrlWritten_startAligned_eq_false (hv : v.getLsbD 5 = false)
    (h : c.base.toNat % 4 ≠ 0 ∨ c.len.toNat % 4 ≠ 0) : (c.ctrlWritten v).startAligned = false := by
  rw [← Bool.not_eq_true, ctrlWritten_startAligned_iff, hv]
  rintro (h0 | ⟨hbase, hlen⟩)
  · cases h0
  · exact h.elim (· hbase) (· hlen)

end Control

/-- Settles O17: the operation is one write of the control word, by the branches of its write rule. -/
theorem channelControlWrite : Obligations.ChannelControlWrite := by
  unfold Obligations.ChannelControlWrite
  rintro s ch v c hch rfl
  have hcheck := (check_chan hch).1
  refine ⟨fun hv => ?_, fun hv hb => ?_, fun hv hi hr => ?_, fun hv hi hr hm ha => ?_, fun hv hi hr ha => ?_⟩
  · rw [← ctrlWritten_eq]
    exact writeOp_ok hcheck (chCtrlWrite_noGo hv)
  · exact writeOp_fault hcheck (chCtrlWrite_busy hv hb)
  · exact writeOp_fault hcheck (chCtrlWrite_notReady hv hi hr)
  · exact writeOp_fault hcheck (chCtrlWrite_unaligned hv hi hr (ctrlWritten_startAligned_eq_false hm ha))
  · rw [← started_ctrlWritten]
    exact writeOp_ok hcheck (chCtrlWrite_go hv hi hr (ctrlWritten_startAligned_iff.2 ha))

/-! ### The other writes (R86, R88, R91) -/

section IdleWrite
variable {i : FaultInfo} {ch : Nat} {f : Chan → Chan} {s : State}

theorem chanWriteIdle_idle (h : (s.chan ch).phase = .idle) :
    chanWriteIdle i ch f s = .ok (s.setChan ch (f (s.chan ch))) :=
  if_neg (by simp [h])

theorem chanWriteIdle_busy (h : (s.chan ch).phase = .busy) :
    chanWriteIdle i ch f s = .error (.dmaWriteWhileBusy i) :=
  if_pos h

theorem writeReg_chBase (i : FaultInfo) (ch : Nat) (v : Word) (s : State) :
    writeReg i (.chBase ch) v s = chanWriteIdle i ch (fun c => { c with base := v }) s := rfl

theorem writeReg_chLen (i : FaultInfo) (ch : Nat) (v : Word) (s : State) :
    writeReg i (.chLen ch) v s = chanWriteIdle i ch (fun c => { c with len := v }) s := rfl

end IdleWrite

/-- Settles O18: both registers have the one write rule that refuses a busy channel. -/
theorem baseAndLengthWrites : Obligations.BaseAndLengthWrites := by
  unfold Obligations.BaseAndLengthWrites
  rintro s ch v c hch rfl
  obtain ⟨-, hbase, hlen, -⟩ := check_chan hch
  refine ⟨fun hi => ⟨?_, ?_⟩, fun hb => ⟨?_, ?_⟩⟩
  · exact writeOp_ok hbase ((writeReg_chBase ..).trans (chanWriteIdle_idle hi))
  · exact writeOp_ok hlen ((writeReg_chLen ..).trans (chanWriteIdle_idle hi))
  · exact writeOp_fault hbase ((writeReg_chBase ..).trans (chanWriteIdle_busy hb))
  · exact writeOp_fault hlen ((writeReg_chLen ..).trans (chanWriteIdle_busy hb))

theorem acked_all (c : Chan) (v : Word) : c.acked true v = { c with istDone := false, istLast := false } := rfl

theorem acked_written (c : Chan) (v : Word) :
    c.acked false v = { c with istDone := c.istDone && !v.getLsbD 0, istLast := c.istLast && !v.getLsbD 1 } := rfl

theorem exec_dwrIstat {s : State} {ch : Idx} (v : Word) (hch : ch.toNat < s.cfg.numCh) :
    exec (.dwrIstat ch v) s = .next (((s.sawWrite (.chIstat ch.toNat) v).setChan ch.toNat
      ((s.chan ch.toNat).acked s.cfg.irqAckClearsAll v)).ret .unit) := by
  obtain ⟨-, -, -, -, histat⟩ := check_chan hch
  exact writeOp_ok histat rfl

/-- Settles O19: the acknowledge of R91 at both values of the parameter. -/
theorem statusAcknowledge : Obligations.StatusAcknowledge := by
  unfold Obligations.StatusAcknowledge
  rintro s ch v c hch rfl
  refine ⟨fun hall => ?_, fun hall => ?_⟩
  · rw [exec_dwrIstat v hch, hall, acked_all]
  · rw [exec_dwrIstat v hch, hall, acked_written]

/-! ### The status steps of an engine (R93, R95, R96) -/

theorem Phase.ne_busy_of_idle {p : Phase} (h : p = .idle) : p ≠ .busy := by
  rw [h]
  decide

/-- Settles O20: each step is one test of the phase, and for E_READY of RDY. -/
theorem engineStatusSteps : Obligations.EngineStatusSteps := by
  unfold Obligations.EngineStatusSteps
  rintro s ch c hch rfl
  refine ⟨fun hi hr => if_pos ⟨hch, hi, hr⟩, fun h => if_neg ?_, fun hb => if_pos ⟨hch, hb⟩,
    fun hb => if_pos ⟨hch, hb⟩, fun hi => ⟨if_neg ?_, if_neg ?_⟩⟩
  · rintro ⟨-, hi, hr⟩
    obtain hb | hr' := h
    · exact Phase.ne_busy_of_idle hi hb
    · rw [hr] at hr'; cases hr'
  · exact fun h => Phase.ne_busy_of_idle hi h.2
  · exact fun h => Phase.ne_busy_of_idle hi h.2

/-! ### E_PROGRESS (R94) -/

section Progress
variable {s : State} {ch : Nat}

theorem eProgress_disabled (h : (s.chan ch).phase = .idle ∨ (s.chan ch).len ≤ (s.chan ch).doneLen) :
    stepOf (.eProgress ch) s = .next s := by
  refine if_neg ?_
  rintro ⟨-, hb, hl⟩
  obtain hi | hle := h
  · exact Phase.ne_busy_of_idle hi hb
  · exact BitVec.not_lt.2 hle hl

variable (hch : ch < s.cfg.numCh) (hb : (s.chan ch).phase = .busy) (hl : (s.chan ch).doneLen < (s.chan ch).len)
include hch hb hl

/-- An enabled step is its three branches: ignore mode, an address inside a unit, and a byte moved. -/
theorem eProgress_enabled :
    stepOf (.eProgress ch) s =
      if (s.chan ch).mode then .next (s.countByte ch)
      else if s.cfg.inUnit (s.chan ch).nextAddr.toNat then
        .fault (.badAccess { agent := .dmae ch, word := none, addr := some (s.chan ch).nextAddr })
      else .next ((moveByte ch s).countByte ch) :=
  if_pos ⟨hch, hb, hl⟩

theorem eProgress_ignore (hm : (s.chan ch).mode = true) : stepOf (.eProgress ch) s = .next (s.countByte ch) := by
  rw [eProgress_enabled hch hb hl, if_pos hm]

variable (hm : (s.chan ch).mode = false)
include hm

theorem eProgress_inUnit (hu : s.cfg.inUnit (s.chan ch).nextAddr.toNat = true) :
    stepOf (.eProgress ch) s =
      .fault (.badAccess { agent := .dmae ch, word := none, addr := some (s.chan ch).nextAddr }) := by
  rw [eProgress_enabled hch hb hl, if_neg (by simp [hm]), if_pos hu]

/-- To the peripheral the step records what a read of the next byte answers, and leaves what that read leaves. -/
theorem eProgress_loads (hu : s.cfg.inUnit (s.chan ch).nextAddr.toNat = false) (hd : s.cfg.chDir.getLsbD ch = false)
    {b : Byte} {t : State} (hr : s.readByte (s.chan ch).nextAddr = (b, t)) :
    stepOf (.eProgress ch) s = .next ((t.emit (.dmaRead ch (s.chan ch).nextAddr b)).countByte ch) := by
  have hmove : moveByte ch s = t.emit (.dmaRead ch (s.chan ch).nextAddr b) := by
    rw [moveByte, if_neg (by simp [Params.dir, hd]), hr]
  rw [eProgress_enabled hch hb hl, if_neg (by simp [hm]), if_neg (by simp [hu]), hmove]

end Progress

/-- Settles O21: the disabled step, and the enabled one by mode, unit and direction; the byte read by what ordinary memory
holds there, the byte written by the rules of a store (`eProgress_stores`). -/
theorem engineProgress : Obligations.EngineProgress := by
  unfold Obligations.EngineProgress
  rintro s ch c a hch rfl rfl
  refine ⟨eProgress_disabled, fun hb hl hm => eProgress_ignore hch hb hl hm,
    fun hb hl hm hu => eProgress_inUnit hch hb hl hm hu, fun hb hl hm hu hd => ?_, fun hb hl hm hu hd => ?_⟩
  · obtain ⟨b, hlookup, hr⟩ | ⟨hlookup, hr⟩ := s.readByte_cases (s.chan ch).nextAddr
    · exact ⟨b, .inl ⟨hlookup, eProgress_loads hch hb hl hm hu hd hr⟩⟩
    · exact ⟨_, .inr ⟨hlookup, eProgress_loads hch hb hl hm hu hd hr⟩⟩
  · obtain ⟨b, hstep⟩ := eProgress_stores hch hb hm hd hl hu
    exact ⟨b, Mem.insert (s.chan ch).nextAddr.toNat b s.mem, Mem.lookup_insert_same _ _ _,
      fun x hx => Mem.lookup_insert_other _ _ hx, hstep⟩

end Sys2Proof.Machine
end

section
/-! PROOFS. The driver operations where they meet the registers: the answer after a failed self-check (R76), and the go
write of BEGIN (R84, R92, R101). -/

namespace Sys2Proof.Machine

open Sys2Proof

/-! ### Unusable (R76) -/

section Unusable
variable {s : State} (hu : s.drvUsable = false)
include hu

theorem mgrInit_unusable (hp : s.pos = .start) : exec (.mgrInit 0) s = .next (s.ret (.code .unusable)) := by
  simp only [exec, execMgrInit, guardZero_zero, hp, guardUsable_false hu]

theorem updateStep_unusable (w : Who) : updateStep w .enter s = .fin .unusable s := by
  simp [updateStep, hu]

theorem update_unusable (hp : s.pos = .start) : exec (.update 0) s = .next (s.ret (.code .unusable)) := by
  simp only [exec, execUpdate, guardZero_zero, State.updatePos, hp, runUpdate, updateStep_unusable hu, done]

variable {d r : Nat} {x : Desc} (hr : s.refOf d = some r) (hx : s.descs[r]? = some x)
include hr hx

theorem begin_unusable (hp : s.pos = .start) : exec (.beginXfer 0 d) s = .next (s.ret (.code .unusable)) := by
  simp only [exec, execBegin, guardZero_zero, hp, beginEnter, withDesc_some hr hx, guardUsable_false hu]

theorem complete_unusable (hp : s.pos = .start) (n : Word) :
    exec (.completeXfer 0 d n) s = .next (s.ret (.code .unusable)) := by
  simp only [exec, execComplete, guardZero_zero, hp, completeEnter, withDesc_some hr hx, guardUsable_false hu]

theorem cancel_unusable (hp : s.pos = .start) : exec (.cancelXfer 0 d) s = .next (s.ret (.code .unusable)) := by
  simp only [exec, execCancel, guardZero_zero, hp, withDesc_some hr hx, guardUsable_false hu]

end Unusable

/-- Settles O24: at the first step each operation meets the usability check, after the descriptor's where it has one. -/
theorem unusableReturns : Obligations.UnusableReturns := by
  unfold Obligations.UnusableReturns
  intro s hu hp
  refine ⟨mgrInit_unusable hu hp, update_unusable hu hp, fun d r hr => ?_⟩
  obtain ⟨x, hx⟩ := refOf_desc hr
  exact ⟨begin_unusable hu hr hx hp, complete_unusable hu hr hx hp, cancel_unusable hu hr hx hp⟩

/-! ### The go write of BEGIN (R84, R92, R101) -/

theorem or_mTsfr_tsfr (v : Word) : (v ||| mTsfr).getLsbD 2 = true := by
  rw [BitVec.getLsbD_or, show mTsfr.getLsbD 2 = true by decide, Bool.or_true]

theorem or_mTsfr_other (v : Word) {k : Nat} (hk : k ≠ 2) : (v ||| mTsfr).getLsbD k = v.getLsbD k := by
  rw [BitVec.getLsbD_or, show mTsfr = bit 2 from rfl, bit_getLsbD, decide_eq_false hk, Bool.and_false, Bool.or_false]

/-- Settles O26: the last step is a control write with bit 2 set, which leaves the other bits of the word read. -/
theorem beginGoWrite : Obligations.BeginGoWrite := by
  unfold Obligations.BeginGoWrite
  rintro s d r x v c hp hx hch rfl hi hr
  have hgo := or_mTsfr_tsfr v
  have hmode : (v ||| mTsfr).getLsbD 5 = v.getLsbD 5 := or_mTsfr_other v (by decide)
  refine ⟨fun ha => ?_, fun hm ha => ?_⟩
  · rw [begin_at hp hx, ← or_mTsfr_other v (k := 0) (by decide), ← or_mTsfr_other v (k := 1) (by decide), ← hmode,
      ← started_ctrlWritten]
    exact writeStep_go hch hgo hi hr (ctrlWritten_startAligned_iff.2 (hmode.symm ▸ ha))
  · rw [begin_at hp hx]
    exact writeStep_fault (check_chan hch).1
      (chCtrlWrite_unaligned hgo hi hr (ctrlWritten_startAligned_eq_false (hmode.trans hm) ha))

end Sys2Proof.Machine
end

section
/-! PROOFS. DESC_NEW (R99): the fresh descriptor and what the other names are bound to. -/

namespace Sys2Proof.Machine

open Sys2Proof

section DescNew
variable {s : State} {d : Nat} {x : Desc}

/-- Dropping the bindings of one name leaves what every other name is bound to. -/
theorem lookup_filter_ne {d' : Nat} (h : d' ≠ d) (l : List (Nat × Nat)) :
    (l.filter fun b => b.1 ≠ d).lookup d' = l.lookup d' := by
  induction l with
  | nil => rfl
  | cons b l ih =>
    obtain ⟨k, r⟩ := b
    by_cases hk : k = d
    · have hne : (d' == k) = false := beq_eq_false_iff_ne.2 (hk ▸ h)
      rw [List.filter_cons_of_neg (by simp [hk]), ih, List.lookup_cons, hne]
    · rw [List.filter_cons_of_pos (by simp [hk]), List.lookup_cons, List.lookup_cons, ih]

theorem newDesc_lookup_other {d' : Nat} (h : d' ≠ d) : (s.newDesc d x).binds.lookup d' = s.binds.lookup d' := by
  simp only [State.newDesc, List.lookup_cons, beq_eq_false_iff_ne.2 h, lookup_filter_ne h]

/-- Where every bound name refers to a descriptor that was created, a name's reference is its binding. -/
theorem refOf_eq_lookup (h : ∀ b ∈ s.binds, b.2 < s.descs.length) (d : Nat) : s.refOf d = s.binds.lookup d := by
  unfold State.refOf
  cases hd : s.binds.lookup d with
  | none => rfl
  | some r =>
    obtain ⟨l₁, l₂, hl, -⟩ := List.lookup_eq_some_iff.1 hd
    exact if_pos (h (d, r) (by simp [hl]))

theorem newDesc_refOf_same : (s.newDesc d x).refOf d = some s.descs.length := by
  simp [State.refOf, State.newDesc]

theorem newDesc_refOf_other {d' : Nat} (hs : ∀ b ∈ s.binds, b.2 < s.descs.length) (h : d' ≠ d) :
    (s.newDesc d x).refOf d' = s.refOf d' := by
  have hnew : ∀ b ∈ (s.newDesc d x).binds, b.2 < (s.newDesc d x).descs.length := by
    intro b hb
    obtain rfl | hb := List.mem_cons.1 hb
    · simp
    · simpa using Nat.lt_succ_of_lt (hs b (List.mem_of_mem_filter hb))
  rw [refOf_eq_lookup hnew, refOf_eq_lookup hs, newDesc_lookup_other h]

theorem newDesc_getElem?_same : (s.newDesc d x).descs[s.descs.length]? = some x :=
  List.getElem?_concat_length

theorem newDesc_getElem?_other {k : Nat} (h : k ≠ s.descs.length) : (s.newDesc d x).descs[k]? = s.descs[k]? := by
  rw [State.newDesc_descs]
  obtain hlt | hgt := Nat.lt_or_gt_of_ne h
  · exact List.getElem?_append_left hlt
  · rw [List.getElem?_eq_none (by simpa using hgt), List.getElem?_eq_none hgt.le]

end DescNew

/-- Settles O23: the new reference is the length of the store, which no descriptor has had before. -/
theorem descNew : Obligations.DescNew := by
  unfold Obligations.DescNew
  intro s ch d f hch
  exact ⟨s.descs.length, s.newDesc d { ch := ch.toNat, fields := f, done := false, transferred := 0 },
    guardIdx_true (decide_eq_true hch), List.getElem?_eq_none (Nat.le_refl _), newDesc_getElem?_same,
    newDesc_refOf_same, fun _ hk => newDesc_getElem?_other hk, fun hs _ hd => newDesc_refOf_other hs hd, rfl⟩

end Sys2Proof.Machine
end

section
/-! PROOFS. A step of BEGIN or COMPLETE forgets the position it is taken at (R16), so that each is followed without the
moves before it. -/

namespace Sys2Proof.Machine

open Sys2Proof

section Position
variable {s : State} {i : Instr} {q : Pos}

theorem readReg_goto (r : Reg) (s : State) (q : Pos) :
    readReg r (s.goto q) = ((readReg r s).1, (readReg r s).2.goto q) := by
  cases r with
  | streamData e => by_cases he : e = 0 <;> simp [readReg, he]
  | claim => cases h : s.claimable <;> simp [readReg, State.claim, h]
  | _ => rfl

theorem writeReg_goto (f : FaultInfo) (r : Reg) (v : Word) (s : State) (q : Pos) :
    writeReg f r v (s.goto q) = (writeReg f r v s).map (·.goto q) := by
  have hite (c : Prop) [Decidable c] (x y : Except Fault State) :
      (if c then x else y).map (·.goto q) = if c then x.map (·.goto q) else y.map (·.goto q) := apply_ite _ c x y
  cases r with
  | streamCtrl e =>
    by_cases he : e = 0 <;> simp only [writeReg, streamCtrlWrite, he, hite, if_true, if_false] <;> rfl
  | _ =>
    simp only [writeReg, chCtrlWrite, chanWriteIdle, claimWrite, hite]
    rfl

theorem readStep_goto {r : Reg} {k : Word → State → Out} (hk : ∀ v t, k v (t.goto q) = k v t) :
    readStep i r (s.goto q) k = readStep i r s k := by
  simp only [readStep, busRead, State.goto_cfg, State.goto_who, readReg_goto, State.goto_emit]
  cases r.check s.cfg with
  | present => exact hk _ _
  | _ => rfl

theorem writeStep_goto {r : Reg} {v : Word} {k : State → Out} (hk : ∀ t, k (t.goto q) = k t) :
    writeStep i r v (s.goto q) k = writeStep i r v s k := by
  simp only [writeStep, busWrite, State.goto_cfg, State.goto_who, State.goto_emit, writeReg_goto]
  cases r.check s.cfg with
  | present =>
    dsimp only
    cases writeReg ((s.who i).atAddr (r.addr s.cfg)) r v (s.emit _) with
    | ok t => exact hk t
    | error f => rfl
  | _ => rfl

theorem goOn_goto (p : Pos) : goOn p (s.goto q) = goOn p s := by simp [goOn]

theorem done_goto (a : Result) : done a (s.goto q) = done a s := by simp [done]

theorem beginValidated_goto {r : Nat} {x : Desc} {c : Word} :
    beginValidated i r x c (s.goto q) = beginValidated i r x c s := by
  simp only [beginValidated, goOn_goto, done_goto, State.goto_mgr, State.goto_who]

theorem beginStep_goto {r : Nat} {x : Desc} {p : BeginPos} : beginStep i r x p (s.goto q) = beginStep i r x p s := by
  cases p <;> dsimp only [beginStep]
  case wait => exact readStep_goto fun v t => by simp only [goOn_goto]
  case validate => exact readStep_goto fun v t => beginValidated_goto
  case gmaskRead | irqRead | modeRead | goRead => exact readStep_goto fun v t => goOn_goto _
  case gmaskWrite | irqWrite | modeWrite | base | len => exact writeStep_goto fun t => goOn_goto _
  case goWrite => exact writeStep_goto fun t => done_goto _
  case slot => rw [State.goto_setSlot, goOn_goto]
  case clearDoneMask => rw [State.goto_setDoneMask, goOn_goto, State.goto_mgr]
  case clearLastMask => rw [State.goto_setLastMask, goOn_goto, State.goto_mgr]
  case clearDone => rw [State.goto_setDescDone, goOn_goto]

theorem completeStep_goto {r : Nat} {x : Desc} {p : CompletePos} :
    completeStep i r x p (s.goto q) = completeStep i r x p s := by
  cases p <;> dsimp only [completeStep]
  case pollForever | poll => exact readStep_goto fun v t => by simp only [goOn_goto]
  case waitForever | wait => simp only [goOn_goto, done_goto]
  case readLen => exact readStep_goto fun v t => goOn_goto _
  case setTransferred => rw [State.goto_setDescTransferred, goOn_goto]
  case setDone => simp only [State.goto_setDescDone, goOn_goto, done_goto]
  case callback ok =>
    cases x.fields.cb with
    | none => exact done_goto _
    | some cb =>
      simp only [runCallback]
      split
      · rfl
      · rw [State.goto_emit]; exact done_goto _

end Position
end Sys2Proof.Machine
end

section
/-! PROOFS. The checks of BEGIN (R101, R136) and the runs that fail them. -/

namespace Sys2Proof.Machine

open Sys2Proof

/-! ### The steps of a run -/

section Runs
variable {i : Instr} {m n : Nat} {s t u : State}

theorem runOp_one (h : exec i s = .next t) : runOp i 1 s = .next t :=
  runOp_step h

theorem runOp_cons (h : exec i s = .next t) (ht : runOp i n t = .next u) : runOp i (n + 1) s = .next u :=
  (runOp_step h).trans ht

theorem runOp_trans (h : runOp i m s = .next t) (ht : runOp i n t = .next u) : runOp i (m + n) s = .next u :=
  (runOp_add h).trans ht

/-- A step of BEGIN at the position its last move set. -/
theorem exec_begun {d r : Nat} {x : Desc} {p : BeginPos} {o : Out} (hx : s.descs[r]? = some x)
    (h : beginStep (.beginXfer 0 d) r x p s = o) : exec (.beginXfer 0 d) (s.goto (.begun r p)) = o :=
  (begin_at (State.goto_pos s _) hx).trans (beginStep_goto.trans h)

/-- A step of COMPLETE at the position its last move set. -/
theorem exec_completing {d r : Nat} {v : Word} {x : Desc} {p : CompletePos} {o : Out} (hx : s.descs[r]? = some x)
    (h : completeStep (.completeXfer 0 d v) r x p s = o) :
    exec (.completeXfer 0 d v) (s.goto (.completing r p)) = o :=
  (complete_at (State.goto_pos s _) hx).trans (completeStep_goto.trans h)

end Runs

/-! ### The entry checks (R101, R136) -/

section Enter
variable {s : State} {d r : Nat} {x : Desc} (hp : s.pos = .start)
include hp

theorem begin_noDesc (hr : s.refOf d = none) :
    exec (.beginXfer 0 d) s = .fault (.badDescriptor (s.infoOf (.beginXfer 0 d))) := by
  simp only [exec, execBegin, guardZero_zero, hp]
  exact withDesc_none hr

variable (hr : s.refOf d = some r) (hx : s.descs[r]? = some x) (hu : s.drvUsable = true)
include hr hx hu

/-- Past the descriptor and the usability check, the step is the check of the channel. -/
theorem begin_enter : exec (.beginXfer 0 d) s = guardIdx (.beginXfer 0 d) (x.ch < s.drvNumCh.toNat) s
    (goOn (.begun r (if x.fields.mode = .polling then .wait else .validate)) s) := by
  simp only [exec, execBegin, guardZero_zero, hp, beginEnter, withDesc_some hr hx, guardUsable_true hu]
  cases x.fields.mode <;> rfl

theorem begin_badIndex (hch : s.drvNumCh.toNat ≤ x.ch) :
    exec (.beginXfer 0 d) s = .fault (.badIndex (s.infoOf (.beginXfer 0 d))) :=
  (begin_enter hp hr hx hu).trans (guardIdx_false (decide_eq_false (Nat.not_lt.2 hch)))

theorem begin_entered (hch : x.ch < s.drvNumCh.toNat) : exec (.beginXfer 0 d) s =
    .next (s.goto (.begun r (if x.fields.mode = .polling then .wait else .validate))) :=
  (begin_enter hp hr hx hu).trans (guardIdx_true (decide_eq_true hch))

end Enter

/-! ### The reads of the control word before the channel is touched (R101 steps 1 to 4) -/

theorem ctrlWord_dir (s : State) (ch : Nat) : (s.ctrlWord ch).getLsbD 4 = s.cfg.chDir.getLsbD ch :=
  chCtrlWord_dir _ _ _ _ _ _ _

section Validate
variable {i : Instr} {r : Nat} {x : Desc} {s : State}

/-- The wait reads the control word, and goes on to the validation where it reads RDY = 1. -/
theorem beginStep_wait (hch : x.ch < s.cfg.numCh) : beginStep i r x .wait s =
    .next ((s.sawRead (.chCtrl x.ch) (s.ctrlWord x.ch)).goto
      (.begun r (if (s.chan x.ch).rdy then .validate else .wait))) := by
  dsimp only [beginStep]
  rw [readStep_ctrl hch, ctrlWord_rdy]
  split <;> rfl

theorem beginStep_validate (hch : x.ch < s.cfg.numCh) : beginStep i r x .validate s =
    beginValidated i r x (s.ctrlWord x.ch) (s.sawRead (.chCtrl x.ch) (s.ctrlWord x.ch)) :=
  readStep_ctrl hch

variable {c : Word}

theorem beginValidated_wrongDirection (hd : c.getLsbD 4 ≠ x.fields.dir) :
    beginValidated i r x c s = .next (s.ret (.code .wrongDirection)) :=
  if_pos hd

variable (hd : c.getLsbD 4 = x.fields.dir)
include hd

theorem beginValidated_notReady (hr : c.getLsbD 6 = false) :
    beginValidated i r x c s = .next (s.ret (.code .notReady)) :=
  (if_neg (not_not_intro hd)).trans (if_pos hr)

variable (hr : c.getLsbD 6 = true)
include hr

/-- A validation that succeeds goes on by the mode. -/
theorem beginValidated_passed : beginValidated i r x c s =
    match x.fields.mode with
    | .polling => goOn (.begun r .irqRead) s
    | .interrupt =>
      if x.fields.mgr then
        if s.mgr.present then goOn (.begun r .slot) s else .fault (.managerUninit (s.infoOf i))
      else done (.code .noManager) s :=
  (if_neg (not_not_intro hd)).trans (if_neg (by simp [hr]))

theorem beginValidated_polling (hm : x.fields.mode = .polling) :
    beginValidated i r x c s = .next (s.goto (.begun r .irqRead)) := by
  rw [beginValidated_passed hd hr, hm]
  rfl

variable (hm : x.fields.mode = .interrupt)
include hm

theorem beginValidated_noManager (hg : x.fields.mgr = false) :
    beginValidated i r x c s = .next (s.ret (.code .noManager)) := by
  rw [beginValidated_passed hd hr, hm]
  exact if_neg (by simp [hg])

theorem beginValidated_managerUninit (hg : x.fields.mgr = true) (hpr : s.mgr.present = false) :
    beginValidated i r x c s = .fault (.managerUninit (s.infoOf i)) := by
  rw [beginValidated_passed hd hr, hm]
  exact (if_pos hg).trans (if_neg (by simp [hpr]))

theorem beginValidated_interrupt (hg : x.fields.mgr = true) (hpr : s.mgr.present = true) :
    beginValidated i r x c s = .next (s.goto (.begun r .slot)) := by
  rw [beginValidated_passed hd hr, hm]
  exact (if_pos hg).trans (if_pos hpr)

end Validate

/-- Settles O25: the entry checks in their order, then the two reads of the control word and the branches of the
validation. -/
theorem beginChecks : Obligations.BeginChecks := by
  unfold Obligations.BeginChecks
  intro s d r x
  refine ⟨begin_noDesc, fun hp hr hx hu => ⟨begin_badIndex hp hr hx hu, begin_entered hp hr hx hu⟩, ?_⟩
  rintro hx hch t rfl
  refine ⟨fun hp => (begin_at hp hx).trans (beginStep_wait hch), fun hp => ?_⟩
  rw [begin_at hp hx, beginStep_validate hch, ← ctrlWord_dir, ← ctrlWord_rdy]
  exact ⟨beginValidated_wrongDirection, beginValidated_notReady, beginValidated_polling, fun hd hr hm =>
    ⟨beginValidated_noManager hd hr hm, fun hg hpr => beginValidated_managerUninit hd hr hm hg hpr,
      fun hg hpr => beginValidated_interrupt hd hr hm hg hpr⟩⟩

/-! ### The runs that fail (R101 corner case 1) -/

section Validation
variable {s t : State} {d r : Nat} {x : Desc}

/-- While RDY reads 0 the wait repeats its read. -/
theorem begin_waits (hx : s.descs[r]? = some x) (hch : x.ch < s.cfg.numCh) (hr : (s.chan x.ch).rdy = false) (n : Nat) :
    runOp (.beginXfer 0 d) n (s.goto (.begun r .wait)) =
      .next ((s.sawReads (.chCtrl x.ch) (s.ctrlWord x.ch) n).goto (.begun r .wait)) := by
  induction n generalizing s with
  | zero => rfl
  | succ n ih =>
    refine runOp_cons (exec_begun hx (beginStep_wait hch)) ?_
    rw [if_neg (by simp [hr])]
    exact ih (s := s.sawRead _ _) hx hch hr

variable (hp : s.pos = .start) (hu : s.drvUsable = true) (hr : s.refOf d = some r) (hx : s.descs[r]? = some x)
  (hnum : x.ch < s.drvNumCh.toNat)
include hp hu hr hx hnum

theorem begin_entered_polling (hm : x.fields.mode = .polling) :
    exec (.beginXfer 0 d) s = .next (s.goto (.begun r .wait)) := by
  rw [begin_entered hp hr hx hu hnum, if_pos hm]

theorem begin_entered_interrupt (hm : x.fields.mode = .interrupt) :
    exec (.beginXfer 0 d) s = .next (s.goto (.begun r .validate)) := by
  rw [begin_entered hp hr hx hu hnum, if_neg (by simp [hm])]

variable (hch : x.ch < s.cfg.numCh)
include hch

/-- In polling mode a ready channel's control word is read twice, and the validation judges the second read. -/
theorem begin_validates_polling (hm : x.fields.mode = .polling) (hy : (s.chan x.ch).rdy = true)
    (h : beginValidated (.beginXfer 0 d) r x (s.ctrlWord x.ch)
      ((s.sawRead (.chCtrl x.ch) (s.ctrlWord x.ch)).sawRead (.chCtrl x.ch) (s.ctrlWord x.ch)) = .next t) :
    runOp (.beginXfer 0 d) 3 s = .next t := by
  have hwait := beginStep_wait (i := .beginXfer 0 d) (r := r) hch
  rw [if_pos hy] at hwait
  exact runOp_cons (begin_entered_polling hp hu hr hx hnum hm) <| runOp_cons (exec_begun hx hwait) <|
    runOp_one (exec_begun hx (Eq.trans (beginStep_validate hch) h))

/-- In interrupt mode there is no wait. -/
theorem begin_validates_interrupt (hm : x.fields.mode = .interrupt)
    (h : beginValidated (.beginXfer 0 d) r x (s.ctrlWord x.ch) (s.sawRead (.chCtrl x.ch) (s.ctrlWord x.ch)) = .next t) :
    runOp (.beginXfer 0 d) 2 s = .next t :=
  runOp_cons (begin_entered_interrupt hp hu hr hx hnum hm) <|
    runOp_one (exec_begun hx (Eq.trans (beginStep_validate hch) h))

end Validation

/-- Settles O29: the run ends with the answer of the validation read, or stays in the wait (`begin_waits`). -/
theorem beginErrorRuns : Obligations.BeginErrorRuns := by
  unfold Obligations.BeginErrorRuns
  rintro s d r x w hp hu hr hx hnum hch rfl
  have hrdy := ctrlWord_rdy s x.ch
  rw [← ctrlWord_dir]
  refine ⟨fun hm hy hd => ?_, fun hm hy n => ?_, fun hm hd => ?_, fun hm hd hy => ?_, fun hm hd hy hg => ?_⟩
  · exact begin_validates_polling hp hu hr hx hnum hch hm hy (beginValidated_wrongDirection hd)
  · exact runOp_cons (begin_entered_polling hp hu hr hx hnum hm) (begin_waits hx hch hy n)
  · exact begin_validates_interrupt hp hu hr hx hnum hch hm (beginValidated_wrongDirection hd)
  · exact begin_validates_interrupt hp hu hr hx hnum hch hm (beginValidated_notReady hd (hrdy.trans hy))
  · exact begin_validates_interrupt hp hu hr hx hnum hch hm (beginValidated_noManager hd (hrdy.trans hy) hm hg)

end Sys2Proof.Machine
end

section
/-! PROOFS. The runs of BEGIN that start a transfer (R101): the channel as BEGIN sets it up, field by field, the
segments of the run, and the run of each mode put together from them. -/

namespace Sys2Proof.Machine

open Sys2Proof

/-! ### The descriptor after an assignment of one of its fields (R30) -/

section Descriptor
variable {s : State} {r : Nat} {x : Desc} (hx : s.descs[r]? = some x)
include hx

theorem setDesc_desc (y : Desc) : (s.setDesc r y).descs[r]? = some y := by
  obtain ⟨hlt, -⟩ := List.getElem?_eq_some_iff.1 hx
  exact List.getElem?_set_self hlt

theorem setDescDone_eq (b : Bool) : s.setDescDone r b = s.setDesc r { x with done := b } := by
  simp only [State.setDescDone, hx]

theorem setDescTransferred_eq (n : Word) : s.setDescTransferred r n = s.setDesc r { x with transferred := n } := by
  simp only [State.setDescTransferred, hx]

theorem setDescDone_desc (b : Bool) : (s.setDescDone r b).descs[r]? = some { x with done := b } := by
  rw [setDescDone_eq hx, setDesc_desc hx]

theorem setDescTransferred_desc (n : Word) :
    (s.setDescTransferred r n).descs[r]? = some { x with transferred := n } := by
  rw [setDescTransferred_eq hx, setDesc_desc hx]

end Descriptor

/-! ### The channel as BEGIN sets it up -/

/-- The control word of a channel of direction `dir`. -/
def Chan.ctrl (c : Chan) (dir : Bool) : Word :=
  chCtrlWord c.irqDone c.irqLast c.tsfr c.tsfrDone dir c.mode c.rdy

theorem ctrlWord_eq (s : State) (ch : Nat) : s.ctrlWord ch = (s.chan ch).ctrl (Params.dir s.cfg ch) := rfl

/-- The channel with its local masks and MODE set. -/
def Chan.configured (c : Chan) (irqDone irqLast mode : Bool) : Chan :=
  { c with irqDone := irqDone, irqLast := irqLast, mode := mode }

/-- The channel with the local masks BEGIN sets in mode `m`. -/
def Chan.withMasks (c : Chan) : XferMode → Chan
  | .polling => c.configured true true c.mode
  | .interrupt => c.configured true c.irqLast c.mode

/-- The channel in ignore mode, or in store mode. -/
def Chan.withMode (c : Chan) (ignore : Bool) : Chan := c.configured c.irqDone c.irqLast ignore

/-- The channel with a descriptor's buffer, whose address is written in store mode only. -/
def Chan.withBuffer (c : Chan) (f : DescFields) : Chan :=
  { c with base := if f.ignore then c.base else f.ptr, len := f.len }

section Words
variable {c : Chan}

theorem ctrl_withMasks (c : Chan) (dir : Bool) (m : XferMode) :
    (c.withMasks m).ctrl dir = c.ctrl dir ||| beginIrqMask m := by
  have hboth : ∀ a b t d e f g, chCtrlWord true true t d e f g = chCtrlWord a b t d e f g ||| 3 := by decide
  have hdone : ∀ a b t d e f g, chCtrlWord true b t d e f g = chCtrlWord a b t d e f g ||| 1 := by decide
  cases m
  · exact hboth ..
  · exact hdone ..

theorem ctrl_withMode (c : Chan) (dir ignore : Bool) :
    (c.withMode ignore).ctrl dir = assignMode ignore (c.ctrl dir) := by
  have hset : ∀ a b t d e f g, chCtrlWord a b t d e true g = chCtrlWord a b t d e f g ||| mMode := by decide
  have hclear : ∀ a b t d e f g, chCtrlWord a b t d e false g = chCtrlWord a b t d e f g &&& ~~~mMode := by decide
  cases ignore
  · exact hclear ..
  · exact hset ..

/-- A write-back of an idle channel's control word with other masks and MODE sets those, and changes nothing else. -/
theorem ctrlWritten_configured (hi : c.phase = .idle) (a b m dir : Bool) :
    c.ctrlWritten ((c.configured a b m).ctrl dir) = c.configured a b m := by
  rw [ctrlWritten_idle hi]
  simp only [Chan.ctrl, Chan.configured, chCtrlWord_irqDone, chCtrlWord_irqLast, chCtrlWord_mode, chCtrlWord_tsfrDone,
    chCtrlWord_rdy, Bool.and_self]

/-- The go write of the control word read starts the channel as it stands. -/
theorem started_ctrlWritten_go (c : Chan) (dir : Bool) :
    (c.ctrlWritten (c.ctrl dir ||| mTsfr)).started = c.started := by
  rw [started_ctrlWritten, or_mTsfr_other _ (by decide), or_mTsfr_other _ (by decide), or_mTsfr_other _ (by decide)]
  simp only [Chan.ctrl, Chan.started, chCtrlWord_irqDone, chCtrlWord_irqLast, chCtrlWord_mode]

/-- A word with no bit at or above NUM_CH is what DMA_GMASK stores of it. -/
theorem and_chMask_eq_self {p : Params} {v : Word} (h : ∀ k < 32, p.numCh ≤ k → v.getLsbD k = false) :
    v &&& p.chMask = v := by
  refine BitVec.eq_of_getLsbD_eq fun k hk => ?_
  rw [Params.chMask, and_lowMask_getLsbD _ _ hk]
  by_cases hlt : k < p.numCh
  · simp [hlt]
  · rw [h k hk (Nat.not_lt.1 hlt), Bool.and_false]

/-- BEGIN's global mask keeps the bits that do not exist 0. -/
theorem beginGmask_reserved {p : Params} {v : Word} {ch : Nat} {m : XferMode} (hch : ch < p.numCh)
    (h : ∀ k < 32, p.numCh ≤ k → v.getLsbD k = false) :
    ∀ k < 32, p.numCh ≤ k → (beginGmask m ch v).getLsbD k = false := by
  intro k hk hn
  have hv := h k hk hn
  have hbit : (bit ch).getLsbD k = false := by
    rw [bit_getLsbD, decide_eq_false (by omega : ¬ k = ch), Bool.and_false]
  cases m
  · rw [beginGmask, BitVec.getLsbD_and, hv, Bool.false_and]
  · rw [beginGmask, BitVec.getLsbD_or, hv, hbit, Bool.or_self]

end Words

/-! ### What BEGIN relies on past its validation -/

/-- Descriptor `x` at `r` is on a channel that is `c`, idle and ready, with control word `w`. -/
structure State.Drives (s : State) (r : Nat) (x : Desc) (c : Chan) (w : Word) : Prop where
  desc : s.descs[r]? = some x
  lt : x.ch < s.cfg.numCh
  sized : x.ch < s.chans.length
  chan : s.chan x.ch = c
  idle : c.phase = .idle
  tsfr : c.tsfr = false
  rdy : c.rdy = true
  ctrl : c.ctrl (Params.dir s.cfg x.ch) = w

section Drives
variable {s t : State} {r : Nat} {x : Desc} {c : Chan} {w v : Word} (h : s.Drives r x c w)
include h

theorem State.Drives.of_eq (hcfg : t.cfg = s.cfg) (hchans : t.chans = s.chans) (hdescs : t.descs = s.descs) :
    t.Drives r x c w where
  desc := hdescs ▸ h.desc
  lt := hcfg ▸ h.lt
  sized := hchans ▸ h.sized
  chan := by rw [State.chan, hchans]; exact h.chan
  idle := h.idle
  tsfr := h.tsfr
  rdy := h.rdy
  ctrl := hcfg ▸ h.ctrl

theorem State.Drives.sawRead {g : Reg} : (s.sawRead g v).Drives r x c w := h.of_eq rfl rfl rfl

theorem State.Drives.sawWrite {g : Reg} : (s.sawWrite g v).Drives r x c w := h.of_eq rfl rfl rfl

theorem State.Drives.sawWriteIf {b : Bool} {g : Reg} : (s.sawWriteIf b g v).Drives r x c w := by
  cases b
  · exact h
  · exact h.sawWrite

theorem State.Drives.setGmask : (s.setGmask v).Drives r x c w := h.of_eq rfl rfl rfl

theorem State.Drives.registered {ch : Nat} {d : Option Nat} {u : Word} :
    (((s.setSlot ch d).setDoneMask u).setLastMask v).Drives r x c w := h.of_eq rfl rfl rfl

theorem State.Drives.setChan {c' : Chan} (hi : c'.phase = .idle) (ht : c'.tsfr = false) (hr : c'.rdy = true)
    (hw : c'.ctrl (Params.dir s.cfg x.ch) = v) : (s.setChan x.ch c').Drives r x c' v where
  desc := h.desc
  lt := h.lt
  sized := by simpa using h.sized
  chan := s.setChan_chan_same c' h.sized
  idle := hi
  tsfr := ht
  rdy := hr
  ctrl := hw

theorem State.Drives.withMasks (m : XferMode) :
    (s.setChan x.ch (c.withMasks m)).Drives r x (c.withMasks m) (w ||| beginIrqMask m) := by
  refine h.setChan ?_ ?_ ?_ ((ctrl_withMasks ..).trans (by rw [h.ctrl]))
  · cases m <;> exact h.idle
  · cases m <;> exact h.tsfr
  · cases m <;> exact h.rdy

theorem State.Drives.withMode (b : Bool) :
    (s.setChan x.ch (c.withMode b)).Drives r x (c.withMode b) (assignMode b w) :=
  h.setChan h.idle h.tsfr h.rdy ((ctrl_withMode ..).trans (by rw [h.ctrl]))

theorem State.Drives.withBuffer (f : DescFields) :
    (s.setChan x.ch (c.withBuffer f)).Drives r x (c.withBuffer f) w :=
  h.setChan h.idle h.tsfr h.rdy h.ctrl

theorem State.Drives.setDescDone (b : Bool) : (s.setDescDone r b).Drives r { x with done := b } c w where
  desc := setDescDone_desc h.desc b
  lt := by simpa using h.lt
  sized := by simpa using h.sized
  chan := by simpa using h.chan
  idle := h.idle
  tsfr := h.tsfr
  rdy := h.rdy
  ctrl := by simpa using h.ctrl

variable {i : Instr}

theorem State.Drives.readCtrl {k : Word → State → Out} :
    readStep i (.chCtrl x.ch) s k = k w (s.sawRead (.chCtrl x.ch) w) := by
  rw [readStep_ctrl h.lt, ctrlWord_eq, h.chan, h.ctrl]

variable {k : State → Out}

theorem State.Drives.writeCtrl {a b m : Bool} (hv : (c.configured a b m).ctrl (Params.dir s.cfg x.ch) = v) :
    writeStep i (.chCtrl x.ch) v s k = k ((s.sawWrite (.chCtrl x.ch) v).setChan x.ch (c.configured a b m)) := by
  have hgo : v.getLsbD 2 = false := hv ▸ (chCtrlWord_tsfr ..).trans h.tsfr
  rw [writeStep_ctrl h.lt hgo, h.chan, ← hv, ctrlWritten_configured h.idle]

theorem State.Drives.writeMasks (m : XferMode) :
    writeStep i (.chCtrl x.ch) (w ||| beginIrqMask m) s k =
      k ((s.sawWrite (.chCtrl x.ch) (w ||| beginIrqMask m)).setChan x.ch (c.withMasks m)) := by
  have hv := ctrl_withMasks c (Params.dir s.cfg x.ch) m
  rw [h.ctrl] at hv
  cases m <;> exact h.writeCtrl hv

theorem State.Drives.writeMode (b : Bool) :
    writeStep i (.chCtrl x.ch) (assignMode b w) s k =
      k ((s.sawWrite (.chCtrl x.ch) (assignMode b w)).setChan x.ch (c.withMode b)) :=
  h.writeCtrl ((ctrl_withMode ..).trans (by rw [h.ctrl]))

theorem State.Drives.writeGo (ha : c.mode = true ∨ (c.base.toNat % 4 = 0 ∧ c.len.toNat % 4 = 0)) :
    writeStep i (.chCtrl x.ch) (w ||| mTsfr) s k =
      k ((s.sawWrite (.chCtrl x.ch) (w ||| mTsfr)).setChan x.ch c.started) := by
  have hmode : (w ||| mTsfr).getLsbD 5 = c.mode := by
    rw [or_mTsfr_other _ (by decide), ← h.ctrl]
    exact chCtrlWord_mode ..
  have hchan := h.chan
  have haligned : (c.ctrlWritten (w ||| mTsfr)).startAligned = true :=
    ctrlWritten_startAligned_iff.2 (hmode.symm ▸ ha)
  rw [writeStep_go h.lt (or_mTsfr_tsfr w) (hchan ▸ h.idle) (hchan ▸ h.rdy) (hchan ▸ haligned), hchan, ← h.ctrl,
    started_ctrlWritten_go]

end Drives

/-! ### A record and an assignment commute: the state a run ends in is read with the records first -/

section Commute
variable {s : State} {ch : Nat} {c : Chan}

@[simp] theorem setChan_sawRead (g : Reg) (v : Word) :
    (s.setChan ch c).sawRead g v = (s.sawRead g v).setChan ch c := rfl
@[simp] theorem setChan_sawWrite (g : Reg) (v : Word) :
    (s.setChan ch c).sawWrite g v = (s.sawWrite g v).setChan ch c := rfl
@[simp] theorem setChan_sawWriteIf (b : Bool) (g : Reg) (v : Word) :
    (s.setChan ch c).sawWriteIf b g v = (s.sawWriteIf b g v).setChan ch c := by cases b <;> rfl
@[simp] theorem setChan_setGmask (g : Word) : (s.setChan ch c).setGmask g = (s.setGmask g).setChan ch c := rfl
@[simp] theorem setChan_setDescDone (r : Nat) (b : Bool) :
    (s.setChan ch c).setDescDone r b = (s.setDescDone r b).setChan ch c := by
  unfold State.setDescDone
  rw [State.setChan_descs]
  cases s.descs[r]? <;> rfl

@[simp] theorem setGmask_sawRead (m : Word) (g : Reg) (v : Word) :
    (s.setGmask m).sawRead g v = (s.sawRead g v).setGmask m := rfl
@[simp] theorem setGmask_sawWrite (m : Word) (g : Reg) (v : Word) :
    (s.setGmask m).sawWrite g v = (s.sawWrite g v).setGmask m := rfl
@[simp] theorem setGmask_sawWriteIf (m : Word) (b : Bool) (g : Reg) (v : Word) :
    (s.setGmask m).sawWriteIf b g v = (s.sawWriteIf b g v).setGmask m := by cases b <;> rfl

@[simp] theorem registered_sawRead (d : Option Nat) (u m : Word) (g : Reg) (v : Word) :
    (((s.setSlot ch d).setDoneMask u).setLastMask m).sawRead g v =
      (((s.sawRead g v).setSlot ch d).setDoneMask u).setLastMask m := rfl
@[simp] theorem registered_sawWrite (d : Option Nat) (u m : Word) (g : Reg) (v : Word) :
    (((s.setSlot ch d).setDoneMask u).setLastMask m).sawWrite g v =
      (((s.sawWrite g v).setSlot ch d).setDoneMask u).setLastMask m := rfl
@[simp] theorem registered_sawWriteIf (d : Option Nat) (u m : Word) (b : Bool) (g : Reg) (v : Word) :
    (((s.setSlot ch d).setDoneMask u).setLastMask m).sawWriteIf b g v =
      (((s.sawWriteIf b g v).setSlot ch d).setDoneMask u).setLastMask m := by cases b <;> rfl

@[simp] theorem setDescDone_sawRead (r : Nat) (b : Bool) (g : Reg) (v : Word) :
    (s.setDescDone r b).sawRead g v = (s.sawRead g v).setDescDone r b := by
  unfold State.setDescDone
  rw [sawRead_descs]
  cases s.descs[r]? <;> rfl
@[simp] theorem setDescDone_sawWrite (r : Nat) (b : Bool) (g : Reg) (v : Word) :
    (s.setDescDone r b).sawWrite g v = (s.sawWrite g v).setDescDone r b := by
  unfold State.setDescDone
  rw [sawWrite_descs]
  cases s.descs[r]? <;> rfl

end Commute

/-! ### The steps past the validation (R101 steps 4 to 7) -/

/-- Where BEGIN goes after the local masks. -/
def afterMasks : XferMode → BeginPos
  | .polling => .gmaskRead
  | .interrupt => .modeRead

/-- Where BEGIN goes after the global mask. -/
def afterGmask : XferMode → BeginPos
  | .polling => .modeRead
  | .interrupt => .irqRead

/-- Where BEGIN goes after MODE: the address is written in store mode only. -/
def afterMode (ignore : Bool) : BeginPos := if ignore then .len else .base

section Steps
variable {s : State} {i : Instr} {r : Nat} {x : Desc} {c : Chan} {w : Word}

theorem beginStep_gmaskRead :
    beginStep i r x .gmaskRead s = .next ((s.sawRead .gmask s.gmask).goto (.begun r (.gmaskWrite s.gmask))) :=
  readStep_gmask (k := fun v => goOn (.begun r (.gmaskWrite v)))

theorem beginStep_gmaskWrite {v : Word} (hch : x.ch < s.cfg.numCh)
    (hv : ∀ k < 32, s.cfg.numCh ≤ k → v.getLsbD k = false) :
    beginStep i r x (.gmaskWrite v) s =
      .next (((s.sawWrite .gmask (beginGmask x.fields.mode x.ch v)).setGmask (beginGmask x.fields.mode x.ch v)).goto
        (.begun r (afterGmask x.fields.mode))) := by
  refine writeStep_gmask.trans ?_
  rw [and_chMask_eq_self (beginGmask_reserved hch hv)]
  rfl

variable (h : s.Drives r x c w)
include h

theorem State.Drives.beginStep_irqRead :
    beginStep i r x .irqRead s = .next ((s.sawRead (.chCtrl x.ch) w).goto (.begun r (.irqWrite w))) :=
  h.readCtrl (k := fun v => goOn (.begun r (.irqWrite v)))

theorem State.Drives.beginStep_irqWrite :
    beginStep i r x (.irqWrite w) s =
      .next (((s.sawWrite (.chCtrl x.ch) (w ||| beginIrqMask x.fields.mode)).setChan x.ch
        (c.withMasks x.fields.mode)).goto (.begun r (afterMasks x.fields.mode))) :=
  h.writeMasks _

theorem State.Drives.beginStep_modeRead :
    beginStep i r x .modeRead s = .next ((s.sawRead (.chCtrl x.ch) w).goto (.begun r (.modeWrite w))) :=
  h.readCtrl (k := fun v => goOn (.begun r (.modeWrite v)))

theorem State.Drives.beginStep_modeWrite :
    beginStep i r x (.modeWrite w) s =
      .next (((s.sawWrite (.chCtrl x.ch) (assignMode x.fields.ignore w)).setChan x.ch
        (c.withMode x.fields.ignore)).goto (.begun r (afterMode x.fields.ignore))) :=
  h.writeMode _

theorem State.Drives.beginStep_base :
    beginStep i r x .base s =
      .next (((s.sawWrite (.chBase x.ch) x.fields.ptr).setChan x.ch { c with base := x.fields.ptr }).goto
        (.begun r .len)) := by
  have hchan := h.chan
  subst hchan
  exact writeStep_base h.lt h.idle

theorem State.Drives.beginStep_len :
    beginStep i r x .len s =
      .next (((s.sawWrite (.chLen x.ch) x.fields.len).setChan x.ch { c with len := x.fields.len }).goto
        (.begun r .clearDone)) := by
  have hchan := h.chan
  subst hchan
  exact writeStep_len h.lt h.idle

theorem State.Drives.beginStep_goRead :
    beginStep i r x .goRead s = .next ((s.sawRead (.chCtrl x.ch) w).goto (.begun r (.goWrite w))) :=
  h.readCtrl (k := fun v => goOn (.begun r (.goWrite v)))

theorem State.Drives.beginStep_goWrite (ha : c.mode = true ∨ (c.base.toNat % 4 = 0 ∧ c.len.toNat % 4 = 0)) :
    beginStep i r x (.goWrite w) s =
      .next (((s.sawWrite (.chCtrl x.ch) (w ||| mTsfr)).setChan x.ch c.started).ret (.code .ok)) :=
  h.writeGo ha

end Steps

/-! ### The segments of a run -/

section Segments
variable {s : State} {d r : Nat} {x : Desc} {c : Chan} {w : Word} {m : XferMode}

/-- The descriptor goes into its channel's slot, and the channel's two tracker bits are cleared. -/
theorem begin_registers (hx : s.descs[r]? = some x) :
    runOp (.beginXfer 0 d) 3 (s.goto (.begun r .slot)) =
      .next ((((s.setSlot x.ch (some r)).setDoneMask (s.mgr.doneMask &&& ~~~bit x.ch)).setLastMask
        (s.mgr.lastMask &&& ~~~bit x.ch)).goto (.begun r .gmaskRead)) :=
  runOp_cons (exec_begun hx rfl) <| runOp_cons (exec_begun hx rfl) <| runOp_one (exec_begun hx rfl)

theorem begin_gmask (h : s.Drives r x c w) (hm : x.fields.mode = m)
    (hg : ∀ k < 32, s.cfg.numCh ≤ k → s.gmask.getLsbD k = false) :
    runOp (.beginXfer 0 d) 2 (s.goto (.begun r .gmaskRead)) =
      .next ((((s.sawRead .gmask s.gmask).sawWrite .gmask (beginGmask m x.ch s.gmask)).setGmask
        (beginGmask m x.ch s.gmask)).goto (.begun r (afterGmask m))) := by
  subst hm
  exact runOp_cons (exec_begun h.desc beginStep_gmaskRead)
    (runOp_one (exec_begun h.desc (beginStep_gmaskWrite h.lt hg)))

theorem begin_masks (h : s.Drives r x c w) (hm : x.fields.mode = m) :
    runOp (.beginXfer 0 d) 2 (s.goto (.begun r .irqRead)) =
      .next ((((s.sawRead (.chCtrl x.ch) w).sawWrite (.chCtrl x.ch) (w ||| beginIrqMask m)).setChan x.ch
        (c.withMasks m)).goto (.begun r (afterMasks m))) := by
  subst hm
  exact runOp_cons (exec_begun h.desc h.beginStep_irqRead) (runOp_one (exec_begun h.desc h.sawRead.beginStep_irqWrite))

theorem begin_mode (h : s.Drives r x c w) :
    runOp (.beginXfer 0 d) 2 (s.goto (.begun r .modeRead)) =
      .next ((((s.sawRead (.chCtrl x.ch) w).sawWrite (.chCtrl x.ch) (assignMode x.fields.ignore w)).setChan x.ch
        (c.withMode x.fields.ignore)).goto (.begun r (afterMode x.fields.ignore))) :=
  runOp_cons (exec_begun h.desc h.beginStep_modeRead) (runOp_one (exec_begun h.desc h.sawRead.beginStep_modeWrite))

theorem begin_buffer (h : s.Drives r x c w) :
    runOp (.beginXfer 0 d) (if x.fields.ignore then 1 else 2) (s.goto (.begun r (afterMode x.fields.ignore))) =
      .next ((((s.sawWriteIf (!x.fields.ignore) (.chBase x.ch) x.fields.ptr).sawWrite (.chLen x.ch)
        x.fields.len).setChan x.ch (c.withBuffer x.fields)).goto (.begun r .clearDone)) := by
  have hlen := h.beginStep_len (i := .beginXfer 0 d)
  unfold Chan.withBuffer
  cases x.fields.ignore with
  | true => exact runOp_one (exec_begun h.desc hlen)
  | false =>
    have hbase := (h.sawWrite (v := x.fields.ptr) (g := .chBase x.ch)).setChan (c' := { c with base := x.fields.ptr })
      h.idle h.tsfr h.rdy h.ctrl
    have hrun := runOp_cons (exec_begun h.desc h.beginStep_base)
      (runOp_one (exec_begun hbase.desc (hbase.beginStep_len (i := .beginXfer 0 d))))
    rwa [setChan_sawWrite, State.setChan_setChan] at hrun

/-- The done flag is cleared, and the go write starts the channel as it stands. -/
theorem begin_go (h : s.Drives r x c w) (ha : c.mode = true ∨ (c.base.toNat % 4 = 0 ∧ c.len.toNat % 4 = 0)) :
    runOp (.beginXfer 0 d) 3 (s.goto (.begun r .clearDone)) =
      .next (((((s.setDescDone r false).sawRead (.chCtrl x.ch) w).sawWrite (.chCtrl x.ch) (w ||| 4)).setChan x.ch
        c.started).ret (.code .ok)) := by
  have hdone := h.setDescDone false
  exact runOp_cons (exec_begun h.desc rfl) <| runOp_cons (exec_begun hdone.desc hdone.beginStep_goRead) <|
    runOp_one (exec_begun hdone.desc (hdone.sawRead.beginStep_goWrite ha))

/-- A buffer that BEGIN may start on meets the alignment rule of the channel set up for it (R92). -/
theorem withBuffer_aligned {f : DescFields}
    (ha : f.ignore = true ∨ (f.ptr.toNat % 4 = 0 ∧ f.len.toNat % 4 = 0)) :
    ((c.withMode f.ignore).withBuffer f).mode = true ∨
      (((c.withMode f.ignore).withBuffer f).base.toNat % 4 = 0 ∧
        ((c.withMode f.ignore).withBuffer f).len.toNat % 4 = 0) := by
  by_cases hi : f.ignore = true
  · exact .inl hi
  · rw [Chan.withBuffer, if_neg hi]
    exact .inr (ha.resolve_left hi)

/-- What both modes end with: MODE, the buffer, the done flag and the go write. -/
theorem begin_tail (h : s.Drives r x c w)
    (ha : x.fields.ignore = true ∨ (x.fields.ptr.toNat % 4 = 0 ∧ x.fields.len.toNat % 4 = 0)) :
    runOp (.beginXfer 0 d) (2 + ((if x.fields.ignore then 1 else 2) + 3)) (s.goto (.begun r .modeRead)) =
      .next (((((s.sawRead (.chCtrl x.ch) w |>.sawWrite (.chCtrl x.ch) (assignMode x.fields.ignore w)
        |>.sawWriteIf (!x.fields.ignore) (.chBase x.ch) x.fields.ptr |>.sawWrite (.chLen x.ch) x.fields.len
        |>.sawRead (.chCtrl x.ch) (assignMode x.fields.ignore w)
        |>.sawWrite (.chCtrl x.ch) (assignMode x.fields.ignore w ||| 4)).setDescDone r false).setChan x.ch
          ((c.withMode x.fields.ignore).withBuffer x.fields).started)).ret (.code .ok)) := by
  have hrun := runOp_trans (begin_mode (d := d) h) <| runOp_trans (begin_buffer (h.sawRead.sawWrite.withMode _)) <|
    begin_go ((h.sawRead.sawWrite.withMode _).sawWriteIf.sawWrite.withBuffer _) (withBuffer_aligned ha)
  simpa [State.setChan_setChan] using hrun

end Segments

/-- Settles O27: the two reads of the validation, the local masks, the global mask, and the tail both modes share. -/
theorem beginPollingRun : Obligations.BeginPollingRun := by
  unfold Obligations.BeginPollingRun
  rintro s d r ch x c w w1 w2 g hp hu hr hx hm rfl hnum hch hsize rfl hi ht hrdy hd ha hg rfl
    (rfl : w1 = s.ctrlWord x.ch ||| beginIrqMask .polling) (rfl : w2 = assignMode x.fields.ignore _)
    (rfl : g = beginGmask .polling x.ch s.gmask)
  have h : s.Drives r x (s.chan x.ch) (s.ctrlWord x.ch) := ⟨hx, hch, hsize, rfl, hi, ht, hrdy, rfl⟩
  have hentry := begin_validates_polling hp hu hr hx hnum hch hm hrdy
    (beginValidated_polling ((ctrlWord_dir s x.ch).trans hd) ((ctrlWord_rdy s x.ch).trans hrdy) hm)
  have hrun := runOp_trans hentry <| runOp_trans (begin_masks h.sawRead.sawRead hm) <|
    runOp_trans (begin_gmask (h.sawRead.sawRead.sawRead.sawWrite.withMasks _) hm (by simpa using hg)) <|
    begin_tail (h.sawRead.sawRead.sawRead.sawWrite.withMasks _).sawRead.sawWrite.setGmask ha
  have hsteps : (if x.fields.ignore then 13 else 14) =
      3 + (2 + (2 + (2 + ((if x.fields.ignore then 1 else 2) + 3)))) := by cases x.fields.ignore <;> rfl
  rw [hsteps, hrun]
  simp only [setChan_sawRead, setChan_sawWrite, setChan_sawWriteIf, setChan_setGmask, setChan_setDescDone,
    State.setChan_setChan, setGmask_sawRead, setGmask_sawWrite, setGmask_sawWriteIf, State.setChan_gmask,
    sawWrite_gmask, sawRead_gmask]
  rfl

/-- Settles O28: the read of the validation, the slot and the tracker, the global mask, the local masks, and the tail
both modes share. -/
theorem beginInterruptRun : Obligations.BeginInterruptRun := by
  unfold Obligations.BeginInterruptRun
  rintro s d r ch x c w w1 w2 g hp hu hr hx hm hmgr hpresent rfl hnum hch hsize rfl hi ht hrdy hd ha hg rfl
    (rfl : w1 = s.ctrlWord x.ch ||| beginIrqMask .interrupt) (rfl : w2 = assignMode x.fields.ignore _)
    (rfl : g = beginGmask .interrupt x.ch s.gmask)
  have h : s.Drives r x (s.chan x.ch) (s.ctrlWord x.ch) := ⟨hx, hch, hsize, rfl, hi, ht, hrdy, rfl⟩
  have hentry := begin_validates_interrupt hp hu hr hx hnum hch hm
    (beginValidated_interrupt ((ctrlWord_dir s x.ch).trans hd) ((ctrlWord_rdy s x.ch).trans hrdy) hm hmgr hpresent)
  have hrun := runOp_trans hentry <| runOp_trans (begin_registers h.sawRead.desc) <|
    runOp_trans (begin_gmask h.sawRead.registered hm (by simpa using hg)) <|
    runOp_trans (begin_masks h.sawRead.registered.sawRead.sawWrite.setGmask hm) <|
    begin_tail (h.sawRead.registered.sawRead.sawWrite.setGmask.sawRead.sawWrite.withMasks _) ha
  have hsteps : (if x.fields.ignore then 15 else 16) =
      2 + (3 + (2 + (2 + (2 + ((if x.fields.ignore then 1 else 2) + 3))))) := by cases x.fields.ignore <;> rfl
  rw [hsteps, hrun]
  simp only [setChan_sawRead, setChan_sawWrite, setChan_sawWriteIf, setChan_setDescDone, State.setChan_setChan,
    setGmask_sawRead, setGmask_sawWrite, setGmask_sawWriteIf, registered_sawRead, registered_sawWrite,
    registered_sawWriteIf, State.setLastMask_gmask, State.setDoneMask_gmask, State.setSlot_gmask, sawRead_gmask,
    sawRead_mgr]
  rfl

end Sys2Proof.Machine
end

section
/-! PROOFS. COMPLETE (R102) and CANCEL (R103): the entry, the waits by induction on what is left of the bound, the steps
both modes end with, and CANCEL's one write. -/

namespace Sys2Proof.Machine

open Sys2Proof

/-! ### The entry of COMPLETE (R102, R136) -/

section Enter
variable {s : State} {d r : Nat} {x : Desc} {n : Word} (hp : s.pos = .start)
include hp

theorem complete_noDesc (hr : s.refOf d = none) :
    exec (.completeXfer 0 d n) s = .fault (.badDescriptor (s.infoOf (.completeXfer 0 d n))) := by
  simp only [exec, execComplete, guardZero_zero, hp]
  exact withDesc_none hr

variable (hu : s.drvUsable = true) (hr : s.refOf d = some r) (hx : s.descs[r]? = some x)
include hu hr hx

theorem complete_enters_polling (hm : x.fields.mode = .polling) :
    exec (.completeXfer 0 d n) s = .next (s.goto (.completing r (if n = 0 then .pollForever else .poll n))) := by
  simp only [exec, execComplete, guardZero_zero, hp, completeEnter, withDesc_some hr hx, guardUsable_true hu, hm]
  rfl

theorem complete_enters_interrupt (hm : x.fields.mode = .interrupt) (hg : n = 0 ∨ x.fields.mgr = true) :
    exec (.completeXfer 0 d n) s = .next (s.goto (.completing r (if n = 0 then .waitForever else .wait n))) := by
  simp only [exec, execComplete, guardZero_zero, hp, completeEnter, withDesc_some hr hx, guardUsable_true hu, hm]
  by_cases hn : n = 0
  · simp only [if_pos hn]
    rfl
  · simp only [if_neg hn, if_pos (hg.resolve_left hn)]
    rfl

/-- Only the bounded wait asks for a manager reference. -/
theorem complete_noManager (hm : x.fields.mode = .interrupt) (hn : n ≠ 0) (hg : x.fields.mgr = false) :
    exec (.completeXfer 0 d n) s = .next (s.ret (.code .noManager)) := by
  simp only [exec, execComplete, guardZero_zero, hp, completeEnter, withDesc_some hr hx, guardUsable_true hu, hm,
    if_neg hn]
  exact if_neg (by simp [hg])

end Enter

/-! ### The steps of COMPLETE -/

theorem ctrlWord_tsfrDone (s : State) (ch : Nat) : (s.ctrlWord ch).getLsbD 3 = (s.chan ch).tsfrDone :=
  chCtrlWord_tsfrDone _ _ _ _ _ _ _

section Steps
variable {s : State} {i : Instr} {r : Nat} {x : Desc} {n : Word} {ok : Bool}

/-- A read that sees TSFRDONE ends the wait, bounded or not. -/
theorem completeStep_poll_done (hch : x.ch < s.cfg.numCh) (hd : (s.chan x.ch).tsfrDone = true) :
    completeStep i r x (if n = 0 then .pollForever else .poll n) s =
      .next ((s.sawRead (.chCtrl x.ch) (s.ctrlWord x.ch)).goto (.completing r (.readLen true))) := by
  split <;>
  · dsimp only [completeStep]
    rw [readStep_ctrl hch, ctrlWord_tsfrDone, if_pos hd]
    rfl

/-- A read that does not see TSFRDONE uses up one of the reads left. -/
theorem completeStep_poll_again (hch : x.ch < s.cfg.numCh) (hd : (s.chan x.ch).tsfrDone = false) :
    completeStep i r x (.poll n) s =
      .next ((s.sawRead (.chCtrl x.ch) (s.ctrlWord x.ch)).goto
        (.completing r (if n - 1 = 0 then .readLen false else .poll (n - 1)))) := by
  dsimp only [completeStep]
  rw [readStep_ctrl hch, ctrlWord_tsfrDone, if_neg (by simp [hd])]
  split <;> rfl

/-- A test that does not see d.done uses up one of the tests left. -/
theorem completeStep_wait_again (hd : x.done = false) :
    completeStep i r x (.wait n) s =
      .next (s.goto (.completing r (if n - 1 = 0 then .readLen false else .wait (n - 1)))) := by
  dsimp only [completeStep]
  rw [if_neg (by simp [hd])]
  split <;> rfl

theorem completeStep_waitForever_again (hd : x.done = false) :
    completeStep i r x .waitForever s = .next (s.goto (.completing r .waitForever)) :=
  if_neg (by simp [hd])

/-- A test that sees d.done ends the wait, bounded or not. -/
theorem completeStep_wait_done (hd : x.done = true) :
    completeStep i r x (if n = 0 then .waitForever else .wait n) s = .next (s.ret (.code .ok)) := by
  split <;> exact if_pos hd

theorem completeStep_readLen (hch : x.ch < s.cfg.numCh) :
    completeStep i r x (.readLen ok) s =
      .next ((s.sawRead (.chDoneLen x.ch) (s.chan x.ch).doneLen).goto
        (.completing r (.setTransferred ok (s.chan x.ch).doneLen))) :=
  readStep_doneLen (k := fun v => goOn (.completing r (.setTransferred ok v))) hch

theorem completeStep_setDone_noCallback (hcb : x.fields.cb = none) :
    completeStep i r x (.setDone ok) s = .next ((s.setDescDone r ok).ret (.code (completeCode ok))) :=
  if_neg (by simp [hcb])

variable {cb : Cb} (hcb : x.fields.cb = some cb)
include hcb

theorem completeStep_setDone_callback :
    completeStep i r x (.setDone ok) s = .next ((s.setDescDone r ok).goto (.completing r (.callback ok))) :=
  if_pos (by simp [hcb])

theorem completeStep_callback_returns (hre : cb.reenters = false) :
    completeStep i r x (.callback ok) s = .next ((s.emit (.callback r s.cur)).ret (.code (completeCode ok))) := by
  simp only [completeStep, hcb, runCallback, hre]
  rfl

theorem completeStep_callback_reenters (hre : cb.reenters = true) :
    completeStep i r x (.callback ok) s = .refused (.callbackReentry r) := by
  simp only [completeStep, hcb, runCallback, hre]
  rfl

end Steps

/-- Settles O33: the fault at the entry, and the last two steps by the callback. -/
theorem completeStopsAndEnds : Obligations.CompleteStopsAndEnds := by
  unfold Obligations.CompleteStopsAndEnds
  rintro s d r x n ok code (rfl : code = completeCode ok)
  refine ⟨complete_noDesc, fun hp hx => ?_, fun hp hx cb hcb => ?_⟩
  · rw [complete_at hp hx]
    exact ⟨completeStep_setDone_noCallback, fun cb hcb => completeStep_setDone_callback hcb⟩
  · rw [complete_at hp hx]
    exact ⟨completeStep_callback_returns hcb, completeStep_callback_reenters hcb⟩

/-! ### The segments of a run (R102) -/

section Segments
variable {s : State} {d r : Nat} {x : Desc} {n : Word}

/-- A word above 1 counts down to one that is not 0; the word 1 counts down to 0. -/
theorem sub_one_eq_zero_iff {m : Nat} (hn : n.toNat = m + 1) : n - 1 = 0 ↔ m = 0 := by
  bv_omega

theorem sub_one_toNat {m : Nat} (hn : n.toNat = m + 1) : (n - 1).toNat = m := by
  bv_omega

theorem sawReads_cfg (s : State) (g : Reg) (v : Word) (m : Nat) : (s.sawReads g v m).cfg = s.cfg := by
  induction m generalizing s with
  | zero => rfl
  | succ m ih => exact ih _

theorem sawReads_descs (s : State) (g : Reg) (v : Word) (m : Nat) : (s.sawReads g v m).descs = s.descs := by
  induction m generalizing s with
  | zero => rfl
  | succ m ih => exact ih _

theorem sawReads_chan (s : State) (g : Reg) (v : Word) (m k : Nat) : (s.sawReads g v m).chan k = s.chan k := by
  induction m generalizing s with
  | zero => rfl
  | succ m ih => exact ih _

/-- A bounded poll that never sees TSFRDONE makes as many reads as its bound says. -/
theorem complete_polls {v : Word} {m : Nat} (hx : s.descs[r]? = some x) (hch : x.ch < s.cfg.numCh)
    (hd : (s.chan x.ch).tsfrDone = false) (hn : n.toNat = m + 1) :
    runOp (.completeXfer 0 d v) (m + 1) (s.goto (.completing r (.poll n))) =
      .next ((s.sawReads (.chCtrl x.ch) (s.ctrlWord x.ch) (m + 1)).goto (.completing r (.readLen false))) := by
  induction m generalizing s n with
  | zero =>
    refine runOp_one (exec_completing hx ((completeStep_poll_again hch hd).trans ?_))
    rw [if_pos ((sub_one_eq_zero_iff hn).2 rfl)]
    rfl
  | succ m ih =>
    refine runOp_cons (exec_completing hx (completeStep_poll_again hch hd)) ?_
    rw [if_neg (mt (sub_one_eq_zero_iff hn).1 (Nat.succ_ne_zero m))]
    exact ih (s := s.sawRead _ _) hx hch hd (sub_one_toNat hn)

/-- A bounded wait that never sees d.done makes as many tests as its bound says, and no access. -/
theorem complete_waits {v : Word} {m : Nat} (hx : s.descs[r]? = some x) (hd : x.done = false) (hn : n.toNat = m + 1) :
    runOp (.completeXfer 0 d v) (m + 1) (s.goto (.completing r (.wait n))) =
      .next (s.goto (.completing r (.readLen false))) := by
  induction m generalizing n with
  | zero =>
    refine runOp_one (exec_completing hx ((completeStep_wait_again hd).trans ?_))
    rw [if_pos ((sub_one_eq_zero_iff hn).2 rfl)]
  | succ m ih =>
    refine runOp_cons (exec_completing hx (completeStep_wait_again hd)) ?_
    rw [if_neg (mt (sub_one_eq_zero_iff hn).1 (Nat.succ_ne_zero m))]
    exact ih (sub_one_toNat hn)

theorem complete_waitsForever {v : Word} (hx : s.descs[r]? = some x) (hd : x.done = false) (k : Nat) :
    runOp (.completeXfer 0 d v) k (s.goto (.completing r .waitForever)) =
      .next (s.goto (.completing r .waitForever)) := by
  induction k with
  | zero => rfl
  | succ k ih => exact runOp_cons (exec_completing hx (completeStep_waitForever_again hd)) ih

/-- What both modes end with: the done-length into the descriptor, d.done, and the callback if there is one. -/
theorem complete_tail {v : Word} {ok : Bool} (hx : s.descs[r]? = some x) (hch : x.ch < s.cfg.numCh)
    (hcb : CbReturns x.fields.cb) :
    runOp (.completeXfer 0 d v) (if x.fields.cb.isSome then 4 else 3) (s.goto (.completing r (.readLen ok))) =
      .next (((((s.sawRead (.chDoneLen x.ch) (s.chan x.ch).doneLen).setDescTransferred r
        (s.chan x.ch).doneLen).setDescDone r ok).calledBack r x.fields.cb).ret (.code (completeCode ok))) := by
  have hread : (s.sawRead (.chDoneLen x.ch) (s.chan x.ch).doneLen).descs[r]? = some x := hx
  have hlen := setDescTransferred_desc hread (s.chan x.ch).doneLen
  have hdone := setDescDone_desc hlen ok
  cases h : x.fields.cb with
  | none =>
    exact runOp_cons (exec_completing hx (completeStep_readLen hch)) <| runOp_cons (exec_completing hread rfl) <|
      runOp_one (exec_completing hlen (completeStep_setDone_noCallback h))
  | some cb =>
    exact runOp_cons (exec_completing hx (completeStep_readLen hch)) <| runOp_cons (exec_completing hread rfl) <|
      runOp_cons (exec_completing hlen (completeStep_setDone_callback h)) <|
      runOp_one (exec_completing hdone (completeStep_callback_returns h (hcb cb h)))

end Segments

/-- Settles O30: the entry, the one read that sees TSFRDONE, and the steps both modes end with. -/
theorem completePollingRun : Obligations.CompletePollingRun := by
  unfold Obligations.CompletePollingRun
  intro s d r x n hp hu hr hx hm hch hcb hd
  have hrun := runOp_cons (complete_enters_polling (n := n) hp hu hr hx hm) <|
    runOp_cons (exec_completing hx (completeStep_poll_done hch hd)) <|
    complete_tail (s := s.sawRead _ _) hx hch hcb
  have hsteps : (if x.fields.cb.isSome then 6 else 5) = (if x.fields.cb.isSome then 4 else 3) + 1 + 1 := by
    cases x.fields.cb <;> rfl
  rw [hsteps]
  exact hrun

/-- Settles O31: the entry, the reads (`complete_polls`), and the steps both modes end with. -/
theorem completeTimeoutRun : Obligations.CompleteTimeoutRun := by
  unfold Obligations.CompleteTimeoutRun
  intro s d r x n hp hu hr hx hm hch hcb hd hn
  obtain ⟨m, hcount⟩ := Nat.exists_eq_succ_of_ne_zero hn.ne'
  have henter := complete_enters_polling (n := n) hp hu hr hx hm
  rw [if_neg (BitVec.toNat_ne_iff_ne.1 hn.ne')] at henter
  have htail := complete_tail (d := d) (v := n) (ok := false) (s := s.sawReads (.chCtrl x.ch) (s.ctrlWord x.ch) (m + 1))
    (by rwa [sawReads_descs]) (by rwa [sawReads_cfg]) hcb
  rw [sawReads_chan] at htail
  rw [hcount]
  exact runOp_trans (runOp_trans (runOp_one henter) (complete_polls hx hch hd hcount)) htail

/-- Settles O32: the entry, the tests (`complete_waits`), and the steps both modes end with. -/
theorem completeInterruptRuns : Obligations.CompleteInterruptRuns := by
  unfold Obligations.CompleteInterruptRuns
  intro s d r x n hp hu hr hx hm
  have henter := complete_enters_interrupt (n := n) hp hu hr hx hm
  refine ⟨fun hg hd => runOp_cons (henter hg) (runOp_one (exec_completing hx (completeStep_wait_done hd))),
    fun hn hd k => ?_, complete_noManager hp hu hr hx hm, fun hn hg hd hch hcb => ?_⟩
  · have hwait := henter (.inl hn)
    rw [if_pos hn] at hwait
    exact runOp_cons hwait (complete_waitsForever hx hd k)
  · have hwait := henter (.inr hg)
    rw [if_neg hn] at hwait
    obtain ⟨m, hcount⟩ := Nat.exists_eq_succ_of_ne_zero (BitVec.toNat_ne_iff_ne.2 hn)
    rw [hcount]
    exact runOp_trans (runOp_trans (runOp_one hwait) (complete_waits hx hd hcount)) (complete_tail hx hch hcb)

/-! ### CANCEL (R103) -/

section Cancel
variable {s : State} {d r : Nat} {x : Desc}

theorem cancel_noDesc (hp : s.pos = .start) (hr : s.refOf d = none) :
    exec (.cancelXfer 0 d) s = .fault (.badDescriptor (s.infoOf (.cancelXfer 0 d))) := by
  simp only [exec, execCancel, guardZero_zero, hp]
  exact withDesc_none hr

/-- Past the descriptor and the usability check, the step is the check of the channel. -/
theorem cancel_enter (hp : s.pos = .start) (hu : s.drvUsable = true) (hr : s.refOf d = some r)
    (hx : s.descs[r]? = some x) :
    exec (.cancelXfer 0 d) s =
      guardIdx (.cancelXfer 0 d) (x.ch < s.drvNumCh.toNat) s (goOn (.cancelWrite r) s) := by
  simp only [exec, execCancel, guardZero_zero, hp, withDesc_some hr hx, guardUsable_true hu]

/-- The last step is a write of 0 to the control word. -/
theorem cancel_at (hp : s.pos = .cancelWrite r) (hx : s.descs[r]? = some x) :
    exec (.cancelXfer 0 d) s = writeStep (.cancelXfer 0 d) (.chCtrl x.ch) 0 s (done (.code .ok)) := by
  simp only [exec, execCancel, guardZero_zero, hp, withRef_some hx]

/-- A write of 0 clears the masks, MODE, TSFRDONE and RDY, and aborts a busy channel. -/
theorem ctrlWritten_zero {c : Chan} (h : c.phase = .idle → c.tsfr = false) :
    c.ctrlWritten 0 =
      { c with
        irqDone := false, irqLast := false, mode := false, tsfr := false, tsfrDone := false, rdy := false
        phase := .idle } := by
  have htsfr : (if c.phase = .busy then false else c.tsfr) = false := by
    split
    · rfl
    next hb => exact h (phase_idle_of_not_busy hb)
  rw [ctrlWritten_eq, htsfr]
  simp

end Cancel

/-- Settles O34: the entry checks in their order, and the write of 0 at its position and after the entry. -/
theorem cancelRun : Obligations.CancelRun := by
  unfold Obligations.CancelRun
  intro s d r x c
  refine ⟨cancel_noDesc, fun hp hu hr hx hnum => ?_, ?_⟩
  · rw [cancel_enter hp hu hr hx, guardIdx_false (decide_eq_false (Nat.not_lt.2 hnum))]
    rfl
  rintro hx hch rfl hc t rfl
  have hwrite := writeStep_ctrl (i := .cancelXfer 0 d) (v := 0) (k := done (.code .ok)) hch (by decide)
  rw [ctrlWritten_zero hc] at hwrite
  refine ⟨fun hp => (cancel_at hp hx).trans hwrite, fun hp hu hr hnum => ?_⟩
  refine runOp_cons ((cancel_enter hp hu hr hx).trans (guardIdx_true (decide_eq_true hnum))) (runOp_one ?_)
  exact (cancel_at (State.goto_pos _ _) hx).trans ((writeStep_goto fun _ => done_goto _).trans hwrite)

end Sys2Proof.Machine
end

section
/-! PROOFS. MGR_INIT (R104): its steps, and the slots as its loop leaves them, by induction on the channels it has cleared. -/

namespace Sys2Proof.Machine

open Sys2Proof

/-! ### The slots as the loop of MGR_INIT leaves them -/

section Slots
variable (s : State) (n : Nat)

/-- The slots of the channels `0` to `n-1` cleared, in ascending order. -/
def State.clearSlots (s : State) : Nat → State
  | 0 => s
  | n + 1 => (s.clearSlots n).setSlot n none

theorem setSlot_none_slot (ch k : Nat) : (s.setSlot ch none).slot k = if k = ch then none else s.slot k := by
  split
  next h =>
    rw [h, State.slot, State.setSlot_slots, List.getD_eq_getElem?_getD, List.getElem?_set_self']
    cases s.mgr.slots[ch]? <;> rfl
  next h => exact s.setSlot_slot_other none h

theorem clearSlots_slot (k : Nat) : (s.clearSlots n).slot k = if k < n then none else s.slot k := by
  induction n with
  | zero => rfl
  | succ n ih =>
    rw [State.clearSlots, setSlot_none_slot, ih]
    by_cases hk : k = n
    · rw [if_pos hk, if_pos (by omega)]
    · simp only [Nat.lt_succ_iff_lt_or_eq, hk, or_false, if_false]

theorem clearSlots_length : (s.clearSlots n).mgr.slots.length = s.mgr.slots.length := by
  induction n with
  | zero => rfl
  | succ n ih => rw [State.clearSlots, State.setSlot_slots, List.length_set, ih]

/-- Nothing but the slots changes. -/
theorem clearSlots_eq :
    s.clearSlots n = { s with mgr := { s.mgr with slots := (s.clearSlots n).mgr.slots } } := by
  induction n with
  | zero => rfl
  | succ n ih => rw [State.clearSlots, ih]; rfl

theorem clearSlots_drvNumCh : (s.clearSlots n).drvNumCh = s.drvNumCh := by rw [clearSlots_eq]

end Slots

/-! ### The steps (R104) -/

/-- Where MGR_INIT goes with `ch` channels cleared of the `num` that DMA_INIT counted. -/
def mgrNext (num : Word) (ch : Nat) : Pos := if ch < num.toNat then .mgrSlot ch else .mgrDoneMask

section Steps
variable {s : State}

theorem mgrInit_start (hp : s.pos = .start) (hu : s.drvUsable = true) :
    exec (.mgrInit 0) s = .next (s.goto (mgrNext s.drvNumCh 0)) := by
  simp only [exec, execMgrInit, guardZero_zero, hp, guardUsable_true hu]
  rfl

theorem mgrInit_slot {ch : Nat} (hp : s.pos = .mgrSlot ch) :
    exec (.mgrInit 0) s = .next ((s.setSlot ch none).goto (mgrNext s.drvNumCh (ch + 1))) := by
  simp only [exec, execMgrInit, guardZero_zero, hp]
  rfl

theorem mgrInit_doneMask (hp : s.pos = .mgrDoneMask) :
    exec (.mgrInit 0) s = .next ((s.setDoneMask 0).goto .mgrLastMask) := by
  simp only [exec, execMgrInit, guardZero_zero, hp]
  rfl

theorem mgrInit_lastMask (hp : s.pos = .mgrLastMask) :
    exec (.mgrInit 0) s = .next ((s.setLastMask 0).goto .mgrPresent) := by
  simp only [exec, execMgrInit, guardZero_zero, hp]
  rfl

theorem mgrInit_present (hp : s.pos = .mgrPresent) :
    exec (.mgrInit 0) s = .next (s.setPresent.ret (.code .ok)) := by
  simp only [exec, execMgrInit, guardZero_zero, hp]
  rfl

/-- The loop clears one slot a step, and goes to the masks after the last. -/
theorem mgrInit_clears {n : Nat} (hn : n ≤ s.drvNumCh.toNat) :
    runOp (.mgrInit 0) n (s.goto (mgrNext s.drvNumCh 0)) =
      .next ((s.clearSlots n).goto (mgrNext s.drvNumCh n)) := by
  induction n with
  | zero => rfl
  | succ n ih =>
    have hpos : mgrNext s.drvNumCh n = .mgrSlot n := if_pos hn
    refine runOp_trans (ih (Nat.le_of_succ_le hn)) (runOp_one ((mgrInit_slot ((State.goto_pos _ _).trans hpos)).trans ?_))
    rw [State.goto_setSlot, State.goto_goto, State.goto_drvNumCh, clearSlots_drvNumCh]
    rfl

/-- What follows the loop: both masks, and the manager is present. -/
theorem mgrInit_tail : runOp (.mgrInit 0) 3 (s.goto .mgrDoneMask) =
    .next (((s.setDoneMask 0).setLastMask 0).setPresent.ret (.code .ok)) := by
  rw [runOp_step (mgrInit_doneMask (State.goto_pos _ _)), runOp_step (mgrInit_lastMask (State.goto_pos _ _)),
    runOp_one (mgrInit_present (State.goto_pos _ _))]
  simp only [State.goto_setDoneMask, State.goto_setLastMask, State.goto_setPresent, State.ret_goto]

end Steps

/-- Settles O35: the entry, the loop (`mgrInit_clears`), and the three steps after it. -/
theorem mgrInitRun : Obligations.MgrInitRun := by
  unfold Obligations.MgrInitRun
  intro s
  refine ⟨mgrInit_present, fun hp hu => ⟨(s.clearSlots s.drvNumCh.toNat).mgr.slots, clearSlots_length s _,
    clearSlots_slot s _, ?_⟩⟩
  have hloop := mgrInit_clears (s := s) (le_refl _)
  have hdone : mgrNext s.drvNumCh s.drvNumCh.toNat = .mgrDoneMask := if_neg (lt_irrefl _)
  rw [hdone, clearSlots_eq] at hloop
  exact runOp_cons (mgrInit_start hp hu) (runOp_trans hloop mgrInit_tail)

end Sys2Proof.Machine
end

section
/-! PROOFS. UPDATE step by step (R105): what `updateStep` leads to at each position where its accesses go through, and the
step of UPDATE that runs it. -/

namespace Sys2Proof.Machine

open Sys2Proof

/-! ### One step of UPDATE, wherever it runs -/

/-- The loop of UPDATE at channel `ch`: its status read comes next, or the loop has ended. -/
def updateLoop (ch : Nat) (s : State) : UpdateFlow :=
  if ch < s.drvNumCh.toNat then .go (.chan ch) s else .fin .ok s

theorem updateNext_eq (ch : Nat) (s : State) : updateNext ch s = updateLoop (ch + 1) s := rfl

theorem istatWord_done (s : State) (ch : Nat) : (s.istatWord ch).getLsbD 0 = (s.chan ch).istDone :=
  twoBitWord_bit0 _ _

theorem istatWord_last (s : State) (ch : Nat) : (s.istatWord ch).getLsbD 1 = (s.chan ch).istLast :=
  twoBitWord_bit1 _ _

/-- The two bits of the global status tell whether it is 0. -/
theorem gstatus_event (s : State) : (s.gstatus.getLsbD 0 || s.gstatus.getLsbD 1) = decide (s.gstatus ≠ 0) := by
  rw [Bool.eq_iff_iff, decide_eq_true_iff]
  refine Iff.trans ?_ (not_congr (twoBitWord_eq_zero s.doneAny s.lastAny)).symm
  rw [State.gstatus, twoBitWord_bit0, twoBitWord_bit1]
  cases s.doneAny <;> simp

section Steps
variable {s : State} {w : Who} (hw : w.agent = s.cur)

theorem updateStep_enter (hu : s.drvUsable = true) (hm : s.mgr.present = true) :
    updateStep w .enter s = .go .gstatus s := by
  rw [updateStep, if_pos hu, if_pos hm]

theorem updateStep_uninit (hu : s.drvUsable = true) (hm : s.mgr.present = false) :
    updateStep w .enter s = .stop (.managerUninit w.noAddr) := by
  rw [updateStep, if_pos hu, if_neg (by simp [hm])]

include hw

/-- A read of a register whose read changes nothing. -/
theorem updateRead_plain {r : Reg} {v : Word} {k : Word → State → UpdateFlow} (h : r.check s.cfg = .present)
    (hr : readReg r s = (v, s)) : updateRead w r s k = k v (s.sawRead r v) := by
  simp only [updateRead, busRead_present h, hr, hw, State.sawRead]

theorem updateStep_gstatus : updateStep w .gstatus s =
    if s.gstatus = 0 then .fin .ok (s.sawRead .gstatus s.gstatus)
    else updateLoop 0 (s.sawRead .gstatus s.gstatus) := by
  obtain ⟨-, -, -, hpresent⟩ := check_header s.cfg
  rw [updateStep, updateRead_plain hw hpresent rfl, gstatus_event]
  by_cases h : s.gstatus = 0
  · rw [if_neg (by simp [h]), if_pos h]
  · rw [if_pos (decide_eq_true h), if_neg h]
    rfl

variable {ch : Nat} (hch : ch < s.cfg.numCh)
include hch

/-- The status read goes on to the part of the first event it saw, or to the next channel. -/
theorem updateStep_chan : updateStep w (.chan ch) s =
    if (s.chan ch).istDone then
      .go (.markDone ch (s.istatWord ch) (s.slot ch)) (s.sawRead (.chIstat ch) (s.istatWord ch))
    else if (s.chan ch).istLast then
      .go (.markLast ch (s.istatWord ch) (s.slot ch)) (s.sawRead (.chIstat ch) (s.istatWord ch))
    else updateLoop (ch + 1) (s.sawRead (.chIstat ch) (s.istatWord ch)) := by
  obtain ⟨-, -, -, -, histat⟩ := check_chan hch
  rw [updateStep, updateRead_plain hw histat rfl, istatWord_done, istatWord_last]
  rfl

theorem updateStep_readLen {st : Word} {r : Nat} : updateStep w (.readLen ch st r) s =
    .go (.setTransferred ch st r (s.chan ch).doneLen) (s.sawRead (.chDoneLen ch) (s.chan ch).doneLen) := by
  obtain ⟨-, -, -, hlen, -⟩ := check_chan hch
  rw [updateStep, updateRead_plain hw hlen rfl]

section Ack
variable {st : Word} {d : Option Nat} {t : State}
  (ht : t = (s.sawWrite (.chIstat ch) st).setChan ch ((s.chan ch).acked s.cfg.irqAckClearsAll st))
include ht

theorem busWrite_ack : busWrite w (.chIstat ch) st s = .ok t := by
  obtain ⟨-, -, -, -, histat⟩ := check_chan hch
  rw [busWrite_present histat, hw, ht]
  rfl

/-- After the acknowledge the callback comes next where the slot's descriptor has one. -/
theorem updateStep_ack_callback {c : Nat × Cb} (hcb : s.slotCb d = some c) :
    updateStep w (.ack ch st d) s = .go (.callback ch c.1) t := by
  have hcb' : t.slotCb d = some c := by rw [ht]; exact hcb
  simp only [updateStep, busWrite_ack hw hch ht, hcb']

theorem updateStep_ack_quiet (hcb : s.slotCb d = none) :
    updateStep w (.ack ch st d) s = updateLoop (ch + 1) t := by
  have hcb' : t.slotCb d = none := by rw [ht]; exact hcb
  simp only [updateStep, busWrite_ack hw hch ht, hcb', updateNext_eq]

end Ack
end Steps

/-! ### The steps of the operation UPDATE -/

section Update
variable {s : State}

/-- A step of UPDATE inside it is `updateStep` at its position. -/
theorem update_at {u : UpdatePos} (hp : s.pos = .updating u) :
    exec (.update 0) s = runUpdate (s.who (.update 0)) u .updating (fun c => done (.code c)) s := by
  simp only [exec, execUpdate, guardZero_zero, State.updatePos, hp]

theorem update_start (hp : s.pos = .start) :
    exec (.update 0) s = runUpdate (s.who (.update 0)) .enter .updating (fun c => done (.code c)) s := by
  simp only [exec, execUpdate, guardZero_zero, State.updatePos, hp]

variable {w : Who} {u v : UpdatePos} {q : UpdatePos → Pos} {k : ResCode → State → Out} {t : State} {c : ResCode}

theorem runUpdate_go (h : updateStep w u s = .go v t) : runUpdate w u q k s = .next (t.goto (q v)) := by
  rw [runUpdate, h]
  rfl

theorem runUpdate_fin (h : updateStep w u s = .fin c t) : runUpdate w u q k s = k c t := by
  rw [runUpdate, h]

theorem runUpdate_stop {f : Fault} (h : updateStep w u s = .stop f) : runUpdate w u q k s = .fault f := by
  rw [runUpdate, h]

end Update

theorem updateLoop_more {ch : Nat} {s : State} (h : ch < s.drvNumCh.toNat) : updateLoop ch s = .go (.chan ch) s :=
  if_pos h

theorem updateLoop_end {ch : Nat} {s : State} (h : s.drvNumCh.toNat ≤ ch) : updateLoop ch s = .fin .ok s :=
  if_neg (Nat.not_lt.2 h)

/-- Settles O36: each step is `updateStep` at its position, by the bits it reads. -/
theorem updateSteps : Obligations.UpdateSteps := by
  unfold Obligations.UpdateSteps
  intro s
  refine ⟨fun hp hu => ⟨fun hm => ?_, fun hm => ?_⟩, fun hp => ⟨fun hg => ?_, fun hg hn => ?_⟩, ?_⟩
  · exact (update_start hp).trans (runUpdate_stop (updateStep_uninit hu hm))
  · exact (update_start hp).trans (runUpdate_go (updateStep_enter hu hm))
  · have h := updateStep_gstatus (w := s.who (.update 0)) (s := s) rfl
    rw [if_pos hg, hg] at h
    exact (update_at hp).trans (runUpdate_fin h)
  · have h := updateStep_gstatus (w := s.who (.update 0)) (s := s) rfl
    rw [if_neg hg, updateLoop_more (by exact hn)] at h
    exact (update_at hp).trans (runUpdate_go h)
  rintro ch c hch rfl
  refine ⟨?_, fun st d hp hall hcb hn => ?_⟩
  · rintro hp t rfl
    have h := updateStep_chan (w := s.who (.update 0)) rfl hch
    rw [update_at hp]
    refine ⟨fun hd => ?_, fun hd hl => ?_, fun hd hl hn => ?_, fun hd hl hn => ?_⟩
    · rw [if_pos hd] at h
      exact runUpdate_go h
    · rw [hd, hl] at h
      exact runUpdate_go h
    · rw [hd, hl] at h
      exact runUpdate_go (h.trans (updateLoop_more hn))
    · rw [hd, hl] at h
      exact runUpdate_fin (h.trans (updateLoop_end hn))
  · have h := updateStep_ack_quiet (w := s.who (.update 0)) (st := st) rfl hch rfl hcb
    rw [hall, acked_written] at h
    exact (update_at hp).trans (runUpdate_fin (h.trans (updateLoop_end hn)))

end Sys2Proof.Machine
end

section
/-! PROOFS. The service of one channel (R105) as one function: what each of its parts does to the channels, the tracker's
masks and the descriptors, and that the rest is left alone. -/

namespace Sys2Proof.Machine

open Sys2Proof

/-! ### What the service leaves alone -/

/-- The service of a channel may have led from `s` to `t`: only the channels, the tracker's masks, the descriptors and the
history differ, the history has grown, and every descriptor has the callback it had. -/
structure State.Served (s t : State) : Prop where
  frame : ∃ cs m l ds h,
    t = { s with chans := cs, mgr := { s.mgr with doneMask := m, lastMask := l }, descs := ds, hist := h }
  hist : s.hist <:+ t.hist
  slotCb : ∀ d, t.slotCb d = s.slotCb d

section Served
variable {s t u : State}

theorem State.Served.self : s.Served s := ⟨⟨_, _, _, _, _, rfl⟩, List.suffix_rfl, fun _ => rfl⟩

theorem State.Served.trans (h : s.Served t) (k : t.Served u) : s.Served u where
  frame := by
    obtain ⟨_, _, _, _, _, rfl⟩ := h.frame
    obtain ⟨cs, m, l, ds, hs, rfl⟩ := k.frame
    exact ⟨cs, m, l, ds, hs, rfl⟩
  hist := h.hist.trans k.hist
  slotCb d := (k.slotCb d).trans (h.slotCb d)

theorem State.Served.cfg (h : s.Served t) : t.cfg = s.cfg := by
  obtain ⟨_, _, _, _, _, rfl⟩ := h.frame; rfl

theorem State.Served.drvNumCh (h : s.Served t) : t.drvNumCh = s.drvNumCh := by
  obtain ⟨_, _, _, _, _, rfl⟩ := h.frame; rfl

theorem State.Served.cur (h : s.Served t) : t.cur = s.cur := by
  obtain ⟨_, _, _, _, _, rfl⟩ := h.frame; rfl

theorem State.Served.slot (h : s.Served t) (ch : Nat) : t.slot ch = s.slot ch := by
  obtain ⟨_, _, _, _, _, rfl⟩ := h.frame; rfl

theorem State.Served.callbacksReturn (h : s.Served t) (hs : s.CallbacksReturn) : t.CallbacksReturn := by
  intro ch x hx
  rw [h.slot, h.slotCb] at hx
  exact hs ch x hx

theorem emit_served (s : State) (e : Event) : s.Served (s.emit e) :=
  ⟨⟨_, _, _, _, _, rfl⟩, List.suffix_cons _ _, fun _ => rfl⟩

theorem setDoneMask_served (s : State) (m : Word) : s.Served (s.setDoneMask m) :=
  ⟨⟨_, _, _, _, _, rfl⟩, List.suffix_rfl, fun _ => rfl⟩

theorem setLastMask_served (s : State) (m : Word) : s.Served (s.setLastMask m) :=
  ⟨⟨_, _, _, _, _, rfl⟩, List.suffix_rfl, fun _ => rfl⟩

theorem setChan_served (s : State) (ch : Nat) (c : Chan) : s.Served (s.setChan ch c) :=
  ⟨⟨_, _, _, _, _, rfl⟩, List.suffix_rfl, fun _ => rfl⟩

/-- A descriptor replaced by one with the same fields has the same callback. -/
theorem setDesc_served {r : Nat} {x y : Desc} (hx : s.descs[r]? = some x) (hy : y.fields = x.fields) :
    s.Served (s.setDesc r y) := by
  refine ⟨⟨_, _, _, _, _, rfl⟩, List.suffix_rfl, fun d => ?_⟩
  cases d with
  | none => rfl
  | some k =>
    by_cases hk : r = k
    · subst hk
      simp only [State.slotCb, setDesc_desc hx, hx, hy]
    · simp only [State.slotCb, State.setDesc_descs, List.getElem?_set_ne hk]

theorem setDescDone_served (s : State) (r : Nat) (b : Bool) : s.Served (s.setDescDone r b) := by
  unfold State.setDescDone
  split
  next x hx => exact setDesc_served hx rfl
  next => exact .self

theorem setDescTransferred_served (s : State) (r : Nat) (n : Word) : s.Served (s.setDescTransferred r n) := by
  unfold State.setDescTransferred
  split
  next x hx => exact setDesc_served hx rfl
  next => exact .self

end Served

/-! ### The transfer-done part -/

section Parts
variable {s : State} {ch : Nat}

/-- The descriptor of a slot after a transfer-done event (R105). -/
def State.recordDone (s : State) (ch r : Nat) : State :=
  ((s.sawRead (.chDoneLen ch) (s.chan ch).doneLen).setDescTransferred r (s.chan ch).doneLen).setDescDone r true

theorem recordDone_served (s : State) (ch r : Nat) : s.Served (s.recordDone ch r) :=
  ((emit_served _ _).trans (setDescTransferred_served _ _ _)).trans (setDescDone_served _ _ _)

theorem recordDone_chans (s : State) (ch r : Nat) : (s.recordDone ch r).chans = s.chans := by
  simp [State.recordDone]

theorem recordDone_mgr (s : State) (ch r : Nat) : (s.recordDone ch r).mgr = s.mgr := by
  simp [State.recordDone]

theorem recordDone_desc {r : Nat} {x : Desc} (hx : s.descs[r]? = some x) :
    (s.recordDone ch r).descs[r]? = some { x with done := true, transferred := (s.chan ch).doneLen } :=
  setDescDone_desc (setDescTransferred_desc (s := s.sawRead _ _) hx _) _

theorem setDescDone_desc_other {r k : Nat} (h : r ≠ k) (b : Bool) : (s.setDescDone r b).descs[k]? = s.descs[k]? := by
  obtain hd | ⟨x, y, -, -, hd⟩ := descs_setDescDone_cases s r b <;> rw [hd]
  exact List.getElem?_set_ne h

theorem setDescTransferred_desc_other {r k : Nat} (h : r ≠ k) (n : Word) :
    (s.setDescTransferred r n).descs[k]? = s.descs[k]? := by
  obtain hd | ⟨x, y, -, -, hd⟩ := descs_setDescTransferred_cases s r n <;> rw [hd]
  exact List.getElem?_set_ne h

theorem recordDone_desc_other {r k : Nat} (h : r ≠ k) : (s.recordDone ch r).descs[k]? = s.descs[k]? :=
  (setDescDone_desc_other h _).trans (setDescTransferred_desc_other (s := s.sawRead _ _) h _)

/-- A tracker mask after the service: the bit of channel `ch` is raised where the event fired. -/
def raised (fired : Bool) (ch : Nat) (m : Word) : Word := if fired then m ||| bit ch else m

theorem raised_getLsbD (fired : Bool) (ch : Nat) (m : Word) {k : Nat} (hk : k < 32) :
    (raised fired ch m).getLsbD k = (m.getLsbD k || (decide (k = ch) && fired)) := by
  cases fired with
  | false => simp [raised]
  | true => rw [raised, if_pos rfl, BitVec.getLsbD_or, bit_getLsbD, decide_eq_true hk, Bool.true_and, Bool.and_true]

theorem serviceDone_idle (h : (s.chan ch).istDone = false) : s.serviceDone ch = s :=
  if_neg (by simp [h])

theorem serviceDone_none (h : (s.chan ch).istDone = true) (hs : s.slot ch = none) :
    s.serviceDone ch = s.setDoneMask (s.mgr.doneMask ||| bit ch) := by
  simp only [State.serviceDone, h, hs, if_true]

theorem serviceDone_some {r : Nat} (h : (s.chan ch).istDone = true) (hs : s.slot ch = some r) :
    s.serviceDone ch = (s.setDoneMask (s.mgr.doneMask ||| bit ch)).recordDone ch r := by
  simp only [State.serviceDone, h, hs, if_true]
  rfl

/-- The transfer-done part does nothing, or raises the bit, and then records into the slot's descriptor if there is one. -/
theorem serviceDone_cases (s : State) (ch : Nat) :
    ((s.chan ch).istDone = false ∧ s.serviceDone ch = s) ∨
    ((s.chan ch).istDone = true ∧ s.slot ch = none ∧ s.serviceDone ch = s.setDoneMask (s.mgr.doneMask ||| bit ch)) ∨
    ((s.chan ch).istDone = true ∧ ∃ r, s.slot ch = some r ∧
      s.serviceDone ch = (s.setDoneMask (s.mgr.doneMask ||| bit ch)).recordDone ch r) := by
  cases h : (s.chan ch).istDone with
  | false => exact .inl ⟨rfl, serviceDone_idle h⟩
  | true =>
    cases hs : s.slot ch with
    | none => exact .inr (.inl ⟨rfl, rfl, serviceDone_none h hs⟩)
    | some r => exact .inr (.inr ⟨rfl, r, rfl, serviceDone_some h hs⟩)

theorem serviceDone_served (s : State) (ch : Nat) : s.Served (s.serviceDone ch) := by
  obtain ⟨-, h⟩ | ⟨-, -, h⟩ | ⟨-, r, -, h⟩ := serviceDone_cases s ch <;> rw [h]
  · exact .self
  · exact setDoneMask_served _ _
  · exact (setDoneMask_served _ _).trans (recordDone_served _ _ _)

@[simp] theorem serviceDone_chans (s : State) (ch : Nat) : (s.serviceDone ch).chans = s.chans := by
  obtain ⟨-, h⟩ | ⟨-, -, h⟩ | ⟨-, r, -, h⟩ := serviceDone_cases s ch <;> rw [h]
  · rfl
  · rw [recordDone_chans, State.setDoneMask_chans]

@[simp] theorem serviceDone_chan (s : State) (ch k : Nat) : (s.serviceDone ch).chan k = s.chan k := by
  rw [State.chan, serviceDone_chans, State.chan]

theorem serviceDone_mgr (s : State) (ch : Nat) :
    (s.serviceDone ch).mgr = { s.mgr with doneMask := raised (s.chan ch).istDone ch s.mgr.doneMask } := by
  obtain ⟨hd, h⟩ | ⟨hd, -, h⟩ | ⟨hd, r, -, h⟩ := serviceDone_cases s ch <;> rw [h, hd]
  · rfl
  · rfl
  · rw [recordDone_mgr]; rfl

theorem serviceDone_desc {r : Nat} {x : Desc} (hs : s.slot ch = some r) (hx : s.descs[r]? = some x) :
    (s.serviceDone ch).descs[r]? =
      some (if (s.chan ch).istDone then { x with done := true, transferred := (s.chan ch).doneLen } else x) := by
  cases hd : (s.chan ch).istDone with
  | false => rw [serviceDone_idle hd]; exact hx
  | true => rw [serviceDone_some hd hs]; exact recordDone_desc hx

theorem serviceDone_desc_other {r : Nat} (hs : s.slot ch ≠ some r) : (s.serviceDone ch).descs[r]? = s.descs[r]? := by
  obtain ⟨-, h⟩ | ⟨-, -, h⟩ | ⟨-, k, hk, h⟩ := serviceDone_cases s ch <;> rw [h]
  · rfl
  · exact recordDone_desc_other fun he => hs (he ▸ hk)

/-! ### The last-element part -/

theorem serviceLast_eq (s : State) (ch : Nat) :
    s.serviceLast ch = s.setLastMask (raised (s.chan ch).istLast ch s.mgr.lastMask) := by
  unfold State.serviceLast
  cases (s.chan ch).istLast <;> rfl

/-! ### The acknowledge and the callback -/

theorem serviceCallback_none {d : Option Nat} (h : s.slotCb d = none) : s.serviceCallback d = s := by
  simp only [State.serviceCallback, h]

theorem serviceCallback_some {d : Option Nat} {c : Nat × Cb} (h : s.slotCb d = some c) :
    s.serviceCallback d = s.emit (.callback c.1 s.cur) := by
  simp only [State.serviceCallback, h]

/-- The callback part records at most one event. -/
theorem serviceCallback_cases (s : State) (d : Option Nat) :
    s.serviceCallback d = s ∨ ∃ e, s.serviceCallback d = s.emit e := by
  cases h : s.slotCb d with
  | none => exact .inl (serviceCallback_none h)
  | some c => exact .inr ⟨_, serviceCallback_some h⟩

theorem serviceCallback_served (s : State) (d : Option Nat) : s.Served (s.serviceCallback d) := by
  obtain h | ⟨e, h⟩ := serviceCallback_cases s d <;> rw [h]
  · exact .self
  · exact emit_served _ _

theorem serviceAck_idle (hd : (s.chan ch).istDone = false) (hl : (s.chan ch).istLast = false) : s.serviceAck ch = s :=
  if_neg (by simp [hd, hl])

theorem serviceAck_event (h : ((s.chan ch).istDone || (s.chan ch).istLast) = true) :
    s.serviceAck ch = ((s.sawWrite (.chIstat ch) (s.istatWord ch)).setChan ch
      { (s.chan ch) with istDone := false, istLast := false }).serviceCallback (s.slot ch) :=
  if_pos h

theorem serviceAck_served (s : State) (ch : Nat) : s.Served (s.serviceAck ch) := by
  unfold State.serviceAck
  split
  · exact ((emit_served _ _).trans (setChan_served _ _ _)).trans (serviceCallback_served _ _)
  · exact .self

/-- The acknowledge touches neither the tracker nor the descriptors. -/
theorem serviceAck_tracker (s : State) (ch : Nat) :
    (s.serviceAck ch).mgr = s.mgr ∧ (s.serviceAck ch).descs = s.descs := by
  unfold State.serviceAck
  split
  · obtain h | ⟨e, h⟩ := serviceCallback_cases ((s.sawWrite (.chIstat ch) (s.istatWord ch)).setChan ch
      { (s.chan ch) with istDone := false, istLast := false }) (s.slot ch) <;> rw [h] <;> exact ⟨rfl, rfl⟩
  · exact ⟨rfl, rfl⟩

theorem Chan.cleared_eq_self {c : Chan} (hd : c.istDone = false) (hl : c.istLast = false) :
    { c with istDone := false, istLast := false } = c := by
  cases c
  cases hd
  cases hl
  rfl

/-- The acknowledge clears the raw status: also where no event fired, since it is clear then. -/
theorem serviceAck_chan (s : State) (ch k : Nat) :
    (s.serviceAck ch).chan k = (s.setChan ch { (s.chan ch) with istDone := false, istLast := false }).chan k := by
  cases he : (s.chan ch).istDone || (s.chan ch).istLast with
  | true =>
    rw [serviceAck_event he]
    obtain h | ⟨e, h⟩ := serviceCallback_cases ((s.sawWrite (.chIstat ch) (s.istatWord ch)).setChan ch
      { (s.chan ch) with istDone := false, istLast := false }) (s.slot ch) <;> rw [h] <;> rfl
  | false =>
    obtain ⟨hd, hl⟩ := Bool.or_eq_false_iff.1 he
    rw [serviceAck_idle hd hl, Chan.cleared_eq_self hd hl, State.setChan_self]

end Parts

/-! ### The whole service -/

section Whole
variable (s : State) (ch : Nat)

theorem serviceChan_eq : s.serviceChan ch =
    (((s.sawRead (.chIstat ch) (s.istatWord ch)).serviceDone ch).serviceLast ch).serviceAck ch := rfl

theorem serviceLast_served : s.Served (s.serviceLast ch) := by
  rw [serviceLast_eq]
  exact setLastMask_served _ _

theorem serviceChan_served : s.Served (s.serviceChan ch) :=
  (((emit_served _ _).trans (serviceDone_served _ _)).trans (serviceLast_served _ _)).trans (serviceAck_served _ _)

theorem serviceChan_chan (k : Nat) :
    (s.serviceChan ch).chan k = (s.setChan ch { (s.chan ch) with istDone := false, istLast := false }).chan k := by
  rw [serviceChan_eq, serviceAck_chan, serviceLast_eq, State.setLastMask_chan, serviceDone_chan]
  simp only [State.chan, State.setChan_chans, State.setLastMask_chans, serviceDone_chans, sawRead_chans]

theorem serviceChan_doneMask :
    (s.serviceChan ch).mgr.doneMask = raised (s.chan ch).istDone ch s.mgr.doneMask := by
  rw [serviceChan_eq, (serviceAck_tracker _ _).1, serviceLast_eq, State.setLastMask_doneMask, serviceDone_mgr]
  rfl

theorem serviceChan_lastMask :
    (s.serviceChan ch).mgr.lastMask = raised (s.chan ch).istLast ch s.mgr.lastMask := by
  rw [serviceChan_eq, (serviceAck_tracker _ _).1, serviceLast_eq, State.setLastMask_lastMask, serviceDone_chan,
    serviceDone_mgr]
  rfl

theorem serviceChan_descs :
    (s.serviceChan ch).descs = ((s.sawRead (.chIstat ch) (s.istatWord ch)).serviceDone ch).descs := by
  rw [serviceChan_eq, (serviceAck_tracker _ _).2, serviceLast_eq, State.setLastMask_descs]

end Whole

/-- Settles O38: the channels by the acknowledge, the masks and the descriptors by the two event parts, and the frame by
`serviceChan_served`. -/
theorem serviceEffect : Obligations.ServiceEffect := by
  unfold Obligations.ServiceEffect
  rintro s ch c hlen - rfl t rfl
  have hserved := serviceChan_served s ch
  refine ⟨?_, fun k hk => ?_, fun k hk => ?_, fun k hk => ?_, fun r x hs hx => ?_, fun r hs => ?_, ?_, ?_⟩
  · rw [serviceChan_chan, State.setChan_chan_same s _ hlen]
  · rw [serviceChan_chan, State.setChan_chan_other s _ hk]
  · rw [serviceChan_doneMask, raised_getLsbD _ _ _ hk]
  · rw [serviceChan_lastMask, raised_getLsbD _ _ _ hk]
  · rw [serviceChan_descs]
    exact serviceDone_desc (s := s.sawRead _ _) hs hx
  · rw [serviceChan_descs]
    exact serviceDone_desc_other (s := s.sawRead _ _) hs
  · obtain ⟨_, _, _, _, _, h⟩ := hserved.frame
    rw [h]
  · obtain ⟨es, h⟩ := hserved.hist
    exact ⟨es, h.symm⟩

end Sys2Proof.Machine
end

section
/-! PROOFS. An uninterrupted UPDATE (R105, R106): the steps from one channel's status read to the next are its service, the
channels follow by induction, and the operation that runs UPDATE makes these steps, whatever positions it took before. -/

namespace Sys2Proof.Machine

open Sys2Proof

/-! ### The steps of UPDATE up to its end -/

/-- From this point UPDATE, run by `w` with no step of another agent between its own, ends with `c` in `t`. -/
inductive UpdateFlow.Ends (w : Who) : UpdateFlow → ResCode → State → Prop where
  | fin (c : ResCode) (t : State) : Ends w (.fin c t) c t
  | go {u : UpdatePos} {s : State} {c : ResCode} {t : State} (hw : w.agent = s.cur) (h : Ends w (updateStep w u s) c t) :
      Ends w (.go u s) c t

section Service
variable {s t : State} {w : Who} {ch : Nat} {st : Word} {d : Option Nat} {c : ResCode}

/-- An acknowledge of the status just read clears it, at either value of IRQ_ACK_CLEARS_ALL (R91). -/
theorem acked_istatWord (s : State) (ch : Nat) (all : Bool) :
    (s.chan ch).acked all (s.istatWord ch) = { (s.chan ch) with istDone := false, istLast := false } := by
  rw [Chan.acked, istatWord_done, istatWord_last]
  cases all <;> simp

/-- A slot's callback is that of the descriptor it is found under. -/
theorem slotCb_ref {x : Nat × Cb} (h : s.slotCb d = some x) : s.slotCb (some x.1) = some x := by
  cases d with
  | none => cases h
  | some r =>
    have hr : x.1 = r := by
      dsimp only [State.slotCb] at h
      split at h
      · cases h
      · obtain ⟨cb, -, rfl⟩ := Option.map_eq_some_iff.1 h
        rfl
    rw [hr, h]

theorem updateStep_callback {r : Nat} {x : Nat × Cb} (hw : w.agent = s.cur) (hcb : s.slotCb (some r) = some x)
    (hre : x.2.reenters = false) :
    updateStep w (.callback ch r) s = updateLoop (ch + 1) (s.emit (.callback r s.cur)) := by
  simp only [updateStep, hcb, runCallback, hre, hw]
  rfl

variable (hw : w.agent = s.cur)
include hw

/-- The steps of the last-element part. -/
theorem ends_afterDone (hst : st.getLsbD 1 = (s.chan ch).istLast)
    (h : UpdateFlow.Ends w (.go (.ack ch st d) (s.serviceLast ch)) c t) :
    UpdateFlow.Ends w (updateAfterDone ch st d s) c t := by
  rw [updateAfterDone, hst]
  unfold State.serviceLast at h
  split
  next hl =>
    rw [if_pos hl] at h
    exact .go hw h
  next hl => rwa [if_neg hl] at h

/-- After the acknowledge comes the callback if there is one, and then the next channel. -/
theorem ends_ack (hch : ch < s.cfg.numCh) (he : ((s.chan ch).istDone || (s.chan ch).istLast) = true)
    (hret : s.CallbacksReturn) (h : UpdateFlow.Ends w (updateLoop (ch + 1) (s.serviceAck ch)) c t) :
    UpdateFlow.Ends w (.go (.ack ch (s.istatWord ch) (s.slot ch)) s) c t := by
  refine .go hw ?_
  rw [serviceAck_event he, ← acked_istatWord s ch s.cfg.irqAckClearsAll] at h
  cases hcb : s.slotCb (s.slot ch) with
  | none =>
    rw [serviceCallback_none (by exact hcb)] at h
    rwa [updateStep_ack_quiet hw hch rfl hcb]
  | some x =>
    rw [serviceCallback_some (by exact hcb)] at h
    rw [updateStep_ack_callback hw hch rfl hcb]
    refine .go hw ?_
    rwa [updateStep_callback (by exact hw) (by exact slotCb_ref hcb) (hret ch x hcb)]

variable (hch : ch < s.cfg.numCh)
include hch

/-- The steps of the transfer-done part, by the slot. -/
theorem ends_markDone (hd : (s.chan ch).istDone = true)
    (h : UpdateFlow.Ends w (updateAfterDone ch st (s.slot ch) (s.serviceDone ch)) c t) :
    UpdateFlow.Ends w (.go (.markDone ch st (s.slot ch)) s) c t := by
  refine .go hw ?_
  cases hs : s.slot ch with
  | none => rwa [serviceDone_none hd hs, hs] at h
  | some r =>
    rw [serviceDone_some hd hs, hs] at h
    refine .go hw ?_
    rw [updateStep_readLen (by exact hw) (by exact hch)]
    refine .go hw (.go ?_ h)
    rw [State.setDescTransferred_cur]
    exact hw

/-- Where an event fired, the steps from the status read to the acknowledge are those of both event parts. -/
theorem ends_event (he : ((s.chan ch).istDone || (s.chan ch).istLast) = true)
    (h : UpdateFlow.Ends w (.go (.ack ch (s.istatWord ch) (s.slot ch))
      (((s.sawRead (.chIstat ch) (s.istatWord ch)).serviceDone ch).serviceLast ch)) c t) :
    UpdateFlow.Ends w (updateStep w (.chan ch) s) c t := by
  have hlast : (s.istatWord ch).getLsbD 1 =
      (((s.sawRead (.chIstat ch) (s.istatWord ch)).serviceDone ch).chan ch).istLast := by
    rw [serviceDone_chan]; exact istatWord_last s ch
  have hcur := (serviceDone_served (s.sawRead (.chIstat ch) (s.istatWord ch)) ch).cur
  have hparts := ends_afterDone (hw.trans hcur.symm) hlast h
  rw [updateStep_chan hw hch]
  cases hd : (s.chan ch).istDone with
  | true => exact ends_markDone (s := s.sawRead _ _) hw hch hd hparts
  | false =>
    have hl : (s.chan ch).istLast = true := by simpa [hd] using he
    rw [serviceDone_idle (s := s.sawRead _ _) hd, updateAfterDone, istatWord_last, if_pos hl] at hparts
    rwa [if_neg Bool.false_ne_true, if_pos hl]

/-- The steps of one channel are its service (R105). -/
theorem ends_chan (hret : s.CallbacksReturn) (h : UpdateFlow.Ends w (updateLoop (ch + 1) (s.serviceChan ch)) c t) :
    UpdateFlow.Ends w (.go (.chan ch) s) c t := by
  refine .go hw ?_
  rw [serviceChan_eq] at h
  cases he : (s.chan ch).istDone || (s.chan ch).istLast with
  | true =>
    refine ends_event hw hch he ?_
    generalize hu : ((s.sawRead (.chIstat ch) (s.istatWord ch)).serviceDone ch).serviceLast ch = u at h ⊢
    have hserved : s.Served u := by
      rw [← hu]
      exact ((emit_served _ _).trans (serviceDone_served _ _)).trans (serviceLast_served _ _)
    have hchan : u.chan ch = s.chan ch := by
      rw [← hu, serviceLast_eq, State.setLastMask_chan, serviceDone_chan, sawRead_chan]
    have hstat : u.istatWord ch = s.istatWord ch := by rw [State.istatWord, hchan, State.istatWord]
    rw [← hstat, ← hserved.slot ch]
    rw [← hchan] at he
    exact ends_ack (hw.trans hserved.cur.symm) (by rwa [hserved.cfg]) he (hserved.callbacksReturn hret) h
  | false =>
    obtain ⟨hd, hl⟩ := Bool.or_eq_false_iff.1 he
    have hsaw : (s.sawRead (.chIstat ch) (s.istatWord ch)).serviceLast ch = s.sawRead (.chIstat ch) (s.istatWord ch) := by
      rw [serviceLast_eq, sawRead_chan, hl]; rfl
    rw [serviceDone_idle (s := s.sawRead _ _) hd, hsaw, serviceAck_idle (s := s.sawRead _ _) hd hl] at h
    rwa [updateStep_chan hw hch, hd, hl]

end Service

section Run
variable {s t : State} {w : Who}

/-- The loop from channel `ch` on services the channels that are left, in ascending order (R106). -/
theorem ends_loop {ch n : Nat} (hw : w.agent = s.cur) (hn : s.drvNumCh.toNat = ch + n)
    (hnum : s.drvNumCh.toNat ≤ s.cfg.numCh) (hret : s.CallbacksReturn) :
    UpdateFlow.Ends w (updateLoop ch s) .ok ((List.range' ch n).foldl State.serviceChan s) := by
  induction n generalizing ch s with
  | zero =>
    rw [updateLoop_end (ch := ch) (Nat.le_of_eq hn)]
    exact .fin _ _
  | succ n ih =>
    have hserved := serviceChan_served s ch
    rw [updateLoop_more (by omega)]
    refine ends_chan hw (by omega) hret (ih (hw.trans hserved.cur.symm) ?_ ?_ (hserved.callbacksReturn hret))
    · rw [hserved.drvNumCh]; omega
    · rwa [hserved.drvNumCh, hserved.cfg]

/-- UPDATE that finds an event services every channel (R105). -/
theorem ends_enter (hw : w.agent = s.cur) (hu : s.drvUsable = true) (hm : s.mgr.present = true) (hg : s.gstatus ≠ 0)
    (hnum : s.drvNumCh.toNat ≤ s.cfg.numCh) (hret : s.CallbacksReturn) :
    UpdateFlow.Ends w (.go .enter s) .ok ((s.sawRead .gstatus s.gstatus).serviceAll s.drvNumCh.toNat) := by
  refine .go hw ?_
  rw [updateStep_enter hu hm]
  refine .go hw ?_
  rw [updateStep_gstatus hw, if_neg hg, State.serviceAll, List.range_eq_range']
  exact ends_loop (s := s.sawRead _ _) hw (Nat.zero_add _).symm hnum hret

end Run

/-! ### The operation that makes these steps -/

/-- What an UPDATE step leads to, with the agent moved to `p`. -/
def UpdateFlow.goto (p : Pos) : UpdateFlow → UpdateFlow
  | .go u s => .go u (s.goto p)
  | .fin c s => .fin c (s.goto p)
  | .stop f => .stop f
  | .refuse r => .refuse r

section Position
variable {s : State} {w : Who} {p : Pos} {ch : Nat}

theorem ite_flow_goto {c : Prop} [Decidable c] {f g f' g' : UpdateFlow} (hf : f' = f.goto p) (hg : g' = g.goto p) :
    (if c then f' else g') = (if c then f else g).goto p := by
  rw [hf, hg, apply_ite (UpdateFlow.goto p)]

theorem updateNext_goto : updateNext ch (s.goto p) = (updateNext ch s).goto p := ite_flow_goto rfl rfl

theorem updateAfterDone_goto {st : Word} {d : Option Nat} :
    updateAfterDone ch st d (s.goto p) = (updateAfterDone ch st d s).goto p := ite_flow_goto rfl rfl

theorem updateRead_goto {r : Reg} {k : Word → State → UpdateFlow} (hk : ∀ v t, k v (t.goto p) = (k v t).goto p) :
    updateRead w r (s.goto p) k = (updateRead w r s k).goto p := by
  simp only [updateRead, busRead, State.goto_cfg, readReg_goto, State.goto_emit]
  cases r.check s.cfg with
  | present => exact hk _ _
  | _ => rfl

theorem busWrite_goto {r : Reg} {v : Word} : busWrite w r v (s.goto p) = (busWrite w r v s).map (·.goto p) := by
  simp only [busWrite, State.goto_cfg, State.goto_emit, writeReg_goto]
  cases r.check s.cfg <;> rfl

/-- A step of UPDATE forgets the position it is taken at. -/
theorem updateStep_goto (u : UpdatePos) : updateStep w u (s.goto p) = (updateStep w u s).goto p := by
  cases u <;> dsimp only [updateStep]
  case enter => exact ite_flow_goto (ite_flow_goto rfl rfl) rfl
  case gstatus => exact updateRead_goto fun g t => ite_flow_goto (ite_flow_goto rfl rfl) rfl
  case chan ch => exact updateRead_goto fun st t => ite_flow_goto rfl (ite_flow_goto rfl updateNext_goto)
  case markDone ch st d =>
    cases d with
    | none => exact updateAfterDone_goto (s := s.setDoneMask _)
    | some r => rfl
  case readLen ch st r => exact updateRead_goto fun n t => rfl
  case setTransferred ch st r n => rw [State.goto_setDescTransferred]; rfl
  case setDone ch st r => rw [State.goto_setDescDone, updateAfterDone_goto]
  case markLast ch st d => rfl
  case ack ch st d =>
    rw [busWrite_goto]
    cases busWrite w (.chIstat ch) st s with
    | error f => rfl
    | ok t =>
      have hcb : (t.goto p).slotCb d = t.slotCb d := rfl
      simp only [Except.map, hcb]
      cases t.slotCb d with
      | some x => rfl
      | none => exact updateNext_goto
  case callback ch r =>
    have hcb : (s.goto p).slotCb (some r) = s.slotCb (some r) := rfl
    rw [hcb]
    cases s.slotCb (some r) with
    | none => exact updateNext_goto
    | some x =>
      dsimp only [runCallback]
      cases x.2.reenters with
      | false => exact updateNext_goto (s := s.emit _)
      | true => rfl

theorem runUpdate_goto {u : UpdatePos} {q : UpdatePos → Pos} {k : ResCode → State → Out}
    (hk : ∀ c t, k c (t.goto p) = k c t) : runUpdate w u q k (s.goto p) = runUpdate w u q k s := by
  simp only [runUpdate, updateStep_goto]
  cases updateStep w u s with
  | go v t => exact congrArg _ (State.goto_goto _ _ _)
  | fin c t => exact hk c t
  | stop f => rfl
  | refuse r => rfl

end Position

/-- What the operation that runs UPDATE makes of a point of it: it moves there, or goes on with `k` at the end. -/
def UpdateFlow.out (q : UpdatePos → Pos) (k : ResCode → State → Out) : UpdateFlow → Out
  | .go u t => goOn (q u) t
  | .fin c t => k c t
  | .stop f => .fault f
  | .refuse r => .refused r

theorem runUpdate_eq (w : Who) (u : UpdatePos) (q : UpdatePos → Pos) (k : ResCode → State → Out) (s : State) :
    runUpdate w u q k s = (updateStep w u s).out q k := by
  unfold runUpdate
  cases updateStep w u s <;> rfl

/-- An operation whose steps inside UPDATE are those of UPDATE comes to UPDATE's end, and goes on there. -/
theorem UpdateFlow.Ends.run {i : Instr} {w : Who} {q : UpdatePos → Pos} {k : ResCode → State → Out} {f : UpdateFlow}
    {c : ResCode} {t v : State} (h : UpdateFlow.Ends w f c t)
    (hat : ∀ u s, w.agent = s.cur → exec i (s.goto (q u)) = runUpdate w u q k s) (hk : k c t = .next v) :
    ∃ n a, f.out q k = .next a ∧ runOp i n a = .next v := by
  induction h with
  | fin => exact ⟨0, v, hk, rfl⟩
  | go hw _ ih =>
    obtain ⟨n, a, ha, hn⟩ := ih hk
    exact ⟨n + 1, _, rfl, runOp_cons ((hat _ _ hw).trans ((runUpdate_eq ..).trans ha)) hn⟩

/-- The operation UPDATE is such an operation. -/
theorem exec_updating {s : State} {w : Who} (u : UpdatePos) (hw : w = s.who (.update 0)) :
    exec (.update 0) (s.goto (.updating u)) = runUpdate w u .updating (fun c => done (.code c)) s := by
  rw [update_at (State.goto_pos _ _), State.goto_who, ← hw]
  exact runUpdate_goto fun _ _ => done_goto _

/-- Settles O37: the entry and the loop by `ends_enter`, made steps of the operation by `Ends.run`. -/
theorem updateRun : Obligations.UpdateRun := by
  unfold Obligations.UpdateRun
  intro s hp hu hm hg hnum hret
  have hends := ends_enter (w := s.who (.update 0)) rfl hu hm hg hnum hret
  cases hends with
  | go hw h =>
    obtain ⟨n, a, ha, hn⟩ := h.run (q := .updating) (k := fun c => done (.code c))
      (fun u t ht => exec_updating u (congrArg (Who.mk · _) ht)) rfl
    exact ⟨n + 1, runOp_cons ((update_start hp).trans ((runUpdate_eq ..).trans ha)) hn⟩

end Sys2Proof.Machine
end

section
/-! PROOFS. Who writes a manager slot (R108): of the operations BEGIN and MGR_INIT, each at one step position, and no other
step of any agent. -/

namespace Sys2Proof.Machine

open Sys2Proof

/-! ### The shapes that leave the slots alone -/

section Shapes
variable {s t u : State} {i : Instr}

theorem goOn_slots {q : Pos} (hu : u.mgr.slots = s.mgr.slots) (h : goOn q u = .next t) :
    t.mgr.slots = s.mgr.slots := by
  cases h; exact hu

theorem done_slots {r : Result} (hu : u.mgr.slots = s.mgr.slots) (h : done r u = .next t) :
    t.mgr.slots = s.mgr.slots := by
  cases h; rw [State.ret_mgr]; exact hu

theorem State.SameDriver.slots (h : s.SameDriver t) : t.mgr.slots = s.mgr.slots := by
  obtain ⟨-, -, hm, -⟩ := h
  rw [hm]

theorem readStep_slots {r : Reg} {k : Word → State → Out} (h : readStep i r s k = .next t) :
    ∃ v u, u.mgr.slots = s.mgr.slots ∧ k v u = .next t := by
  obtain ⟨x, hx, hk⟩ := orFault_next h
  exact ⟨x.1, x.2, (busRead_sameDriver hx).slots, hk⟩

theorem writeStep_slots {r : Reg} {v : Word} {k : State → Out} (h : writeStep i r v s k = .next t) :
    ∃ u, u.mgr.slots = s.mgr.slots ∧ k u = .next t := by
  obtain ⟨u, hu, hk⟩ := orFault_next h
  exact ⟨u, (busWrite_sameDriver hu).slots, hk⟩

theorem csrWrite_slots {w : Who} {n : Nat} {v : Word} {k : State → Out} (h : orFault (csrWrite w n v s) k = .next t) :
    ∃ u, u.mgr.slots = s.mgr.slots ∧ k u = .next t := by
  obtain ⟨u, hu, hk⟩ := orFault_next h
  exact ⟨u, (csrWrite_sameDriver hu).slots, hk⟩

theorem writeOp_slots {r : Reg} {v : Word} (h : writeOp i r v s = .next t) : t.mgr.slots = s.mgr.slots := by
  obtain ⟨u, hu, hk⟩ := writeStep_slots h
  exact done_slots hu hk

theorem csrWriteOp_slots {n : Nat} {v : Word} (h : csrWriteOp i n v s = .next t) : t.mgr.slots = s.mgr.slots := by
  obtain ⟨u, hu, hk⟩ := csrWrite_slots h
  exact done_slots hu hk

/-- What `IRQ_ENTRY` can do, and so what UPDATE and every read can, writes no slot. -/
theorem Change.slots_eq (h : Change 0 s t) : t.mgr.slots = s.mgr.slots := by
  cases h with
  | descDone | descTransferred => simp
  | emit | drew | chan | src | doneMask | lastMask => rfl
  | _ => omega

theorem Runs.slots_eq (h : Runs 0 s t) : t.mgr.slots = s.mgr.slots := by
  obtain ⟨u, hu, ht⟩ := h
  have hsu := hu.keeps (P := fun u => u.mgr.slots = s.mgr.slots) (fun _ _ hc hs => hc.slots_eq.trans hs) rfl
  obtain ⟨q, rfl⟩ | ⟨r, rfl⟩ := ht
  · exact hsu
  · rwa [State.ret_mgr]

end Shapes

/-! ### The operations that write no slot -/

section Meanings
variable {s t : State}

theorem execPollAndTransfer_slots {e : Idx} (h : execPollAndTransfer e s = .next t) :
    t.mgr.slots = s.mgr.slots := by
  unfold execPollAndTransfer at h
  split at h
  · obtain ⟨u, hu, hk⟩ := writeStep_slots h
    exact done_slots hu hk
  · obtain ⟨v, u, hu, hk⟩ := readStep_slots h
    split at hk <;> exact goOn_slots hu hk

theorem execDmaInit_slots {z : Idx} (h : execDmaInit z s = .next t) : t.mgr.slots = s.mgr.slots := by
  replace h := (guardZero_next h).2
  split at h
  · obtain ⟨v, u, hu, hk⟩ := readStep_slots h
    exact goOn_slots hu hk
  next n o _ => exact goOn_slots (u := s.setNumCh n) rfl h
  next o _ => exact done_slots (u := s.setUsable (o = chArrayOffset)) rfl h
  · obtain ⟨v, u, hu, hk⟩ := readStep_slots h
    exact goOn_slots hu hk

theorem execCancel_slots {z : Idx} {d : Nat} (h : execCancel z d s = .next t) : t.mgr.slots = s.mgr.slots := by
  replace h := (guardZero_next h).2
  split at h
  · obtain ⟨x, -, hk⟩ := withRef_next h
    obtain ⟨u, hu, hk⟩ := writeStep_slots hk
    exact done_slots hu hk
  · obtain ⟨r, x, -, -, hk⟩ := withDesc_next h
    obtain ⟨-, rfl⟩ | ⟨-, hk⟩ := guardUsable_next hk
    · rw [State.ret_mgr]
    · exact goOn_slots rfl (guardIdx_next hk).2

theorem icInitBank_slots {i : Instr} {b : Nat} (h : icInitBank i b s = .next t) : t.mgr.slots = s.mgr.slots := by
  obtain ⟨u, hu, hk⟩ := writeStep_slots h
  exact goOn_slots hu hk

theorem execIcInit_slots {z : Idx} (h : execIcInit z s = .next t) : t.mgr.slots = s.mgr.slots := by
  replace h := (guardZero_next h).2
  split at h
  · split at h
    · exact icInitBank_slots h
    · obtain ⟨u, hu, hk⟩ := writeStep_slots h
      exact done_slots hu hk
    · exact icInitBank_slots h
  · obtain ⟨u, hu, hk⟩ := csrWrite_slots h
    exact done_slots hu hk

theorem execIcEnable_slots {n : Idx} (h : execIcEnable n s = .next t) : t.mgr.slots = s.mgr.slots := by
  replace h := (guardIdx_next h).2
  split at h
  · split at h
    · obtain ⟨u, hu, hk⟩ := writeStep_slots h
      exact goOn_slots hu hk
    · obtain ⟨v, u, hu, hk⟩ := readStep_slots h
      exact goOn_slots hu hk
    · obtain ⟨u, hu, hk⟩ := writeStep_slots h
      exact done_slots hu hk
    · obtain ⟨v, u, hu, hk⟩ := readStep_slots h
      exact goOn_slots hu hk
  · split at h
    · obtain ⟨u, hu, hk⟩ := csrWrite_slots h
      exact done_slots hu hk
    · obtain ⟨m, -, hk⟩ := orFault_next h
      exact goOn_slots rfl hk

theorem execIcDisable_slots {n : Idx} (h : execIcDisable n s = .next t) : t.mgr.slots = s.mgr.slots := by
  replace h := (guardIdx_next h).2
  split at h
  · split at h
    · obtain ⟨u, hu, hk⟩ := writeStep_slots h
      exact done_slots hu hk
    · obtain ⟨v, u, hu, hk⟩ := readStep_slots h
      exact goOn_slots hu hk
  · split at h
    · obtain ⟨u, hu, hk⟩ := csrWrite_slots h
      exact done_slots hu hk
    · obtain ⟨m, -, hk⟩ := orFault_next h
      exact goOn_slots rfl hk

theorem execIcSetPriority_slots {n : Idx} {level : Word} (h : execIcSetPriority n level s = .next t) :
    t.mgr.slots = s.mgr.slots := by
  unfold execIcSetPriority at h
  split at h
  · exact done_slots rfl h
  · replace h := (guardIdx_next h).2
    split at h
    · cases h
    · obtain ⟨u, hu, hk⟩ := writeStep_slots h
      exact done_slots hu hk

/-- Every operation but BEGIN and MGR_INIT leaves the slots alone. -/
theorem exec_slots {i : Instr} (hb : ∀ z d, i ≠ .beginXfer z d) (hm : ∀ z, i ≠ .mgrInit z) (h : exec i s = .next t) :
    t.mgr.slots = s.mgr.slots := by
  cases i with
  | beginXfer z d => exact absurd rfl (hb z d)
  | mgrInit z => exact absurd rfl (hm z)
  | srdCtrl | srdData | drdCtrl | drdBase | drdLen | drdDonelen | drdIstat =>
    exact (readOp_changes (l := 0) h).slots_eq
  | swrCtrl | swrData | dwrCtrl | dwrBase | dwrLen | dwrDonelen | dwrIstat => exact writeOp_slots h
  | drdChcount | drdChoff | drdGmask | drdGstatus => exact (readOp_changes (l := 0) (guardZero_next h).2).slots_eq
  | dwrChcount | dwrChoff | dwrGmask | dwrGstatus => exact writeOp_slots (guardZero_next h).2
  | prdPrio | prdPend | prdEn => exact (readOp_changes (l := 0) (guardUnit_next h).2).slots_eq
  | pwrPrio | pwrPend | pwrEn => exact writeOp_slots (guardUnit_next h).2
  | prdThr | prdClaim => exact (readOp_changes (l := 0) (guardZero_next (guardUnit_next h).2).2).slots_eq
  | pwrThr | pwrClaim => exact writeOp_slots (guardZero_next (guardUnit_next h).2).2
  | crdMask | crdPend => exact (csrReadOp_changes (l := 0) (guardZero_next (guardUnit_next h).2).2).slots_eq
  | cwrMask | cwrPend => exact csrWriteOp_slots (guardZero_next (guardUnit_next h).2).2
  | isReady e => exact (execIsReady_changes (l := 0) h).slots_eq
  | pollAndTransfer e => exact execPollAndTransfer_slots h
  | dmaInit z => exact execDmaInit_slots h
  | descNew ch d f => exact done_slots (u := s.newDesc _ _) rfl (guardIdx_next h).2
  | completeXfer z d n => exact (execComplete_changes (l := 0) h).slots_eq
  | cancelXfer z d => exact execCancel_slots h
  | update z => exact (execUpdate_changes (l := 0) h).slots_eq
  | icInit z => exact execIcInit_slots h
  | icEnable n => exact execIcEnable_slots h
  | icDisable n => exact execIcDisable_slots h
  | icPriorityCount z => exact (execIcPriorityCount_changes (l := 0) h).slots_eq
  | icSetPriority n level => exact execIcSetPriority_slots h
  | dispatch n => exact (execDispatch_changes (l := 0) h).slots_eq
  | irqEntry z => exact (execIrqEntry_changes (l := 0) h).slots_eq

/-! ### The two that write one (R101, R104) -/

theorem beginValidated_slots {i : Instr} {r : Nat} {x : Desc} {c : Word} {u : State}
    (hu : u.mgr.slots = s.mgr.slots) (h : beginValidated i r x c u = .next t) : t.mgr.slots = s.mgr.slots := by
  unfold beginValidated at h
  split at h
  · exact done_slots hu h
  · split at h
    · exact done_slots hu h
    · split at h
      · exact goOn_slots hu h
      · split at h
        · split at h
          · exact goOn_slots hu h
          · cases h
        · exact done_slots hu h

/-- A step of BEGIN writes its channel's slot at one position, and else none. -/
theorem beginStep_slots {i : Instr} {r : Nat} {x : Desc} {p : BeginPos} (h : beginStep i r x p s = .next t) :
    t.mgr.slots = s.mgr.slots ∨ (p = .slot ∧ t.mgr.slots = s.mgr.slots.set x.ch (some r)) := by
  cases p <;> dsimp only [beginStep] at h
  case slot => cases h; exact .inr ⟨rfl, rfl⟩
  case wait =>
    obtain ⟨v, u, hu, hk⟩ := readStep_slots h
    split at hk <;> exact .inl (goOn_slots hu hk)
  case validate =>
    obtain ⟨v, u, hu, hk⟩ := readStep_slots h
    exact .inl (beginValidated_slots hu hk)
  case clearDoneMask | clearLastMask => cases h; exact .inl rfl
  case clearDone => exact .inl (goOn_slots (by rw [State.setDescDone_mgr]) h)
  case gmaskRead | irqRead | modeRead | goRead =>
    obtain ⟨v, u, hu, hk⟩ := readStep_slots h
    exact .inl (goOn_slots hu hk)
  case gmaskWrite | irqWrite | modeWrite | base | len =>
    obtain ⟨u, hu, hk⟩ := writeStep_slots h
    exact .inl (goOn_slots hu hk)
  case goWrite =>
    obtain ⟨u, hu, hk⟩ := writeStep_slots h
    exact .inl (done_slots hu hk)

theorem execBegin_slots {z : Idx} {d : Nat} (h : execBegin z d s = .next t) :
    t.mgr.slots = s.mgr.slots ∨ ∃ r x, s.pos = .begun r .slot ∧ s.descs[r]? = some x ∧
      t.mgr.slots = s.mgr.slots.set x.ch (some r) := by
  replace h := (guardZero_next h).2
  split at h
  next r p hp =>
    obtain ⟨x, hx, hk⟩ := withRef_next h
    obtain hs | ⟨rfl, hs⟩ := beginStep_slots hk
    · exact .inl hs
    · exact .inr ⟨r, x, hp, hx, hs⟩
  next =>
    obtain ⟨r, x, -, -, hk⟩ := withDesc_next h
    obtain ⟨-, rfl⟩ | ⟨-, hk⟩ := guardUsable_next hk
    · exact .inl (by rw [State.ret_mgr])
    · exact .inl (goOn_slots rfl (guardIdx_next hk).2)

theorem execMgrInit_slots {z : Idx} (h : execMgrInit z s = .next t) :
    t.mgr.slots = s.mgr.slots ∨ ∃ ch, s.pos = .mgrSlot ch ∧ t.mgr.slots = s.mgr.slots.set ch none := by
  replace h := (guardZero_next h).2
  split at h
  next ch hp => cases h; exact .inr ⟨ch, hp, rfl⟩
  next => cases h; exact .inl rfl
  next => cases h; exact .inl rfl
  next => exact .inl (done_slots (u := s.setPresent) rfl h)
  next =>
    obtain ⟨-, rfl⟩ | ⟨-, hk⟩ := guardUsable_next h
    · exact .inl (by rw [State.ret_mgr])
    · exact .inl (goOn_slots rfl hk)

end Meanings

/-! ### A step of any agent -/

section Step
variable {s t : State}

theorem plainLoad_slots {a : Word} {w : Width} (h : plainLoad a w s = .next t) : t.mgr.slots = s.mgr.slots := by
  unfold plainLoad at h
  split at h
  · refine done_slots ?_ h
    rw [State.emit_mgr, readBytes_eq]
  · obtain ⟨x, hx, hk⟩ := orFault_next h
    exact done_slots (busRead_sameDriver hx).slots hk
  · cases h

theorem plainStore_slots {a v : Word} {w : Width} (h : plainStore a w v s = .next t) :
    t.mgr.slots = s.mgr.slots := by
  unfold plainStore at h
  split at h
  · refine done_slots ?_ h
    rw [State.emit_mgr, writeBytes_eq]
  · obtain ⟨u, hu, hk⟩ := orFault_next h
    exact done_slots (busWrite_sameDriver hu).slots hk
  · cases h

theorem plainRunCode_slots {a : Word} {n : Nat} (h : plainRunCode a n s = .next t) :
    t.mgr.slots = s.mgr.slots := by
  unfold plainRunCode at h
  split at h
  · cases h
  · exact done_slots rfl h

/-- The step from `s` to `t` is one of MAIN that writes a slot: of BEGIN its own, or of MGR_INIT one it clears (R108). -/
def State.MainWritesSlot (s t : State) : Prop :=
  (∃ z d r x, s.MainRuns (.beginXfer z d) ∧ s.mainPos = .begun r .slot ∧ s.descs[r]? = some x ∧
    t.mgr.slots = s.mgr.slots.set x.ch (some r)) ∨
  ∃ z ch, s.MainRuns (.mgrInit z) ∧ s.mainPos = .mgrSlot ch ∧ t.mgr.slots = s.mgr.slots.set ch none

/-- A step of an operation MAIN runs. -/
theorem mainOp_slots {i : Instr} (ha : s.isrActive = false) (hi : s.MainRuns i) (h : exec i s = .next t) :
    t.mgr.slots = s.mgr.slots ∨ s.MainWritesSlot t := by
  have hpos : s.pos = s.mainPos := if_neg (by simp [ha])
  by_cases hb : ∃ z d, i = .beginXfer z d
  · obtain ⟨z, d, rfl⟩ := hb
    refine (execBegin_slots h).imp_right fun ⟨r, x, hp, hx, hs⟩ => .inl ⟨z, d, r, x, hi, ?_, hx, hs⟩
    rw [← hpos, hp]
  by_cases hm : ∃ z, i = .mgrInit z
  · obtain ⟨z, rfl⟩ := hm
    refine (execMgrInit_slots h).imp_right fun ⟨ch, hp, hs⟩ => .inr ⟨z, ch, hi, ?_, hs⟩
    rw [← hpos, hp]
  exact .inl (exec_slots (fun z d he => hb ⟨z, d, he⟩) (fun z he => hm ⟨z, he⟩) h)

theorem itemStep_slots {m : Item} {rest : List Item} (ha : s.isrActive = false) (hp : s.prog = m :: rest)
    (h : itemStep m s = .next t) : t.mgr.slots = s.mgr.slots ∨ s.MainWritesSlot t := by
  cases m with
  | op w a =>
    dsimp only [itemStep] at h
    split at h
    next i hd => exact mainOp_slots ha ⟨w, a, rest, hp, hd⟩ h
    next => cases h
  | load a w => exact .inl (plainLoad_slots h)
  | store a w v => exact .inl (plainStore_slots h)
  | runCode a n => exact .inl (plainRunCode_slots h)

theorem cpuStep_slots (h : cpuStep s = .next t) :
    t.mgr.slots = s.mgr.slots ∨ (s.isrActive = false ∧ s.MainWritesSlot t) := by
  cases ha : s.isrActive with
  | true =>
    rw [cpuStep_isr ha] at h
    exact .inl (execIrqEntry_changes (l := 0) h).slots_eq
  | false =>
    cases hp : s.prog with
    | nil => rw [cpuStep_ended ha hp] at h; cases h; exact .inl rfl
    | cons m rest =>
      rw [cpuStep_item ha hp] at h
      exact (itemStep_slots ha hp h).imp_right fun hw => ⟨rfl, hw⟩

/-- The other agents leave the tracker alone. -/
theorem agentStep_slots {c : Choice} (hc : c ≠ .cpu) (h : stepOf c s = .next t) : t.mgr.slots = s.mgr.slots := by
  obtain hk | ⟨-, -, rfl⟩ | ⟨-, he⟩ := agentStep_cases hc h
  · rw [hk.mgr]
  · rfl
  · rw [he]; rfl

end Step

/-- Settles O39: no agent but MAIN writes a slot, and of MAIN's items only BEGIN and MGR_INIT, each at its position. -/
theorem slotWriters : Obligations.SlotWriters := by
  unfold Obligations.SlotWriters
  intro s t h
  rw [step, s.chosen_eq] at h
  by_cases hc : s.choice = .cpu
  · rw [hc] at h
    exact (cpuStep_slots h).imp_right fun hw => ⟨hc, hw⟩
  · have hs := agentStep_slots hc h
    exact .inl hs

end Sys2Proof.Machine
end

section
/-! PROOFS. The registers of the banked interrupt controller (R113 to R122): the word a bank reads as, the write
rules by what they store, and the source a claim takes. -/

namespace Sys2Proof.Machine

open Sys2Proof

/-! ### Reads (R115, R117, R119, R121) -/

/-- A bank's bit is that of its source where the source exists. -/
theorem bankWord_source (p : Params) (b : Nat) (f : Nat → Bool) {k : Nat} (hk : k < 32) :
    (p.bankWord b f).getLsbD k = (decide (1 ≤ 32 * b + k ∧ 32 * b + k < p.numSources) && f (32 * b + k)) := by
  rw [bankWord_getLsbD, decide_eq_true hk, Bool.true_and, Bool.decide_and]

/-- Settles O40: each operation is one read of a register that exists, and a bank's bits are those of its sources. -/
theorem plicReads : Obligations.PlicReads := by
  unfold Obligations.PlicReads
  intro s hv
  obtain ⟨hthr, -⟩ := check_banked hv
  refine ⟨fun n h0 hn => ?_, fun b hb => ?_, ?_⟩
  · exact (guardUnit_present hv).trans (readOp_plain (check_source hv h0 hn) rfl)
  · obtain ⟨hpend, hen⟩ := check_bank hv hb
    exact ⟨s.cfg.bankWord b.toNat fun n => (s.src n).pending, s.cfg.bankWord b.toNat fun n => (s.src n).en,
      fun _ hk => bankWord_source _ _ _ hk, fun _ hk => bankWord_source _ _ _ hk,
      (guardUnit_present hv).trans (readOp_plain hpend rfl), (guardUnit_present hv).trans (readOp_plain hen rfl)⟩
  · exact (guardUnit_present hv).trans (readOp_plain hthr rfl)

/-! ### The write rules (R114, R116, R120, R122) -/

section Rules
variable {s : State} {f : FaultInfo} {v : Word} {n : Nat}

theorem writeReg_prio (h : v ≤ s.cfg.priorityLevels) :
    writeReg f (.prio n) v s = .ok (s.setSrc n { (s.src n) with prio := v }) :=
  if_neg (BitVec.not_lt.2 h)

theorem writeReg_prio_range (h : s.cfg.priorityLevels < v) :
    writeReg f (.prio n) v s = .error (.priorityRange f) :=
  if_pos h

theorem writeReg_thr (h : v ≤ s.cfg.priorityLevels) : writeReg f .thr v s = .ok (s.setThr v) :=
  if_neg (BitVec.not_lt.2 h)

theorem writeReg_thr_range (h : s.cfg.priorityLevels < v) : writeReg f .thr v s = .error (.priorityRange f) :=
  if_pos h

/-- A complete ends the service of a source in service. -/
theorem writeReg_claim (hn : v.toNat = n) (h0 : n ≠ 0) (hlt : n < s.cfg.numSources)
    (hi : (s.src n).inService = true) :
    writeReg f .claim v s = .ok (s.setSrc n { (s.src n) with inService := false }) := by
  subst hn
  exact if_pos ⟨h0, hlt, hi⟩

theorem writeReg_claim_bad
    (h : v.toNat = 0 ∨ s.cfg.numSources ≤ v.toNat ∨ (s.src v.toNat).inService = false) :
    writeReg f .claim v s = .error (.badComplete f) := by
  refine if_neg ?_
  rintro ⟨h0, hlt, hi⟩
  obtain h | h | h := h
  · exact h0 h
  · omega
  · rw [h] at hi; cases hi

/-- A bank write sets the enables of the bank's sources, source 0 excepted. -/
theorem writeEnBank_src {b : Nat} (hn : n < s.srcs.length) :
    (s.writeEnBank b v).src n =
      if n / 32 = b ∧ n ≠ 0 then { (s.src n) with en := v.getLsbD (n % 32) } else s.src n := by
  simp [State.src, State.writeEnBank, hn]

end Rules

/-- Settles O41: each operation is one write of a register that exists, by its write rule. -/
theorem plicWrites : Obligations.PlicWrites := by
  unfold Obligations.PlicWrites
  intro s v hv
  obtain ⟨hthr, hclaim⟩ := check_banked hv
  refine ⟨fun n h0 hn => ⟨fun h => ?_, fun h => ?_⟩, fun h => ?_, fun h => ?_, fun b hb hlen => ?_,
    fun h0 hn hi => ?_, fun h => ?_⟩
  · exact (guardUnit_present hv).trans (writeOp_ok (check_source hv h0 hn) (writeReg_prio h))
  · exact (guardUnit_present hv).trans (writeOp_fault (check_source hv h0 hn) (writeReg_prio_range h))
  · exact (guardUnit_present hv).trans (writeOp_ok hthr (writeReg_thr h))
  · exact (guardUnit_present hv).trans (writeOp_fault hthr (writeReg_thr_range h))
  · obtain ⟨-, hen⟩ := check_bank hv hb
    exact ⟨(s.writeEnBank b.toNat v).srcs, List.length_mapIdx, fun n hn => writeEnBank_src (hlen ▸ hn),
      (guardUnit_present hv).trans (writeOp_ok hen rfl)⟩
  · exact (guardUnit_present hv).trans (writeOp_ok hclaim (writeReg_claim rfl h0 hn hi))
  · exact (guardUnit_present hv).trans (writeOp_fault hclaim (writeReg_claim_bad h))

/-! ### The order of claims (R113) -/

/-- A claim takes source `n` rather than `m`: a larger priority, or the smaller id among equals. `n` itself is no
exception. -/
def ClaimedBefore (prio : Nat → Word) (n m : Nat) : Prop := prio m < prio n ∨ (prio m = prio n ∧ n ≤ m)

section Order
variable {prio : Nat → Word} {elig : Nat → Bool} {l : List Nat} {n m k : Nat}

theorem ClaimedBefore.refl (prio : Nat → Word) (n : Nat) : ClaimedBefore prio n n := .inr ⟨rfl, Nat.le_refl n⟩

theorem ClaimedBefore.trans (h : ClaimedBefore prio n m) (k' : ClaimedBefore prio m k) : ClaimedBefore prio n k := by
  unfold ClaimedBefore at *
  bv_omega

theorem ClaimedBefore.antisymm (h : ClaimedBefore prio n m) (k' : ClaimedBefore prio m n) : n = m := by
  unfold ClaimedBefore at *
  bv_omega

theorem claimPick_none_iff : claimPick elig prio l = none ↔ ∀ n ∈ l, elig n = false := by
  induction l with
  | nil => simp [claimPick]
  | cons n rest ih =>
    rw [List.forall_mem_cons, ← ih, claimPick]
    cases claimPick elig prio rest with
    | none => cases elig n <;> simp
    | some m => simp [ite_eq_iff]

/-- In an ascending list, the source taken comes before every other eligible one. -/
theorem claimPick_best (hl : l.Pairwise (· < ·)) (h : claimPick elig prio l = some n) (hm : m ∈ l)
    (he : elig m = true) : ClaimedBefore prio n m := by
  induction l generalizing n m with
  | nil => cases hm
  | cons a rest ih =>
    obtain ⟨hlt, hrest⟩ := List.pairwise_cons.1 hl
    rw [claimPick] at h
    cases hp : claimPick elig prio rest with
    | none =>
      simp only [hp] at h
      split at h
      next =>
        cases h
        obtain rfl | hm := List.mem_cons.1 hm
        · exact .refl prio m
        · rw [claimPick_none_iff.1 hp m hm] at he; cases he
      next => cases h
    | some k =>
      simp only [hp, Bool.and_eq_true, decide_eq_true_eq] at h
      split at h
      next ha =>
        cases h
        obtain rfl | hm := List.mem_cons.1 hm
        · exact .refl prio m
        · have hk := hlt k (claimPick_elig hp).1
          have hbefore : ClaimedBefore prio a k :=
            (Nat.lt_or_eq_of_le ha.2).imp_right fun h => ⟨BitVec.eq_of_toNat_eq h, Nat.le_of_lt hk⟩
          exact hbefore.trans (ih hrest hp hm he)
      next ha =>
        cases h
        obtain rfl | hm := List.mem_cons.1 hm
        · exact .inl (BitVec.not_le.1 fun hle => ha ⟨he, hle⟩)
        · exact ih hrest hp hm he

end Order

/-! ### The source a claim takes (R113) -/

section Claim
variable {s t : State} {i : Instr} {n m : Nat}

/-- What R113 asks of a source to be claimed. -/
theorem claim_candidate_iff :
    (n ∈ Params.sourceIds s.cfg ∧ s.eligible n = true) ↔
      (1 ≤ n ∧ n < s.cfg.numSources ∧ (s.src n).pending = true ∧ (s.src n).en = true ∧
        s.thr.toNat < (s.src n).prio.toNat) := by
  simp only [mem_sourceIds, State.eligible, Bool.and_eq_true, decide_eq_true_eq, BitVec.lt_def, Nat.one_le_iff_ne_zero]
  tauto

theorem sourceIds_ascending (p : Params) : (Params.sourceIds p).Pairwise (· < ·) :=
  List.pairwise_lt_range.filter _

theorem claimable_none_iff : s.claimable = none ↔ ∀ n ∈ Params.sourceIds s.cfg, s.eligible n = false :=
  claimPick_none_iff

/-- The source a claim takes is the eligible one that comes before every other. -/
theorem claimable_some_iff : s.claimable = some n ↔ (n ∈ Params.sourceIds s.cfg ∧ s.eligible n = true) ∧
    ∀ m, m ∈ Params.sourceIds s.cfg ∧ s.eligible m = true → ClaimedBefore (fun k => (s.src k).prio) n m := by
  constructor
  · exact fun h => ⟨claimPick_elig h, fun m ⟨hm, he⟩ => claimPick_best (sourceIds_ascending _) h hm he⟩
  · rintro ⟨⟨hn, he⟩, hbest⟩
    cases h : s.claimable with
    | none => rw [claimable_none_iff.1 h n hn] at he; cases he
    | some m =>
      have hm := claimPick_elig h
      have hmn := claimPick_best (sourceIds_ascending _) h hn he
      rw [hmn.antisymm (hbest m hm)]

/-- Source `n` taken into service by a claim. -/
def State.claimed (s : State) (n : Nat) : State := s.setSrc n { (s.src n) with pending := false, inService := true }

/-- A read step of a register whose read has led to `t`. -/
theorem readStep_effect {r : Reg} {v : Word} {k : Word → State → Out} (h : r.check s.cfg = .present)
    (hr : readReg r s = (v, t)) (hcfg : t.cfg = s.cfg) (hcur : t.cur = s.cur) :
    readStep i r s k = k v (t.sawRead r v) := by
  simp only [readStep, busRead_present h, hr, orFault, State.sawRead, who_agent, hcfg, hcur]

theorem readStep_claim_none {k : Word → State → Out} (hv : s.cfg.variant = .banked) (h : s.claimable = none) :
    readStep i .claim s k = k 0 (s.sawRead .claim 0) :=
  readStep_effect (check_banked hv).2 (by rw [readReg, State.claim, h]) rfl rfl

theorem readStep_claim_some {k : Word → State → Out} (hv : s.cfg.variant = .banked) (h : s.claimable = some n) :
    readStep i .claim s k = k (BitVec.ofNat 32 n) ((s.claimed n).sawRead .claim (BitVec.ofNat 32 n)) :=
  readStep_effect (t := s.claimed n) (check_banked hv).2 (by rw [readReg, State.claim, h]; rfl) rfl rfl

theorem prdClaim_eq (hv : s.cfg.variant = .banked) :
    exec (.prdClaim 0) s = readStep (.prdClaim 0) .claim s fun v => done (.word v) :=
  (guardUnit_present hv).trans (guardZero_zero _ _ _)

end Claim

/-- Settles O42: the operation is the claim read, of the source `claimable_some_iff` determines. -/
theorem claimRead : Obligations.ClaimRead := by
  unfold Obligations.ClaimRead
  intro s C hv hC
  have hcand (n : Nat) : C n ↔ n ∈ Params.sourceIds s.cfg ∧ s.eligible n = true :=
    (hC n).trans claim_candidate_iff.symm
  have hnone : s.claimable = none → ∀ n, ¬ C n := by
    intro h n hn
    obtain ⟨hm, he⟩ := (hcand n).1 hn
    rw [claimable_none_iff.1 h n hm] at he
    cases he
  refine ⟨fun hno => ?_, fun n hn hbest => ?_, fun ⟨n, hn⟩ => ?_⟩
  · have h : s.claimable = none :=
      claimable_none_iff.2 fun n hm => Bool.eq_false_iff.2 fun he => hno n ((hcand n).2 ⟨hm, he⟩)
    exact (prdClaim_eq hv).trans (readStep_claim_none hv h)
  · have h : s.claimable = some n := claimable_some_iff.2 ⟨(hcand n).1 hn, fun m hm => hbest m ((hcand m).2 hm)⟩
    exact (prdClaim_eq hv).trans (readStep_claim_some hv h)
  · cases h : s.claimable with
    | none => exact absurd hn (hnone h n)
    | some m =>
      obtain ⟨hm, hbest⟩ := claimable_some_iff.1 h
      exact ⟨m, (hcand m).2 hm, fun k hk => hbest k ((hcand k).1 hk)⟩

end Sys2Proof.Machine
end

section
/-! PROOFS. The built-in interrupt controller's CSRs (R123 to R125) and the capability surface of both variants (R127 to
R131): each operation step by step, the enables as the loop of IC_INIT leaves them by induction on the banks, and a bank
written with one bit changed as one source changed. -/

namespace Sys2Proof.Machine

open Sys2Proof

/-! ### The CSRs of the built-in controller (R123 to R125) -/

section Csrs
variable {s : State} {w : Who} {v : Word}

theorem csrRead_mask (hv : s.cfg.variant = .builtIn) : csrRead w s.cfg.csrIrqMask s = .ok s.icMask :=
  if_pos ⟨hv, rfl⟩

theorem csrWrite_mask (hv : s.cfg.variant = .builtIn) : csrWrite w s.cfg.csrIrqMask v s = .ok (s.setIcMask v) :=
  if_pos ⟨hv, rfl⟩

/-- The pending CSR, which is not the mask CSR. -/
theorem csrRead_pending (hv : s.cfg.variant = .builtIn) (hne : s.cfg.csrIrqMask ≠ s.cfg.csrIrqPending) :
    csrRead w s.cfg.csrIrqPending s = .ok s.pendWord := by
  rw [csrRead, if_neg fun h => hne h.2.symm, if_pos ⟨hv, rfl⟩]

theorem pendWord_getLsbD (s : State) {k : Nat} (hk : k < 32) : s.pendWord.getLsbD k = s.lineLevel k := by
  rw [State.pendWord, ofBits_getLsbD, decide_eq_true hk, Bool.true_and]

end Csrs

/-- Settles O43: one CSR access each, and the pending word has the lines' levels as its bits. -/
theorem csrAccesses : Obligations.CsrAccesses := by
  unfold Obligations.CsrAccesses
  intro s v hv
  refine ⟨?_, ?_, fun hne => ⟨s.pendWord, fun k hk => pendWord_getLsbD s hk, ?_⟩⟩
  · refine (guardUnit_present hv).trans ?_
    rw [guardZero_zero, csrReadOp, csrRead_mask hv]
    rfl
  · refine (guardUnit_present hv).trans ?_
    rw [guardZero_zero, csrWriteOp, csrWrite_mask hv]
    rfl
  · refine (guardUnit_present hv).trans ?_
    rw [guardZero_zero, csrReadOp, csrRead_pending hv hne]
    rfl

/-! ### A record and a source's replacement commute: a run's states are read with the records first -/

section Commute
variable {s : State} {n : Nat} {x : Source}

@[simp] theorem sawWrite_srcs (r : Reg) (v : Word) : (s.sawWrite r v).srcs = s.srcs := rfl
@[simp] theorem setSrc_sawRead (r : Reg) (v : Word) : (s.setSrc n x).sawRead r v = (s.sawRead r v).setSrc n x := rfl
@[simp] theorem setSrc_sawWrite (r : Reg) (v : Word) : (s.setSrc n x).sawWrite r v = (s.sawWrite r v).setSrc n x := rfl
theorem setSrc_setSrc (y : Source) : (s.setSrc n x).setSrc n y = s.setSrc n y := by simp [State.setSrc]

/-- A source of a state in which source `n` was replaced. -/
theorem setSrc_src (s : State) (n : Nat) (x : Source) (k : Nat) :
    (s.setSrc n x).src k = if k = n ∧ n < s.srcs.length then x else s.src k := by
  by_cases hk : k = n
  · subst hk
    by_cases hlt : k < s.srcs.length
    · rw [if_pos ⟨rfl, hlt⟩, State.setSrc_src_same s x hlt]
    · rw [if_neg fun h => hlt h.2, State.setSrc, List.set_eq_of_length_le (Nat.le_of_not_lt hlt)]
  · rw [if_neg fun h => hk h.1, State.setSrc_src_other s x hk]

end Commute

/-! ### Accesses of the banked controller inside an operation -/

/-- What enable bank `b` reads as (R119). -/
def State.enWord (s : State) (b : Nat) : Word := s.cfg.bankWord b fun n => (s.src n).en

@[simp] theorem goto_enWord (s : State) (q : Pos) (b : Nat) : (s.goto q).enWord b = s.enWord b := rfl

/-- A source's priority is no part of a bank. -/
theorem setPrio_enWord (s : State) (n : Nat) (v : Word) (b : Nat) :
    (s.setSrc n { (s.src n) with prio := v }).enWord b = s.enWord b := by
  refine congrArg (Params.bankWord s.cfg b) (funext fun k => ?_)
  rw [setSrc_src]
  split
  next h => rw [h.1]
  next => rfl

section Accesses
variable {s : State} {i : Instr} {v : Word} {n : Nat}

theorem sourceOk_banked {p : Params} (hv : p.variant = .banked) (h0 : n ≠ 0) (hn : n < p.numSources) :
    p.sourceOk n = true := by
  simp [Params.sourceOk, hv, h0, hn]

theorem sourceOk_builtIn {p : Params} (hv : p.variant = .builtIn) (hn : n < 32) : p.sourceOk n = true := by
  simp [Params.sourceOk, hv, hn]

variable {k : State → Out} (hv : s.cfg.variant = .banked)
include hv

theorem writeStep_prio (h0 : n ≠ 0) (hn : n < s.cfg.numSources) (h : v ≤ s.cfg.priorityLevels) :
    writeStep i (.prio n) v s k = k ((s.sawWrite (.prio n) v).setSrc n { (s.src n) with prio := v }) :=
  writeStep_ok (check_source hv h0 hn) (writeReg_prio (s := s.sawWrite _ _) h)

theorem writeStep_thr (h : v ≤ s.cfg.priorityLevels) : writeStep i .thr v s k = k ((s.sawWrite .thr v).setThr v) :=
  writeStep_ok (check_banked hv).1 (writeReg_thr (s := s.sawWrite _ _) h)

theorem writeStep_en {b : Nat} (hb : b < s.cfg.numBanks) :
    writeStep i (.en b) v s k = k ((s.sawWrite (.en b) v).writeEnBank b v) :=
  writeStep_ok (check_bank hv hb).2 rfl

theorem readStep_en {b : Nat} {k : Word → State → Out} (hb : b < s.cfg.numBanks) :
    readStep i (.en b) s k = k (s.enWord b) (s.sawRead (.en b) (s.enWord b)) :=
  readStep_plain (check_bank hv hb).2 rfl

theorem readStep_prio {k : Word → State → Out} (h0 : n ≠ 0) (hn : n < s.cfg.numSources) :
    readStep i (.prio n) s k = k (s.src n).prio (s.sawRead (.prio n) (s.src n).prio) :=
  readStep_plain (check_source hv h0 hn) rfl

end Accesses

/-! ### IC_PRIORITY_COUNT and IC_SET_PRIORITY (R130, R131) -/

/-- Settles O46: both variants' answers, and the level's check before the write. -/
theorem priorityOperations : Obligations.PriorityOperations := by
  unfold Obligations.PriorityOperations
  intro s n v
  refine ⟨fun hv => ⟨?_, ?_⟩, fun hv => ⟨?_, fun h0 hn => ?_⟩⟩
  · simp only [exec, execIcPriorityCount, guardZero_zero, hv]
    rfl
  · simp only [exec, execIcSetPriority, hv]
    rfl
  · simp only [exec, execIcPriorityCount, guardZero_zero, hv]
    rfl
  · simp only [exec, execIcSetPriority, hv, guardIdx_true (sourceOk_banked hv h0 hn)]
    refine ⟨fun h => ?_, fun h => if_pos h⟩
    rw [if_neg (BitVec.not_lt.2 h)]
    exact writeStep_prio hv h0 hn h

/-! ### IC_INIT (R127) -/

/-- Where IC_INIT goes with the banks below `b` cleared. -/
def icInitNext (p : Params) (b : Nat) : Pos := if b < p.numBanks then .icInitEn b else .icInitThr

/-- The enable banks `0` to `n-1` cleared in ascending order, each by one write. -/
def State.clearEnBanks (s : State) : Nat → State
  | 0 => s
  | n + 1 => ((s.clearEnBanks n).sawWrite (.en n) 0).writeEnBank n 0

/-- The records of the writes that clear the banks `0` to `n-1`, newest first. -/
def State.enBankWrites (s : State) (n : Nat) : List Event :=
  ((List.range n).map fun b => Event.bus s.cur true ((Reg.en b).addr s.cfg) 4 0).reverse

section IcInit
variable {s : State} {n : Nat}

/-- Only the enables of the cleared banks and the history change. -/
theorem clearEnBanks_eq (s : State) (n : Nat) : s.clearEnBanks n =
    { s with
      srcs := s.srcs.mapIdx fun k x => if k / 32 < n ∧ k ≠ 0 then { x with en := false } else x
      hist := s.enBankWrites n ++ s.hist } := by
  induction n with
  | zero =>
    have hsrcs : (s.srcs.mapIdx fun k x => if k / 32 < 0 ∧ k ≠ 0 then { x with en := false } else x) = s.srcs := by
      exact List.ext_getElem (by simp) (by simp)
    rw [hsrcs]
    rfl
  | succ n ih =>
    have hhist : s.enBankWrites (n + 1) = Event.bus s.cur true ((Reg.en n).addr s.cfg) 4 0 :: s.enBankWrites n := by
      simp [State.enBankWrites, List.range_succ]
    have hsrcs : ((s.clearEnBanks n).writeEnBank n 0).srcs =
        s.srcs.mapIdx fun k x => if k / 32 < n + 1 ∧ k ≠ 0 then { x with en := false } else x := by
      rw [ih]
      refine List.ext_getElem (by simp [State.writeEnBank]) fun k _ _ => ?_
      simp only [State.writeEnBank, List.getElem_mapIdx]
      obtain h | h | h := Nat.lt_trichotomy (k / 32) n
      · simp [h, Nat.ne_of_lt h, Nat.lt_succ_of_lt h]
      · simp [h]
      · simp [Nat.not_lt_of_gt h, Nat.ne_of_gt h, Nat.not_lt_of_ge h]
    rw [State.clearEnBanks, hhist, ← hsrcs, ih]
    rfl

/-- With every bank cleared, every source but source 0 is. -/
theorem clearEnBanks_all (hlen : s.srcs.length = s.cfg.numSources) : s.clearEnBanks s.cfg.numBanks =
    { s with
      srcs := s.srcs.mapIdx fun k x => if k = 0 then x else { x with en := false }
      hist := s.enBankWrites s.cfg.numBanks ++ s.hist } := by
  rw [clearEnBanks_eq]
  congr 1
  refine List.ext_getElem (by simp) fun k hk _ => ?_
  have hbank : k / 32 < s.cfg.numBanks := bank_of_source (by simpa [hlen] using hk)
  by_cases h0 : k = 0 <;> simp [hbank, h0]

variable (hv : s.cfg.variant = .banked)
include hv

theorem icInitBank_step {i : Instr} (hn : n < s.cfg.numBanks) :
    icInitBank i n s = .next (((s.sawWrite (.en n) 0).writeEnBank n 0).goto (icInitNext s.cfg (n + 1))) :=
  writeStep_en hv hn

theorem icInit_start (hp : s.pos = .start) (hn : 0 < s.cfg.numBanks) :
    exec (.icInit 0) s = .next ((s.clearEnBanks 1).goto (icInitNext s.cfg 1)) := by
  simp only [exec, execIcInit, guardZero_zero, hv, hp]
  exact icInitBank_step hv hn

theorem icInit_bank (hp : s.pos = .icInitEn n) (hn : n < s.cfg.numBanks) :
    exec (.icInit 0) s = .next (((s.sawWrite (.en n) 0).writeEnBank n 0).goto (icInitNext s.cfg (n + 1))) := by
  simp only [exec, execIcInit, guardZero_zero, hv, hp]
  exact icInitBank_step hv hn

theorem icInit_thr (hp : s.pos = .icInitThr) :
    exec (.icInit 0) s = .next (((s.sawWrite .thr 0).setThr 0).ret (.code .ok)) := by
  simp only [exec, execIcInit, guardZero_zero, hv, hp]
  exact writeStep_thr hv (Nat.zero_le _)

/-- The loop clears one bank a step, and goes to the threshold after the last. -/
theorem icInit_clears (hp : s.pos = .start) (hn : n + 1 ≤ s.cfg.numBanks) :
    runOp (.icInit 0) (n + 1) s = .next ((s.clearEnBanks (n + 1)).goto (icInitNext s.cfg (n + 1))) := by
  induction n with
  | zero => exact runOp_one (icInit_start hv hp hn)
  | succ n ih =>
    have hpos : icInitNext s.cfg (n + 1) = .icInitEn (n + 1) := if_pos hn
    have hcfg : (s.clearEnBanks (n + 1)).cfg = s.cfg := by rw [clearEnBanks_eq]
    have hstep := icInit_bank (s := (s.clearEnBanks (n + 1)).goto (icInitNext s.cfg (n + 1))) (n := n + 1)
      (by rw [State.goto_cfg, hcfg, hv]) ((State.goto_pos _ _).trans hpos) (by rwa [State.goto_cfg, hcfg])
    refine runOp_trans (ih (Nat.le_of_succ_le hn)) (runOp_one (hstep.trans ?_))
    rw [sawWrite_goto, State.goto_writeEnBank, State.goto_goto, State.goto_cfg, hcfg]
    rfl

end IcInit

/-- Settles O44: the loop over the banks (`icInit_clears`), then the threshold. -/
theorem icInitRun : Obligations.IcInitRun := by
  unfold Obligations.IcInitRun
  intro s
  refine ⟨fun hv => ?_, icInit_thr, fun hv hp hlen hsrc => ?_⟩
  · simp only [exec, execIcInit, guardZero_zero, hv, csrWrite_mask hv]
    rfl
  · obtain ⟨n, hn⟩ : ∃ n, s.cfg.numBanks = n + 1 := Nat.exists_eq_add_one.2 (bank_of_source hsrc)
    have hloop := icInit_clears hv hp (Nat.le_of_eq hn.symm)
    rw [← hn, clearEnBanks_all hlen, icInitNext, if_neg (lt_irrefl _)] at hloop
    refine runOp_trans hloop (runOp_one ((icInit_thr (by exact hv) (State.goto_pos _ _)).trans ?_))
    rw [sawWrite_goto, State.goto_setThr, State.ret_goto]
    rfl

/-! ### One bit of a bank is one source's enable (R119, R120) -/

section EnBit
variable {s : State} {n : Nat}

theorem enWord_source (s : State) (h0 : n ≠ 0) (hn : n < s.cfg.numSources) :
    (s.enWord (n / 32)).getLsbD (n % 32) = (s.src n).en := by
  have hid : 32 * (n / 32) + n % 32 = n := Nat.div_add_mod n 32
  rw [State.enWord, bankWord_source _ _ _ (Nat.mod_lt n (by decide)), hid,
    decide_eq_true ⟨Nat.one_le_iff_ne_zero.2 h0, hn⟩, Bool.true_and]

/-- A bank written as it reads but for the bit of source `n` changes the enable of `n` alone. -/
theorem writeEnBank_eq_setSrc {v : Word} {b : Bool} (hlen : s.srcs.length = s.cfg.numSources) (h0 : n ≠ 0)
    (hn : v.getLsbD (n % 32) = b)
    (hother : ∀ k < 32, k ≠ n % 32 → v.getLsbD k = (s.enWord (n / 32)).getLsbD k) :
    s.writeEnBank (n / 32) v = s.setSrc n { (s.src n) with en := b } := by
  unfold State.writeEnBank State.setSrc
  congr 1
  refine List.ext_getElem (by simp) fun k hk _ => ?_
  have hks : k < s.srcs.length := by simpa using hk
  have hsrc : s.src k = s.srcs[k] := by simp [State.src, hks]
  rw [List.getElem_mapIdx, List.getElem_set]
  by_cases hkn : n = k
  · subst hkn
    simp [h0, hn, hsrc]
  · rw [if_neg hkn]
    split
    next h =>
      obtain ⟨hbank, hk0⟩ := h
      have hbit : k % 32 ≠ n % 32 := by omega
      have hen : v.getLsbD (k % 32) = (s.src k).en := by
        rw [hother _ (Nat.mod_lt k (by decide)) hbit, ← hbank, enWord_source s hk0 (hlen ▸ hks)]
      rw [hen, hsrc]
    next => rfl

theorem writeEnBank_or {e : Word} (hlen : s.srcs.length = s.cfg.numSources) (h0 : n ≠ 0)
    (he : s.enWord (n / 32) = e) :
    s.writeEnBank (n / 32) (e ||| bit (n % 32)) = s.setSrc n { (s.src n) with en := true } := by
  subst he
  have hmod := Nat.mod_lt n (show 32 > 0 by decide)
  refine writeEnBank_eq_setSrc hlen h0 ?_ fun k _ hk => ?_
  · rw [BitVec.getLsbD_or, bit_getLsbD]
    simp [hmod]
  · rw [BitVec.getLsbD_or, bit_getLsbD]
    simp [hk]

theorem writeEnBank_andNot {e : Word} (hlen : s.srcs.length = s.cfg.numSources) (h0 : n ≠ 0)
    (he : s.enWord (n / 32) = e) :
    s.writeEnBank (n / 32) (e &&& ~~~bit (n % 32)) = s.setSrc n { (s.src n) with en := false } := by
  subst he
  have hmod := Nat.mod_lt n (show 32 > 0 by decide)
  refine writeEnBank_eq_setSrc hlen h0 ?_ fun k hk32 hk => ?_
  · rw [BitVec.getLsbD_and, BitVec.getLsbD_not, bit_getLsbD]
    simp [hmod]
  · rw [BitVec.getLsbD_and, BitVec.getLsbD_not, bit_getLsbD]
    simp [hk32, hk]

end EnBit
/-! ### IC_ENABLE and IC_DISABLE (R128, R129) -/

section Banked
variable {s : State} {i : Idx} {w : Word} (hv : s.cfg.variant = .banked) (h0 : i.toNat ≠ 0)
  (hn : i.toNat < s.cfg.numSources)
include hv h0 hn

theorem icEnable_start (hp : s.pos = .start) :
    exec (.icEnable i) s = .next ((s.sawRead (.prio i.toNat) (s.src i.toNat).prio).goto
      (if (s.src i.toNat).prio = 0 then .icSetPrio else .icReadEn)) := by
  simp only [exec, execIcEnable, guardIdx_true (sourceOk_banked hv h0 hn), hv, hp]
  exact readStep_prio hv h0 hn

theorem icEnable_setPrio (hp : s.pos = .icSetPrio) (hl : 1 ≤ s.cfg.priorityLevels.toNat) :
    exec (.icEnable i) s = .next (((s.sawWrite (.prio i.toNat) 1).setSrc i.toNat
      { (s.src i.toNat) with prio := 1 }).goto .icReadEn) := by
  simp only [exec, execIcEnable, guardIdx_true (sourceOk_banked hv h0 hn), hv, hp]
  exact writeStep_prio hv h0 hn hl

theorem icEnable_readEn (hp : s.pos = .icReadEn) :
    exec (.icEnable i) s = .next ((s.sawRead (.en (i.toNat / 32)) (s.enWord (i.toNat / 32))).goto
      (.icWriteEn (s.enWord (i.toNat / 32)))) := by
  simp only [exec, execIcEnable, guardIdx_true (sourceOk_banked hv h0 hn), hv, hp]
  exact readStep_en hv (bank_of_source hn)

theorem icEnable_writeEn (hp : s.pos = .icWriteEn w) :
    exec (.icEnable i) s = .next (((s.sawWrite (.en (i.toNat / 32)) (w ||| bit (i.toNat % 32))).writeEnBank
      (i.toNat / 32) (w ||| bit (i.toNat % 32))).ret (.code .ok)) := by
  simp only [exec, execIcEnable, guardIdx_true (sourceOk_banked hv h0 hn), hv, hp]
  exact writeStep_en hv (bank_of_source hn)

theorem icDisable_start (hp : s.pos = .start) :
    exec (.icDisable i) s = .next ((s.sawRead (.en (i.toNat / 32)) (s.enWord (i.toNat / 32))).goto
      (.icWriteEn (s.enWord (i.toNat / 32)))) := by
  simp only [exec, execIcDisable, guardIdx_true (sourceOk_banked hv h0 hn), hv, hp]
  exact readStep_en hv (bank_of_source hn)

theorem icDisable_writeEn (hp : s.pos = .icWriteEn w) :
    exec (.icDisable i) s = .next (((s.sawWrite (.en (i.toNat / 32)) (w &&& ~~~bit (i.toNat % 32))).writeEnBank
      (i.toNat / 32) (w &&& ~~~bit (i.toNat % 32))).ret (.code .ok)) := by
  simp only [exec, execIcDisable, guardIdx_true (sourceOk_banked hv h0 hn), hv, hp]
  exact writeStep_en hv (bank_of_source hn)

variable (hlen : s.srcs.length = s.cfg.numSources)
include hlen

/-- The read-modify-write of the enable bank, which both paths of IC_ENABLE end with. -/
theorem icEnable_sets : runOp (.icEnable i) 2 (s.goto .icReadEn) =
    .next (((s.sawRead (.en (i.toNat / 32)) (s.enWord (i.toNat / 32)) |>.sawWrite (.en (i.toNat / 32))
      (s.enWord (i.toNat / 32) ||| bit (i.toNat % 32))).setSrc i.toNat { (s.src i.toNat) with en := true }).ret
        (.code .ok)) := by
  have hread := icEnable_readEn (s := s.goto .icReadEn) hv h0 hn (State.goto_pos _ _)
  rw [sawRead_goto, State.goto_goto, goto_enWord] at hread
  refine runOp_cons hread
    (runOp_one ((icEnable_writeEn (s := (s.sawRead _ _).goto _) hv h0 hn (State.goto_pos _ _)).trans ?_))
  rw [sawWrite_goto, State.goto_writeEnBank, State.ret_goto,
    writeEnBank_or (s := (s.sawRead _ _).sawWrite _ _) (e := s.enWord _) hlen h0 rfl]
  rfl

/-- The write of priority 1 before it, which the path of a source of priority 0 has. -/
theorem icEnable_raises (hl : 1 ≤ s.cfg.priorityLevels.toNat) : runOp (.icEnable i) 3 (s.goto .icSetPrio) =
    .next (((s.sawWrite (.prio i.toNat) 1 |>.sawRead (.en (i.toNat / 32)) (s.enWord (i.toNat / 32))
      |>.sawWrite (.en (i.toNat / 32)) (s.enWord (i.toNat / 32) ||| bit (i.toNat % 32))).setSrc i.toNat
        { (s.src i.toNat) with prio := 1, en := true }).ret (.code .ok)) := by
  have hset := icEnable_setPrio (s := s.goto .icSetPrio) hv h0 hn (State.goto_pos _ _) hl
  rw [sawWrite_goto, State.goto_setSrc, State.goto_goto, State.goto_src] at hset
  generalize ht : (s.sawWrite (.prio i.toNat) 1).setSrc i.toNat { (s.src i.toNat) with prio := 1 } = t at hset
  have hcfg : t.cfg = s.cfg := by rw [← ht]; rfl
  have hsize : t.srcs.length = t.cfg.numSources := by rw [hcfg, ← hlen, ← ht]; simp
  have hen : t.enWord (i.toNat / 32) = s.enWord (i.toNat / 32) := by
    rw [← ht]
    exact setPrio_enWord (s.sawWrite _ _) _ _ _
  have hsrc : t.src i.toNat = { (s.src i.toNat) with prio := 1 } := by
    rw [← ht, State.setSrc_src_same _ _ (by exact hlen ▸ hn)]
  have hsets := icEnable_sets (i := i) (hcfg ▸ hv) h0 (hcfg ▸ hn) hsize
  rw [hsrc, hen, ← ht, setSrc_sawRead, setSrc_sawWrite, setSrc_setSrc, ht] at hsets
  exact runOp_cons hset hsets

theorem icDisable_clears (hp : s.pos = .start) : runOp (.icDisable i) 2 s =
    .next (((s.sawRead (.en (i.toNat / 32)) (s.enWord (i.toNat / 32)) |>.sawWrite (.en (i.toNat / 32))
      (s.enWord (i.toNat / 32) &&& ~~~bit (i.toNat % 32))).setSrc i.toNat { (s.src i.toNat) with en := false }).ret
        (.code .ok)) := by
  refine runOp_cons (icDisable_start hv h0 hn hp)
    (runOp_one ((icDisable_writeEn (s := (s.sawRead _ _).goto _) hv h0 hn (State.goto_pos _ _)).trans ?_))
  rw [sawWrite_goto, State.goto_writeEnBank, State.ret_goto,
    writeEnBank_andNot (s := (s.sawRead _ _).sawWrite _ _) (e := s.enWord _) hlen h0 rfl]
  rfl

end Banked

section BuiltIn
variable {s : State} {i : Idx} {m : Word} (hv : s.cfg.variant = .builtIn) (hn : i.toNat < 32)
include hv hn

theorem icEnable_readMask (hp : s.pos = .start) :
    exec (.icEnable i) s = .next (s.goto (.icWriteEn s.icMask)) := by
  simp only [exec, execIcEnable, guardIdx_true (sourceOk_builtIn hv hn), hv, hp, csrRead_mask hv]
  rfl

theorem icEnable_writeMask (hp : s.pos = .icWriteEn m) :
    exec (.icEnable i) s = .next ((s.setIcMask (m ||| bit i.toNat)).ret (.code .ok)) := by
  simp only [exec, execIcEnable, guardIdx_true (sourceOk_builtIn hv hn), hv, hp, csrWrite_mask hv]
  rfl

theorem icDisable_readMask (hp : s.pos = .start) :
    exec (.icDisable i) s = .next (s.goto (.icWriteEn s.icMask)) := by
  simp only [exec, execIcDisable, guardIdx_true (sourceOk_builtIn hv hn), hv, hp, csrRead_mask hv]
  rfl

theorem icDisable_writeMask (hp : s.pos = .icWriteEn m) :
    exec (.icDisable i) s = .next ((s.setIcMask (m &&& ~~~bit i.toNat)).ret (.code .ok)) := by
  simp only [exec, execIcDisable, guardIdx_true (sourceOk_builtIn hv hn), hv, hp, csrWrite_mask hv]
  rfl

end BuiltIn

/-- Settles O45: the priority's steps where it was 0, then the read-modify-write of the bank or of the mask. -/
theorem icEnableDisableRuns : Obligations.IcEnableDisableRuns := by
  unfold Obligations.IcEnableDisableRuns
  rintro s i _ w rfl
  refine ⟨fun hv h0 hn hp => ⟨icEnable_writeEn hv h0 hn hp, icDisable_writeEn hv h0 hn hp⟩,
    fun hv h0 hn hp hlen => ⟨s.enWord (i.toNat / 32), enWord_source s h0 hn, fun hprio => ?_, fun hprio hl => ?_,
      icDisable_clears hv h0 hn hlen hp⟩, fun hv hn hp => ⟨?_, ?_⟩⟩
  · have hstart := icEnable_start hv h0 hn hp
    rw [if_neg hprio] at hstart
    exact runOp_cons hstart (icEnable_sets (s := s.sawRead _ _) hv h0 hn hlen)
  · have hstart := icEnable_start hv h0 hn hp
    rw [if_pos hprio, hprio] at hstart
    exact runOp_cons hstart (icEnable_raises (s := s.sawRead _ _) hv h0 hn hlen hl)
  · refine runOp_cons (icEnable_readMask hv hn hp) (runOp_one ?_)
    rw [icEnable_writeMask (s := s.goto _) hv hn (State.goto_pos _ _), State.goto_setIcMask, State.ret_goto]
  · refine runOp_cons (icDisable_readMask hv hn hp) (runOp_one ?_)
    rw [icDisable_writeMask (s := s.goto _) hv hn (State.goto_pos _ _), State.goto_setIcMask, State.ret_goto]

end Sys2Proof.Machine
end

section
/-! PROOFS. The gateway (R111): what sets a pending bit, by what each small change of a step does to the sources and by
which agents take none of them. -/

namespace Sys2Proof.Machine

open Sys2Proof

section Pending
variable {l n m : Nat} {s t : State}

/-- No change inside a step of the CPU sets a pending bit of a source. -/
theorem SourceChange.notPending {p : Params} {x y : Source} (hl : l ≤ 2) (h : SourceChange l p x y)
    (hx : x.pending = false) : y.pending = false := by
  cases h with
  | claim => rfl
  | complete | prio => exact hx
  | latch => omega

/-- A bank write leaves every pending bit. -/
theorem writeEnBank_pending (s : State) (b : Nat) (v : Word) (n : Nat) :
    ((s.writeEnBank b v).src n).pending = (s.src n).pending := by
  by_cases hn : n < s.srcs.length
  · rw [writeEnBank_src hn]
    split <;> rfl
  · have hlen : (s.writeEnBank b v).srcs.length = s.srcs.length := List.length_mapIdx
    rw [State.src, State.src, List.getD_eq_default _ _ (by omega), List.getD_eq_default _ _ (by omega)]

theorem src_eq_of_srcs_eq (h : t.srcs = s.srcs) (n : Nat) : t.src n = s.src n := by
  rw [State.src, h, State.src]

theorem Change.notPending (hl : l ≤ 2) (h : Change l s t) (hs : (s.src n).pending = false) :
    (t.src n).pending = false := by
  obtain he | ⟨m, x, -, hx, he⟩ | ⟨b, v, rfl⟩ := h.srcs_cases
  · rwa [src_eq_of_srcs_eq he]
  · have hsrc : t.src n = (s.setSrc m x).src n := src_eq_of_srcs_eq he n
    rw [hsrc, setSrc_src]
    split
    next hn => exact hx.notPending hl (hn.1 ▸ hs)
    next => exact hs
  · rwa [writeEnBank_pending]

theorem Runs.notPending (hl : l ≤ 2) (h : Runs l s t) (hs : (s.src n).pending = false) :
    (t.src n).pending = false := by
  obtain ⟨u, hu, ht⟩ := h
  have hpend := hu.keeps (P := fun u => (u.src n).pending = false) (fun _ _ hc => hc.notPending hl) hs
  obtain ⟨q, rfl⟩ | ⟨r, rfl⟩ := ht
  · exact hpend
  · rwa [State.ret_src]

theorem cpuStep_notPending (h : cpuStep s = .next t) (hs : (s.src n).pending = false) :
    (t.src n).pending = false := by
  obtain ⟨-, h⟩ | ⟨-, m, h⟩ | ⟨-, rfl⟩ := cpuStep_next h
  · exact (exec_changes h).notPending (by decide) hs
  · exact (itemStep_changes h).notPending (le_refl 2) hs
  · exact hs

theorem eProgress_srcs {ch : Nat} (h : eProgress ch s = .next t) : t.srcs = s.srcs := by
  unfold eProgress at h
  dsimp only at h
  split at h
  · split at h
    · cases h; rfl
    · split at h
      · cases h
      · cases h; rw [State.countByte, moveByte_eq]; rfl
  · cases h; rfl

/-- Of the agents that are not the CPU, only the gateway touches the sources. -/
theorem agentStep_srcs {c : Choice} (hcpu : c ≠ .cpu) (hgw : ∀ m, c ≠ .gwLatch m) (h : stepOf c s = .next t) :
    t.srcs = s.srcs := by
  cases c with
  | cpu => exact absurd rfl hcpu
  | gwLatch m => exact absurd rfl (hgw m)
  | eProgress ch => exact eProgress_srcs h
  | envCpuIe on => cases h; rfl
  | irqEntry | spReady | spError | eReady | eLast | eComplete | envLine =>
    obtain ⟨-, rfl⟩ | rfl := ite_next h <;> rfl

/-- GW_LATCH(m) sets a pending bit where it is enabled, and that of source `m`. -/
theorem gwLatch_sets (h : stepOf (.gwLatch m) s = .next t) (hs : (s.src n).pending = false)
    (ht : (t.src n).pending = true) :
    m = n ∧ s.lineLevel n = true ∧ (s.src n).inService = false ∧ 1 ≤ n ∧ n < s.cfg.numSources := by
  obtain ⟨⟨-, h0, hn, hline, -, hserv⟩, rfl⟩ | rfl := ite_next h
  · by_cases hnm : n = m
    · subst hnm
      exact ⟨rfl, hline, hserv, Nat.one_le_iff_ne_zero.2 h0, hn⟩
    · rw [State.setSrc_src_other s _ hnm, hs] at ht
      cases ht
  · rw [hs] at ht
    cases ht

theorem stepOf_sets_pending {c : Choice} (h : stepOf c s = .next t) (hs : (s.src n).pending = false)
    (ht : (t.src n).pending = true) :
    c = .gwLatch n ∧ s.lineLevel n = true ∧ (s.src n).inService = false ∧ 1 ≤ n ∧ n < s.cfg.numSources := by
  by_cases hcpu : c = .cpu
  · subst hcpu
    rw [cpuStep_notPending h hs] at ht
    cases ht
  by_cases hgw : ∃ m, c = .gwLatch m
  · obtain ⟨m, rfl⟩ := hgw
    obtain ⟨rfl, hrest⟩ := gwLatch_sets h hs ht
    exact ⟨rfl, hrest⟩
  · rw [src_eq_of_srcs_eq (agentStep_srcs hcpu (fun m hm => hgw ⟨m, hm⟩) h), hs] at ht
    cases ht

end Pending

/-- Settles O48: GW_LATCH is the test of its conditions, and every other step leaves each pending bit or clears it. -/
theorem gateway : Obligations.Gateway := by
  unfold Obligations.Gateway
  intro n
  refine ⟨fun s hv h1 hn => ⟨fun hl hp hi => ?_, fun hoff => ?_⟩, fun s t h hs ht => ?_⟩
  · exact if_pos ⟨hv, Nat.one_le_iff_ne_zero.1 h1, hn, hl, hp, hi⟩
  · refine if_neg ?_
    rintro ⟨-, -, -, hl, hp, hi⟩
    simp [hl, hp, hi] at hoff
  · rw [step, s.chosen_eq] at h
    have hset := stepOf_sets_pending h hs ht
    exact hset

end Sys2Proof.Machine
end

section
/-! PROOFS. DISPATCH (R132): the DMA source runs UPDATE, from its entry to the end of its loop, and the others are
ignored. -/

namespace Sys2Proof.Machine

open Sys2Proof

/-! ### UPDATE inside another operation -/

/-- A step of UPDATE leaves the parameters. -/
theorem updateStep_cfg {w : Who} {u : UpdatePos} {s t : State} (h : (updateStep w u s).after = some t) :
    t.cfg = s.cfg := by
  obtain ⟨-, -, -, -, -, -, -, hcfg, -⟩ := (updateStep_changes (l := 0) h).sameFlow (by decide)
  exact hcfg

/-- `Ends.run` for an operation whose steps are those of UPDATE where the parameters are `p`. -/
theorem UpdateFlow.Ends.runWith {i : Instr} {w : Who} {q : UpdatePos → Pos} {k : ResCode → State → Out}
    {f : UpdateFlow} {c : ResCode} {t v : State} {p : Params} (h : UpdateFlow.Ends w f c t) (hf : ∀ s, f.after = some s → s.cfg = p)
    (hat : ∀ u s, s.cfg = p → w.agent = s.cur → exec i (s.goto (q u)) = runUpdate w u q k s)
    (hk : k c t = .next v) : ∃ n a, f.out q k = .next a ∧ runOp i n a = .next v := by
  induction h with
  | fin => exact ⟨0, v, hk, rfl⟩
  | go hw _ ih =>
    have hp := hf _ rfl
    obtain ⟨n, a, ha, hn⟩ := ih (fun s hs => (updateStep_cfg hs).trans hp) hk
    exact ⟨n + 1, _, rfl, runOp_cons ((hat _ _ hp hw).trans ((runUpdate_eq ..).trans ha)) hn⟩

/-! ### DISPATCH (R132) -/

section Dispatch
variable {s : State} {n : Idx}

/-- A step of DISPATCH of the DMA source is the step of UPDATE at its position. -/
theorem dispatch_dma (hn : n.toNat = s.cfg.dmaIrqSource) :
    exec (.dispatch n) s = runUpdate (s.who (.dispatch n)) s.updatePos .updating (fun _ => done .unit) s :=
  if_pos hn

theorem updatePos_start (hp : s.pos = .start) : s.updatePos = .enter := by
  rw [State.updatePos, hp]

theorem updatePos_updating {u : UpdatePos} (hp : s.pos = .updating u) : s.updatePos = u := by
  rw [State.updatePos, hp]

theorem dispatch_updating {w : Who} (u : UpdatePos) (hn : n.toNat = s.cfg.dmaIrqSource)
    (hw : w = s.who (.dispatch n)) :
    exec (.dispatch n) (s.goto (.updating u)) = runUpdate w u .updating (fun _ => done .unit) s := by
  rw [dispatch_dma (by exact hn), updatePos_updating (State.goto_pos _ _), State.goto_who, ← hw]
  exact runUpdate_goto fun _ _ => done_goto _

end Dispatch

/-- Settles O49: the steps of DISPATCH of the DMA source are those of UPDATE, which services every channel
(`ends_enter`). -/
theorem dispatchRuns : Obligations.DispatchRuns := by
  unfold Obligations.DispatchRuns
  intro s n
  refine ⟨fun hn => if_neg hn, fun hn => ⟨fun hp hu => ?_, fun hp hg => ?_, fun hp hu hm hg hnum hret => ?_⟩⟩
  · rw [dispatch_dma hn, updatePos_start hp]
    exact runUpdate_fin (if_neg (by simp [hu]))
  · have h := updateStep_gstatus (w := s.who (.dispatch n)) (s := s) rfl
    rw [if_pos hg, hg] at h
    rw [dispatch_dma hn, updatePos_updating hp]
    exact runUpdate_fin h
  · have hends := ends_enter (w := s.who (.dispatch n)) rfl hu hm hg hnum hret
    cases hends with
    | go hw h =>
      obtain ⟨k, a, ha, hk⟩ := h.runWith (i := .dispatch n) (q := .updating) (k := fun _ => done .unit)
        (fun _ => updateStep_cfg) (fun u t hcfg ht => dispatch_updating u (hcfg ▸ hn) (congrArg (Who.mk · _) ht)) rfl
      have hstep := dispatch_dma hn
      rw [updatePos_start hp, runUpdate_eq, ha] at hstep
      exact ⟨k + 1, runOp_cons hstep hk⟩

end Sys2Proof.Machine
end

section
/-! PROOFS. IRQ_ENTRY (R133) on both variants: the claim or the two CSR reads, the record, the dispatch, in which the
DMA source runs UPDATE, and on the banked controller the complete. -/

namespace Sys2Proof.Machine

open Sys2Proof

theorem toNat_ofNat_word {n : Nat} (hn : n < 2 ^ 32) : (BitVec.ofNat 32 n).toNat = n :=
  (BitVec.toNat_ofNat n 32).trans (Nat.mod_eq_of_lt hn)

/-! ### The record and the dispatch (R132, R133) -/

section Entry
variable {s t : State} {n : Nat}

theorem irqAfter_goto (q : Pos) : irqAfter n (s.goto q) = irqAfter n s := by
  simp only [irqAfter, State.goto_cfg, goOn_goto, done_goto]

/-- Once Irq(n) is recorded, any source but the DMA controller's has been dispatched. -/
theorem irqEntry_other (hn : n ≠ s.cfg.dmaIrqSource) :
    exec (.irqEntry 0) (s.goto (.irqEmit n)) = irqAfter n (s.emit (.irq n)) := by
  simp only [exec, execIrqEntry, guardZero_zero, State.goto_pos]
  exact (if_neg hn).trans (irqAfter_goto (s := s.emit _) _)

theorem irqEntry_dma (hn : n = s.cfg.dmaIrqSource) :
    exec (.irqEntry 0) (s.goto (.irqEmit n)) = .next ((s.emit (.irq n)).goto (.irqUpdate n .enter)) := by
  simp only [exec, execIrqEntry, guardZero_zero, State.goto_pos]
  exact (if_pos hn).trans (goOn_goto (s := s.emit _) _)

/-- A step of the UPDATE that IRQ_ENTRY runs. -/
theorem irqEntry_update {w : Who} (u : UpdatePos) (hw : w = s.who (.irqEntry 0)) :
    exec (.irqEntry 0) (s.goto (.irqUpdate n u)) = runUpdate w u (.irqUpdate n) (fun _ => irqAfter n) s := by
  simp only [exec, execIrqEntry, guardZero_zero, State.goto_pos, State.goto_who, ← hw]
  exact runUpdate_goto fun _ _ => irqAfter_goto _

/-- The UPDATE that IRQ_ENTRY runs services every channel, where it finds an event. -/
theorem irqEntry_services {v : State} (hu : s.drvUsable = true) (hm : s.mgr.present = true) (hg : s.gstatus ≠ 0)
    (hnum : s.drvNumCh.toNat ≤ s.cfg.numCh) (hret : s.CallbacksReturn)
    (hk : irqAfter n ((s.sawRead .gstatus s.gstatus).serviceAll s.drvNumCh.toNat) = .next v) :
    ∃ k, runOp (.irqEntry 0) k (s.goto (.irqUpdate n .enter)) = .next v := by
  have hends := ends_enter (w := s.who (.irqEntry 0)) rfl hu hm hg hnum hret
  obtain ⟨k, a, ha, hrun⟩ := hends.run (i := .irqEntry 0) (q := .irqUpdate n) (k := fun _ => irqAfter n)
    (fun u t ht => irqEntry_update u (congrArg (Who.mk · _) ht)) hk
  cases ha
  exact ⟨k, hrun⟩

/-- Where the DMA line fell, UPDATE returns after its status read. -/
theorem irqEntry_quiet {v : State} (hu : s.drvUsable = true) (hm : s.mgr.present = true) (hg : s.gstatus = 0)
    (hk : irqAfter n (s.sawRead .gstatus 0) = .next v) :
    runOp (.irqEntry 0) 2 (s.goto (.irqUpdate n .enter)) = .next v := by
  have henter := (irqEntry_update (n := n) (s := s) .enter rfl).trans (runUpdate_go (updateStep_enter hu hm))
  have hstatus := updateStep_gstatus (w := s.who (.irqEntry 0)) (s := s) rfl
  rw [if_pos hg, hg] at hstatus
  exact runOp_cons henter (runOp_one ((irqEntry_update .gstatus rfl).trans ((runUpdate_fin hstatus).trans hk)))

end Entry

/-! ### What the service of the channels leaves alone -/

theorem serviceAll_served (s : State) (n : Nat) : s.Served (s.serviceAll n) := by
  induction n with
  | zero => exact .self
  | succ n ih =>
    rw [State.serviceAll, List.range_succ, List.foldl_append]
    exact ih.trans (serviceChan_served _ _)

theorem State.Served.src {s t : State} (h : s.Served t) (n : Nat) : t.src n = s.src n := by
  obtain ⟨_, _, _, _, _, rfl⟩ := h.frame; rfl

/-! ### The banked controller: the claim and the complete (R113, R114) -/

section Banked
variable {s : State} {n : Nat} (hv : s.cfg.variant = .banked)
include hv

theorem irqAfter_banked : irqAfter n s = .next (s.goto (.irqComplete n)) := by
  simp only [irqAfter, hv]
  rfl

theorem irqEntry_noClaim (hp : s.pos = .start) (h : s.claimable = none) :
    exec (.irqEntry 0) s = .next ((s.sawRead .claim 0).ret .unit) := by
  simp only [exec, execIrqEntry, guardZero_zero, hp, irqFirst, hv]
  exact readStep_claim_none hv h

theorem irqEntry_claim (hp : s.pos = .start) (h : s.claimable = some n) (hn : n < 2 ^ 32) :
    exec (.irqEntry 0) s =
      .next (((s.claimed n).sawRead .claim (BitVec.ofNat 32 n)).goto (.irqEmit n)) := by
  have hword : (BitVec.ofNat 32 n).toNat = n := toNat_ofNat_word hn
  have h0 : BitVec.ofNat 32 n ≠ 0 := fun h0 => by
    rw [h0] at hword
    exact (mem_sourceIds.1 (claimPick_elig h).1).2 hword.symm
  simp only [exec, execIrqEntry, guardZero_zero, hp, irqFirst, hv]
  rw [readStep_claim_some hv h, if_neg h0, hword]
  rfl

theorem irqEntry_complete (hp : s.pos = .irqComplete n) (h0 : n ≠ 0) (hn : n < s.cfg.numSources) (hlt : n < 2 ^ 32)
    (hi : (s.src n).inService = true) :
    exec (.irqEntry 0) s = .next (((s.sawWrite .claim (BitVec.ofNat 32 n)).setSrc n
      { (s.src n) with inService := false }).ret .unit) := by
  simp only [exec, execIrqEntry, guardZero_zero, hp]
  exact writeStep_ok (check_banked hv).2 (writeReg_claim (s := s.sawWrite _ _) (toNat_ofNat_word hlt) h0 hn hi)

/-- The complete of a source that a claim of `s` took, in a state with the parameters of `s`. -/
theorem irqEntry_completes {u : State} (h : s.claimable = some n) (hlt : n < 2 ^ 32) (hcfg : u.cfg = s.cfg)
    (hsrc : u.src n = { (s.src n) with pending := false, inService := true }) :
    exec (.irqEntry 0) (u.goto (.irqComplete n)) = .next (((u.sawWrite .claim (BitVec.ofNat 32 n)).setSrc n
      { (s.src n) with pending := false, inService := false }).ret .unit) := by
  obtain ⟨hn, h0⟩ := mem_sourceIds.1 (claimPick_elig h).1
  have hstep := irqEntry_complete (s := u.goto (.irqComplete n)) (by rwa [State.goto_cfg, hcfg]) (State.goto_pos _ _) h0
    (by rwa [State.goto_cfg, hcfg]) hlt (by rw [State.goto_src, hsrc])
  rwa [sawWrite_goto, State.goto_setSrc, State.ret_goto, State.goto_src, hsrc] at hstep

end Banked

/-- Settles O50: the claim, the record, the dispatch by its source, and the complete, of a source that nothing between
them touches. -/
theorem irqEntryBankedRun : Obligations.IrqEntryBankedRun := by
  unfold Obligations.IrqEntryBankedRun
  intro s hv
  refine ⟨irqEntry_noClaim hv, fun n hp h0 hn hlt hi => irqEntry_complete hv hp h0 hn hlt hi, ?_⟩
  intro n t hp h hlt hlen ht
  have hclaim := irqEntry_claim hv hp h hlt
  have hrecord : ((s.claimed n).sawRead .claim (BitVec.ofNat 32 n)).emit (.irq n) = t := ht.symm
  generalize (s.claimed n).sawRead .claim (BitVec.ofNat 32 n) = u at hclaim hrecord
  have hsrc : t.src n = { (s.src n) with pending := false, inService := true } := by
    rw [ht]
    exact s.setSrc_src_same _ hlen
  have hcfg : t.cfg = s.cfg := by rw [ht]; rfl
  have hucfg : u.cfg = s.cfg := by rw [← hcfg, ← hrecord]; rfl
  have hbanked : t.cfg.variant = .banked := by rw [hcfg, hv]
  have hother (hne : n ≠ s.cfg.dmaIrqSource) :
      exec (.irqEntry 0) (u.goto (.irqEmit n)) = .next (t.goto (.irqComplete n)) := by
    rw [irqEntry_other (hucfg ▸ hne), hrecord, irqAfter_banked hbanked]
  have hdma (he : n = s.cfg.dmaIrqSource) :
      exec (.irqEntry 0) (u.goto (.irqEmit n)) = .next (t.goto (.irqUpdate n .enter)) := by
    rw [irqEntry_dma (hucfg ▸ he), hrecord]
  refine ⟨fun hne => ?_, fun he husable hpresent hg hnum hret => ?_, fun he husable hpresent hg => ?_⟩
  · exact runOp_cons hclaim (runOp_cons (hother hne) (runOp_one (irqEntry_completes hv h hlt hcfg hsrc)))
  · have hserved : t.Served ((t.sawRead .gstatus s.gstatus).serviceAll s.drvNumCh.toNat) :=
      (emit_served t _).trans (serviceAll_served _ _)
    have hcomplete := irqEntry_completes hv h hlt (hserved.cfg.trans hcfg) ((hserved.src n).trans hsrc)
    have hupdate : ∃ k, runOp (.irqEntry 0) k (t.goto (.irqUpdate n .enter)) =
        .next (((t.sawRead .gstatus s.gstatus).serviceAll s.drvNumCh.toNat).goto (.irqComplete n)) := by
      have hafter := irqAfter_banked (n := n) (by rw [hserved.cfg, hbanked])
      subst ht
      exact irqEntry_services husable hpresent hg hnum hret hafter
    obtain ⟨k, hk⟩ := hupdate
    exact ⟨_, runOp_cons hclaim (runOp_cons (hdma he) (runOp_trans hk (runOp_one hcomplete)))⟩
  · have hafter := irqAfter_banked (n := n) (s := t.sawRead .gstatus 0) hbanked
    have hupdate : runOp (.irqEntry 0) 2 (t.goto (.irqUpdate n .enter)) =
        .next ((t.sawRead .gstatus 0).goto (.irqComplete n)) := by
      subst ht
      exact irqEntry_quiet husable hpresent hg hafter
    exact runOp_cons hclaim (runOp_cons (hdma he)
      (runOp_trans hupdate (runOp_one (irqEntry_completes hv h hlt hcfg hsrc))))

/-! ### The built-in controller: the two CSR reads (R125, R133) -/

theorem lowestBit_none_iff {x : Word} : lowestBit x = none ↔ ∀ k < 32, x.getLsbD k = false := by
  simp only [lowestBit, List.find?_range_eq_none, Bool.not_eq_true']

theorem lowestBit_some {x : Word} {n : Nat} (hn : n < 32) (h : x.getLsbD n = true)
    (hlow : ∀ k < n, x.getLsbD k = false) :
    lowestBit x = some n := by
  rw [lowestBit, List.find?_range_eq_some]
  exact ⟨h, List.mem_range.2 hn, fun k hk => by rw [hlow k hk]; rfl⟩

section BuiltIn
variable {s : State} {n : Nat} {x : Word} (hv : s.cfg.variant = .builtIn)
include hv

theorem irqAfter_builtIn : irqAfter n s = .next (s.ret .unit) := by
  simp only [irqAfter, hv]
  rfl

theorem irqEntry_readPending (hne : s.cfg.csrIrqMask ≠ s.cfg.csrIrqPending) (hp : s.pos = .start) :
    exec (.irqEntry 0) s = .next (s.goto (.irqReadMask s.pendWord)) := by
  simp only [exec, execIrqEntry, guardZero_zero, hp, irqFirst, hv, csrRead_pending hv hne]
  rfl

theorem irqEntry_noLine (hp : s.pos = .irqReadMask x) (h : lowestBit (x &&& s.icMask) = none) :
    exec (.irqEntry 0) s = .next (s.ret .unit) := by
  simp only [exec, execIrqEntry, guardZero_zero, hp, csrRead_mask hv, orFault, h]
  rfl

theorem irqEntry_line (hp : s.pos = .irqReadMask x) (h : lowestBit (x &&& s.icMask) = some n) :
    exec (.irqEntry 0) s = .next (s.goto (.irqEmit n)) := by
  simp only [exec, execIrqEntry, guardZero_zero, hp, csrRead_mask hv, orFault, h]
  rfl

end BuiltIn

/-- A line is taken where it is high and unmasked. -/
theorem pendMask_getLsbD (s : State) {k : Nat} (hk : k < 32) :
    (s.pendWord &&& s.icMask).getLsbD k = (s.lineLevel k && s.icMask.getLsbD k) := by
  rw [BitVec.getLsbD_and, pendWord_getLsbD s hk]

/-- A line that is masked wherever it is high is not taken. -/
theorem pendMask_masked {s : State} {k : Nat} (hk : k < 32) (h : s.lineLevel k = true → s.icMask.getLsbD k = false) :
    (s.pendWord &&& s.icMask).getLsbD k = false := by
  rw [pendMask_getLsbD s hk]
  cases hl : s.lineLevel k with
  | true => rw [h hl]; rfl
  | false => rfl

/-- Settles O51: the two reads, the lowest bit of both, the record and the dispatch. -/
theorem irqEntryBuiltInRun : Obligations.IrqEntryBuiltInRun := by
  unfold Obligations.IrqEntryBuiltInRun
  intro s hv hne
  refine ⟨fun x hp hx => ?_, fun hp hall => ?_, fun n hp hn hl hm hlow => ?_⟩
  · refine irqEntry_noLine hv hp (lowestBit_none_iff.2 fun k _ => ?_)
    rw [hx]
    exact BitVec.getLsbD_zero
  · have hnone := lowestBit_none_iff.2 fun k hk => pendMask_masked hk (hall k hk)
    have hstep := irqEntry_noLine (s := s.goto _) hv (State.goto_pos _ _) hnone
    rw [State.ret_goto] at hstep
    exact runOp_cons (irqEntry_readPending hv hne hp) (runOp_one hstep)
  · have hbit : (s.pendWord &&& s.icMask).getLsbD n = true := by rw [pendMask_getLsbD s hn, hl, hm]; rfl
    have hlowest := lowestBit_some hn hbit fun k hk => pendMask_masked (hk.trans hn) (hlow k hk)
    have hstep := irqEntry_line (s := s.goto _) hv (State.goto_pos _ _) hlowest
    rw [State.goto_goto] at hstep
    have hread := irqEntry_readPending hv hne hp
    refine ⟨fun hother => ?_, fun hdma husable hpresent hnum hret => ?_⟩
    · exact runOp_cons hread (runOp_cons hstep
        (runOp_one ((irqEntry_other hother).trans (irqAfter_builtIn (s := s.emit _) hv))))
    · have hg : s.gstatus ≠ 0 := (dmaIrq_iff s).1 (by rw [← lineLevel_dma, ← hdma, hl])
      obtain ⟨k, hk⟩ := irqEntry_services (s := s.emit (.irq n)) husable hpresent hg hnum hret
        (irqAfter_builtIn (by rw [(serviceAll_served _ _).cfg]; exact hv))
      exact ⟨_, runOp_cons hread (runOp_cons hstep (runOp_cons (irqEntry_dma hdma) hk))⟩

end Sys2Proof.Machine
end

section
/-! PROOFS. What reset leaves (R147): the channels, the sources and the lines one by one, and the levels that follow from
them. -/

namespace Sys2Proof.Machine

open Sys2Proof

section ResetValues
variable (p : Params) (r : ResetDraws)

/-! ### The entries of the tables (R23 to R26, R31) -/

theorem resetWith_chan {ch : Nat} (h : ch < p.numCh) : (State.resetWith p r).chan ch = Chan.afterReset r ch := by
  simp [State.chan, State.resetWith, h]

theorem resetWith_src {n : Nat} (h : n < p.numSources) : (State.resetWith p r).src n = Source.afterReset p r n := by
  simp [State.src, State.resetWith, h]

/-- No source is pending or in service, also at a number that names none. -/
theorem resetWith_src_quiet (n : Nat) :
    ((State.resetWith p r).src n).pending = false ∧ ((State.resetWith p r).src n).inService = false := by
  by_cases h : n < p.numSources
  · rw [resetWith_src p r h]
    exact ⟨rfl, rfl⟩
  · have hdefault : (State.resetWith p r).src n = default := by
      simp [State.src, State.resetWith, Nat.le_of_not_lt h]
    rw [hdefault]
    exact ⟨rfl, rfl⟩

theorem resetWith_src_prio_le (n : Nat) : ((State.resetWith p r).src n).prio ≤ p.priorityLevels :=
  ((resetWith_sourcesLawful p r).src n).2

theorem resetWith_src_en {n : Nat} (h0 : n ≠ 0) (h : n < p.numSources) :
    ((State.resetWith p r).src n).en = r.en n := by
  simp [resetWith_src p r h, Source.afterReset, h0]

/-- A drawn priority in range is taken as it is. -/
theorem resetWith_src_prio {n : Nat} (h0 : n ≠ 0) (h : n < p.numSources) (hle : r.prio n ≤ p.priorityLevels) :
    ((State.resetWith p r).src n).prio = r.prio n := by
  rw [resetWith_src p r h]
  exact if_pos ⟨h0, hle⟩

/-! ### The lines and the CPU's request (R27, R33, R82, R112, R138) -/

/-- The global mask is 0, so no channel's event gets through. -/
theorem resetWith_dmaIrq : (State.resetWith p r).dmaIrq = false := by
  rw [Bool.eq_false_iff, Ne, dmaIrq_iff_event]
  rintro ⟨ch, -, hmask, -⟩
  have hzero : (State.resetWith p r).gmask.getLsbD ch = false := BitVec.getLsbD_zero
  exact Bool.false_ne_true (hzero.symm.trans hmask)

theorem resetWith_gstatus : (State.resetWith p r).gstatus = 0 := by
  by_contra h
  exact Bool.false_ne_true ((resetWith_dmaIrq p r).symm.trans ((dmaIrq_iff _).2 h))

theorem resetWith_lineLevel {n : Nat} (h : n < p.numSources) :
    (State.resetWith p r).lineLevel n = if n = p.dmaIrqSource then false else r.line n := by
  split
  next hd =>
    subst hd
    exact (lineLevel_dma _).trans (resetWith_dmaIrq p r)
  next hd =>
    rw [lineLevel_env (s := State.resetWith p r) hd]
    simp [State.resetWith, h]

/-- No source is pending, so the banked controller requests nothing. -/
theorem resetWith_eip_banked (hv : p.variant = .banked) : (State.resetWith p r).eip = false := by
  rw [Bool.eq_false_iff, Ne, eip_banked_iff (s := State.resetWith p r) hv]
  rintro ⟨n, -, -, hpending, -⟩
  exact Bool.false_ne_true ((resetWith_src_quiet p r n).1.symm.trans hpending)

/-- On either variant no interrupt is taken: the CPU's enable is off. -/
theorem resetWith_irqEnabled : (State.resetWith p r).irqEnabled = false := by
  rw [Bool.eq_false_iff, Ne, irqEnabled_iff]
  rintro ⟨-, hie, -⟩
  exact Bool.false_ne_true hie

/-! ### The stream data slots (R20, log entry 32) -/

/-- A slot of bits `n` to 0 holds those bits of the value drawn for it. -/
theorem and_lowMask_succ_getLsbD (d : Word) (n : Nat) {k : Nat} (hk : k < 32) :
    (d &&& lowMask (n + 1)).getLsbD k = (decide (k ≤ n) && d.getLsbD k) := by
  rw [and_lowMask_getLsbD d (n + 1) hk, decide_eq_decide.2 Nat.lt_succ_iff]

end ResetValues

/-- Settles O58: the tables entry by entry, the levels they give, and every other field as reset writes it. -/
theorem resetValues : Obligations.ResetValues := by
  unfold Obligations.ResetValues
  rintro p r _ rfl
  obtain ⟨hchans, hsrcs, -, -⟩ := resetWith_sized p r
  have hslots : (∀ k < 32, (r.epData 0 &&& p.inMask).getLsbD k = (decide (k ≤ p.sw) && (r.epData 0).getLsbD k)) ∧
      ∀ k < 32, (r.epData 1 &&& p.outMask).getLsbD k = (decide (k ≤ p.sw + p.cw) && (r.epData 1).getLsbD k) :=
    ⟨fun _ hk => and_lowMask_succ_getLsbD _ _ hk, fun _ hk => and_lowMask_succ_getLsbD _ _ hk⟩
  exact ⟨rfl, ⟨rfl, rfl, rfl, rfl, hslots⟩, rfl, resetWith_gstatus p r, resetWith_dmaIrq p r, hchans,
    fun _ hch => resetWith_chan p r hch, rfl, rfl, rfl, rfl, fun _ => rfl, hsrcs,
    fun n => ⟨(resetWith_src_quiet p r n).1, (resetWith_src_quiet p r n).2, resetWith_src_prio_le p r n⟩,
    fun _ h0 hn => ⟨resetWith_src_en p r h0 hn, resetWith_src_prio p r h0 hn⟩,
    fun _ hn => resetWith_lineLevel p r hn, fun _ hk => pendWord_getLsbD _ hk, resetWith_eip_banked p r, rfl, rfl,
    rfl, rfl, resetWith_irqEnabled p r, rfl, rfl, rfl, fun _ => rfl⟩

end Sys2Proof.Machine
end
